-- ==== Sys2Proof/Word.lean ====
section
/-! DEFINITION. The word types of the codec block (00_scope.md R6, R7, R8): bytes, register words and bit strings. -/

namespace Sys2Proof

/-- A byte: 8 bits, bit 7 the most significant (00_scope.md R7). A symbol is one byte (R6). -/
abbrev Byte := BitVec 8

/-- A register of the host window, a count, a weight or a code value: 32 bits (00_scope.md R6). -/
abbrev Word := BitVec 32

/-- A bit string in stream order: the first element is the first bit written and read (00_scope.md R8). -/
abbrev Bits := List Bool

/-- A node id of a tree store: 9 bits, 0..510 in use (10_state.md R28, R31). -/
abbrev NodeId := BitVec 9

end Sys2Proof
end

