-- ==== Sys2Proof/Syntax.lean ====
section
/-! DEFINITION. The commands of the block: one constructor per row of spec/opcode_table.json (30_encoding.md R92). -/

namespace Sys2Proof

/-- The thirteen commands (30_encoding.md R92). Operands other than `N` are not in the command word:
they are `REG[ARG]` as it stands when `CMD` is written (R90, R91). -/
inductive Instr where
  /-- `NOP` (44_system.md R230). -/
  | nop
  /-- `CLEAR` (44_system.md R231). -/
  | clear
  /-- `ENCODE` (42_encoder.md R171). -/
  | encode
  /-- `COMPRESS` (42_encoder.md R180). -/
  | compress
  /-- `DECOMPRESS` (43_decoder.md R211). -/
  | decompress
  /-- `BW.OPEN` (40_bitwriter.md R131). -/
  | bwOpen
  /-- `BW.WBITS value, n` with `n = CMD[13:8]` (40_bitwriter.md R132). -/
  | bwWbits (n : BitVec 6)
  /-- `BW.WBYTE b` (40_bitwriter.md R133). -/
  | bwWbyte
  /-- `BW.CLOSE` (40_bitwriter.md R134). -/
  | bwClose
  /-- `BR.OPEN` (41_bitreader.md R151). -/
  | brOpen
  /-- `BR.RBIT` (41_bitreader.md R153). -/
  | brRbit
  /-- `BR.RBYTE8` (41_bitreader.md R154). -/
  | brRbyte8
  /-- `BR.CLOSE` (41_bitreader.md R156). -/
  | brClose
  deriving DecidableEq, Repr

end Sys2Proof
end

