-- ==== Sys2Proof/WellFormed.lean ====
section
/-! DEFINITION. Which commands are well formed: the operand check of 30_encoding.md R93 step 2. -/

namespace Sys2Proof

/-- A command is well formed when its bit count lies in 0..32 (30_encoding.md R90, R93; 40_bitwriter.md R132).
The other two operand checks (`RSV = 0`, `N = 0`) are about words and are made by the decoder. -/
def Instr.wf : Instr → Bool
  | .bwWbits n => n.toNat ≤ 32
  | .nop | .clear | .encode | .compress | .decompress => true
  | .bwOpen | .bwWbyte | .bwClose => true
  | .brOpen | .brRbit | .brRbyte8 | .brClose => true

end Sys2Proof
end

