-- ==== Sys2Proof/Decode.lean ====
section
/-! DEFINITION. Decoding and encoding of command words (30_encoding.md R90 to R93). -/

namespace Sys2Proof

/-- What a command word says: a command, or one of the two rejections of 30_encoding.md R93, by name. -/
inductive Decoded where
  /-- A command whose operand checks passed. -/
  | command (i : Instr)
  /-- R93 step 1: `OPC` is none of the thirteen values. -/
  | illegalCmd
  /-- R93 step 2: `RSV != 0`, `N != 0` in a command without a bit count, or `N > 32`. -/
  | illegalOperand
  deriving DecidableEq, Repr

/-- `OPC = CMD[7:0]` (30_encoding.md R90). -/
def opcField (w : Word) : BitVec 8 := w.extractLsb' 0 8

/-- `N = CMD[13:8]` (30_encoding.md R90). -/
def nField (w : Word) : BitVec 6 := w.extractLsb' 8 6

/-- `RSV = CMD[31:14]` (30_encoding.md R90). -/
def rsvField (w : Word) : BitVec 18 := w.extractLsb' 14 18

/-- The opcode map of 30_encoding.md R92, read from the number to the command. -/
def instrOfOpcode (opc : BitVec 8) (n : BitVec 6) : Option Instr :=
  match opc.toNat with
  | 0x00 => some .nop
  | 0x01 => some .clear
  | 0x10 => some .encode
  | 0x11 => some .compress
  | 0x12 => some .decompress
  | 0x20 => some .bwOpen
  | 0x21 => some (.bwWbits n)
  | 0x22 => some .bwWbyte
  | 0x23 => some .bwClose
  | 0x30 => some .brOpen
  | 0x31 => some .brRbit
  | 0x32 => some .brRbyte8
  | 0x33 => some .brClose
  | _ => none

/-- The `N` field a command carries: its bit count, or 0 (30_encoding.md R90). -/
def countOperand : Instr → BitVec 6
  | .bwWbits n => n
  | .nop | .clear | .encode | .compress | .decompress => 0
  | .bwOpen | .bwWbyte | .bwClose => 0
  | .brOpen | .brRbit | .brRbyte8 | .brClose => 0

/-- Decoding of a command word, the checks in the order of 30_encoding.md R93 steps 1 and 2. -/
def decode (w : Word) : Decoded :=
  match instrOfOpcode (opcField w) (nField w) with
  | none => .illegalCmd
  | some i =>
    if rsvField w = 0 ∧ nField w = countOperand i ∧ i.wf = true then .command i
    else .illegalOperand

/-- The instruction that the low `nbits` bits of `w` encode, the bits above being 0: the table's rows are
32-bit words (30_encoding.md R90), numbered as the command word is. -/
def decodeTableWord (nbits w : Nat) : Option Instr :=
  match decode (BitVec.ofNat 32 (w % 2 ^ nbits)) with
  | .command i => some i
  | .illegalCmd => none
  | .illegalOperand => none

/-- The opcode of a command (30_encoding.md R92). -/
def opcodeOf : Instr → BitVec 8
  | .nop => 0x00
  | .clear => 0x01
  | .encode => 0x10
  | .compress => 0x11
  | .decompress => 0x12
  | .bwOpen => 0x20
  | .bwWbits _ => 0x21
  | .bwWbyte => 0x22
  | .bwClose => 0x23
  | .brOpen => 0x30
  | .brRbit => 0x31
  | .brRbyte8 => 0x32
  | .brClose => 0x33

/-- The command word of a command: `RSV = 0`, then `N`, then `OPC` (30_encoding.md R90, R92). -/
def encode (i : Instr) : Word :=
  (0 : BitVec 18) ++ countOperand i ++ opcodeOf i

end Sys2Proof
end

