-- ==== Sys2Proof/Machine/Bits.lean ====
section
/-! DEFINITION. Bit strings and bytes: `msb`, `num`, `pack`, `unpack`, `zeros` of 00_scope.md R8, and writing one bit of a byte. -/

namespace Sys2Proof.Machine

/-- `msb(v, n)`: the low `n` bits of `v`, most significant first (00_scope.md R8). -/
def msb {w : Nat} (v : BitVec w) : Nat → Bits
  | 0 => []
  | n + 1 => v.getLsbD n :: msb v n

/-- `num(s)`: the number whose binary digits are `s`, first bit most significant (00_scope.md R8). -/
def num (s : Bits) : Nat :=
  s.foldl (fun acc b => 2 * acc + b.toNat) 0

/-- `zeros(k)` (00_scope.md R8). -/
def zeros (k : Nat) : Bits := List.replicate k false

/-- `pack(s)` for a whole number of bytes: the first bit of each eight is bit 7 (00_scope.md R8). -/
def pack : Bits → List Byte
  | b7 :: b6 :: b5 :: b4 :: b3 :: b2 :: b1 :: b0 :: rest =>
    BitVec.ofNat 8 (num [b7, b6, b5, b4, b3, b2, b1, b0]) :: pack rest
  | _ => []

/-- `unpack(B)`, the inverse of `pack` (00_scope.md R8). -/
def unpack : List Byte → Bits
  | [] => []
  | b :: rest => msb b 8 ++ unpack rest

/-- `x[k] <- v` for one bit of a byte. -/
def putBit (x : Byte) (k : Nat) (v : Bool) : Byte :=
  if v then x ||| (1#8 <<< k) else x &&& ~~~(1#8 <<< k)

end Sys2Proof.Machine
end

