-- ==== Sys2Proof/Config.lean ====
section
/-! DEFINITION. What an implementation fixes (00_scope.md R6) and the free values of the model.
A free value is an opaque constant without a body, so no proof can rest on what it is. -/

namespace Sys2Proof.Config

/-- `NSYM_MAX`: the size of the alphabet (00_scope.md R6). -/
def nsymMax : Nat := 256

/-- `NODE_MAX`: the entries of each tree node store (00_scope.md R6). -/
def nodeMax : Nat := 511

/-- `CODE_MAX`: the longest codeword in bits (00_scope.md R6). -/
def codeMax : Nat := 32

/-- `HDR_MAX_BITS`: the capacity of the header buffer in bits, 256 leaves of 9 bits and 255 internal nodes of one
(00_scope.md R6; 10_state.md R30; 30_encoding.md R100). -/
def hdrMaxBits : Nat := 2559

/-- `LEN_MAX`: the longest source in bytes (00_scope.md R6; 70_reset_and_hazards.md R293). -/
def lenMax : Nat := 2 ^ 32 - 1

/-- The bytes of the register window (20_memory.md R60). -/
def windowBytes : Nat := 256

/-- The key of a node of the Huffman construction (42_encoder.md R175). -/
structure NodeKey where
  weight : Nat
  depth : Nat
  id : Nat
  deriving DecidableEq, Repr

/-- `TIE_RULE`: the order among nodes equal in weight and depth, and which of the two extracted nodes becomes the left child
(00_scope.md R6; 10_state.md R36; decisions D4, D5), as plain data (log entry 10). The default is the spec's: by node id, the
first extracted node is the left child. Every value is admissible: none can touch the order of weights and depths. -/
structure TieRule where
  /-- The nodes that come first in a tie, in this order; nodes not listed follow them, by id (42_encoder.md R175). -/
  order : List NodeKey := []
  /-- The pairs of nodes, first and second extracted, of which the second becomes the left child (42_encoder.md R176). -/
  secondLeft : List (NodeKey × NodeKey) := []
  deriving DecidableEq, Repr

/-- The parameters of the step relation that the spec leaves OPEN (00_scope.md R6; 10_state.md R36).
They are carried in State and no step changes them (log entry 3).
DESIGN CHOICE: the value 0 of `regBase`, for which the spec gives no default; unsafe. -/
structure Params where
  /-- `BUF_BYTES`: the size of each byte buffer, at least 2, default 32768 (R6, decision D2). -/
  bufBytes : Nat := 32768
  /-- `REG_BASE`: where the register window stands, a multiple of 256 (R6, decision D8). -/
  regBase : Nat := 0
  /-- `TIE_RULE`: the order in a tie and the choice of the left child (R6, decisions D4, D5). -/
  tie : TieRule := {}
  deriving DecidableEq, Repr

/-- The parameters have the values R6 allows: `BUF_BYTES >= 2`, `REG_BASE` a multiple of 256; every `TIE_RULE` is
admissible (R175, R176). -/
abbrev Params.wf (p : Params) : Prop := 2 ≤ p.bufBytes ∧ p.regBase % 256 = 0

/-- FREE VALUE: how many bytes of its burst a failed `DstWrite` delivers, the `n`-th time the model
needs a free value (20_memory.md R66 "unspecified prefix"; log entry 5; safe). -/
opaque failedWriteDelivers : Nat → Nat

/-- FREE VALUE: a byte that `SrcRead` returns at an offset outside the source, which can only be asked
for when the host replaced the source while a direct reader held it (10_state.md R35; log entry 11; safe). -/
opaque byteOutsideSource : Nat → Byte

/-- FREE VALUE: what a slot of `BR.buf` holds that no refill has filled (10_state.md R37, R38;
93_implementation_defined.md V5; log entry 8; safe). -/
opaque unfilledSlot : Nat → Byte

/-- FREE VALUE: how far an operation had come when a hardware reset struck it, as a count
(70_reset_and_hazards.md R280; 93_implementation_defined.md V6; log entry 14; safe). -/
opaque resetStrikesAfter : Nat → Nat

/-- FREE VALUE: whether a hardware reset struck an operation before it opened the destination
(70_reset_and_hazards.md R280; 93_implementation_defined.md V6; log entry 14; safe). -/
opaque resetStrikesBeforeOpen : Nat → Bool

end Sys2Proof.Config
end

