-- ==== Sys2Proof/Machine/State.lean ====
section
/-! DEFINITION. The state of the block and of its environment as plain data (10_state.md R20 to R38),
what stops a step, and the state after reset. -/

namespace Sys2Proof.Machine

/-- The values of `STATUS.CODE` that occur (10_state.md R24; 30_encoding.md R94). -/
inductive Code where
  | ok
  | fileOpenErr
  | sourceErr
  | dstErr
  | decodeFault
  | usageFault
  deriving DecidableEq, Repr

/-- The values of `CAUSE` that occur, in the order of their numbers (30_encoding.md R95). -/
inductive Cause where
  | none
  | srcOpenFail
  | fewSymbols
  | codeTooLong
  | dstOpenFail
  | dstWriteFail
  | hdrTrunc
  | hdrRootLeaf
  | hdrTooLarge
  | payloadTrunc
  | illegalCmd
  | illegalOperand
  | seq
  | bwUnaligned
  | brEos
  | srcChanged
  | padMismatch
  deriving DecidableEq, Repr

/-- What `raise <Status>(<Cause>)` reports (00_scope.md R9). -/
structure Raise where
  code : Code
  cause : Cause
  deriving DecidableEq, Repr

/-- Where a condition was met, which decides the clean-up (60_exceptions.md R262 (a) to (d)). -/
inductive Site where
  /-- (a) at command decode: the checks of 30_encoding.md R93. -/
  | decode
  /-- (b) in a host-issued writer operation. -/
  | writer
  /-- (c) in a host-issued reader operation. -/
  | reader
  /-- (d) in a composite command that got past its precondition. -/
  | composite
  deriving DecidableEq, Repr

/-- The registers of the host window (10_state.md R21); `reserved` is every other offset. -/
inductive Reg where
  | cmd | arg | status | cause | result | srcLen | dstLen | hdrBits | encPad | nsym | total
  | remainLo | remainHi | symSel | symCount | symCode | symLen | bwFree | decPad | reserved
  deriving DecidableEq, Repr

/-- The general registers and the lengths the ports report (10_state.md R21, R23). -/
structure Regs where
  /-- `ARG`, written by the host only (R23). -/
  arg : Word := 0
  /-- `RESULT`, written by `BR.RBIT` and `BR.RBYTE8` only (R23). -/
  result : Word := 0
  /-- `SYM_SEL`, written by the host only (R23). -/
  symSel : Byte := 0
  /-- `SRC_LEN`, the length the last successful `SrcOpen` reported (R21). -/
  srcLen : Word := 0
  /-- `DST_LEN`, bytes delivered by successful bursts since `DstOpen`, modulo 2^32 (R21). -/
  dstLen : Word := 0
  deriving DecidableEq, Repr

/-- The own fields of `STATUS`, and `CAUSE` (10_state.md R24, R25). `BW_OPEN` and `BR_OPEN` are views of the units. -/
structure Status where
  code : Code := .ok
  busy : Bool := false
  encValid : Bool := false
  sticky : Bool := false
  cause : Cause := .none
  deriving DecidableEq, Repr

/-- A record of the symbol table (10_state.md R27). -/
structure SymRec where
  count : Word := 0
  code : Word := 0
  len : BitVec 6 := 0
  deriving DecidableEq, Repr

/-- An entry of the encoder's node store (10_state.md R28). `sym` is valid at leaves, `left` and `right` at internal nodes. -/
structure EtNode where
  leaf : Bool := false
  sym : Byte := 0
  weight : Word := 0
  depth : BitVec 8 := 0
  left : NodeId := 0
  right : NodeId := 0
  deriving DecidableEq, Repr

/-- An entry of the decoder's node store (10_state.md R31). `sym` is valid at leaves, `left` and `right` at internal nodes. -/
structure DtNode where
  leaf : Bool := false
  sym : Byte := 0
  left : NodeId := 0
  right : NodeId := 0
  deriving DecidableEq, Repr

/-- The encoder side: symbol table, node store, queue, header buffer and result registers (10_state.md R27 to R30).
The defaults are the reset values of R37; those of `et`, `etRoot` and `hdr`, which R37 leaves unspecified, are
DESIGN CHOICE (log entry 7; unsafe, though no rule reads them before writing them, R38). -/
structure Encoder where
  sym : Vector SymRec 256 := Vector.replicate 256 {}
  et : Vector EtNode 511 := Vector.replicate 511 {}
  etNext : NodeId := 256
  etRoot : NodeId := 0
  /-- `PQ`, the ids in order of extraction (R29 leaves its arrangement open; log entry 12). -/
  pq : List NodeId := []
  /-- `HDR`, of capacity `HDR_MAX_BITS` (R30): every step keeps it within that (`HeaderForm`). -/
  hdr : Bits := []
  hdrBits : BitVec 12 := 0
  encPad : BitVec 3 := 0
  nsym : BitVec 9 := 0
  total : Word := 0
  deriving DecidableEq, Repr

/-- The decoder's node store and padding length (10_state.md R31). The entries at reset are DESIGN CHOICE (log entry 7; unsafe). -/
structure Decoder where
  dt : Vector DtNode 511 := Vector.replicate 511 {}
  dtN : BitVec 10 := 0
  decPad : BitVec 3 := 0
  deriving DecidableEq, Repr

/-- The BitWriter (10_state.md R32). `buf` is the live prefix `BW.buf[0 .. BW.pos-1]`; `BW.pos` is its length (log entry 8). -/
structure BitWriter where
  isOpen : Bool := false
  buf : List Byte := []
  cur : Byte := 0
  free : BitVec 4 := 8
  deriving DecidableEq, Repr

/-- The BitReader (10_state.md R33). `buf` is the valid part `BR.buf[0 .. BR.fill-1]`; `BR.fill` is its length (log entry 8). -/
structure BitReader where
  isOpen : Bool := false
  buf : List Byte := []
  pos : Nat := 0
  bit : BitVec 3 := 0
  off : Word := 0
  remaining : BitVec 35 := 0
  deriving DecidableEq, Repr

/-- The environment behind the two ports (10_state.md R35). DESIGN CHOICE at reset: nothing behind SRC, an empty
creatable DST, no write verdict listed (log entry 6; unsafe). -/
structure Env where
  /-- `SRC`: absent, or its bytes; the address of a byte is its position. -/
  src : Option (List Byte) := none
  /-- `DST`: the bytes of the destination. -/
  dst : List Byte := []
  /-- What the next `DstOpen` answers (20_memory.md R65). -/
  dstCreatable : Bool := true
  /-- What the coming `DstWrite` bursts answer, the next one first; a burst beyond the list is accepted (log entry 4). -/
  verdicts : List Bool := []
  srcHeld : Bool := false
  dstHeld : Bool := false
  deriving DecidableEq, Repr

/-- One action of the host (70_reset_and_hazards.md R297, R298). -/
inductive HostAction where
  /-- A write of `bytes` bytes at `addr`; the value is that of a 32-bit access (20_memory.md R61). -/
  | write (addr bytes : Nat) (value : Word)
  /-- A read of `bytes` bytes at `addr` (20_memory.md R61; 44_system.md R232). -/
  | read (addr bytes : Nat)
  /-- Replace what stands behind SRC (10_state.md R35). -/
  | setSrc (src : Option (List Byte))
  /-- Replace the content of what stands behind DST (10_state.md R35; 70 R298). -/
  | setDst (content : List Byte)
  /-- Replace the creatability of DST and the write verdicts (10_state.md R35). -/
  | setVerdicts (creatable : Bool) (verdicts : List Bool)
  /-- Hardware reset between operations (70_reset_and_hazards.md R280). -/
  | reset
  /-- Write the command word `w` and assert hardware reset while its operation runs (70_reset_and_hazards.md R280). -/
  | issueThenReset (w : Word)
  deriving DecidableEq, Repr

/-- The whole state: the block, the environment and the host actions to come. -/
structure State where
  params : Config.Params := {}
  regs : Regs := {}
  status : Status := {}
  enc : Encoder := {}
  dec : Decoder := {}
  bw : BitWriter := {}
  br : BitReader := {}
  /-- `SCAN`: the bytes of its last burst (10_state.md R34). -/
  scan : List Byte := []
  env : Env := {}
  /-- The model's own: the host actions to come, the next one first (log entry 1). -/
  host : List HostAction := []
  /-- The model's own: the word the last register read put on the host's side (log entry 16). -/
  busData : Word := 0
  /-- The model's own: how many free values were used (log entry 5). -/
  freeCount : Nat := 0
  deriving DecidableEq, Repr

/-- What stops the machine for good. It has no constructor: 93_implementation_defined.md says that no behaviour
of this block is modelled as stuck, and every error of 60_exceptions.md ends an operation in a next state. -/
inductive Fault where
  deriving DecidableEq, Repr

/-- Why a step has no move. All but the first are a host outside its contract; none is raised by a command. -/
inductive Refusal where
  /-- An instruction without a meaning, rejected in its arm of `exec`; no arm of this model raises it. Safe. -/
  | notModelled (mnemonic : String)
  /-- Raised by a register access that is not an aligned 32-bit word: "a model refuses it" (20_memory.md R61; V3). Safe. -/
  | accessNotWord
  /-- Raised by an access outside the 256 bytes of the register window (20_memory.md R60, R61; log entry 15). Safe. -/
  | accessOutsideWindow
  /-- Raised by a host action other than reading `STATUS` or a reset while `BUSY = 1` (44_system.md R233; 70 R284; V4, V8). Safe. -/
  | hostWhileBusy
  /-- Raised by putting a source longer than `LEN_MAX` behind SRC (70_reset_and_hazards.md R293). Safe. -/
  | sourceTooLong
  deriving DecidableEq, Repr

/-- The machine right after hardware reset (10_state.md R37; 70_reset_and_hazards.md R280). -/
def State.reset : State := {}

end Sys2Proof.Machine
end

