-- ==== Sys2Proof/Machine/Ops.lean ====
section
/-! DEFINITION. The named operations over the state: updates of one part, results of unit operations, the port
transactions of 20_memory.md section 2 and 3, taking an error (60_exceptions.md R262), hardware reset (R280). -/

namespace Sys2Proof.Machine

/-! Updates of one part of the state. -/

def State.setRegs (s : State) (r : Regs) : State := { s with regs := r }
def State.setStatus (s : State) (x : Status) : State := { s with status := x }
def State.setEnc (s : State) (e : Encoder) : State := { s with enc := e }
def State.setDec (s : State) (d : Decoder) : State := { s with dec := d }
def State.setBw (s : State) (w : BitWriter) : State := { s with bw := w }
def State.setBr (s : State) (r : BitReader) : State := { s with br := r }
def State.setScan (s : State) (b : List Byte) : State := { s with scan := b }
def State.setEnv (s : State) (e : Env) : State := { s with env := e }
def State.setHost (s : State) (h : List HostAction) : State := { s with host := h }
def State.setBusData (s : State) (w : Word) : State := { s with busData := w }
def State.setFreeCount (s : State) (n : Nat) : State := { s with freeCount := n }

/-! Results of unit operations. -/

/-- What a step of a command answers: done with a value, or a `raise` that ends the command (00_scope.md R9). -/
inductive Result (α : Type) where
  | done (a : α) (s : State)
  | raised (e : Raise) (s : State)
  deriving DecidableEq, Repr

/-- "a `raise` inside it ends the composite command" (00_scope.md R9, `call`). -/
def Result.bind {α β : Type} (r : Result α) (f : α → State → Result β) : Result β :=
  match r with
  | .done a s => f a s
  | .raised e s => .raised e s

/-- The state an answer leaves, before any clean-up. -/
def Result.state {α : Type} : Result α → State
  | .done _ s => s
  | .raised _ s => s

/-! The SRC port (20_memory.md R62 to R64). -/

/-- `SrcOpen()`: the answer `ok`; on success `SRC_LEN` and `src_held` are set (R62). -/
def srcOpen (s : State) : Bool × State :=
  match s.env.src with
  | none => (false, s)
  | some bytes =>
    (true, (s.setRegs { s.regs with srcLen := BitVec.ofNat 32 bytes.length }).setEnv { s.env with srcHeld := true })

/-- `SrcRead(off, m)`: the `m` bytes at offsets `off .. off+m-1` (R63). A byte outside the source is a free value
(log entry 11). -/
def srcRead (off m : Nat) (s : State) : List Byte × State :=
  let inside := ((s.env.src.getD []).drop off).take m
  let missing := m - inside.length
  if missing = 0 then (inside, s)
  else
    (inside ++ (List.range missing).map (fun j => Config.byteOutsideSource (s.freeCount + j)),
      s.setFreeCount (s.freeCount + missing))

/-- `SrcClose()` (R64). -/
def srcClose (s : State) : State := s.setEnv { s.env with srcHeld := false }

/-! The DST port (20_memory.md R65 to R67). -/

/-- `DstOpen()`: on success the destination is empty and held and `DST_LEN` is 0 (R65). -/
def dstOpen (s : State) : Bool × State :=
  if s.env.dstCreatable then
    (true, (s.setRegs { s.regs with dstLen := 0 }).setEnv { s.env with dst := [], dstHeld := true })
  else (false, s)

/-- `DstWrite(v)`: the next verdict decides; an accepted burst is appended and counted, a refused one
delivers an unspecified prefix and is not counted (R66; log entries 4 and 5). -/
def dstWrite (v : List Byte) (s : State) : Bool × State :=
  if s.env.verdicts.headD true then
    (true, (s.setRegs { s.regs with dstLen := s.regs.dstLen + BitVec.ofNat 32 v.length }).setEnv
      { s.env with dst := s.env.dst ++ v, verdicts := s.env.verdicts.tail })
  else
    (false, (s.setEnv
      { s.env with
        dst := s.env.dst ++ v.take (Config.failedWriteDelivers s.freeCount)
        verdicts := s.env.verdicts.tail }).setFreeCount (s.freeCount + 1))

/-- `DstClose()` (R67). -/
def dstClose (s : State) : State := s.setEnv { s.env with dstHeld := false }

/-! Flush and release of the writer, shared by `BW.CLOSE` (40_bitwriter.md R134) and the clean-up (60_exceptions.md R262). -/

/-- The bytes a flush delivers: the live prefix, and the partial byte if there is one (R134). -/
def flushBytes (w : BitWriter) : List Byte := if w.free = 8 then w.buf else w.buf ++ [w.cur]

/-- The flush of R134: the partial byte takes its slot, then one burst of the live prefix, if it holds a byte; answers
whether the burst was accepted. -/
def bwFlush (s : State) : Bool × State :=
  let s1 := s.setBw { s.bw with buf := flushBytes s.bw }
  if s1.bw.buf.length = 0 then (true, s1) else dstWrite s1.bw.buf s1

/-- `BW.pos <- 0; BW.cur <- 0; BW.free <- 8; BW.open <- 0; DstClose()` (R134, R262). -/
def bwRelease (s : State) : State :=
  dstClose (s.setBw { isOpen := false, buf := [], cur := 0, free := 8 })

/-! Taking an error (60_exceptions.md R262) and ending an operation (44_system.md R233). -/

/-- R262 (d), first part: an open writer is flushed, unless a write failed, and released. -/
def releaseSink (e : Raise) (s : State) : State :=
  if s.bw.isOpen then
    bwRelease (if e.cause = .dstWriteFail then s else (bwFlush s).2)
  else s

/-- R262 (d), second part: a held source is released and the reader closed. -/
def releaseSource (s : State) : State :=
  if s.env.srcHeld ∨ s.br.isOpen then srcClose (s.setBr { s.br with isOpen := false }) else s

/-- The clean-up by the place where the condition was met (R262 (a) to (d)). -/
def cleanUp (site : Site) (e : Raise) (s : State) : State :=
  match site with
  | .decode => s
  | .writer => if e.code = .dstErr then bwRelease s else s
  | .reader => s
  | .composite => releaseSource (releaseSink e s)

/-- R262 (e): `CODE` and `CAUSE` take the raised values, `STICKY <- 1`, `BUSY <- 0`. -/
def reportError (e : Raise) (s : State) : State :=
  s.setStatus { s.status with code := e.code, cause := e.cause, sticky := true, busy := false }

/-- Taking an error: the clean-up, then the report (R262). The one way a command ends otherwise than `OK`;
there is no return from it, the next command simply runs (R264). -/
def takeError (site : Site) (e : Raise) (s : State) : State :=
  reportError e (cleanUp site e s)

/-- The end of an operation that completed: `CODE <- OK`, `CAUSE <- 0`, `BUSY <- 0` (R233, R94, R95). -/
def endOk (s : State) : State :=
  s.setStatus { s.status with code := .ok, cause := .none, busy := false }

/-- The end of an operation, whatever it answered. -/
def endOp (site : Site) (r : Result Unit) : State :=
  match r with
  | .done _ s => endOk s
  | .raised e s => takeError site e s

/-- Reader and writer are closed: the condition `idle` of 44_system.md R234. -/
abbrev State.idle (s : State) : Prop := s.bw.isOpen = false ∧ s.br.isOpen = false

/-! Reset (70_reset_and_hazards.md R280, R281). -/

/-- Hardware reset: every element of 10_state.md R37 at its reset value, no handle held; SRC, DST and what the
host still has to do are not touched. -/
def hardReset (s : State) : State :=
  { State.reset with
    params := s.params
    env := { s.env with srcHeld := false, dstHeld := false }
    host := s.host
    busData := s.busData
    freeCount := s.freeCount }

/-- DST after a hardware reset that struck an operation between the states `s` and `t`: a prefix of what the
operation would have written (R280; V6). `opened` says that the operation had created the destination anew. -/
def dstAfterStrike (opened : Bool) (s t : State) : List Byte :=
  if opened then
    if Config.resetStrikesBeforeOpen t.freeCount then s.env.dst
    else t.env.dst.take (Config.resetStrikesAfter t.freeCount)
  else
    s.env.dst ++ (t.env.dst.drop s.env.dst.length).take (Config.resetStrikesAfter t.freeCount)

/-- The state after a hardware reset that struck an operation between `s` and `t` (R280): the block is reset, and how
many bursts had been answered is free too (log entry 14). -/
def strikeReset (opened : Bool) (s t : State) : State :=
  let answered := min (Config.resetStrikesAfter (t.freeCount + 1)) (s.env.verdicts.length - t.env.verdicts.length)
  hardReset ((s.setEnv
    { s.env with dst := dstAfterStrike opened s t, verdicts := s.env.verdicts.drop answered }).setFreeCount
      (t.freeCount + 2))

end Sys2Proof.Machine
end

