-- ==== Sys2Proof/Machine/Operands.lean ====
section
/-! DEFINITION. Operand forms (30_encoding.md R91): the value operands taken from `ARG`, and results written to `RESULT`. -/

namespace Sys2Proof.Machine

/-- The value operand of `BW.WBITS`: all 32 bits of `ARG`, of which the low `n` are used (R91). -/
def wordOperand (s : State) : Word := s.regs.arg

/-- The operand of `BW.WBYTE`: `ARG[7:0]`, `ARG[31:8]` ignored (R91). -/
def byteOperand (s : State) : Byte := s.regs.arg.extractLsb' 0 8

/-- `REG[RESULT] <- zext_32(v)` (R91). -/
def writeResult (v : Word) (s : State) : State := s.setRegs { s.regs with result := v }

/-- A bit zero-extended to 32 bits (R91, `BR.RBIT`). -/
def zextBit (b : Bool) : Word := BitVec.ofNat 32 b.toNat

/-- A byte zero-extended to 32 bits (R91, `BR.RBYTE8`). -/
def zextByte (b : Byte) : Word := b.setWidth 32

end Sys2Proof.Machine
end

