-- ==== Sys2Proof/Machine/BitReader.lean ====
section
/-! DEFINITION. The BitReader: its unit operations (41_bitreader.md R151 to R156) and the four commands. -/

namespace Sys2Proof.Machine

/-- `BR.fill`: the number of valid bytes in `BR.buf` (10_state.md R33). -/
def brFill (r : BitReader) : Nat := r.buf.length

/-- `8*(BR.fill - BR.pos) - BR.bit`: the buffered unread bits (10_state.md R33). -/
def brBuffered (r : BitReader) : Nat := 8 * (brFill r - r.pos) - r.bit.toNat

/-- `BR.buf[i]`; a slot that no refill has filled holds a free value (log entry 8). -/
def brSlot (r : BitReader) (i : Nat) : Byte := (r.buf[i]?).getD (Config.unfilledSlot i)

/-- `call BR.OPEN` (R151). -/
def brOpen (s : State) : Result Unit :=
  if s.br.isOpen then .raised ⟨.usageFault, .seq⟩ s
  else
    match srcOpen s with
    | (false, s1) => .raised ⟨.fileOpenErr, .srcOpenFail⟩ s1
    | (true, s1) =>
      .done () (s1.setBr
        { isOpen := true, buf := [], pos := 0, bit := 0, off := 0
          remaining := BitVec.ofNat 35 (8 * s1.regs.srcLen.toNat) })

/-- `br_refill()` with its condition: fewer than 9 bits buffered and a byte of the source not yet fetched. The byte in
hand moves to the front, one burst fills the rest (R152). -/
def brRefill (s : State) : State :=
  if brBuffered s.br < 9 ∧ s.br.off.toNat < s.regs.srcLen.toNat then
    let kept := s.br.buf.drop s.br.pos
    let m := min (s.params.bufBytes - kept.length) (s.regs.srcLen.toNat - s.br.off.toNat)
    let burst := srcRead s.br.off.toNat m s
    burst.2.setBr
      { s.br with buf := kept ++ burst.1, pos := 0, off := s.br.off + BitVec.ofNat 32 m }
  else s

/-- `call BR.RBIT`: the bit, without the write of `RESULT` (R153). -/
def brRbit (s : State) : Result Bool :=
  if s.br.isOpen then
    if s.br.remaining = 0 then .raised ⟨.decodeFault, .brEos⟩ s
    else
      let s1 := brRefill s
      let v := (brSlot s1.br s1.br.pos).getLsbD (7 - s1.br.bit.toNat)
      .done v (s1.setBr
        { s1.br with
          bit := s1.br.bit + 1
          pos := if s1.br.bit = 7 then s1.br.pos + 1 else s1.br.pos
          remaining := s1.br.remaining - 1 })
  else .raised ⟨.usageFault, .seq⟩ s

/-- The byte at the bit position: the current byte, or the tail of it merged with the head of the next (R154). -/
def brMerge (r : BitReader) : Byte :=
  if r.bit = 0 then brSlot r r.pos
  else (brSlot r r.pos <<< r.bit.toNat) ||| (brSlot r (r.pos + 1) >>> (8 - r.bit.toNat))

/-- `call BR.RBYTE8`: the byte, without the write of `RESULT` (R154). -/
def brRbyte8 (s : State) : Result Byte :=
  if s.br.isOpen then
    if s.br.remaining.toNat < 8 then .raised ⟨.decodeFault, .brEos⟩ s
    else
      let s1 := brRefill s
      .done (brMerge s1.br) (s1.setBr
        { s1.br with pos := s1.br.pos + 1, remaining := s1.br.remaining - 8 })
  else .raised ⟨.usageFault, .seq⟩ s

/-- `call BR.CLOSE` (R156). -/
def brClose (s : State) : Result Unit :=
  if s.br.isOpen then .done () (srcClose (s.setBr { s.br with isOpen := false }))
  else .raised ⟨.usageFault, .seq⟩ s

/-- `BR.OPEN` (R151). -/
def execBrOpen (s : State) : Host.Outcome State Fault Refusal :=
  .next (endOp .reader (brOpen s))

/-- `BR.RBIT`: the bit goes to `RESULT` (R153). -/
def execBrRbit (s : State) : Host.Outcome State Fault Refusal :=
  .next (endOp .reader ((brRbit s).bind fun v s1 => .done () (writeResult (zextBit v) s1)))

/-- `BR.RBYTE8`: the byte goes to `RESULT` (R154). -/
def execBrRbyte8 (s : State) : Host.Outcome State Fault Refusal :=
  .next (endOp .reader ((brRbyte8 s).bind fun b s1 => .done () (writeResult (zextByte b) s1)))

/-- `BR.CLOSE` (R156). -/
def execBrClose (s : State) : Host.Outcome State Fault Refusal :=
  .next (endOp .reader (brClose s))

end Sys2Proof.Machine
end

