-- ==== Sys2Proof/Machine/BitWriter.lean ====
section
/-! DEFINITION. The BitWriter: its unit operations (40_bitwriter.md R131 to R135) and the four commands. -/

namespace Sys2Proof.Machine

/-- `call BW.OPEN` (R131). -/
def bwOpen (s : State) : Result Unit :=
  if s.bw.isOpen then .raised ⟨.usageFault, .seq⟩ s
  else
    match dstOpen s with
    | (false, s1) => .raised ⟨.dstErr, .dstOpenFail⟩ s1
    | (true, s1) => .done () (s1.setBw { isOpen := true, buf := [], cur := 0, free := 8 })

/-- `bw_putbyte(b)`: the byte takes the next slot; a full buffer is flushed at once (R135). -/
def bwPutByte (b : Byte) (s : State) : Result Unit :=
  let s1 := s.setBw { s.bw with buf := s.bw.buf ++ [b] }
  if s1.bw.buf.length = s.params.bufBytes then
    let answer := dstWrite s1.bw.buf s1
    let s2 := answer.2.setBw { s1.bw with buf := [] }
    if answer.1 then .done () s2 else .raised ⟨.dstErr, .dstWriteFail⟩ s2
  else .done () s1

/-- One round of the loop of R132: the bit goes to the highest free position; a full byte advances to the next slot. -/
def bwPutBit (v : Bool) (s : State) : Result Unit :=
  let free := s.bw.free - 1
  let cur := putBit s.bw.cur free.toNat v
  let s1 := s.setBw { s.bw with cur := cur, free := free }
  if free = 0 then
    (bwPutByte cur s1).bind fun _ s2 => .done () (s2.setBw { s2.bw with cur := 0, free := 8 })
  else .done () s1

/-- The loop of R132, over the bits in the order they are written. -/
def bwPutBits : Bits → State → Result Unit
  | [], s => .done () s
  | v :: rest, s => (bwPutBit v s).bind fun _ s1 => bwPutBits rest s1

/-- `call BW.WBITS(value, n)` (R132). -/
def bwWbits (value : Word) (n : Nat) (s : State) : Result Unit :=
  if n > Config.codeMax then .raised ⟨.usageFault, .illegalOperand⟩ s
  else if s.bw.isOpen then bwPutBits (msb value n) s
  else .raised ⟨.usageFault, .seq⟩ s

/-- `call BW.WBYTE(b)` (R133). -/
def bwWbyte (b : Byte) (s : State) : Result Unit :=
  if s.bw.isOpen then
    if s.bw.free = 8 then bwPutByte b s else .raised ⟨.usageFault, .bwUnaligned⟩ s
  else .raised ⟨.usageFault, .seq⟩ s

/-- `call BW.CLOSE` (R134). -/
def bwClose (s : State) : Result Unit :=
  if s.bw.isOpen then
    let answer := bwFlush s
    if answer.1 then .done () (bwRelease answer.2) else .raised ⟨.dstErr, .dstWriteFail⟩ (bwRelease answer.2)
  else .raised ⟨.usageFault, .seq⟩ s

/-- `BW.OPEN` (R131). -/
def execBwOpen (s : State) : Host.Outcome State Fault Refusal :=
  .next (endOp .writer (bwOpen s))

/-- `BW.WBITS value, n` (R132; operands R91). -/
def execBwWbits (n : BitVec 6) (s : State) : Host.Outcome State Fault Refusal :=
  .next (endOp .writer (bwWbits (wordOperand s) n.toNat s))

/-- `BW.WBYTE b` (R133; operand R91). -/
def execBwWbyte (s : State) : Host.Outcome State Fault Refusal :=
  .next (endOp .writer (bwWbyte (byteOperand s) s))

/-- `BW.CLOSE` (R134). -/
def execBwClose (s : State) : Host.Outcome State Fault Refusal :=
  .next (endOp .writer (bwClose s))

end Sys2Proof.Machine
end

