-- ==== Sys2Proof/Machine/Decoder.lean ====
section
/-! DEFINITION. The decoder: `DECOMPRESS` with `HDR.PARSE`, `PAD.READ`, `TREE.WALK` (43_decoder.md R211 to R217). The
loops recurse on a bound that 70_reset_and_hazards.md R296 gives them (log entry 13). -/

namespace Sys2Proof.Machine

/-- `DT[i]`; the store has entries 0..510 (10_state.md R31), and no rule asks for another. -/
def dtAt (d : Decoder) (i : NodeId) : DtNode :=
  if h : i.toNat < 511 then d.dt[i.toNat] else {}

/-- `DT[i] <- n` (10_state.md R31). -/
def setDt (i : NodeId) (n : DtNode) (d : Decoder) : Decoder :=
  { d with dt := d.dt.setIfInBounds i.toNat n }

/-- `parse()`: the index of the node it built (R212); the size check comes before the marker is read (R213). The first
argument bounds the depth: a node deeper than 511 would be the 512th. -/
def parseNode : Nat → State → Result NodeId
  | 0, s => .raised ⟨.sourceErr, .hdrTooLarge⟩ s
  | fuel + 1, s =>
    if s.dec.dtN = 511 then .raised ⟨.sourceErr, .hdrTooLarge⟩ s
    else
      let i : NodeId := s.dec.dtN.setWidth 9
      let s1 := s.setDec { s.dec with dtN := s.dec.dtN + 1 }
      if s1.br.remaining = 0 then .raised ⟨.sourceErr, .hdrTrunc⟩ s1
      else
        (brRbit s1).bind fun m s2 =>
          if m then
            if s2.br.remaining.toNat < 8 then .raised ⟨.sourceErr, .hdrTrunc⟩ s2
            else
              (brRbyte8 s2).bind fun b s3 =>
                .done i (s3.setDec (setDt i { dtAt s3.dec i with leaf := true, sym := b } s3.dec))
          else
            (parseNode fuel s2).bind fun l s3 =>
              (parseNode fuel s3).bind fun r s4 =>
                .done i (s4.setDec (setDt i { dtAt s4.dec i with leaf := false, left := l, right := r } s4.dec))

/-- `HDR.PARSE` with the check of the root (R212, R213). -/
def hdrParse (s : State) : Result Unit :=
  (parseNode 512 (s.setDec { s.dec with dtN := 0 })).bind fun _ s1 =>
    if (dtAt s1.dec 0).leaf then .raised ⟨.sourceErr, .hdrRootLeaf⟩ s1 else .done () s1

/-- `PAD.READ` (R214). -/
def padRead (s : State) : Result Unit :=
  if s.br.remaining.toNat < 3 then .raised ⟨.sourceErr, .hdrTrunc⟩ s
  else
    (brRbit s).bind fun b2 s1 =>
    (brRbit s1).bind fun b1 s2 =>
    (brRbit s2).bind fun b0 s3 =>
      .done () (s3.setDec { s3.dec with decPad := BitVec.ofNat 3 (b2.toNat * 4 + b1.toNat * 2 + b0.toNat) })

/-- The inner loop of `TREE.WALK` from node `i`: the symbol of the leaf reached (R215). Each round reads a bit, so the
unread bits bound it; without a bit left it is the fault of R216. -/
def walkDown : Nat → NodeId → State → Result Byte
  | 0, _, s => .raised ⟨.decodeFault, .payloadTrunc⟩ s
  | fuel + 1, i, s =>
    if (dtAt s.dec i).leaf then .done (dtAt s.dec i).sym s
    else if s.br.remaining = 0 then .raised ⟨.decodeFault, .payloadTrunc⟩ s
    else
      (brRbit s).bind fun b s1 =>
        walkDown fuel (if b then (dtAt s1.dec i).left else (dtAt s1.dec i).right) s1

/-- `TREE.WALK`: one symbol a round until the unread bits equal the padding length (R215 to R217). -/
def treeWalk : Nat → State → Result Unit
  | 0, s => .raised ⟨.decodeFault, .payloadTrunc⟩ s
  | fuel + 1, s =>
    if s.br.remaining.toNat = s.dec.decPad.toNat then .done () s
    else
      (walkDown (s.br.remaining.toNat + 1) 0 s).bind fun b s1 =>
        (bwWbyte b s1).bind fun _ s2 => treeWalk fuel s2

/-- What `DECOMPRESS` does after the opens (R211). -/
def decompressRun (s : State) : Result Unit :=
  (hdrParse s).bind fun _ s1 =>
  (padRead s1).bind fun _ s2 =>
  (treeWalk (s2.br.remaining.toNat + 1) s2).bind fun _ s3 =>
  (bwClose s3).bind fun _ s4 => brClose s4

/-- The body of `DECOMPRESS` after its precondition: source, then destination; a failed source open is raised with
`SOURCE_ERR` (R211; 90_conflicts.md C3). -/
def decompressBody (s : State) : Result Unit :=
  match brOpen s with
  | .raised _ s1 => .raised ⟨.sourceErr, .srcOpenFail⟩ s1
  | .done _ s1 => (bwOpen s1).bind fun _ s2 => decompressRun s2

/-- `DECOMPRESS` (R211). -/
def execDecompress (s : State) : Host.Outcome State Fault Refusal :=
  if s.idle then .next (endOp .composite (decompressBody s))
  else .next (takeError .decode ⟨.usageFault, .seq⟩ s)

end Sys2Proof.Machine
end

