-- ==== Sys2Proof/Machine/Flags.lean ====
section
/-! DEFINITION. The status and cause numbers (30_encoding.md R94, R95), which status a cause occurs with, and the
words a host reads at `STATUS` and `CAUSE` (10_state.md R24, R25). -/

namespace Sys2Proof.Machine

/-- The number of a status code (30_encoding.md R94). -/
def codeBits : Code → BitVec 3
  | .ok => 0
  | .fileOpenErr => 1
  | .sourceErr => 2
  | .dstErr => 3
  | .decodeFault => 4
  | .usageFault => 5

/-- The number of a cause (30_encoding.md R95). -/
def causeBits : Cause → BitVec 8
  | .none => 0x00
  | .srcOpenFail => 0x01
  | .fewSymbols => 0x02
  | .codeTooLong => 0x03
  | .dstOpenFail => 0x04
  | .dstWriteFail => 0x05
  | .hdrTrunc => 0x06
  | .hdrRootLeaf => 0x07
  | .hdrTooLarge => 0x08
  | .payloadTrunc => 0x09
  | .illegalCmd => 0x0A
  | .illegalOperand => 0x0B
  | .seq => 0x0C
  | .bwUnaligned => 0x0D
  | .brEos => 0x0E
  | .srcChanged => 0x0F
  | .padMismatch => 0x10

/-- The statuses a cause occurs with: exactly one, but for `SRC_OPEN_FAIL` (30_encoding.md R95). -/
def causeStatuses : Cause → List Code
  | .none => [.ok]
  | .srcOpenFail => [.fileOpenErr, .sourceErr]
  | .fewSymbols | .codeTooLong => [.sourceErr]
  | .dstOpenFail | .dstWriteFail => [.dstErr]
  | .hdrTrunc | .hdrRootLeaf | .hdrTooLarge => [.sourceErr]
  | .payloadTrunc | .brEos => [.decodeFault]
  | .illegalCmd | .illegalOperand | .seq | .bwUnaligned => [.usageFault]
  | .srcChanged | .padMismatch => [.usageFault]

/-- The word read at `STATUS`: bits 31:8 zero, then `STICKY`, `BR_OPEN`, `BW_OPEN`, `ENC_VALID`, `BUSY`, `CODE`
(10_state.md R24). -/
def statusWord (s : State) : Word :=
  (0 : BitVec 24) ++ BitVec.ofBool s.status.sticky ++ BitVec.ofBool s.br.isOpen ++ BitVec.ofBool s.bw.isOpen ++
    BitVec.ofBool s.status.encValid ++ BitVec.ofBool s.status.busy ++ codeBits s.status.code

/-- The word read at `CAUSE` (10_state.md R25). -/
def causeWord (s : State) : Word := (causeBits s.status.cause).setWidth 32

end Sys2Proof.Machine
end

