-- ==== Sys2Proof/Machine/Registers.lean ====
section
/-! DEFINITION. The host register window (10_state.md R21, R23, R26; 20_memory.md R61; 44_system.md R232). -/

namespace Sys2Proof.Machine

/-- The register at a byte offset of the window (10_state.md R21). -/
def regAt (offset : Nat) : Reg :=
  match offset with
  | 0x00 => .cmd
  | 0x04 => .arg
  | 0x08 => .status
  | 0x0C => .cause
  | 0x10 => .result
  | 0x14 => .srcLen
  | 0x18 => .dstLen
  | 0x1C => .hdrBits
  | 0x20 => .encPad
  | 0x24 => .nsym
  | 0x28 => .total
  | 0x2C => .remainLo
  | 0x30 => .remainHi
  | 0x34 => .symSel
  | 0x38 => .symCount
  | 0x3C => .symCode
  | 0x40 => .symLen
  | 0x44 => .bwFree
  | 0x48 => .decPad
  | _ => .reserved

/-- The symbol record `SYM[b]` (10_state.md R27). -/
def symAt (e : Encoder) (b : Byte) : SymRec := e.sym[b.toNat]'b.isLt

/-- What a host read of a register returns: the value the element behind it has at that time; `CMD` and reserved
offsets read as 0, unlisted bits are 0 (10_state.md R21, R26; 20_memory.md R61). -/
def readReg (s : State) : Reg → Word
  | .cmd => 0
  | .arg => s.regs.arg
  | .status => statusWord s
  | .cause => causeWord s
  | .result => s.regs.result
  | .srcLen => s.regs.srcLen
  | .dstLen => s.regs.dstLen
  | .hdrBits => s.enc.hdrBits.setWidth 32
  | .encPad => s.enc.encPad.setWidth 32
  | .nsym => s.enc.nsym.setWidth 32
  | .total => s.enc.total
  | .remainLo => s.br.remaining.extractLsb' 0 32
  | .remainHi => (s.br.remaining.extractLsb' 32 3).setWidth 32
  | .symSel => s.regs.symSel.setWidth 32
  | .symCount => (symAt s.enc s.regs.symSel).count
  | .symCode => (symAt s.enc s.regs.symSel).code
  | .symLen => (symAt s.enc s.regs.symSel).len.setWidth 32
  | .bwFree => s.bw.free.setWidth 32
  | .decPad => s.dec.decPad.setWidth 32
  | .reserved => 0

/-- A host write of a register other than `CMD`: `ARG` and `SYM_SEL` store the value (`SYM_SEL` its low 8 bits), every
other write is ignored (10_state.md R21, R23; 20_memory.md R61). -/
def writeReg (s : State) (v : Word) : Reg → State
  | .arg => s.setRegs { s.regs with arg := v }
  | .symSel => s.setRegs { s.regs with symSel := v.extractLsb' 0 8 }
  | .cmd | .status | .cause | .result | .srcLen | .dstLen | .hdrBits | .encPad | .nsym | .total => s
  | .remainLo | .remainHi | .symCount | .symCode | .symLen | .bwFree | .decPad | .reserved => s

end Sys2Proof.Machine
end

