-- ==== Sys2Proof/Machine/TieRule.lean ====
section
/-! DEFINITION. `TIE_RULE`, a parameter of the step (00_scope.md R6; 10_state.md R36; 92_eei_decisions.md D4, D5): the order
of the queue and the choice of the left child, for every admissible rule (42_encoder.md R175, R176). -/

namespace Sys2Proof.Machine

/-- The order among nodes equal in weight and depth: the nodes the rule lists in the order of the list, then the others by id
(42_encoder.md R175, decision D4; log entry 10). -/
def tieBefore (tie : Config.TieRule) (a b : Config.NodeKey) : Bool :=
  if tie.order.idxOf a = tie.order.idxOf b then a.id < b.id else tie.order.idxOf a < tie.order.idxOf b

/-- The order of the queue: ascending weight, then ascending depth, then the tie rule (42_encoder.md R175). -/
def keyBefore (tie : Config.TieRule) (a b : Config.NodeKey) : Bool :=
  if a.weight = b.weight then (if a.depth = b.depth then tieBefore tie a b else a.depth < b.depth)
  else a.weight < b.weight

/-- The left and the right child among the two extracted nodes, the first with the key `a`, the second with the key `b`
(42_encoder.md R176, decision D5; log entry 10). -/
def childrenOf {α : Type} (tie : Config.TieRule) (a b : Config.NodeKey) (first second : α) : α × α :=
  if (a, b) ∈ tie.secondLeft then (second, first) else (first, second)

end Sys2Proof.Machine
end

