-- ==== Sys2Proof/Machine/Encoder.lean ====
section
/-! DEFINITION. The encoder: `ENCODE` with `FREQ.SCAN`, `TREE.BUILD`, `CODE.DERIVE` (42_encoder.md R171 to R179) and
`COMPRESS` (R180 to R185). The loops recurse on a bound that 70_reset_and_hazards.md R296 gives them (log entry 13). -/

namespace Sys2Proof.Machine

/-- `SYM[b] <- r` (10_state.md R27). -/
def setSym (b : Byte) (r : SymRec) (e : Encoder) : Encoder :=
  { e with sym := e.sym.set b.toNat r b.isLt }

/-- `ET[i]`; the store has entries 0..510 (10_state.md R28), and no rule asks for another. -/
def etAt (e : Encoder) (i : NodeId) : EtNode :=
  if h : i.toNat < 511 then e.et[i.toNat] else {}

/-- `ET[i] <- n` (10_state.md R28). -/
def setEt (i : NodeId) (n : EtNode) (e : Encoder) : Encoder :=
  { e with et := e.et.setIfInBounds i.toNat n }

/-! `FREQ.SCAN` (R172). -/

/-- The clearing at the start of the scan (R172). -/
def clearTable (e : Encoder) : Encoder :=
  { e with sym := Vector.replicate 256 {}, total := 0, nsym := 0, hdrBits := 0 }

/-- One byte counted: its record's count and `TOTAL` (R172). -/
def countByte (e : Encoder) (b : Byte) : Encoder :=
  let e1 := setSym b { symAt e b with count := (symAt e b).count + 1 } e
  { e1 with total := e1.total + 1 }

/-- The loop of R172 from offset `off` to `len`, one burst a round. -/
def scanLoop : Nat → Nat → Nat → State → State
  | 0, _, _, s => s
  | fuel + 1, off, len, s =>
    if off < len then
      let m := min s.params.bufBytes (len - off)
      let burst := srcRead off m s
      let s1 := burst.2.setScan burst.1
      scanLoop fuel (off + m) len (s1.setEnc (s1.scan.foldl countByte s1.enc))
    else s

/-- `NSYM`: how many records have a nonzero count (R172). -/
def presentCount (e : Encoder) : Nat := e.sym.toList.countP (fun r => r.count ≠ 0)

/-- `FREQ.SCAN` (R172). -/
def freqScan (s : State) : Result Unit :=
  match srcOpen (s.setEnc (clearTable s.enc)) with
  | (false, s1) => .raised ⟨.fileOpenErr, .srcOpenFail⟩ s1
  | (true, s1) =>
    let len := s1.regs.srcLen.toNat
    let s2 := srcClose (scanLoop len 0 len s1)
    .done () (s2.setEnc { s2.enc with nsym := BitVec.ofNat 9 (presentCount s2.enc) })

/-! `TREE.BUILD` (R174 to R176). -/

/-- The key of a node (R175). -/
def keyAt (e : Encoder) (i : NodeId) : Config.NodeKey := ⟨(etAt e i).weight.toNat, (etAt e i).depth.toNat, i.toNat⟩

/-- `key(i) < key(j)`: by weight, then by depth, then by the tie rule (R175). -/
def keyLt (tie : Config.TieRule) (e : Encoder) (i j : NodeId) : Bool := keyBefore tie (keyAt e i) (keyAt e j)

/-- `PQ <- PQ + {i}`, the ids kept in order of their keys, so that `extract_min` takes the head (R175; R29 leaves the
arrangement open, log entry 12). -/
def pqInsert (tie : Config.TieRule) (e : Encoder) (i : NodeId) : List NodeId → List NodeId
  | [] => [i]
  | j :: rest => if keyLt tie e i j then i :: j :: rest else j :: pqInsert tie e i rest

/-- The node id of the leaf of a symbol: the symbol (10_state.md R28). -/
def leafId (b : Byte) : NodeId := b.setWidth 9

/-- The symbols 0..255 in ascending order. -/
def allSymbols : List Byte := (List.range 256).map (BitVec.ofNat 8)

/-- One round of the seeding loop (R174). -/
def seedLeaf (tie : Config.TieRule) (e : Encoder) (b : Byte) : Encoder :=
  if (symAt e b).count = 0 then e
  else
    let i := leafId b
    let e1 := setEt i { etAt e i with leaf := true, sym := b, weight := (symAt e b).count, depth := 0 } e
    { e1 with pq := pqInsert tie e1 i e1.pq }

/-- The seeding of R174. -/
def seedLeaves (tie : Config.TieRule) (e : Encoder) : Encoder :=
  allSymbols.foldl (seedLeaf tie) { e with pq := [], etNext := 256 }

/-- The parent that joins `a`, extracted first, and `b`: weight the sum, depth one more than the larger, the children as the
tie rule places them (R176). -/
def joinNodes (tie : Config.TieRule) (e : Encoder) (a b : NodeId) : EtNode :=
  { etAt e e.etNext with
    leaf := false
    weight := (etAt e a).weight + (etAt e b).weight
    depth := 1 + (if (etAt e a).depth.toNat < (etAt e b).depth.toNat then (etAt e b).depth else (etAt e a).depth)
    left := (childrenOf tie (keyAt e a) (keyAt e b) a b).1
    right := (childrenOf tie (keyAt e a) (keyAt e b) a b).2 }

/-- The merge loop of R176: at most 255 rounds (70 R296). -/
def mergeLoop (tie : Config.TieRule) : Nat → Encoder → Encoder
  | 0, e => e
  | fuel + 1, e =>
    match e.pq with
    | a :: b :: rest =>
      let i := e.etNext
      let e1 := setEt i (joinNodes tie e a b) e
      mergeLoop tie fuel { e1 with etNext := i + 1, pq := pqInsert tie e1 i rest }
    | _ => e

/-- `TREE.BUILD`: seeding, merging, the one node left is the root (R174 to R176). -/
def treeBuild (tie : Config.TieRule) (e : Encoder) : Encoder :=
  let e1 := mergeLoop tie 256 (seedLeaves tie e)
  { e1 with etRoot := e1.pq.headD e1.etRoot, pq := [] }

/-! `CODE.DERIVE` (R177 to R179). -/

/-- `visit(i, v, l)` (R177); answers false when a leaf lies deeper than 32 (R178). The first argument bounds the
depth: a path has at most 255 edges (00_scope.md R10). -/
def visit : Nat → NodeId → Word → Nat → Encoder → Bool × Encoder
  | 0, _, _, _, e => (true, e)
  | fuel + 1, i, v, l, e =>
    let n := etAt e i
    if n.leaf then
      let e1 := { e with hdr := e.hdr ++ (true :: msb n.sym 8) }
      if l > Config.codeMax then (false, e1)
      else (true, setSym n.sym { symAt e1 n.sym with code := v, len := BitVec.ofNat 6 l } e1)
    else
      let left := visit fuel n.left ((v <<< 1) ||| 1) (l + 1) { e with hdr := e.hdr ++ [false] }
      if left.1 then visit fuel n.right (v <<< 1) (l + 1) left.2 else left

/-- `CODE.DERIVE` (R177, R178, R179); `HDR_BITS` is written only when the traversal ends. -/
def codeDerive (s : State) : Result Unit :=
  let answer := visit 256 s.enc.etRoot 0 0 { s.enc with hdr := [] }
  let s1 := s.setEnc answer.2
  if answer.1 then .done () (s1.setEnc { s1.enc with hdrBits := BitVec.ofNat 12 s1.enc.hdr.length })
  else .raised ⟨.sourceErr, .codeTooLong⟩ s1

/-- The body of `ENCODE` after its precondition (R171). -/
def encodeBody (s : State) : Result Unit :=
  (freqScan (s.setStatus { s.status with encValid := false })).bind fun _ s1 =>
    if s1.enc.nsym.toNat < 2 then .raised ⟨.sourceErr, .fewSymbols⟩ s1
    else
      (codeDerive (s1.setEnc (treeBuild s1.params.tie s1.enc))).bind fun _ s2 =>
        .done () (s2.setStatus { s2.status with encValid := true })

/-- `ENCODE` (R171). -/
def execEncode (s : State) : Host.Outcome State Fault Refusal :=
  if s.idle then .next (endOp .composite (encodeBody s))
  else .next (takeError .decode ⟨.usageFault, .seq⟩ s)

/-! `COMPRESS` (R180 to R185). -/

/-- `P8`: the payload length in bits modulo 8, from the table (R181). -/
def payloadBits8 (e : Encoder) : Nat :=
  (e.sym.toList.foldl (fun acc r => acc + (r.count.toNat % 8) * (r.len.toNat % 8)) 0) % 8

/-- `pad` (R181; 30_encoding.md R101). -/
def padLength (e : Encoder) : Nat := (8 - (e.hdrBits.toNat + 3 + payloadBits8 e) % 8) % 8

/-- The header emission loop from bit `j`, at most 32 bits a round (R182). -/
def emitHeader : Nat → Nat → State → Result Unit
  | 0, _, s => .done () s
  | fuel + 1, j, s =>
    if j < s.enc.hdrBits.toNat then
      let n := min 32 (s.enc.hdrBits.toNat - j)
      (bwWbits (BitVec.ofNat 32 (num ((s.enc.hdr.drop j).take n))) n s).bind fun _ s1 => emitHeader fuel (j + n) s1
    else .done () s

/-- The codeword of one source byte; a byte without a code stops the command (R184). -/
def emitCode (b : Byte) (s : State) : Result Unit :=
  if (symAt s.enc b).len = 0 then .raised ⟨.usageFault, .srcChanged⟩ s
  else bwWbits (symAt s.enc b).code (symAt s.enc b).len.toNat s

/-- The codewords of a burst in order (R184). -/
def emitCodes : List Byte → State → Result Unit
  | [], s => .done () s
  | b :: rest, s => (emitCode b s).bind fun _ s1 => emitCodes rest s1

/-- The payload loop from offset `off` to `len`, one burst a round (R184). -/
def payloadLoop : Nat → Nat → Nat → State → Result Unit
  | 0, _, _, s => .done () s
  | fuel + 1, off, len, s =>
    if off < len then
      let m := min s.params.bufBytes (len - off)
      let burst := srcRead off m s
      let s1 := burst.2.setScan burst.1
      (emitCodes s1.scan s1).bind fun _ s2 => payloadLoop fuel (off + m) len s2
    else .done () s

/-- The end of `COMPRESS`: the source is released, the final bit position is held against the padding length, the writer is
closed (R180, R185). -/
def compressFinish (s : State) : Result Unit :=
  if s.bw.free.toNat % 8 = s.enc.encPad.toNat then bwClose (srcClose s)
  else .raised ⟨.usageFault, .padMismatch⟩ (srcClose s)

/-- What `COMPRESS` does after the opens: padding length, header, field, payload, final check, close (R180). -/
def compressEmit (len : Nat) (s : State) : Result Unit :=
  let s1 := s.setEnc { s.enc with encPad := BitVec.ofNat 3 (padLength s.enc) }
  (emitHeader s1.enc.hdrBits.toNat 0 s1).bind fun _ s2 =>
  (bwWbits (s2.enc.encPad.setWidth 32) 3 s2).bind fun _ s3 =>
  (payloadLoop len 0 len s3).bind fun _ s4 => compressFinish s4

/-- The body of `COMPRESS` after its preconditions: source, then destination, then the container (R180). -/
def compressBody (s : State) : Result Unit :=
  match srcOpen s with
  | (false, s1) => .raised ⟨.fileOpenErr, .srcOpenFail⟩ s1
  | (true, s1) => (bwOpen s1).bind fun _ s2 => compressEmit s1.regs.srcLen.toNat s2

/-- `COMPRESS` (R180). -/
def execCompress (s : State) : Host.Outcome State Fault Refusal :=
  if s.idle ∧ s.status.encValid = true then .next (endOp .composite (compressBody s))
  else .next (takeError .decode ⟨.usageFault, .seq⟩ s)

end Sys2Proof.Machine
end

