-- ==== Sys2Proof/Machine/System.lean ====
section
/-! DEFINITION. The housekeeping commands `NOP` and `CLEAR` (44_system.md R230, R231). -/

namespace Sys2Proof.Machine

/-- `NOP`: `CODE <- OK`, `CAUSE <- 0`, nothing else (R230). -/
def execNop (s : State) : Host.Outcome State Fault Refusal := .next (endOk s)

/-- The block at its reset state by command: held handles are released without a flush, `ARG` and `SYM_SEL` keep
their values (R231). -/
def clearBlock (s : State) : State :=
  let s1 := if s.bw.isOpen then dstClose s else s
  let s2 := if s.br.isOpen then srcClose s1 else s1
  let s3 := hardReset s2
  s3.setRegs { s3.regs with arg := s.regs.arg, symSel := s.regs.symSel }

/-- `CLEAR` (R231). -/
def execClear (s : State) : Host.Outcome State Fault Refusal := .next (endOk (clearBlock s))

end Sys2Proof.Machine
end

