-- ==== Sys2Proof/Machine/Dispatch.lean ====
section
/-! DEFINITION. The dispatch of a command to its meaning: one arm per constructor of Instr (30_encoding.md R92). -/

namespace Sys2Proof.Machine

/-- Runs a command on the state: one atomic step to the host (44_system.md R233). -/
def exec (i : Instr) (s : State) : Host.Outcome State Fault Refusal :=
  match i with
  | .nop => Sys2Proof.Machine.execNop s
  | .clear => Sys2Proof.Machine.execClear s
  | .encode => Sys2Proof.Machine.execEncode s
  | .compress => Sys2Proof.Machine.execCompress s
  | .decompress => Sys2Proof.Machine.execDecompress s
  | .bwOpen => Sys2Proof.Machine.execBwOpen s
  | .bwWbits n => Sys2Proof.Machine.execBwWbits n s
  | .bwWbyte => Sys2Proof.Machine.execBwWbyte s
  | .bwClose => Sys2Proof.Machine.execBwClose s
  | .brOpen => Sys2Proof.Machine.execBrOpen s
  | .brRbit => Sys2Proof.Machine.execBrRbit s
  | .brRbyte8 => Sys2Proof.Machine.execBrRbyte8 s
  | .brClose => Sys2Proof.Machine.execBrClose s

end Sys2Proof.Machine
end

