-- ==== Sys2Proof/Machine/Memory.lean ====
section
/-! DEFINITION. The two byte spaces of the block as data (10_state.md R35; 20_memory.md R60): reading one byte, and the
form a source has. An address is a position of the sequence, so a memory has one form only (log entry 9). -/

namespace Sys2Proof.Machine

/-- The byte of SRC at an offset; none outside `0 .. L-1` or when SRC is absent (20_memory.md R60, R63). -/
def srcByte (s : State) (a : Nat) : Option Byte := (s.env.src.getD [])[a]?

/-- The byte of DST at a position; none at and beyond its end (20_memory.md R60, R66). -/
def dstByte (s : State) (a : Nat) : Option Byte := s.env.dst[a]?

/-- The form of the memories: a source has at most `LEN_MAX` bytes (10_state.md R35; 70 R293). DST has no bound. -/
abbrev Memory.wf (e : Env) : Prop := (e.src.getD []).length ≤ Config.lenMax

end Sys2Proof.Machine
end

