-- ==== Sys2Proof/Machine/Bus.lean ====
section
/-! DEFINITION. The host's actions on the block (20_memory.md R61; 44_system.md R232, R233; 70_reset_and_hazards.md R280,
R297, R298): register accesses, issuing a command, replacing SRC and DST, hardware reset. -/

namespace Sys2Proof.Machine

/-- Why a register access of `bytes` bytes at `addr` is outside the spec, or the offset it reaches (R60, R61). -/
def windowOffset (p : Config.Params) (addr bytes : Nat) : Except Refusal Nat :=
  if addr < p.regBase ∨ p.regBase + Config.windowBytes ≤ addr then .error .accessOutsideWindow
  else if bytes = 4 ∧ (addr - p.regBase) % 4 = 0 then .ok (addr - p.regBase)
  else .error .accessNotWord

/-- A write of `CMD`: `BUSY` is set, the word decoded, the operation run to its end (44_system.md R233); a word that is
no command ends with the usage fault of 30_encoding.md R93. -/
def issueCommand (w : Word) (s : State) : Host.Outcome State Fault Refusal :=
  let s1 := s.setStatus { s.status with busy := true }
  match decode w with
  | .command i => exec i s1
  | .illegalCmd => .next (takeError .decode ⟨.usageFault, .illegalCmd⟩ s1)
  | .illegalOperand => .next (takeError .decode ⟨.usageFault, .illegalOperand⟩ s1)

/-- Whether an operation that went from its start to `t` had created the destination anew: it is one of the three that
call `DstOpen`, and it was not stopped before that (R131, R180, R211). -/
def openedDst (d : Decoded) (t : State) : Bool :=
  let calls := match d with
    | .command .bwOpen | .command .compress | .command .decompress => true
    | _ => false
  let stopped := match t.status.cause with
    | .seq | .srcOpenFail | .dstOpenFail => true
    | _ => false
  calls && !stopped

/-- A command word written and hardware reset asserted while its operation runs (70_reset_and_hazards.md R280). -/
def issueStruck (w : Word) (s : State) : Host.Outcome State Fault Refusal :=
  match issueCommand w s with
  | .next t => .next (strikeReset (openedDst (decode w) t) s t)
  | .fault r => .fault r
  | .refused r => .refused r

/-- The host actions that `BUSY = 1` allows: a reset, and reading `STATUS` (44_system.md R233; 70 R298). -/
def allowedWhileBusy (p : Config.Params) : HostAction → Bool
  | .reset => true
  | .read addr bytes => addr = p.regBase + 0x08 && bytes = 4
  | .write _ _ _ | .setSrc _ | .setDst _ | .setVerdicts _ _ | .issueThenReset _ => false

/-- What one action of the host does (70_reset_and_hazards.md R298). -/
def actOn (a : HostAction) (s : State) : Host.Outcome State Fault Refusal :=
  match a with
  | .write addr bytes value =>
    match windowOffset s.params addr bytes with
    | .error r => .refused r
    | .ok offset =>
      match regAt offset with
      | .cmd => issueCommand value s
      | r => .next (writeReg s value r)
  | .read addr bytes =>
    match windowOffset s.params addr bytes with
    | .error r => .refused r
    | .ok offset => .next (s.setBusData (readReg s (regAt offset)))
  | .setSrc src =>
    if (src.getD []).length ≤ Config.lenMax then .next (s.setEnv { s.env with src := src })
    else .refused .sourceTooLong
  | .setDst content => .next (s.setEnv { s.env with dst := content })
  | .setVerdicts creatable verdicts =>
    .next (s.setEnv { s.env with dstCreatable := creatable, verdicts := verdicts })
  | .reset => .next (hardReset s)
  | .issueThenReset w => issueStruck w s

/-- One move of the host: the next action is taken and carried out; without an action the block stays idle
(60_exceptions.md R270); a host that acts while `BUSY = 1` gets no move (44_system.md R233). -/
def hostMove (s : State) : Host.Outcome State Fault Refusal :=
  match s.host with
  | [] => .next s
  | a :: rest =>
    if s.status.busy = true ∧ allowedWhileBusy s.params a = false then .refused .hostWhileBusy
    else actOn a (s.setHost rest)

/-- The host's write of a command word, as its next action. -/
def commandWrite (p : Config.Params) (w : Word) : HostAction := .write p.regBase 4 w

end Sys2Proof.Machine
end

