-- ==== Sys2Proof/Machine/Step.lean ====
section
/-! DEFINITION. The step of the machine: one move of the host (00_scope.md R5; 44_system.md R233). -/

namespace Sys2Proof.Machine

/-- One step: the host's next action, with the operation it starts run to its end. -/
def step (s : State) : Host.Outcome State Fault Refusal := hostMove s

/-- `s` with the host about to write the command word whose low `nbits` bits are those of `w`, the block being idle:
the program of the block is the host's sequence of `CMD` writes (10_state.md R22; log entry 1). -/
def State.withFetchWord (s : State) (nbits w : Nat) : State :=
  { s with
    status := { s.status with busy := false }
    host := commandWrite s.params (BitVec.ofNat 32 (w % 2 ^ nbits)) :: s.host }

end Sys2Proof.Machine
end

