-- ==== Sys2Proof/Machine/Container.lean ====
section
/-! DEFINITION. The container format as functions of a code tree (30_encoding.md R96 to R104) and the Huffman tree of a
source (42_encoder.md R174 to R176) as a tree, not as a node store: the terms in which the claims about `ENCODE`,
`COMPRESS` and `DECOMPRESS` are stated. No operation of the machine uses them. -/

namespace Sys2Proof.Machine

/-- A code tree: a leaf with its symbol, or an internal node with its left and right subtrees (30_encoding.md R97). -/
inductive CodeTree where
  | leaf (b : Byte)
  | node (l r : CodeTree)
  deriving DecidableEq, Repr

/-- `hdr(t)`: the tree header (R97). -/
def CodeTree.header : CodeTree → Bits
  | .leaf b => true :: msb b 8
  | .node l r => false :: (l.header ++ r.header)

/-- The number of nodes of a tree (R100, R104). -/
def CodeTree.size : CodeTree → Nat
  | .leaf _ => 1
  | .node l r => 1 + l.size + r.size

/-- The length of the longest path from the root to a leaf (42_encoder.md R178). -/
def CodeTree.height : CodeTree → Nat
  | .leaf _ => 0
  | .node l r => 1 + max l.height r.height

/-- Whether the root is an internal node (R104; 43_decoder.md R213). -/
def CodeTree.internal : CodeTree → Bool
  | .leaf _ => false
  | .node _ _ => true

/-- The leaf a path leads to: bit 1 goes left, bit 0 right (R99, R103). -/
def CodeTree.leafAt : CodeTree → Bits → Option Byte
  | .leaf b, [] => some b
  | .leaf _, _ :: _ => none
  | .node _ _, [] => none
  | .node l r, d :: path => if d then l.leafAt path else r.leafAt path

/-- The codeword of a symbol: the path to its leaf, first edge first (R99); none when the tree has no such leaf. -/
def CodeTree.codeword : CodeTree → Byte → Option Bits
  | .leaf s, b => if s = b then some [] else none
  | .node l r, b =>
    match l.codeword b with
    | some path => some (true :: path)
    | none =>
      match r.codeword b with
      | some path => some (false :: path)
      | none => none

/-- A tree in the queue of the construction, with its key (42_encoder.md R175). -/
structure QueueEntry where
  weight : Nat
  depth : Nat
  id : Nat
  tree : CodeTree
  deriving DecidableEq, Repr

/-- The key of a tree in the queue (42_encoder.md R175). -/
def queueKey (a : QueueEntry) : Config.NodeKey := ⟨a.weight, a.depth, a.id⟩

/-- The order of the queue (42_encoder.md R175). -/
def queueBefore (tie : Config.TieRule) (a b : QueueEntry) : Bool :=
  keyBefore tie (queueKey a) (queueKey b)

/-- A tree put into the queue at its place. -/
def queueInsert (tie : Config.TieRule) (a : QueueEntry) : List QueueEntry → List QueueEntry
  | [] => [a]
  | b :: rest => if queueBefore tie a b then a :: b :: rest else b :: queueInsert tie a rest

/-- The seeded queue of a source: one leaf per symbol that occurs (42_encoder.md R174). -/
def queueOf (tie : Config.TieRule) (x : List Byte) : List QueueEntry :=
  ((List.range 256).map (BitVec.ofNat 8)).foldl
    (fun q b => if x.count b = 0 then q else queueInsert tie ⟨x.count b, 0, b.toNat, .leaf b⟩ q) []

/-- The tree of the parent of `a`, extracted first, and `b`, the children placed by the tie rule (42_encoder.md R176). -/
def joinTrees (tie : Config.TieRule) (a b : QueueEntry) : CodeTree :=
  .node (childrenOf tie (queueKey a) (queueKey b) a.tree b.tree).1 (childrenOf tie (queueKey a) (queueKey b) a.tree b.tree).2

/-- The merge loop: the two least trees are joined, the children placed by the tie rule (42_encoder.md R176). -/
def queueMerge (tie : Config.TieRule) : Nat → Nat → List QueueEntry → List QueueEntry
  | 0, _, q => q
  | fuel + 1, next, q =>
    match q with
    | a :: b :: rest =>
      queueMerge tie fuel (next + 1)
        (queueInsert tie ⟨a.weight + b.weight, 1 + max a.depth b.depth, next, joinTrees tie a b⟩ rest)
    | _ => q

/-- The Huffman tree of a source under a tie rule; none for an empty source (42_encoder.md R174 to R176). -/
def huffmanTree (tie : Config.TieRule) (x : List Byte) : Option CodeTree :=
  match queueMerge tie 256 256 (queueOf tie x) with
  | [] => none
  | e :: _ => some e.tree

/-- How many different symbols a source has: `K` (00_scope.md R11). -/
def distinctSymbols (x : List Byte) : Nat := x.dedup.length

/-- The payload of a source under a tree: the codewords in order (R99). -/
def payloadBits (t : CodeTree) (x : List Byte) : Bits := x.flatMap fun b => (t.codeword b).getD []

/-- The padding length of a bit string of `n` bits: `(8 - n mod 8) mod 8` (R101). -/
def padTo8 (n : Nat) : Nat := (8 - n % 8) % 8

/-- The bit string of the container of a source under a tree: header, 3-bit padding length, payload, padding (R102). -/
def containerBits (t : CodeTree) (x : List Byte) : Bits :=
  let pad := padTo8 (t.header.length + 3 + (payloadBits t x).length)
  t.header ++ msb (BitVec.ofNat 3 pad) 3 ++ payloadBits t x ++ zeros pad

/-- `container(x)` under a tree (R102). -/
def containerOf (t : CodeTree) (x : List Byte) : List Byte := pack (containerBits t x)

/-- How reading a header from the start of a bit string ends (43_decoder.md R212, R213): whole, with the number of its nodes
and the bits after it; or stopped for want of bits, with the number of nodes begun, or at the 512th node, each with the bits
not read. -/
inductive HeaderEnd where
  | whole (nodes : Nat) (rest : Bits)
  | truncated (nodes : Nat) (rest : Bits)
  | tooLarge (rest : Bits)
  deriving DecidableEq, Repr

/-- The header at the start of a bit string, as a count of the subtrees still to come and of the nodes begun: a 0 asks for
two subtrees, a 1 takes the next eight bits as a symbol, and the 512th node is refused before its marker is read (R212, R213). -/
def scanHeader (due nodes : Nat) (u : Bits) : HeaderEnd :=
  match due with
  | 0 => .whole nodes u
  | due + 1 =>
    if nodes = Config.nodeMax then .tooLarge u
    else
      match u with
      | [] => .truncated (nodes + 1) []
      | false :: rest => scanHeader (due + 2) (nodes + 1) rest
      | true :: _ :: _ :: _ :: _ :: _ :: _ :: _ :: _ :: rest => scanHeader due (nodes + 1) rest
      | true :: rest => .truncated (nodes + 1) rest
  termination_by structural u

/-- `c` is the well-formed container with the tree `t` and the padding length `pad` that spells `out` (R104): a header with an
internal root and at most 511 nodes, the padding length, complete codewords that lead to the symbols of `out`, and exactly
that many bits left. -/
abbrev SpellsBy (c : List Byte) (t : CodeTree) (pad : BitVec 3) (out : List Byte) : Prop :=
  ∃ (paths : List Bits) (rest : Bits),
    t.internal = true ∧ t.size ≤ Config.nodeMax ∧
    unpack c = t.header ++ msb pad 3 ++ paths.flatten ++ rest ∧
    rest.length = pad.toNat ∧
    paths.map t.leafAt = out.map some

/-- `c` is a well-formed container that spells `out` (R104). -/
def SpellsOut (c out : List Byte) : Prop := ∃ (t : CodeTree) (pad : BitVec 3), SpellsBy c t pad out

end Sys2Proof.Machine
end

