-- ==== Sys2Proof/Safety.lean ====
section
/-! DEFINITION. The terms in which the claims speak: the bits a unit stands for, the forms of the parts of the state that
every step keeps, when a command is allowed, and the statuses an operation ends with. -/

namespace Sys2Proof.Machine

/-! How an operation reports (30_encoding.md R94; 60_exceptions.md R262 (e)). -/

/-- The status after an operation that ended `OK`. -/
def statusOk (s : State) : Status :=
  { s.status with code := .ok, cause := .none, busy := false }

/-- The status after an operation that ended with an error. -/
def statusErr (c : Code) (k : Cause) (s : State) : Status :=
  { s.status with code := c, cause := k, sticky := true, busy := false }

/-! The BitWriter and BitReader as bit strings. -/

/-- The bits the writer holds back: the live prefix, then the filled bits of the current byte (10_state.md R32). -/
def heldBits (w : BitWriter) : Bits :=
  unpack w.buf ++ (msb w.cur 8).take (8 - w.free.toNat)

/-- The bit string written so far: what reached DST, then what the writer holds (10_state.md R32). -/
def written (s : State) : Bits := unpack s.env.dst ++ heldBits s.bw

/-- The bits not yet read: the buffered ones, then the source bytes not yet fetched (10_state.md R33). -/
def unread (s : State) : Bits :=
  (unpack (s.br.buf.drop s.br.pos)).drop s.br.bit.toNat ++ unpack ((s.env.src.getD []).drop s.br.off.toNat)

/-- The whole bytes a bit string begins with (00_scope.md R8). -/
def wholeBytes (b : Bits) : List Byte := pack (b.take (8 * (b.length / 8)))

/-- The environment accepts every burst to come (20_memory.md R66). -/
abbrev AcceptsBursts (s : State) : Prop := ∀ v ∈ s.env.verdicts, v = true

/-- The first burst to come that the environment refuses is number `i`, counted from 0 (20_memory.md R66). -/
abbrev RefusesBurst (s : State) (i : Nat) : Prop :=
  s.env.verdicts[i]? = some false ∧ ∀ j < i, s.env.verdicts[j]? ≠ some false

/-- No burst of the delivery of the bytes `y` is refused: the first refusal, if any, comes after the last burst needed
(20_memory.md R66, R76). -/
abbrev AcceptsBytes (s : State) (y : List Byte) : Prop := ∀ i, RefusesBurst s i → y.length ≤ i * s.params.bufBytes

/-- The codeword the symbol table gives a byte (10_state.md R27). -/
def codeBitsOf (e : Encoder) (b : Byte) : Bits := msb (symAt e b).code (symAt e b).len.toNat

/-- What `COMPRESS` emits for the bytes `x` with the table it has: header, padding length, codewords (42_encoder.md R182 to R184). -/
def emissionOf (e : Encoder) (x : List Byte) : Bits :=
  e.hdr ++ msb (BitVec.ofNat 3 (padLength e)) 3 ++ x.flatMap (codeBitsOf e)

/-- The bytes of `x` before the first one that has no code in the table (42_encoder.md R184). -/
def codedPrefix (e : Encoder) (x : List Byte) : List Byte := x.takeWhile fun b => (symAt e b).len ≠ 0

/-! The forms every step keeps. -/

/-- The writer's form (10_state.md R32; 40_bitwriter.md R135): 1 to 8 free bits, all of them zero in `BW.cur`, the live
prefix shorter than the buffer; a closed writer is empty. -/
abbrev WriterForm (s : State) : Prop :=
  1 ≤ s.bw.free.toNat ∧ s.bw.free.toNat ≤ 8 ∧ s.bw.buf.length < s.params.bufBytes ∧
  (∀ k < s.bw.free.toNat, s.bw.cur.getLsbD k = false) ∧
  (s.bw.isOpen = false → s.bw.buf = [] ∧ s.bw.free = 8)

/-- The reader's form while open (10_state.md R33): positions in range and the count of `BR.remaining`. -/
abbrev ReaderForm (s : State) : Prop :=
  s.br.isOpen = true →
    s.br.off.toNat ≤ s.regs.srcLen.toNat ∧ s.br.pos ≤ s.br.buf.length ∧
    s.br.buf.length ≤ s.params.bufBytes ∧ (s.br.bit ≠ 0 → s.br.pos < s.br.buf.length) ∧
    s.br.remaining.toNat + s.br.bit.toNat =
      8 * (s.regs.srcLen.toNat - s.br.off.toNat) + 8 * (s.br.buf.length - s.br.pos)

/-- Between operations a unit holds its port exactly while it is open (20_memory.md R62 to R67; 70 R297). -/
abbrev HandleForm (s : State) : Prop := s.env.dstHeld = s.bw.isOpen ∧ s.env.srcHeld = s.br.isOpen

/-- Between operations the block is idle, every cause stands with a status it occurs with, and an error has set
`STICKY` (30_encoding.md R95; 44_system.md R233; 60_exceptions.md R265). -/
abbrev StatusForm (s : State) : Prop :=
  s.status.busy = false ∧ s.status.code ∈ causeStatuses s.status.cause ∧
  (s.status.code ≠ .ok → s.status.sticky = true)

/-- Every code length is at most 32 (10_state.md R27) and the queue is empty (10_state.md R29). -/
abbrev TableForm (s : State) : Prop :=
  (∀ b : Byte, (symAt s.enc b).len.toNat ≤ Config.codeMax) ∧ s.enc.pq = []

/-- The header buffer and `HDR_BITS` are within `HDR_MAX_BITS` (00_scope.md R6; 10_state.md R21, R30), and while the table is
valid `HDR_BITS` is the length of the captured header (42_encoder.md R179). -/
abbrev HeaderForm (s : State) : Prop :=
  s.enc.hdr.length ≤ Config.hdrMaxBits ∧ s.enc.hdrBits.toNat ≤ Config.hdrMaxBits ∧
  (s.status.encValid = true → s.enc.hdrBits.toNat = s.enc.hdr.length)

/-! What the commands presuppose and leave. -/

/-- Both units are closed, the writer empty, and no handle is held (60_exceptions.md R262; 70_reset_and_hazards.md R297). -/
structure Released (t : State) : Prop where
  writer : t.bw = { isOpen := false, buf := [], cur := 0, free := 8 }
  reader : t.br.isOpen = false
  source : t.env.srcHeld = false
  sink : t.env.dstHeld = false

/-- The subtree at `i` of the decoder's store is the tree `t`, its nodes numbered in preorder (10_state.md R31; 43_decoder.md
R212). -/
def DtHolds (d : Decoder) (i : NodeId) : CodeTree → Prop
  | .leaf b => (dtAt d i).leaf = true ∧ (dtAt d i).sym = b
  | .node l r =>
    (dtAt d i).leaf = false ∧ (dtAt d i).left.toNat = i.toNat + 1 ∧ (dtAt d i).right.toNat = i.toNat + 1 + l.size ∧
      DtHolds d (dtAt d i).left l ∧ DtHolds d (dtAt d i).right r

/-- The decoder holds the header and the padding length it has read: `DT` the tree, `DT_N` the number of its nodes, `DEC_PAD`
the field (43_decoder.md R210, R212, R214). -/
structure TreeRead (d : Decoder) (t : CodeTree) (pad : BitVec 3) : Prop where
  tree : DtHolds d 0 t
  nodes : d.dtN.toNat = t.size
  decPad : d.decPad = pad

/-- What `DECOMPRESS` leaves in `t` when it rejects the header with the cause `k`, `nodes` nodes begun and `left` bits not read:
an empty destination, everything released, `DEC_PAD` not written (43_decoder.md R211 to R214; 60_exceptions.md R256, R263). -/
structure HeaderRejected (s : State) (k : Cause) (nodes left : Nat) (t : State) : Prop where
  status : t.status = statusErr .sourceErr k s
  dst : t.env.dst = []
  counted : t.regs.dstLen = 0
  nodes : t.dec.dtN.toNat = nodes
  left : t.br.remaining.toNat = left
  decPad : t.dec.decPad = s.dec.decPad
  released : Released t

/-- What a composite command leaves in `t` when, of the bytes `y` it was to deliver, burst number `i` was refused: the bursts
before it and an unspecified beginning of it are in DST, `DST_LEN` counts the former, nothing more is written or asked for
(20_memory.md R66; 60_exceptions.md R255, R262 (d)). -/
structure StoppedAtBurst (s : State) (i : Nat) (y : List Byte) (t : State) : Prop where
  status : t.status = statusErr .dstErr .dstWriteFail s
  dst : ∃ p, p <+: (y.drop (i * s.params.bufBytes)).take s.params.bufBytes ∧
    t.env.dst = y.take (i * s.params.bufBytes) ++ p
  counted : t.regs.dstLen = BitVec.ofNat 32 (i * s.params.bufBytes)
  verdicts : t.env.verdicts = s.env.verdicts.drop (i + 1)
  released : Released t

/-- The elements of the reset table that have a reset value, but for `ARG` and `SYM_SEL` (10_state.md R37). It says nothing
of the contents R37 leaves unspecified. -/
structure BlockAtReset (s : State) : Prop where
  result : s.regs.result = 0
  status : s.status.code = .ok ∧ s.status.busy = false ∧ s.status.encValid = false ∧ s.status.sticky = false
  cause : s.status.cause = .none
  lengths : s.regs.srcLen = 0 ∧ s.regs.dstLen = 0
  counts : s.enc.hdrBits = 0 ∧ s.enc.encPad = 0 ∧ s.dec.decPad = 0 ∧ s.enc.nsym = 0 ∧ s.enc.total = 0
  table : ∀ b : Byte, (symAt s.enc b).count = 0 ∧ (symAt s.enc b).code = 0 ∧ (symAt s.enc b).len = 0
  trees : s.enc.etNext = 256 ∧ s.dec.dtN = 0
  queue : s.enc.pq = []
  writer : s.bw.isOpen = false ∧ s.bw.buf.length = 0 ∧ s.bw.cur = 0 ∧ s.bw.free = 8
  reader : s.br.isOpen = false ∧ s.br.buf.length = 0 ∧ s.br.pos = 0 ∧ s.br.bit = 0 ∧ s.br.off = 0 ∧
    s.br.remaining = 0
  handles : s.env.srcHeld = false ∧ s.env.dstHeld = false

/-- When a command is allowed (the table of 44_system.md R234). -/
def allowed (i : Instr) (s : State) : Bool :=
  match i with
  | .nop | .clear => true
  | .encode | .decompress => !s.bw.isOpen && !s.br.isOpen
  | .compress => !s.bw.isOpen && !s.br.isOpen && s.status.encValid
  | .bwOpen => !s.bw.isOpen
  | .bwWbits _ | .bwWbyte | .bwClose => s.bw.isOpen
  | .brOpen => !s.br.isOpen
  | .brRbit | .brRbyte8 | .brClose => s.br.isOpen

/-- The open reader stands for the bit string of the source `x`, the cursor being `8 * SRC_LEN - remaining`
(41_bitreader.md R150). -/
structure ReaderStandsFor (s : State) (x : List Byte) : Prop where
  opened : s.br.isOpen = true
  source : s.env.src = some x
  short : x.length ≤ Config.lenMax
  length : s.regs.srcLen.toNat = x.length
  form : ReaderForm s
  cursor : unread s = (unpack x).drop (8 * x.length - s.br.remaining.toNat)

/-- The encoder side holds the result of a successful `ENCODE` on `x` with the tree `t` (42_encoder.md R170). -/
structure EncodedFor (s : State) (x : List Byte) (t : CodeTree) : Prop where
  valid : s.status.encValid = true
  counts : ∀ b : Byte, (symAt s.enc b).count.toNat = x.count b
  total : s.enc.total.toNat = x.length
  nsym : s.enc.nsym.toNat = distinctSymbols x
  tree : huffmanTree s.params.tie x = some t
  codes : ∀ b ∈ x, ∃ path, t.codeword b = some path ∧ 1 ≤ path.length ∧ path.length ≤ Config.codeMax ∧
    (symAt s.enc b).len.toNat = path.length ∧ (symAt s.enc b).code.toNat = num path
  absent : ∀ b : Byte, b ∉ x → (symAt s.enc b).len = 0
  header : s.enc.hdr = t.header
  hdrBits : s.enc.hdrBits.toNat = t.header.length

/-- A run has ended well: no error since reset or `CLEAR`, reader and writer closed, no handle held
(70_reset_and_hazards.md R297). -/
abbrev EndedWell (s : State) : Prop :=
  s.status.sticky = false ∧ s.bw.isOpen = false ∧ s.br.isOpen = false ∧
  s.env.srcHeld = false ∧ s.env.dstHeld = false

end Sys2Proof.Machine
end

