-- ==== Sys2Proof/Certificates/Slice0/Obligations.lean ====
section
/-! DEFINITION. The statements for the provers. Each docstring names the rules of spec/ it formalises. -/

open Sys2Proof Sys2Proof.Machine

/-! Encoding (30_encoding.md R90 to R93). -/

/-- R90, R92: decoding the command word of a well-formed command gives the command back. -/
def Obligations.DecodeOfEncode : Prop :=
  ∀ i : Instr, i.wf = true → decode (encode i) = .command i

/-- R90, R92, R93: a word that decodes to a command is that command's one word, and the command is well formed. -/
def Obligations.EncodeOfDecode : Prop :=
  ∀ (w : Word) (i : Instr), decode w = .command i → i.wf = true ∧ encode i = w

/-- R93 steps 1 and 2: which words are rejected, and under which name. -/
def Obligations.IllegalWordsByName : Prop :=
  ∀ w : Word,
    let opcodes : List (BitVec 8) :=
      [0x00, 0x01, 0x10, 0x11, 0x12, 0x20, 0x21, 0x22, 0x23, 0x30, 0x31, 0x32, 0x33]
    (decode w = .illegalCmd ↔ opcField w ∉ opcodes) ∧
    (decode w = .illegalOperand ↔
      opcField w ∈ opcodes ∧
        (rsvField w ≠ 0 ∨ (opcField w ≠ 0x21 ∧ nField w ≠ 0) ∨ (opcField w = 0x21 ∧ 32 < (nField w).toNat)))

/-- R92 and opcode_table.json: words written out from the table decode to the commands they stand for. -/
def Obligations.TableWordsDecode : Prop :=
  decode 0b00000000000000000000000000000000#32 = .command .nop ∧
  decode 0b00000000000000000000000000010000#32 = .command .encode ∧
  decode 0b00000000000000000000000000010010#32 = .command .decompress ∧
  decode 0b00000000000000000010000000100001#32 = .command (.bwWbits 32) ∧
  decode 0b00000000000000000000000000110010#32 = .command .brRbyte8

/-! The host's moves (20_memory.md R61; 44_system.md R232, R233). -/

/-- R233: a write of a command word sets `BUSY` and runs the decoded command, and the step is nothing else than that
command on that state, the host's action being used up. -/
def Obligations.StepRunsDecodedCommand : Prop :=
  ∀ (s : State) (rest : List HostAction) (w : Word) (i : Instr),
    s.status.busy = false → s.host = commandWrite s.params w :: rest → decode w = .command i →
    step s = exec i { s with host := rest, status := { s.status with busy := true } }

/-- R93: a word that is no command ends with its usage fault, and only `CODE`, `CAUSE`, `STICKY` change. -/
def Obligations.StepEndsIllegalWord : Prop :=
  ∀ (s : State) (rest : List HostAction) (w : Word),
    s.status.busy = false → s.host = commandWrite s.params w :: rest →
    (decode w = .illegalCmd →
      step s = .next { s with host := rest, status := statusErr .usageFault .illegalCmd s }) ∧
    (decode w = .illegalOperand →
      step s = .next { s with host := rest, status := statusErr .usageFault .illegalOperand s })

/-- R21, R23, R61: a host write stores `ARG` whole and the low eight bits of `SYM_SEL`; a write at any other aligned offset
but that of `CMD` is ignored. -/
def Obligations.HostWriteStoresOrIsIgnored : Prop :=
  ∀ (s : State) (rest : List HostAction) (offset : Nat) (v : Word),
    s.status.busy = false → s.host = .write (s.params.regBase + offset) 4 v :: rest →
    offset % 4 = 0 → offset < 256 →
    (offset = 0x04 → step s = .next { s with host := rest, regs := { s.regs with arg := v } }) ∧
    (offset = 0x34 →
      step s = .next { s with host := rest, regs := { s.regs with symSel := v.extractLsb' 0 8 } }) ∧
    (offset ≠ 0x00 → offset ≠ 0x04 → offset ≠ 0x34 → step s = .next { s with host := rest })

/-- R21, R61, R232: a host read returns the register's value on the host's side and changes nothing of the block;
`CMD` and the reserved offsets read as 0. That the value stands in the field `busData` is the model's choice (log entry 16). -/
def Obligations.HostReadHasNoSideEffect : Prop :=
  ∀ (s : State) (rest : List HostAction) (offset : Nat),
    s.status.busy = false → s.host = .read (s.params.regBase + offset) 4 :: rest →
    offset % 4 = 0 → offset < 256 →
    step s = .next { s with host := rest, busData := readReg s (regAt offset) } ∧
    (offset = 0x00 ∨ 0x4C ≤ offset → readReg s (regAt offset) = 0)

/-- R21, R24 to R27: the word a host reads at each offset of the window that has a register: `ARG` and `RESULT`, the fields of
`STATUS` and `CAUSE`, the lengths and results of the last operations, the pair that shows `BR.remaining`, `SYM_SEL` and the
record it selects, `BW.free` and `DEC_PAD`, each with zeros above its width. R94, R95: the numbers in `CODE` and `CAUSE`. -/
def Obligations.RegisterWindowWords : Prop :=
  [Code.ok, .fileOpenErr, .sourceErr, .dstErr, .decodeFault, .usageFault].map codeBits = [0, 1, 2, 3, 4, 5] ∧
  [Cause.none, .srcOpenFail, .fewSymbols, .codeTooLong, .dstOpenFail, .dstWriteFail, .hdrTrunc, .hdrRootLeaf,
    .hdrTooLarge, .payloadTrunc, .illegalCmd, .illegalOperand, .seq, .bwUnaligned, .brEos, .srcChanged,
    .padMismatch].map causeBits =
    [0x00, 0x01, 0x02, 0x03, 0x04, 0x05, 0x06, 0x07, 0x08, 0x09, 0x0A, 0x0B, 0x0C, 0x0D, 0x0E, 0x0F, 0x10] ∧
  ∀ s : State,
    let word (offset : Nat) : Word := readReg s (regAt offset)
    word 0x04 = s.regs.arg ∧
    (word 0x08).extractLsb' 0 3 = codeBits s.status.code ∧
    (word 0x08).getLsbD 3 = s.status.busy ∧
    (word 0x08).getLsbD 4 = s.status.encValid ∧
    (word 0x08).getLsbD 5 = s.bw.isOpen ∧
    (word 0x08).getLsbD 6 = s.br.isOpen ∧
    (word 0x08).getLsbD 7 = s.status.sticky ∧
    (word 0x08).extractLsb' 8 24 = 0 ∧
    (word 0x0C).extractLsb' 0 8 = causeBits s.status.cause ∧
    (word 0x0C).extractLsb' 8 24 = 0 ∧
    word 0x10 = s.regs.result ∧
    word 0x14 = s.regs.srcLen ∧
    word 0x18 = s.regs.dstLen ∧
    (word 0x1C).toNat = s.enc.hdrBits.toNat ∧
    (word 0x20).toNat = s.enc.encPad.toNat ∧
    (word 0x24).toNat = s.enc.nsym.toNat ∧
    word 0x28 = s.enc.total ∧
    (word 0x30).toNat * 2 ^ 32 + (word 0x2C).toNat = s.br.remaining.toNat ∧
    (word 0x34).toNat = s.regs.symSel.toNat ∧
    word 0x38 = (symAt s.enc s.regs.symSel).count ∧
    word 0x3C = (symAt s.enc s.regs.symSel).code ∧
    (word 0x40).toNat = (symAt s.enc s.regs.symSel).len.toNat ∧
    (word 0x44).toNat = s.bw.free.toNat ∧
    (word 0x48).toNat = s.dec.decPad.toNat

/-- R61, R233, R284, R293, R298: where the step gives the host no move: an access of the window that is not an aligned 32-bit
word, every action while `BUSY = 1` (a write, the read of another register than `STATUS`, a change of SRC, DST or the
verdicts) but a reset and the read of `STATUS`, which stays possible, and a source longer than `LEN_MAX`. That the word read
stands in the field `busData` is the model's choice (log entry 16), and that a source too long is refused under the name
`sourceTooLong` is deduced (log entry 17). -/
def Obligations.HostOutsideContractRefused : Prop :=
  ∀ (s : State) (rest : List HostAction),
    (∀ (offset bytes : Nat) (v : Word), s.status.busy = false → offset < 256 → bytes ≠ 4 ∨ offset % 4 ≠ 0 →
      (s.host = .write (s.params.regBase + offset) bytes v :: rest ∨
        s.host = .read (s.params.regBase + offset) bytes :: rest) →
      step s = .refused .accessNotWord) ∧
    (∀ a : HostAction, s.status.busy = true → s.host = a :: rest → a ≠ .reset →
      a ≠ .read (s.params.regBase + 0x08) 4 → step s = .refused .hostWhileBusy) ∧
    (s.status.busy = true → s.host = .read (s.params.regBase + 0x08) 4 :: rest →
      step s = .next { s with host := rest, busData := readReg s .status }) ∧
    (∀ x : List Byte, s.status.busy = false → s.host = .setSrc (some x) :: rest → Config.lenMax < x.length →
      step s = .refused .sourceTooLong)

/-! Reset (10_state.md R37; 70_reset_and_hazards.md R280). -/

/-- R37: after hardware reset every element that has a reset value has it. -/
def Obligations.ResetValues : Prop :=
  BlockAtReset State.reset ∧ State.reset.regs.arg = 0 ∧ State.reset.regs.symSel = 0

/-- R280, R37: hardware reset between operations puts the block at its reset values, releases the handles and leaves SRC and
DST as they are. -/
def Obligations.HardwareResetStep : Prop :=
  ∀ (s : State) (rest : List HostAction), s.host = .reset :: rest →
    ∃ t, step s = .next t ∧ BlockAtReset t ∧ t.regs.arg = 0 ∧ t.regs.symSel = 0 ∧
      t.env = { s.env with srcHeld := false, dstHeld := false } ∧ t.params = s.params ∧ t.host = rest

/-- R280: hardware reset that strikes an operation leaves the block at its reset values, SRC untouched, and in DST a beginning
of what the operation would have left there, or what was there before. That reset during an operation is the host action
`issueThenReset`, and that DST may still be what was there before (the reset came before the destination was opened), are the
model's choice (log entry 14). -/
def Obligations.ResetDuringOperation : Prop :=
  ∀ (s : State) (rest : List HostAction) (w : Word), s.status.busy = false → s.host = .issueThenReset w :: rest →
    ∃ t u, step s = .next t ∧ issueCommand w { s with host := rest } = .next u ∧
      BlockAtReset t ∧ t.regs.arg = 0 ∧ t.regs.symSel = 0 ∧ t.env.src = s.env.src ∧
      (t.env.dst = s.env.dst ∨ t.env.dst <+: u.env.dst)

/-! Housekeeping (44_system.md R230, R231). -/

/-- R230: `NOP`, the word 0x00000000, clears `CODE` and `CAUSE` and changes nothing else, in every state. -/
def Obligations.NopClearsCodeAndCause : Prop :=
  decode 0x00000000#32 = .command .nop ∧ ∀ s : State, exec .nop s = .next { s with status := statusOk s }

/-- R231: `CLEAR`, the word 0x00000001, brings the block to its reset values but for `ARG` and `SYM_SEL`, releases the handles,
flushes nothing. -/
def Obligations.ClearRestoresReset : Prop :=
  decode 0x00000001#32 = .command .clear ∧ ∀ s : State, ∃ t, exec .clear s = .next t ∧ BlockAtReset t ∧
    t.regs.arg = s.regs.arg ∧ t.regs.symSel = s.regs.symSel ∧
    t.env = { s.env with srcHeld := false, dstHeld := false } ∧
    t.params = s.params ∧ t.host = s.host ∧ t.busData = s.busData

/-! The BitWriter (40_bitwriter.md). -/

/-- R131: `BW.OPEN`, the word 0x00000020, in its three cases. -/
def Obligations.BwOpenAcquiresSink : Prop :=
  decode 0x00000020#32 = .command .bwOpen ∧ ∀ s : State,
    (s.bw.isOpen = true → exec .bwOpen s = .next { s with status := statusErr .usageFault .seq s }) ∧
    (s.bw.isOpen = false → s.env.dstCreatable = false →
      exec .bwOpen s = .next
        { s with
          bw := { isOpen := false, buf := [], cur := 0, free := 8 }
          env := { s.env with dstHeld := false }
          status := statusErr .dstErr .dstOpenFail s }) ∧
    (s.bw.isOpen = false → s.env.dstCreatable = true →
      exec .bwOpen s = .next
        { s with
          bw := { isOpen := true, buf := [], cur := 0, free := 8 }
          regs := { s.regs with dstLen := 0 }
          env := { s.env with dst := [], dstHeld := true }
          status := statusOk s })

/-- R130, R132: `BW.WBITS` appends the low `n` bits of `ARG`, most significant first, to the bit string written so far,
for every buffer size and across flushes; what was in DST stays, and nothing but the writer, DST and `DST_LEN` changes. -/
def Obligations.BwWbitsAppends : Prop :=
  ∀ (s : State) (n : BitVec 6), n.toNat ≤ 32 → WriterForm s → s.bw.isOpen = true → AcceptsBursts s →
    ∃ t, exec (.bwWbits n) s = .next t ∧
      written t = written s ++ msb s.regs.arg n.toNat ∧ WriterForm t ∧ t.bw.isOpen = true ∧
      s.env.dst <+: t.env.dst ∧
      t.regs.dstLen = s.regs.dstLen + BitVec.ofNat 32 (t.env.dst.length - s.env.dst.length) ∧
      t = { s with
            bw := t.bw
            regs := { s.regs with dstLen := t.regs.dstLen }
            env := { s.env with dst := t.env.dst, verdicts := t.env.verdicts }
            status := statusOk s }

/-- R132, R262 (b): whatever the environment answers, `BW.WBITS` ends `OK` with the writer open, or with
`DST_ERR(DST_WRITE_FAIL)` and the writer closed, emptied and the sink released; what was in DST stays, and nothing but the
writer, the DST side, `DST_LEN` and the status changes (and the model's own count of free values).
R66, R135: from the writer's form, which of the two it is and what reaches DST: the bits held and the bits appended make whole
bytes, whose full buffers are the bursts; with none of these refused all are in DST and counted and it ends `OK`; at the first
refused one it stops, with the bursts before it in DST and counted and an unspecified beginning of it behind them. -/
def Obligations.BwWbitsOutcomes : Prop :=
  ∀ (s : State) (n : BitVec 6), n.toNat ≤ 32 → s.bw.isOpen = true →
    ∃ t, exec (.bwWbits n) s = .next t ∧ s.env.dst <+: t.env.dst ∧
      ((t.status = statusOk s ∧ t.bw.isOpen = true ∧ t.env.dstHeld = s.env.dstHeld) ∨
       (t.status = statusErr .dstErr .dstWriteFail s ∧
        t.bw = { isOpen := false, buf := [], cur := 0, free := 8 } ∧ t.env.dstHeld = false)) ∧
      t = { s with
            bw := t.bw
            regs := { s.regs with dstLen := t.regs.dstLen }
            env := { s.env with dst := t.env.dst, verdicts := t.env.verdicts, dstHeld := t.env.dstHeld }
            status := t.status
            freeCount := t.freeCount } ∧
      (WriterForm s →
        let y := wholeBytes (heldBits s.bw ++ msb s.regs.arg n.toNat)
        let size := s.params.bufBytes
        let bursts := y.length / size
        ((∀ i < bursts, ¬ RefusesBurst s i) →
          t.status = statusOk s ∧ t.env.dst = s.env.dst ++ y.take (bursts * size) ∧
          t.regs.dstLen = s.regs.dstLen + BitVec.ofNat 32 (bursts * size) ∧
          t.env.verdicts = s.env.verdicts.drop bursts) ∧
        (∀ i < bursts, RefusesBurst s i →
          t.status = statusErr .dstErr .dstWriteFail s ∧
          (∃ p, p <+: (y.drop (i * size)).take size ∧ t.env.dst = s.env.dst ++ y.take (i * size) ++ p) ∧
          t.regs.dstLen = s.regs.dstLen + BitVec.ofNat 32 (i * size) ∧
          t.env.verdicts = s.env.verdicts.drop (i + 1)))

/-- R91, R132: bits of `ARG` at and above `n` do not matter: two states that differ in them only run alike. -/
def Obligations.BwWbitsIgnoresHighBits : Prop :=
  ∀ (s : State) (n : BitVec 6) (v v' : Word), (∀ k < n.toNat, v.getLsbD k = v'.getLsbD k) →
    ∃ t t', exec (.bwWbits n) { s with regs := { s.regs with arg := v } } = .next t ∧
      exec (.bwWbits n) { s with regs := { s.regs with arg := v' } } = .next t' ∧
      t' = { t with regs := { t.regs with arg := v' } }

/-- R93, R132: a bit count above 32 is refused before anything else, and a count of 0 appends nothing. -/
def Obligations.BwWbitsCountLimits : Prop :=
  ∀ (s : State) (n : BitVec 6),
    (32 < n.toNat → exec (.bwWbits n) s = .next { s with status := statusErr .usageFault .illegalOperand s }) ∧
    (n = 0 → s.bw.isOpen = true → exec (.bwWbits n) s = .next { s with status := statusOk s })

/-- R133, R135, R262 (b): `BW.WBYTE` in its cases: closed, not aligned, a free slot, a full buffer whose flush is accepted, a
full buffer whose flush is refused (an unspecified beginning of the burst reaches DST and `DST_LEN` stays). -/
def Obligations.BwWbytePutsByte : Prop :=
  ∀ s : State,
    let full := s.bw.buf ++ [s.regs.arg.extractLsb' 0 8]
    (s.bw.isOpen = false → exec .bwWbyte s = .next { s with status := statusErr .usageFault .seq s }) ∧
    (s.bw.isOpen = true → s.bw.free ≠ 8 →
      exec .bwWbyte s = .next { s with status := statusErr .usageFault .bwUnaligned s }) ∧
    (s.bw.isOpen = true → s.bw.free = 8 → full.length ≠ s.params.bufBytes →
      exec .bwWbyte s = .next { s with bw := { s.bw with buf := full }, status := statusOk s }) ∧
    (s.bw.isOpen = true → s.bw.free = 8 → full.length = s.params.bufBytes → s.env.verdicts.head? ≠ some false →
      exec .bwWbyte s = .next
        { s with
          bw := { s.bw with buf := [] }
          regs := { s.regs with dstLen := s.regs.dstLen + BitVec.ofNat 32 full.length }
          env := { s.env with dst := s.env.dst ++ full, verdicts := s.env.verdicts.tail }
          status := statusOk s }) ∧
    (s.bw.isOpen = true → s.bw.free = 8 → full.length = s.params.bufBytes → s.env.verdicts.head? = some false →
      ∃ t p, exec .bwWbyte s = .next t ∧ p <+: full ∧
        t = { s with
              bw := { isOpen := false, buf := [], cur := 0, free := 8 }
              env := { s.env with dst := s.env.dst ++ p, verdicts := s.env.verdicts.tail, dstHeld := false }
              status := statusErr .dstErr .dstWriteFail s
              freeCount := t.freeCount })

/-- R133: on an aligned writer `BW.WBYTE b` has exactly the effect of `BW.WBITS b, 8`, whatever the flush answers. -/
def Obligations.BwWbyteIsWbits8 : Prop :=
  ∀ s : State, WriterForm s → s.bw.isOpen = true → s.bw.free = 8 → exec .bwWbyte s = exec (.bwWbits 8) s

/-- R130, R134: a successful `BW.CLOSE` leaves in DST all bits written, padded with zero bits to a byte boundary, with the
writer closed and empty and the sink released. -/
def Obligations.BwClosePacks : Prop :=
  ∀ s : State, WriterForm s → s.bw.isOpen = true → AcceptsBursts s →
    ∃ t, exec .bwClose s = .next t ∧
      unpack t.env.dst = written s ++ zeros ((8 - (written s).length % 8) % 8) ∧
      s.env.dst <+: t.env.dst ∧
      t.regs.dstLen = s.regs.dstLen + BitVec.ofNat 32 (t.env.dst.length - s.env.dst.length) ∧
      t = { s with
            bw := { isOpen := false, buf := [], cur := 0, free := 8 }
            regs := { s.regs with dstLen := t.regs.dstLen }
            env := { s.env with dst := t.env.dst, verdicts := t.env.verdicts, dstHeld := false }
            status := statusOk s }

/-- R66, R134: `BW.CLOSE` closes the writer and releases the sink whatever the final burst answers: without a byte to deliver, or
with its burst accepted, it ends `OK` and `DST_LEN` counts the burst; a refused burst is `DST_ERR(DST_WRITE_FAIL)`, not counted
in `DST_LEN`, with an unspecified beginning of it in DST; nothing but the writer, the DST side, `DST_LEN` and the status
changes. -/
def Obligations.BwCloseAlwaysCloses : Prop :=
  ∀ s : State, s.bw.isOpen = true →
    ∃ t, exec .bwClose s = .next t ∧
      t.bw = { isOpen := false, buf := [], cur := 0, free := 8 } ∧ t.env.dstHeld = false ∧
      (flushBytes s.bw = [] ∨ s.env.verdicts.head? ≠ some false →
        t.status = statusOk s ∧ t.env.dst = s.env.dst ++ flushBytes s.bw ∧
        t.regs.dstLen = s.regs.dstLen + BitVec.ofNat 32 (flushBytes s.bw).length) ∧
      (flushBytes s.bw ≠ [] → s.env.verdicts.head? = some false →
        t.status = statusErr .dstErr .dstWriteFail s ∧ t.regs.dstLen = s.regs.dstLen ∧
        ∃ p, p <+: flushBytes s.bw ∧ t.env.dst = s.env.dst ++ p) ∧
      t = { s with
            bw := t.bw
            regs := { s.regs with dstLen := t.regs.dstLen }
            env := { s.env with dst := t.env.dst, verdicts := t.env.verdicts, dstHeld := false }
            status := t.status
            freeCount := t.freeCount }

/-! The BitReader (41_bitreader.md). -/

/-- R151: `BR.OPEN`, the word 0x00000030, in its three cases. -/
def Obligations.BrOpenAcquiresSource : Prop :=
  decode 0x00000030#32 = .command .brOpen ∧ ∀ s : State,
    (s.br.isOpen = true → exec .brOpen s = .next { s with status := statusErr .usageFault .seq s }) ∧
    (s.br.isOpen = false → s.env.src = none →
      exec .brOpen s = .next { s with status := statusErr .fileOpenErr .srcOpenFail s }) ∧
    (∀ x, s.br.isOpen = false → s.env.src = some x → x.length ≤ Config.lenMax →
      exec .brOpen s = .next
        { s with
          br := { isOpen := true, buf := [], pos := 0, bit := 0, off := 0
                  remaining := BitVec.ofNat 35 (8 * x.length) }
          regs := { s.regs with srcLen := BitVec.ofNat 32 x.length }
          env := { s.env with srcHeld := true }
          status := statusOk s })

/-- R150: after `BR.OPEN` the reader stands for the whole bit string of the source, the cursor at its start. -/
def Obligations.BrOpenStandsForSource : Prop :=
  ∀ (s : State) (x : List Byte), s.br.isOpen = false → s.env.src = some x → x.length ≤ Config.lenMax →
    ∃ t, exec .brOpen s = .next t ∧ ReaderStandsFor t x ∧ t.br.remaining.toNat = 8 * x.length

/-- R150, R153, R157: `BR.RBIT` returns the bit at the cursor and moves the cursor by one, for every buffer size; nothing
but the reader and `RESULT` changes. -/
def Obligations.BrRbitReturnsNextBit : Prop :=
  ∀ (s : State) (x : List Byte), s.params.wf → ReaderStandsFor s x → s.br.remaining ≠ 0 →
    ∃ t v, exec .brRbit s = .next t ∧
      (unpack x)[8 * x.length - s.br.remaining.toNat]? = some v ∧ t.regs.result = BitVec.ofNat 32 v.toNat ∧
      ReaderStandsFor t x ∧ t.br.remaining.toNat + 1 = s.br.remaining.toNat ∧
      t = { s with br := t.br, regs := { s.regs with result := t.regs.result }, status := statusOk s }

/-- R150, R154, R157: `BR.RBYTE8` returns the number the next eight bits spell, at any bit position and for every buffer
size, and moves the cursor by eight; nothing but the reader and `RESULT` changes. -/
def Obligations.BrRbyte8ReturnsNextByte : Prop :=
  ∀ (s : State) (x : List Byte), s.params.wf → ReaderStandsFor s x → 8 ≤ s.br.remaining.toNat →
    ∃ t, exec .brRbyte8 s = .next t ∧
      t.regs.result =
        BitVec.ofNat 32 (num (((unpack x).drop (8 * x.length - s.br.remaining.toNat)).take 8)) ∧
      ReaderStandsFor t x ∧ t.br.remaining.toNat + 8 = s.br.remaining.toNat ∧
      t = { s with br := t.br, regs := { s.regs with result := t.regs.result }, status := statusOk s }

/-- R153, R154, R257: a read past the last bit is `DECODE_FAULT(BR_EOS)` and leaves reader and `RESULT` as they are. -/
def Obligations.BrReadsPastEndFault : Prop :=
  ∀ s : State, s.br.isOpen = true →
    (s.br.remaining = 0 → exec .brRbit s = .next { s with status := statusErr .decodeFault .brEos s }) ∧
    (s.br.remaining.toNat < 8 → exec .brRbyte8 s = .next { s with status := statusErr .decodeFault .brEos s })

/-- R153, R154, R23: in every state, the two reads change the reader, `RESULT` and the status only (and the model's own count
of free values, when the source was replaced under an open reader, log entry 11): no byte of SRC or DST, no length. -/
def Obligations.BrReadsFrame : Prop :=
  ∀ (i : Instr) (s : State), i = .brRbit ∨ i = .brRbyte8 →
    ∃ t, exec i s = .next t ∧ t.br.isOpen = s.br.isOpen ∧
      (∀ a, dstByte t a = dstByte s a) ∧ (∀ a, srcByte t a = srcByte s a) ∧
      t = { s with
            br := t.br
            regs := { s.regs with result := t.regs.result }
            status := t.status
            freeCount := t.freeCount }

/-- R156: `BR.CLOSE`, the word 0x00000033, closes the reader and releases the source; unread bits, `SRC_LEN` and `RESULT`
stay. -/
def Obligations.BrCloseReleasesSource : Prop :=
  decode 0x00000033#32 = .command .brClose ∧ ∀ s : State,
    (s.br.isOpen = true →
      exec .brClose s = .next
        { s with
          br := { s.br with isOpen := false }
          env := { s.env with srcHeld := false }
          status := statusOk s }) ∧
    (s.br.isOpen = false → exec .brClose s = .next { s with status := statusErr .usageFault .seq s })

/-! Command ordering (44_system.md R234). -/

/-- R234, R258: a command that the table does not allow in the present state ends with `USAGE_FAULT(SEQ)`, and only `CODE`,
`CAUSE`, `STICKY` change. -/
def Obligations.CommandsOutOfOrderRefused : Prop :=
  ∀ (i : Instr) (s : State), i.wf = true → allowed i s = false →
    exec i s = .next { s with status := statusErr .usageFault .seq s }

/-! `ENCODE` (42_encoder.md R170 to R179). -/

/-- R171, R252, R263: `ENCODE` on an absent source is `FILE_OPEN_ERR(SRC_OPEN_FAIL)` with the table cleared. -/
def Obligations.EncodeSourceAbsent : Prop :=
  ∀ s : State, s.idle → s.env.src = none →
    ∃ t, exec .encode s = .next t ∧
      t.status = { statusErr .fileOpenErr .srcOpenFail s with encValid := false } ∧
      (∀ b : Byte, symAt t.enc b = { count := 0, code := 0, len := 0 }) ∧ t.enc.total = 0 ∧ t.enc.nsym = 0 ∧
      t.regs = s.regs ∧ t.env.src = s.env.src ∧ t.env.dst = s.env.dst

/-- R173: with fewer than two distinct symbols `ENCODE` ends with `SOURCE_ERR(FEW_SYMBOLS)`; counts, `TOTAL` and `NSYM` are
those of the scan, `ET`, `HDR` and the code fields are not written. R62: `SRC_LEN` is the length of the source. -/
def Obligations.EncodeFewSymbols : Prop :=
  ∀ (s : State) (x : List Byte), s.params.wf → s.idle → s.env.src = some x → x.length ≤ Config.lenMax →
    distinctSymbols x < 2 →
    ∃ t, exec .encode s = .next t ∧
      t.status = { statusErr .sourceErr .fewSymbols s with encValid := false } ∧
      (∀ b : Byte, (symAt t.enc b).count.toNat = x.count b ∧ (symAt t.enc b).code = 0 ∧ (symAt t.enc b).len = 0) ∧
      t.enc.total.toNat = x.length ∧ t.enc.nsym.toNat = distinctSymbols x ∧
      t.enc.et = s.enc.et ∧ t.enc.hdr = s.enc.hdr ∧ t.regs.srcLen.toNat = x.length ∧ t.env.srcHeld = false

/-- R170 to R179: on a source with two distinct symbols whose Huffman tree has no leaf deeper than 32, `ENCODE` ends `OK` and
leaves counts, `TOTAL`, `NSYM`, the codewords and the header of that tree. R36: the tree is that of the parameter `TIE_RULE`,
whichever it is. -/
def Obligations.EncodeBuildsTable : Prop :=
  ∀ (s : State) (x : List Byte) (t : CodeTree), s.params.wf → s.idle → s.env.src = some x →
    x.length ≤ Config.lenMax → 2 ≤ distinctSymbols x → huffmanTree s.params.tie x = some t → t.height ≤ Config.codeMax →
    ∃ u, exec .encode s = .next u ∧ EncodedFor u x t ∧
      u.status = { statusOk s with encValid := true } ∧ u.regs.srcLen.toNat = x.length ∧
      u.env.srcHeld = false

/-- R178, R254, R263: when a leaf of the Huffman tree lies deeper than 32, `ENCODE` ends with `SOURCE_ERR(CODE_TOO_LONG)`
and `ENC_VALID = 0`; the counts, `TOTAL`, `NSYM` and `SRC_LEN` are those of the source. R36: the tree is that of
the parameter `TIE_RULE`, whichever it is. -/
def Obligations.EncodeCodeTooLong : Prop :=
  ∀ (s : State) (x : List Byte) (t : CodeTree), s.params.wf → s.idle → s.env.src = some x →
    x.length ≤ Config.lenMax → 2 ≤ distinctSymbols x → huffmanTree s.params.tie x = some t →
    Config.codeMax < t.height →
    ∃ u, exec .encode s = .next u ∧
      u.status = { statusErr .sourceErr .codeTooLong s with encValid := false } ∧
      (∀ b : Byte, (symAt u.enc b).count.toNat = x.count b) ∧ u.enc.total.toNat = x.length ∧
      u.enc.nsym.toNat = distinctSymbols x ∧ u.enc.hdrBits = 0 ∧ u.regs.srcLen.toNat = x.length ∧
      u.env.srcHeld = false

/-- R171, R170: whatever happens, `ENCODE` touches the encoder side, `SRC_LEN`, the scan buffer and the status only: not
DST (every byte of it stays), not the decoder, not reader or writer, not `ENC_PAD`. -/
def Obligations.EncodeFrame : Prop :=
  ∀ s : State, ∃ t, exec .encode s = .next t ∧ t.enc.encPad = s.enc.encPad ∧
    (∀ a, dstByte t a = dstByte s a) ∧ (∀ a, srcByte t a = srcByte s a) ∧
    t = { s with
          enc := t.enc
          regs := { s.regs with srcLen := t.regs.srcLen }
          scan := t.scan
          env := { s.env with srcHeld := t.env.srcHeld }
          status := t.status
          freeCount := t.freeCount }

/-! `COMPRESS` (42_encoder.md R180 to R186). -/

/-- R180, R252, R255: `COMPRESS` opens the source before the destination: an absent source leaves DST untouched, and a
destination that cannot be created is `DST_ERR(DST_OPEN_FAIL)` with the source released. -/
def Obligations.CompressOpenFailures : Prop :=
  ∀ s : State, s.idle → HandleForm s → s.status.encValid = true →
    (s.env.src = none → exec .compress s = .next { s with status := statusErr .fileOpenErr .srcOpenFail s }) ∧
    (∀ x, s.env.src = some x → s.env.dstCreatable = false →
      exec .compress s = .next
        { s with
          regs := { s.regs with srcLen := BitVec.ofNat 32 x.length }
          status := statusErr .dstErr .dstOpenFail s })

/-- R102, R180 to R186 (a): when the encoder side holds the result of `ENCODE` on the source behind SRC, and no burst of the
container is refused, `COMPRESS` ends `OK` and leaves the container of that source in DST, with both handles released and the
encoder side unchanged but for `ENC_PAD`. R66, R180, R255, R262 (d): when a burst of it is refused, `COMPRESS` ends with
`DST_ERR(DST_WRITE_FAIL)` and DST holds the bursts before it and an unspecified beginning of it. R62: `SRC_LEN` is the length
of the source. R36: the tree is that of the parameter `TIE_RULE`, whichever it is. -/
def Obligations.CompressMakesContainer : Prop :=
  ∀ (s : State) (x : List Byte) (t : CodeTree), s.params.wf → s.idle → EncodedFor s x t → s.env.src = some x →
    x.length ≤ Config.lenMax → s.env.dstCreatable = true →
    ∃ u, exec .compress s = .next u ∧ Released u ∧ u.regs.srcLen.toNat = x.length ∧
      u.enc = { s.enc with encPad := u.enc.encPad } ∧
      u.enc.encPad.toNat = padTo8 (t.header.length + 3 + (payloadBits t x).length) ∧
      (AcceptsBytes s (containerOf t x) →
        u.env.dst = containerOf t x ∧ u.status = statusOk s ∧ u.regs.dstLen = BitVec.ofNat 32 u.env.dst.length) ∧
      (∀ i, RefusesBurst s i → i * s.params.bufBytes < (containerOf t x).length →
        StoppedAtBurst s i (containerOf t x) u)

/-- R184, R185, R186 (g), R259, R262 (d), R263: `COMPRESS` on a source that need not be the one the table was built from, with
every burst accepted. A byte without a code stops it with `USAGE_FAULT(SRC_CHANGED)`; with a code for every byte it ends
`OK` if the bits emitted and the padding length make whole bytes, else with `USAGE_FAULT(PAD_MISMATCH)`. Either way the bits
emitted, filled up with zero bits to whole bytes, are in DST, everything is released, `ENC_VALID` and the table are kept and
`ENC_PAD` holds the computed padding length. R62: `SRC_LEN` is the length of the source. -/
def Obligations.CompressOfChangedSource : Prop :=
  ∀ (s : State) (x : List Byte), s.params.wf → s.idle → s.status.encValid = true → TableForm s →
    s.env.src = some x → x.length ≤ Config.lenMax → s.env.dstCreatable = true → AcceptsBursts s →
    let emitted := emissionOf s.enc (codedPrefix s.enc x)
    ∃ u, exec .compress s = .next u ∧ Released u ∧ u.regs.srcLen.toNat = x.length ∧
      u.enc = { s.enc with encPad := BitVec.ofNat 3 (padLength s.enc) } ∧
      ((∃ b ∈ x, (symAt s.enc b).len = 0) → u.status = statusErr .usageFault .srcChanged s) ∧
      (HeaderForm s →
        ((∀ b ∈ x, (symAt s.enc b).len ≠ 0) →
          u.status = if (emitted.length + padLength s.enc) % 8 = 0 then statusOk s
            else statusErr .usageFault .padMismatch s) ∧
        unpack u.env.dst = emitted ++ zeros (padTo8 emitted.length) ∧
        u.regs.dstLen = BitVec.ofNat 32 u.env.dst.length)

/-- R180, R263: whatever happens, `COMPRESS` touches the writer, DST, `ENC_PAD`, the two lengths, the scan buffer and the
status only; `ENC_VALID` is kept, and every byte of SRC stays. R62: when it is allowed and a source is there, `SRC_LEN` is its
length, however the command ends. -/
def Obligations.CompressFrame : Prop :=
  ∀ s : State, ∃ t, exec .compress s = .next t ∧ t.status.encValid = s.status.encValid ∧
    (∀ a, srcByte t a = srcByte s a) ∧
    t = { s with
          enc := { s.enc with encPad := t.enc.encPad }
          regs := { s.regs with srcLen := t.regs.srcLen, dstLen := t.regs.dstLen }
          bw := t.bw
          scan := t.scan
          env := { s.env with
                   dst := t.env.dst, verdicts := t.env.verdicts
                   srcHeld := t.env.srcHeld, dstHeld := t.env.dstHeld }
          status := t.status
          freeCount := t.freeCount } ∧
    ∀ x, s.idle → s.status.encValid = true → s.env.src = some x → t.regs.srcLen = BitVec.ofNat 32 x.length

/-- R101, R181: the padding length computed from the table brings header, field and payload to a byte boundary and is
below 8. -/
def Obligations.PadLengthAligns : Prop :=
  ∀ e : Encoder,
    (e.hdrBits.toNat + 3 + (e.sym.toList.map fun r => r.count.toNat * r.len.toNat).sum + padLength e) % 8 = 0 ∧
    padLength e < 8

/-! `DECOMPRESS` (43_decoder.md). -/

/-- R211, R252, R255: an absent source is `SOURCE_ERR` for `DECOMPRESS` and DST is untouched; a destination that cannot be
created is `DST_ERR(DST_OPEN_FAIL)` with the source released and DST untouched. -/
def Obligations.DecompressOpenFailures : Prop :=
  ∀ s : State, s.idle → HandleForm s →
    (s.env.src = none → exec .decompress s = .next { s with status := statusErr .sourceErr .srcOpenFail s }) ∧
    (∀ x, s.env.src = some x → s.env.dstCreatable = false →
      ∃ t, exec .decompress s = .next t ∧ t.status = statusErr .dstErr .dstOpenFail s ∧
        t.env = s.env ∧ t.dec = s.dec ∧ t.br.isOpen = false ∧ t.bw.isOpen = false)

/-- R211 to R214, R256, R263: the headers that `DECOMPRESS` rejects, each with the number of nodes begun in `DT_N`, the bits not
read in `BR.remaining` and an empty destination: the source ends inside the header or inside the padding length
(`HDR_TRUNC`), the header asks for a 512th node (`HDR_TOO_LARGE`), the header is one leaf (`HDR_ROOT_LEAF`), as is every
source of two bytes or more that begins with a 1 bit. -/
def Obligations.DecompressRejectsHeaders : Prop :=
  ∀ (s : State) (c : List Byte), s.params.wf → s.idle → s.env.src = some c → c.length ≤ Config.lenMax →
    s.env.dstCreatable = true →
    (∀ nodes rest, scanHeader 1 0 (unpack c) = .truncated nodes rest →
      ∃ t, exec .decompress s = .next t ∧ HeaderRejected s .hdrTrunc nodes rest.length t) ∧
    (∀ rest, scanHeader 1 0 (unpack c) = .tooLarge rest →
      ∃ t, exec .decompress s = .next t ∧ HeaderRejected s .hdrTooLarge 511 rest.length t) ∧
    (∀ rest, scanHeader 1 0 (unpack c) = .whole 1 rest →
      ∃ t, exec .decompress s = .next t ∧ HeaderRejected s .hdrRootLeaf 1 rest.length t) ∧
    (∀ nodes rest, scanHeader 1 0 (unpack c) = .whole nodes rest → nodes ≠ 1 → rest.length < 3 →
      ∃ t, exec .decompress s = .next t ∧ HeaderRejected s .hdrTrunc nodes rest.length t) ∧
    (∀ b0 b1 x, c = b0 :: b1 :: x → b0.getLsbD 7 = true →
      ∃ t, exec .decompress s = .next t ∧ HeaderRejected s .hdrRootLeaf 1 (8 * c.length - 9) t)

/-- R210 to R218: what `DECOMPRESS` leaves behind both opens. On a well-formed container none of whose output bursts is refused
it ends `OK` and DST is the sequence of symbols its codewords lead to; when a burst is refused it ends with
`DST_ERR(DST_WRITE_FAIL)` and DST holds the bursts before it and an unspecified beginning of it. Behind a good header and
padding length, a container that is not well formed runs out of bits: `DECODE_FAULT(PAYLOAD_TRUNC)`. In these cases `DT`
holds the tree of the header, its nodes in preorder, `DT_N` their number and `DEC_PAD` the padding-length field. And
conversely: it ends `OK` only on a well-formed container, with what that spells in DST, and otherwise with one of the faults
R211 lists, `SRC_LEN` being the length of the container (R62). All this for every buffer size. -/
def Obligations.DecompressDecodes : Prop :=
  ∀ (s : State) (c : List Byte), s.params.wf → s.idle → s.env.src = some c → c.length ≤ Config.lenMax →
    s.env.dstCreatable = true →
    (∀ tree pad out, SpellsBy c tree pad out → AcceptsBytes s out →
      ∃ t, exec .decompress s = .next t ∧ t.env.dst = out ∧ t.status = statusOk s ∧ TreeRead t.dec tree pad ∧
        t.br.remaining.toNat = pad.toNat ∧ t.regs.dstLen = BitVec.ofNat 32 out.length ∧ Released t) ∧
    (∀ tree pad out i, SpellsBy c tree pad out → RefusesBurst s i → i * s.params.bufBytes < out.length →
      ∃ t, exec .decompress s = .next t ∧ StoppedAtBurst s i out t ∧ TreeRead t.dec tree pad) ∧
    (∀ (tree : CodeTree) (pad : BitVec 3) (rest : Bits), unpack c = tree.header ++ msb pad 3 ++ rest →
      tree.internal = true → tree.size ≤ Config.nodeMax → (∀ out, ¬ SpellsOut c out) → AcceptsBursts s →
      ∃ t, exec .decompress s = .next t ∧ t.status = statusErr .decodeFault .payloadTrunc s ∧
        t.br.remaining = 0 ∧ TreeRead t.dec tree pad ∧ Released t) ∧
    (∀ t, exec .decompress s = .next t →
      t.regs.srcLen.toNat = c.length ∧
      ((t.status = statusOk s ∧ SpellsOut c t.env.dst) ∨
       t.status ∈ [statusErr .sourceErr .hdrTrunc s, statusErr .sourceErr .hdrTooLarge s,
         statusErr .sourceErr .hdrRootLeaf s, statusErr .decodeFault .payloadTrunc s,
         statusErr .dstErr .dstWriteFail s]))

/-- R210, R211: whatever happens, `DECOMPRESS` touches the decoder, reader, writer, DST, the two lengths and the status only:
no encoder-side element, not `ENC_VALID`, not `RESULT`; every byte of SRC stays. R62: when it is allowed and a source is there,
`SRC_LEN` is its length, however the command ends. -/
def Obligations.DecompressFrame : Prop :=
  ∀ s : State, ∃ t, exec .decompress s = .next t ∧ t.status.encValid = s.status.encValid ∧
    (∀ a, srcByte t a = srcByte s a) ∧
    t = { s with
          dec := t.dec
          regs := { s.regs with srcLen := t.regs.srcLen, dstLen := t.regs.dstLen }
          bw := t.bw
          br := t.br
          env := { s.env with
                   dst := t.env.dst, verdicts := t.env.verdicts
                   srcHeld := t.env.srcHeld, dstHeld := t.env.dstHeld }
          status := t.status
          freeCount := t.freeCount } ∧
    ∀ x, s.idle → s.env.src = some x → t.regs.srcLen = BitVec.ofNat 32 x.length

/-! The format and the round trip. -/

/-- R103, R104, R218 (b): the container of a source under its Huffman tree is well formed with that tree and spells the
source, for every `TIE_RULE`. -/
def Obligations.ContainerSpellsSource : Prop :=
  ∀ (tie : Config.TieRule) (x : List Byte) (t : CodeTree), 2 ≤ distinctSymbols x → huffmanTree tie x = some t →
    ∃ pad, SpellsBy (containerOf t x) t pad x

/-- R186 (e), R218 (b): `ENCODE`, `COMPRESS`, and `DECOMPRESS` of what they left, give the source back, for every buffer
size, and all three end `OK`, under the premise that no code is longer than 32 bits and that the container can be presented
as a source; the decoder then holds the tree the encoder derived its codes from. R36: the tree is that of the parameter
`TIE_RULE`, whichever it is. -/
def Obligations.RoundTrip : Prop :=
  ∀ (s : State) (x : List Byte) (t : CodeTree), s.params.wf → s.idle → s.env.src = some x →
    x.length ≤ Config.lenMax → 2 ≤ distinctSymbols x → huffmanTree s.params.tie x = some t → t.height ≤ Config.codeMax →
    (containerOf t x).length ≤ Config.lenMax → s.env.dstCreatable = true → AcceptsBursts s →
    ∃ u v w, exec .encode s = .next u ∧ exec .compress u = .next v ∧
      exec .decompress { v with env := { v.env with src := some v.env.dst } } = .next w ∧
      w.env.dst = x ∧ DtHolds w.dec 0 t ∧ u.status.code = .ok ∧ v.status.code = .ok ∧ w.status.code = .ok

/-! Rules over all commands. -/

/-- R233, R296: every command ends, in every state: `exec` answers a next state, with `BUSY = 0`. -/
def Obligations.EveryCommandEnds : Prop :=
  ∀ (i : Instr) (s : State), ∃ t, exec i s = .next t ∧ t.status.busy = false

/-- R265: `STICKY` is set by every operation that ends with another code than `OK` and cleared only by `CLEAR` and reset. -/
def Obligations.StickyRule : Prop :=
  (∀ (i : Instr) (s t : State), exec i s = .next t →
    (t.status.code ≠ .ok → t.status.sticky = true) ∧
    (i ≠ .clear → s.status.sticky = true → t.status.sticky = true) ∧
    (i = .clear → t.status.sticky = false)) ∧
  (∀ (s t : State) (a : HostAction) (rest : List HostAction), s.host = a :: rest → a ≠ .reset →
    (∀ w, a ≠ .issueThenReset w) → a ≠ commandWrite s.params (encode .clear) →
    s.status.sticky = true → step s = .next t → t.status.sticky = true) ∧
  (∀ (s t : State) (w : Word) (rest : List HostAction), s.status.busy = false →
    s.host = commandWrite s.params w :: rest → step s = .next t → t.status.code ≠ .ok → t.status.sticky = true) ∧
  (∀ (s t : State) (rest : List HostAction), s.host = .reset :: rest → step s = .next t → t.status.sticky = false)

/-- R23, R36, R60: no command changes `ARG`, `SYM_SEL`, the parameters, SRC or the creatability of DST, and `RESULT` is
changed by the two reads and by `CLEAR` only. -/
def Obligations.CommandsLeaveHostSide : Prop :=
  ∀ (i : Instr) (s t : State), exec i s = .next t →
    t.regs.arg = s.regs.arg ∧ t.regs.symSel = s.regs.symSel ∧ t.params = s.params ∧ t.env.src = s.env.src ∧
    t.env.dstCreatable = s.env.dstCreatable ∧ t.host = s.host ∧ t.busData = s.busData ∧
    (i ≠ .brRbit → i ≠ .brRbyte8 → i ≠ .clear → t.regs.result = s.regs.result)

/-- R60, R65, R66: but for the three commands that open the destination, no command removes or changes a byte of DST. -/
def Obligations.DstOnlyGrows : Prop :=
  ∀ (i : Instr) (s t : State), i ≠ .bwOpen → i ≠ .compress → i ≠ .decompress → exec i s = .next t →
    s.env.dst <+: t.env.dst ∧ ∀ a < s.env.dst.length, dstByte t a = dstByte s a

/-- R262 (d), R64: a composite command that the host may issue ends with reader and writer closed and no handle held, on
every path. -/
def Obligations.CompositeReleasesHandles : Prop :=
  ∀ (i : Instr) (s t : State), i = .encode ∨ i = .compress ∨ i = .decompress → s.idle → HandleForm s →
    exec i s = .next t →
    t.bw.isOpen = false ∧ t.br.isOpen = false ∧ t.env.srcHeld = false ∧ t.env.dstHeld = false

/-! Invariants: each holds at reset (`ResetMeetsForms`) and is kept by every step from every state that meets it. -/

/-- R32, R135: every step keeps the form of the writer. -/
def Obligations.StepKeepsWriterForm : Prop :=
  ∀ s t : State, s.params.wf → WriterForm s → step s = .next t → t.params.wf ∧ WriterForm t

/-- R33, R152: every step keeps the form of the reader. -/
def Obligations.StepKeepsReaderForm : Prop :=
  ∀ s t : State, s.params.wf → ReaderForm s → step s = .next t → ReaderForm t

/-- R62 to R67, R262: every step keeps handles and open units together. -/
def Obligations.StepKeepsHandleForm : Prop :=
  ∀ s t : State, HandleForm s → step s = .next t → HandleForm t

/-- R95, R233, R265: every step leaves the block idle, with a cause that occurs with the status, and `STICKY` set by an
error. -/
def Obligations.StepKeepsStatusForm : Prop :=
  ∀ s t : State, StatusForm s → step s = .next t → StatusForm t

/-- R27, R29: every step keeps all code lengths at most 32 and the queue empty. R6, R21, R30, R100: every step keeps the header
buffer and `HDR_BITS` within `HDR_MAX_BITS`, and `HDR_BITS` the length of the header while the table is valid. -/
def Obligations.StepKeepsTableForm : Prop :=
  ∀ s t : State, step s = .next t →
    (TableForm s → TableForm t) ∧ (s.params.wf → Memory.wf s.env → HeaderForm s → HeaderForm t)

/-- R35, R36, R293: every step keeps the source within `LEN_MAX` and the parameters as they are. -/
def Obligations.StepKeepsSourceForm : Prop :=
  ∀ s t : State, Memory.wf s.env → step s = .next t → Memory.wf t.env ∧ t.params = s.params

/-- R37: the state after reset meets every form that the steps keep. That nothing stands behind SRC then and the buffer
size is the default are the model's choices (log entries 3 and 6). -/
def Obligations.ResetMeetsForms : Prop :=
  State.reset.params.wf ∧ WriterForm State.reset ∧ ReaderForm State.reset ∧ HandleForm State.reset ∧
  StatusForm State.reset ∧ TableForm State.reset ∧ HeaderForm State.reset ∧ Memory.wf State.reset.env
end

