-- ==== Sys2Proof/Laws/Bits.lean ====
section
/-! SUPPORT. Bit strings: lengths, `num` and `msb` undo each other, `pack` and `unpack` undo each other, one bit of a byte. -/

namespace Sys2Proof.Machine

@[simp] theorem msb_length {w : Nat} (v : BitVec w) (n : Nat) : (msb v n).length = n := by
  induction n with
  | zero => rfl
  | succ n ih => simp [msb, ih]

theorem msb_congr {w w' : Nat} {v : BitVec w} {v' : BitVec w'} {n : Nat}
    (h : ∀ k < n, v.getLsbD k = v'.getLsbD k) : msb v n = msb v' n := by
  induction n with
  | zero => rfl
  | succ n ih => simp only [msb, h n (by omega), ih fun k hk => h k (by omega)]

/-- The bit at place `j` of `msb(v, n)` is `v[n-1-j]`. -/
theorem msb_getElem? {w : Nat} (v : BitVec w) (n j : Nat) (h : j < n) :
    (msb v n)[j]? = some (v.getLsbD (n - 1 - j)) := by
  induction n generalizing j with
  | zero => omega
  | succ n ih =>
    cases j with
    | zero => simp [msb]
    | succ j =>
      rw [msb, List.getElem?_cons_succ, ih j (by omega)]
      congr 2; omega

theorem num_foldl (s : Bits) (a : Nat) :
    s.foldl (fun acc b => 2 * acc + b.toNat) a = a * 2 ^ s.length + num s := by
  induction s generalizing a with
  | nil => simp [num]
  | cons b s ih =>
    rw [num, List.foldl_cons, List.foldl_cons, ih, ih, List.length_cons, pow_succ]
    ring

@[simp] theorem num_nil : num [] = 0 := rfl

theorem num_cons (b : Bool) (s : Bits) : num (b :: s) = b.toNat * 2 ^ s.length + num s := by
  rw [num, List.foldl_cons, num_foldl]; simp

theorem num_append (s t : Bits) : num (s ++ t) = num s * 2 ^ t.length + num t := by
  rw [num, List.foldl_append, num_foldl]; rfl

theorem num_lt (s : Bits) : num s < 2 ^ s.length := by
  induction s with
  | nil => simp
  | cons b s ih =>
    rw [num_cons, List.length_cons, pow_succ]
    have := b.toNat_le
    nlinarith

/-- `num(msb(v, n))` is the low `n` bits of `v` as a number. -/
theorem num_msb {w : Nat} (v : BitVec w) (n : Nat) : num (msb v n) = v.toNat % 2 ^ n := by
  induction n with
  | zero => simp [msb, Nat.mod_one]
  | succ n ih =>
    rw [msb, num_cons, ih, msb_length, BitVec.getLsbD, Nat.testBit_eq_decide_div_mod_eq,
      Nat.mod_pow_succ]
    rcases Nat.mod_two_eq_zero_or_one (v.toNat / 2 ^ n) with h | h <;> (simp [h]; try ring)

/-- `msb(num(s), len(s))` is `s`, in a word that is wide enough. -/
theorem msb_ofNat_num (w : Nat) (s : Bits) (h : s.length ≤ w) :
    msb (BitVec.ofNat w (num s)) s.length = s := by
  suffices ∀ m (s : Bits), s.length ≤ w →
      msb (BitVec.ofNat w (m * 2 ^ s.length + num s)) s.length = s by simpa using this 0 s h
  clear h s
  intro m s
  induction s generalizing m with
  | nil => intro _; rfl
  | cons b s ih =>
    intro h
    simp only [List.length_cons] at h ⊢
    have e : m * 2 ^ (s.length + 1) + num (b :: s) = (2 * m + b.toNat) * 2 ^ s.length + num s := by
      rw [num_cons, pow_succ]; ring
    rw [msb, e, ih _ (by omega)]
    congr 1
    have hlt := num_lt s
    have hb := b.toNat_le
    rw [BitVec.getLsbD, BitVec.toNat_ofNat, Nat.testBit_mod_two_pow,
      Nat.testBit_eq_decide_div_mod_eq, mul_comm, Nat.mul_add_div (by positivity),
      Nat.div_eq_of_lt hlt]
    have hw : s.length < w := by omega
    cases b <;> simp [hw]

@[simp] theorem zeros_length (k : Nat) : (zeros k).length = k := List.length_replicate ..

@[simp] theorem unpack_nil : unpack [] = [] := rfl

theorem unpack_cons (b : Byte) (B : List Byte) : unpack (b :: B) = msb b 8 ++ unpack B := rfl

theorem unpack_append (A B : List Byte) : unpack (A ++ B) = unpack A ++ unpack B := by
  induction A with
  | nil => rfl
  | cons a A ih => simp [unpack_cons, ih]

@[simp] theorem unpack_length (B : List Byte) : (unpack B).length = 8 * B.length := by
  induction B with
  | nil => rfl
  | cons b B ih => simp [unpack_cons, ih]; omega

theorem unpack_drop (B : List Byte) (k : Nat) : unpack (B.drop k) = (unpack B).drop (8 * k) := by
  induction k generalizing B with
  | zero => simp
  | succ k ih =>
    cases B with
    | nil => simp
    | cons b B =>
      rw [List.drop_succ_cons, ih, unpack_cons, List.drop_append, msb_length,
        List.drop_eq_nil_of_le (as := msb b 8) (by simp), List.nil_append]
      congr 1

/-- A byte is the number its eight bits spell. -/
theorem byte_of_msb (b : Byte) : BitVec.ofNat 8 (num (msb b 8)) = b := by
  rw [num_msb, Nat.mod_eq_of_lt (by simpa using b.isLt)]; simp

theorem pack_msb_append (b : Byte) (s : Bits) : pack (msb b 8 ++ s) = b :: pack s := by
  conv_rhs => rw [← byte_of_msb b]
  rfl

theorem pack_unpack (B : List Byte) : pack (unpack B) = B := by
  induction B with
  | nil => rfl
  | cons b B ih => rw [unpack_cons, pack_msb_append, ih]

theorem unpack_injective {A B : List Byte} (h : unpack A = unpack B) : A = B := by
  rw [← pack_unpack A, h, pack_unpack]

/-- `unpack(pack(s))` is `s` for a whole number of bytes. -/
theorem unpack_pack (s : Bits) (h : s.length % 8 = 0) : unpack (pack s) = s := by
  induction hn : s.length / 8 generalizing s with
  | zero =>
    have : s = [] := List.length_eq_zero_iff.mp (by omega)
    subst this; rfl
  | succ n ih =>
    have h8 : (s.take 8).length = 8 := by simp; omega
    have hs : s = s.take 8 ++ s.drop 8 := (List.take_append_drop 8 s).symm
    have hm : msb (BitVec.ofNat 8 (num (s.take 8))) 8 = s.take 8 := by
      have := msb_ofNat_num 8 (s.take 8) (by omega)
      rwa [h8] at this
    conv_lhs => rw [hs, ← hm]
    rw [pack_msb_append, unpack_cons, hm, ih (s.drop 8) (by simp; omega) (by simp; omega)]
    exact hs.symm

theorem pack_length (s : Bits) (h : s.length % 8 = 0) : 8 * (pack s).length = s.length := by
  rw [← unpack_length, unpack_pack s h]

theorem putBit_getLsbD (x : Byte) (k : Nat) (v : Bool) (j : Nat) (hk : k < 8) :
    (putBit x k v).getLsbD j = if j = k then v else x.getLsbD j := by
  have hone : ∀ j, (1#8 <<< k).getLsbD j = decide (j = k) := by
    intro j
    rw [← BitVec.twoPow_eq, BitVec.getLsbD_twoPow]
    simp [hk, eq_comm]
  unfold putBit
  cases v
  · simp only [Bool.false_eq_true, if_false, BitVec.getLsbD_and, BitVec.getLsbD_not, hone]
    by_cases hj : j = k
    · simp [hj]
    · by_cases h8 : j < 8
      · simp [hj, h8]
      · simp [hj, h8, BitVec.getLsbD_of_ge x j (by omega)]
  · simp only [if_true, BitVec.getLsbD_or, hone]
    by_cases hj : j = k <;> simp [hj]

end Sys2Proof.Machine
end

