-- ==== Sys2Proof/Laws/State.lean ====
section
/-! SUPPORT. What each update of one part of the state does to each part, and which updates forget each other. -/

namespace Sys2Proof.Machine

variable (s : State)

@[simp] theorem State.setRegs_params (x : Regs) : (s.setRegs x).params = s.params := rfl
@[simp] theorem State.setRegs_regs (x : Regs) : (s.setRegs x).regs = x := rfl
@[simp] theorem State.setRegs_status (x : Regs) : (s.setRegs x).status = s.status := rfl
@[simp] theorem State.setRegs_enc (x : Regs) : (s.setRegs x).enc = s.enc := rfl
@[simp] theorem State.setRegs_dec (x : Regs) : (s.setRegs x).dec = s.dec := rfl
@[simp] theorem State.setRegs_bw (x : Regs) : (s.setRegs x).bw = s.bw := rfl
@[simp] theorem State.setRegs_br (x : Regs) : (s.setRegs x).br = s.br := rfl
@[simp] theorem State.setRegs_scan (x : Regs) : (s.setRegs x).scan = s.scan := rfl
@[simp] theorem State.setRegs_env (x : Regs) : (s.setRegs x).env = s.env := rfl
@[simp] theorem State.setRegs_host (x : Regs) : (s.setRegs x).host = s.host := rfl
@[simp] theorem State.setRegs_busData (x : Regs) : (s.setRegs x).busData = s.busData := rfl
@[simp] theorem State.setRegs_freeCount (x : Regs) : (s.setRegs x).freeCount = s.freeCount := rfl
@[simp] theorem State.setRegs_setRegs (x y : Regs) : (s.setRegs x).setRegs y = s.setRegs y := rfl
@[simp] theorem State.setRegs_self : s.setRegs s.regs = s := rfl

@[simp] theorem State.setStatus_params (x : Status) : (s.setStatus x).params = s.params := rfl
@[simp] theorem State.setStatus_regs (x : Status) : (s.setStatus x).regs = s.regs := rfl
@[simp] theorem State.setStatus_status (x : Status) : (s.setStatus x).status = x := rfl
@[simp] theorem State.setStatus_enc (x : Status) : (s.setStatus x).enc = s.enc := rfl
@[simp] theorem State.setStatus_dec (x : Status) : (s.setStatus x).dec = s.dec := rfl
@[simp] theorem State.setStatus_bw (x : Status) : (s.setStatus x).bw = s.bw := rfl
@[simp] theorem State.setStatus_br (x : Status) : (s.setStatus x).br = s.br := rfl
@[simp] theorem State.setStatus_scan (x : Status) : (s.setStatus x).scan = s.scan := rfl
@[simp] theorem State.setStatus_env (x : Status) : (s.setStatus x).env = s.env := rfl
@[simp] theorem State.setStatus_host (x : Status) : (s.setStatus x).host = s.host := rfl
@[simp] theorem State.setStatus_busData (x : Status) : (s.setStatus x).busData = s.busData := rfl
@[simp] theorem State.setStatus_freeCount (x : Status) : (s.setStatus x).freeCount = s.freeCount := rfl
@[simp] theorem State.setStatus_setStatus (x y : Status) : (s.setStatus x).setStatus y = s.setStatus y := rfl
@[simp] theorem State.setStatus_self : s.setStatus s.status = s := rfl

@[simp] theorem State.setEnc_params (x : Encoder) : (s.setEnc x).params = s.params := rfl
@[simp] theorem State.setEnc_regs (x : Encoder) : (s.setEnc x).regs = s.regs := rfl
@[simp] theorem State.setEnc_status (x : Encoder) : (s.setEnc x).status = s.status := rfl
@[simp] theorem State.setEnc_enc (x : Encoder) : (s.setEnc x).enc = x := rfl
@[simp] theorem State.setEnc_dec (x : Encoder) : (s.setEnc x).dec = s.dec := rfl
@[simp] theorem State.setEnc_bw (x : Encoder) : (s.setEnc x).bw = s.bw := rfl
@[simp] theorem State.setEnc_br (x : Encoder) : (s.setEnc x).br = s.br := rfl
@[simp] theorem State.setEnc_scan (x : Encoder) : (s.setEnc x).scan = s.scan := rfl
@[simp] theorem State.setEnc_env (x : Encoder) : (s.setEnc x).env = s.env := rfl
@[simp] theorem State.setEnc_host (x : Encoder) : (s.setEnc x).host = s.host := rfl
@[simp] theorem State.setEnc_busData (x : Encoder) : (s.setEnc x).busData = s.busData := rfl
@[simp] theorem State.setEnc_freeCount (x : Encoder) : (s.setEnc x).freeCount = s.freeCount := rfl
@[simp] theorem State.setEnc_setEnc (x y : Encoder) : (s.setEnc x).setEnc y = s.setEnc y := rfl
@[simp] theorem State.setEnc_self : s.setEnc s.enc = s := rfl

@[simp] theorem State.setDec_params (x : Decoder) : (s.setDec x).params = s.params := rfl
@[simp] theorem State.setDec_regs (x : Decoder) : (s.setDec x).regs = s.regs := rfl
@[simp] theorem State.setDec_status (x : Decoder) : (s.setDec x).status = s.status := rfl
@[simp] theorem State.setDec_enc (x : Decoder) : (s.setDec x).enc = s.enc := rfl
@[simp] theorem State.setDec_dec (x : Decoder) : (s.setDec x).dec = x := rfl
@[simp] theorem State.setDec_bw (x : Decoder) : (s.setDec x).bw = s.bw := rfl
@[simp] theorem State.setDec_br (x : Decoder) : (s.setDec x).br = s.br := rfl
@[simp] theorem State.setDec_scan (x : Decoder) : (s.setDec x).scan = s.scan := rfl
@[simp] theorem State.setDec_env (x : Decoder) : (s.setDec x).env = s.env := rfl
@[simp] theorem State.setDec_host (x : Decoder) : (s.setDec x).host = s.host := rfl
@[simp] theorem State.setDec_busData (x : Decoder) : (s.setDec x).busData = s.busData := rfl
@[simp] theorem State.setDec_freeCount (x : Decoder) : (s.setDec x).freeCount = s.freeCount := rfl
@[simp] theorem State.setDec_setDec (x y : Decoder) : (s.setDec x).setDec y = s.setDec y := rfl
@[simp] theorem State.setDec_self : s.setDec s.dec = s := rfl

@[simp] theorem State.setBw_params (x : BitWriter) : (s.setBw x).params = s.params := rfl
@[simp] theorem State.setBw_regs (x : BitWriter) : (s.setBw x).regs = s.regs := rfl
@[simp] theorem State.setBw_status (x : BitWriter) : (s.setBw x).status = s.status := rfl
@[simp] theorem State.setBw_enc (x : BitWriter) : (s.setBw x).enc = s.enc := rfl
@[simp] theorem State.setBw_dec (x : BitWriter) : (s.setBw x).dec = s.dec := rfl
@[simp] theorem State.setBw_bw (x : BitWriter) : (s.setBw x).bw = x := rfl
@[simp] theorem State.setBw_br (x : BitWriter) : (s.setBw x).br = s.br := rfl
@[simp] theorem State.setBw_scan (x : BitWriter) : (s.setBw x).scan = s.scan := rfl
@[simp] theorem State.setBw_env (x : BitWriter) : (s.setBw x).env = s.env := rfl
@[simp] theorem State.setBw_host (x : BitWriter) : (s.setBw x).host = s.host := rfl
@[simp] theorem State.setBw_busData (x : BitWriter) : (s.setBw x).busData = s.busData := rfl
@[simp] theorem State.setBw_freeCount (x : BitWriter) : (s.setBw x).freeCount = s.freeCount := rfl
@[simp] theorem State.setBw_setBw (x y : BitWriter) : (s.setBw x).setBw y = s.setBw y := rfl
@[simp] theorem State.setBw_self : s.setBw s.bw = s := rfl

@[simp] theorem State.setBr_params (x : BitReader) : (s.setBr x).params = s.params := rfl
@[simp] theorem State.setBr_regs (x : BitReader) : (s.setBr x).regs = s.regs := rfl
@[simp] theorem State.setBr_status (x : BitReader) : (s.setBr x).status = s.status := rfl
@[simp] theorem State.setBr_enc (x : BitReader) : (s.setBr x).enc = s.enc := rfl
@[simp] theorem State.setBr_dec (x : BitReader) : (s.setBr x).dec = s.dec := rfl
@[simp] theorem State.setBr_bw (x : BitReader) : (s.setBr x).bw = s.bw := rfl
@[simp] theorem State.setBr_br (x : BitReader) : (s.setBr x).br = x := rfl
@[simp] theorem State.setBr_scan (x : BitReader) : (s.setBr x).scan = s.scan := rfl
@[simp] theorem State.setBr_env (x : BitReader) : (s.setBr x).env = s.env := rfl
@[simp] theorem State.setBr_host (x : BitReader) : (s.setBr x).host = s.host := rfl
@[simp] theorem State.setBr_busData (x : BitReader) : (s.setBr x).busData = s.busData := rfl
@[simp] theorem State.setBr_freeCount (x : BitReader) : (s.setBr x).freeCount = s.freeCount := rfl
@[simp] theorem State.setBr_setBr (x y : BitReader) : (s.setBr x).setBr y = s.setBr y := rfl
@[simp] theorem State.setBr_self : s.setBr s.br = s := rfl

@[simp] theorem State.setScan_params (x : List Byte) : (s.setScan x).params = s.params := rfl
@[simp] theorem State.setScan_regs (x : List Byte) : (s.setScan x).regs = s.regs := rfl
@[simp] theorem State.setScan_status (x : List Byte) : (s.setScan x).status = s.status := rfl
@[simp] theorem State.setScan_enc (x : List Byte) : (s.setScan x).enc = s.enc := rfl
@[simp] theorem State.setScan_dec (x : List Byte) : (s.setScan x).dec = s.dec := rfl
@[simp] theorem State.setScan_bw (x : List Byte) : (s.setScan x).bw = s.bw := rfl
@[simp] theorem State.setScan_br (x : List Byte) : (s.setScan x).br = s.br := rfl
@[simp] theorem State.setScan_scan (x : List Byte) : (s.setScan x).scan = x := rfl
@[simp] theorem State.setScan_env (x : List Byte) : (s.setScan x).env = s.env := rfl
@[simp] theorem State.setScan_host (x : List Byte) : (s.setScan x).host = s.host := rfl
@[simp] theorem State.setScan_busData (x : List Byte) : (s.setScan x).busData = s.busData := rfl
@[simp] theorem State.setScan_freeCount (x : List Byte) : (s.setScan x).freeCount = s.freeCount := rfl
@[simp] theorem State.setScan_setScan (x y : List Byte) : (s.setScan x).setScan y = s.setScan y := rfl
@[simp] theorem State.setScan_self : s.setScan s.scan = s := rfl

@[simp] theorem State.setEnv_params (x : Env) : (s.setEnv x).params = s.params := rfl
@[simp] theorem State.setEnv_regs (x : Env) : (s.setEnv x).regs = s.regs := rfl
@[simp] theorem State.setEnv_status (x : Env) : (s.setEnv x).status = s.status := rfl
@[simp] theorem State.setEnv_enc (x : Env) : (s.setEnv x).enc = s.enc := rfl
@[simp] theorem State.setEnv_dec (x : Env) : (s.setEnv x).dec = s.dec := rfl
@[simp] theorem State.setEnv_bw (x : Env) : (s.setEnv x).bw = s.bw := rfl
@[simp] theorem State.setEnv_br (x : Env) : (s.setEnv x).br = s.br := rfl
@[simp] theorem State.setEnv_scan (x : Env) : (s.setEnv x).scan = s.scan := rfl
@[simp] theorem State.setEnv_env (x : Env) : (s.setEnv x).env = x := rfl
@[simp] theorem State.setEnv_host (x : Env) : (s.setEnv x).host = s.host := rfl
@[simp] theorem State.setEnv_busData (x : Env) : (s.setEnv x).busData = s.busData := rfl
@[simp] theorem State.setEnv_freeCount (x : Env) : (s.setEnv x).freeCount = s.freeCount := rfl
@[simp] theorem State.setEnv_setEnv (x y : Env) : (s.setEnv x).setEnv y = s.setEnv y := rfl
@[simp] theorem State.setEnv_self : s.setEnv s.env = s := rfl

@[simp] theorem State.setHost_params (x : List HostAction) : (s.setHost x).params = s.params := rfl
@[simp] theorem State.setHost_regs (x : List HostAction) : (s.setHost x).regs = s.regs := rfl
@[simp] theorem State.setHost_status (x : List HostAction) : (s.setHost x).status = s.status := rfl
@[simp] theorem State.setHost_enc (x : List HostAction) : (s.setHost x).enc = s.enc := rfl
@[simp] theorem State.setHost_dec (x : List HostAction) : (s.setHost x).dec = s.dec := rfl
@[simp] theorem State.setHost_bw (x : List HostAction) : (s.setHost x).bw = s.bw := rfl
@[simp] theorem State.setHost_br (x : List HostAction) : (s.setHost x).br = s.br := rfl
@[simp] theorem State.setHost_scan (x : List HostAction) : (s.setHost x).scan = s.scan := rfl
@[simp] theorem State.setHost_env (x : List HostAction) : (s.setHost x).env = s.env := rfl
@[simp] theorem State.setHost_host (x : List HostAction) : (s.setHost x).host = x := rfl
@[simp] theorem State.setHost_busData (x : List HostAction) : (s.setHost x).busData = s.busData := rfl
@[simp] theorem State.setHost_freeCount (x : List HostAction) : (s.setHost x).freeCount = s.freeCount := rfl
@[simp] theorem State.setHost_setHost (x y : List HostAction) : (s.setHost x).setHost y = s.setHost y := rfl
@[simp] theorem State.setHost_self : s.setHost s.host = s := rfl

@[simp] theorem State.setBusData_params (x : Word) : (s.setBusData x).params = s.params := rfl
@[simp] theorem State.setBusData_regs (x : Word) : (s.setBusData x).regs = s.regs := rfl
@[simp] theorem State.setBusData_status (x : Word) : (s.setBusData x).status = s.status := rfl
@[simp] theorem State.setBusData_enc (x : Word) : (s.setBusData x).enc = s.enc := rfl
@[simp] theorem State.setBusData_dec (x : Word) : (s.setBusData x).dec = s.dec := rfl
@[simp] theorem State.setBusData_bw (x : Word) : (s.setBusData x).bw = s.bw := rfl
@[simp] theorem State.setBusData_br (x : Word) : (s.setBusData x).br = s.br := rfl
@[simp] theorem State.setBusData_scan (x : Word) : (s.setBusData x).scan = s.scan := rfl
@[simp] theorem State.setBusData_env (x : Word) : (s.setBusData x).env = s.env := rfl
@[simp] theorem State.setBusData_host (x : Word) : (s.setBusData x).host = s.host := rfl
@[simp] theorem State.setBusData_busData (x : Word) : (s.setBusData x).busData = x := rfl
@[simp] theorem State.setBusData_freeCount (x : Word) : (s.setBusData x).freeCount = s.freeCount := rfl
@[simp] theorem State.setBusData_setBusData (x y : Word) : (s.setBusData x).setBusData y = s.setBusData y := rfl
@[simp] theorem State.setBusData_self : s.setBusData s.busData = s := rfl

@[simp] theorem State.setFreeCount_params (x : Nat) : (s.setFreeCount x).params = s.params := rfl
@[simp] theorem State.setFreeCount_regs (x : Nat) : (s.setFreeCount x).regs = s.regs := rfl
@[simp] theorem State.setFreeCount_status (x : Nat) : (s.setFreeCount x).status = s.status := rfl
@[simp] theorem State.setFreeCount_enc (x : Nat) : (s.setFreeCount x).enc = s.enc := rfl
@[simp] theorem State.setFreeCount_dec (x : Nat) : (s.setFreeCount x).dec = s.dec := rfl
@[simp] theorem State.setFreeCount_bw (x : Nat) : (s.setFreeCount x).bw = s.bw := rfl
@[simp] theorem State.setFreeCount_br (x : Nat) : (s.setFreeCount x).br = s.br := rfl
@[simp] theorem State.setFreeCount_scan (x : Nat) : (s.setFreeCount x).scan = s.scan := rfl
@[simp] theorem State.setFreeCount_env (x : Nat) : (s.setFreeCount x).env = s.env := rfl
@[simp] theorem State.setFreeCount_host (x : Nat) : (s.setFreeCount x).host = s.host := rfl
@[simp] theorem State.setFreeCount_busData (x : Nat) : (s.setFreeCount x).busData = s.busData := rfl
@[simp] theorem State.setFreeCount_freeCount (x : Nat) : (s.setFreeCount x).freeCount = x := rfl
@[simp] theorem State.setFreeCount_setFreeCount (x y : Nat) : (s.setFreeCount x).setFreeCount y = s.setFreeCount y := rfl
@[simp] theorem State.setFreeCount_self : s.setFreeCount s.freeCount = s := rfl

@[simp] theorem Result.bind_done {α β : Type} (a : α) (t : State) (f : α → State → Result β) :
    (Result.done a t).bind f = f a t := rfl
@[simp] theorem Result.bind_raised {α β : Type} (e : Raise) (t : State) (f : α → State → Result β) :
    (Result.raised e t : Result α).bind f = .raised e t := rfl
@[simp] theorem Result.state_done {α : Type} (a : α) (t : State) : (Result.done a t).state = t := rfl
@[simp] theorem Result.state_raised {α : Type} (e : Raise) (t : State) : (Result.raised e t : Result α).state = t := rfl

theorem Result.bind_assoc {α β γ : Type} (r : Result α) (f : α → State → Result β) (g : β → State → Result γ) :
    (r.bind f).bind g = r.bind fun a s => (f a s).bind g := by
  cases r <;> rfl

end Sys2Proof.Machine
end

