-- ==== Sys2Proof/Laws/Frames.lean ====
section
/-! SUPPORT. What the shared operations leave unchanged: one frame for what acts on the writer and DST, one for what acts on
the reader, and one for whatever a command does before it reports. -/

namespace Sys2Proof.Machine

/-- What an operation on the writer and DST leaves unchanged (40_bitwriter.md R131 to R135). -/
structure SinkFrame (s t : State) : Prop where
  params : t.params = s.params
  arg : t.regs.arg = s.regs.arg
  result : t.regs.result = s.regs.result
  symSel : t.regs.symSel = s.regs.symSel
  srcLen : t.regs.srcLen = s.regs.srcLen
  status : t.status = s.status
  enc : t.enc = s.enc
  dec : t.dec = s.dec
  br : t.br = s.br
  scan : t.scan = s.scan
  src : t.env.src = s.env.src
  creatable : t.env.dstCreatable = s.env.dstCreatable
  srcHeld : t.env.srcHeld = s.env.srcHeld
  host : t.host = s.host
  busData : t.busData = s.busData

theorem SinkFrame.refl (s : State) : SinkFrame s s := ⟨rfl, rfl, rfl, rfl, rfl, rfl, rfl, rfl, rfl, rfl, rfl, rfl, rfl, rfl, rfl⟩

theorem SinkFrame.trans {s t u : State} (h : SinkFrame s t) (g : SinkFrame t u) : SinkFrame s u :=
  ⟨g.params.trans h.params, g.arg.trans h.arg, g.result.trans h.result, g.symSel.trans h.symSel, g.srcLen.trans h.srcLen, g.status.trans h.status, g.enc.trans h.enc, g.dec.trans h.dec, g.br.trans h.br, g.scan.trans h.scan, g.src.trans h.src, g.creatable.trans h.creatable, g.srcHeld.trans h.srcHeld, g.host.trans h.host, g.busData.trans h.busData⟩

/-- What an operation on the open reader leaves unchanged (41_bitreader.md R152 to R154). -/
structure ReaderFrame (s t : State) : Prop where
  params : t.params = s.params
  regs : t.regs = s.regs
  status : t.status = s.status
  enc : t.enc = s.enc
  dec : t.dec = s.dec
  bw : t.bw = s.bw
  scan : t.scan = s.scan
  env : t.env = s.env
  host : t.host = s.host
  busData : t.busData = s.busData

theorem ReaderFrame.refl (s : State) : ReaderFrame s s := ⟨rfl, rfl, rfl, rfl, rfl, rfl, rfl, rfl, rfl, rfl⟩

theorem ReaderFrame.trans {s t u : State} (h : ReaderFrame s t) (g : ReaderFrame t u) : ReaderFrame s u :=
  ⟨g.params.trans h.params, g.regs.trans h.regs, g.status.trans h.status, g.enc.trans h.enc, g.dec.trans h.dec, g.bw.trans h.bw, g.scan.trans h.scan, g.env.trans h.env, g.host.trans h.host, g.busData.trans h.busData⟩

/-- What every command leaves unchanged until it reports: the host's registers, SRC, the status but for `ENC_VALID`. -/
structure RunFrame (s t : State) : Prop where
  params : t.params = s.params
  arg : t.regs.arg = s.regs.arg
  result : t.regs.result = s.regs.result
  symSel : t.regs.symSel = s.regs.symSel
  code : t.status.code = s.status.code
  cause : t.status.cause = s.status.cause
  sticky : t.status.sticky = s.status.sticky
  busy : t.status.busy = s.status.busy
  src : t.env.src = s.env.src
  creatable : t.env.dstCreatable = s.env.dstCreatable
  host : t.host = s.host
  busData : t.busData = s.busData

theorem RunFrame.refl (s : State) : RunFrame s s := ⟨rfl, rfl, rfl, rfl, rfl, rfl, rfl, rfl, rfl, rfl, rfl, rfl⟩

theorem RunFrame.trans {s t u : State} (h : RunFrame s t) (g : RunFrame t u) : RunFrame s u :=
  ⟨g.params.trans h.params, g.arg.trans h.arg, g.result.trans h.result, g.symSel.trans h.symSel, g.code.trans h.code, g.cause.trans h.cause, g.sticky.trans h.sticky, g.busy.trans h.busy, g.src.trans h.src, g.creatable.trans h.creatable, g.host.trans h.host, g.busData.trans h.busData⟩

theorem SinkFrame.run {s t : State} (h : SinkFrame s t) : RunFrame s t := by
  constructor <;> simp [h.params, h.arg, h.result, h.symSel, h.status, h.src, h.creatable, h.host, h.busData]

theorem ReaderFrame.run {s t : State} (h : ReaderFrame s t) : RunFrame s t := by
  constructor <;> simp [h.params, h.regs, h.status, h.env, h.host, h.busData]

theorem setBw_sinkFrame (s : State) (w : BitWriter) : SinkFrame s (s.setBw w) := by constructor <;> rfl
theorem setBr_readerFrame (s : State) (r : BitReader) : ReaderFrame s (s.setBr r) := by constructor <;> rfl
theorem setBr_runFrame (s : State) (r : BitReader) : RunFrame s (s.setBr r) := by constructor <;> rfl
theorem setEnc_runFrame (s : State) (e : Encoder) : RunFrame s (s.setEnc e) := by constructor <;> rfl
theorem setDec_runFrame (s : State) (d : Decoder) : RunFrame s (s.setDec d) := by constructor <;> rfl
theorem setScan_runFrame (s : State) (b : List Byte) : RunFrame s (s.setScan b) := by constructor <;> rfl

/-! Results: the frame of what a step leaves, and of two steps one after the other. -/

theorem Result.bind_runFrame {α β : Type} {s : State} {r : Result α} {f : α → State → Result β}
    (hr : RunFrame s r.state) (hf : ∀ a t, r = .done a t → RunFrame t (f a t).state) :
    RunFrame s (r.bind f).state := by
  cases r with
  | done a t => exact hr.trans (hf a t rfl)
  | raised e t => exact hr

theorem Result.bind_sinkFrame {α β : Type} {s : State} {r : Result α} {f : α → State → Result β}
    (hr : SinkFrame s r.state) (hf : ∀ a t, r = .done a t → SinkFrame t (f a t).state) :
    SinkFrame s (r.bind f).state := by
  cases r with
  | done a t => exact hr.trans (hf a t rfl)
  | raised e t => exact hr

/-! The ports. -/

theorem srcOpen_runFrame (s : State) : RunFrame s (srcOpen s).2 := by
  unfold srcOpen; split <;> constructor <;> rfl

theorem srcRead_readerFrame (off m : Nat) (s : State) : ReaderFrame s (srcRead off m s).2 := by
  unfold srcRead; dsimp only; split <;> constructor <;> rfl

theorem srcClose_runFrame (s : State) : RunFrame s (srcClose s) := by constructor <;> rfl

theorem dstOpen_sinkFrame (s : State) : SinkFrame s (dstOpen s).2 := by
  unfold dstOpen; split <;> constructor <;> rfl

theorem dstWrite_sinkFrame (v : List Byte) (s : State) : SinkFrame s (dstWrite v s).2 := by
  unfold dstWrite; split <;> constructor <;> rfl

theorem dstClose_sinkFrame (s : State) : SinkFrame s (dstClose s) := by constructor <;> rfl

/-! The writer. -/

theorem bwFlush_sinkFrame (s : State) : SinkFrame s (bwFlush s).2 := by
  unfold bwFlush; dsimp only
  split
  · exact setBw_sinkFrame s _
  · exact (setBw_sinkFrame s _).trans (dstWrite_sinkFrame _ _)

theorem bwRelease_sinkFrame (s : State) : SinkFrame s (bwRelease s) := by constructor <;> rfl

theorem bwOpen_sinkFrame (s : State) : SinkFrame s (bwOpen s).state := by
  unfold bwOpen
  have h := dstOpen_sinkFrame s
  split
  · exact SinkFrame.refl s
  · split <;> rename_i h1 <;> rw [h1] at h
    · exact h
    · exact h.trans (setBw_sinkFrame _ _)

theorem bwPutByte_sinkFrame (b : Byte) (s : State) : SinkFrame s (bwPutByte b s).state := by
  unfold bwPutByte; dsimp only
  split
  · split <;> exact (setBw_sinkFrame s _).trans ((dstWrite_sinkFrame _ _).trans (setBw_sinkFrame _ _))
  · exact setBw_sinkFrame s _

theorem bwPutBit_sinkFrame (v : Bool) (s : State) : SinkFrame s (bwPutBit v s).state := by
  unfold bwPutBit; dsimp only
  split
  · exact Result.bind_sinkFrame ((setBw_sinkFrame s _).trans (bwPutByte_sinkFrame _ _))
      fun _ t _ => setBw_sinkFrame t _
  · exact setBw_sinkFrame s _

theorem bwPutBits_sinkFrame (b : Bits) (s : State) : SinkFrame s (bwPutBits b s).state := by
  induction b generalizing s with
  | nil => exact SinkFrame.refl s
  | cons v b ih => exact Result.bind_sinkFrame (bwPutBit_sinkFrame v s) fun _ t _ => ih t

theorem bwWbits_sinkFrame (v : Word) (n : Nat) (s : State) : SinkFrame s (bwWbits v n s).state := by
  unfold bwWbits
  split
  · exact SinkFrame.refl s
  · split
    · exact bwPutBits_sinkFrame _ s
    · exact SinkFrame.refl s

theorem bwWbyte_sinkFrame (b : Byte) (s : State) : SinkFrame s (bwWbyte b s).state := by
  unfold bwWbyte
  split
  · split
    · exact bwPutByte_sinkFrame b s
    · exact SinkFrame.refl s
  · exact SinkFrame.refl s

theorem bwClose_sinkFrame (s : State) : SinkFrame s (bwClose s).state := by
  unfold bwClose; dsimp only
  split
  · split <;> exact (bwFlush_sinkFrame s).trans (bwRelease_sinkFrame _)
  · exact SinkFrame.refl s

/-! The reader. -/

theorem brOpen_runFrame (s : State) : RunFrame s (brOpen s).state := by
  unfold brOpen
  have h := srcOpen_runFrame s
  split
  · exact RunFrame.refl s
  · split <;> rename_i h1 <;> rw [h1] at h
    · exact h
    · exact h.trans (setBr_runFrame _ _)

theorem brRefill_readerFrame (s : State) : ReaderFrame s (brRefill s) := by
  unfold brRefill; dsimp only
  split
  · exact (srcRead_readerFrame _ _ s).trans (setBr_readerFrame _ _)
  · exact ReaderFrame.refl s

theorem brRbit_readerFrame (s : State) : ReaderFrame s (brRbit s).state := by
  unfold brRbit; dsimp only
  split
  · split
    · exact ReaderFrame.refl s
    · exact (brRefill_readerFrame s).trans (setBr_readerFrame _ _)
  · exact ReaderFrame.refl s

theorem brRbyte8_readerFrame (s : State) : ReaderFrame s (brRbyte8 s).state := by
  unfold brRbyte8; dsimp only
  split
  · split
    · exact ReaderFrame.refl s
    · exact (brRefill_readerFrame s).trans (setBr_readerFrame _ _)
  · exact ReaderFrame.refl s

theorem brClose_runFrame (s : State) : RunFrame s (brClose s).state := by
  unfold brClose
  split <;> constructor <;> rfl

/-! The clean-up and the report (60_exceptions.md R262). -/

theorem releaseSink_sinkFrame (e : Raise) (s : State) : SinkFrame s (releaseSink e s) := by
  unfold releaseSink
  split
  · split
    · exact bwRelease_sinkFrame s
    · exact (bwFlush_sinkFrame s).trans (bwRelease_sinkFrame _)
  · exact SinkFrame.refl s

theorem releaseSource_runFrame (s : State) : RunFrame s (releaseSource s) := by
  unfold releaseSource
  split <;> constructor <;> rfl

theorem cleanUp_runFrame (site : Site) (e : Raise) (s : State) : RunFrame s (cleanUp site e s) := by
  cases site with
  | decode => exact RunFrame.refl s
  | writer =>
    unfold cleanUp; dsimp only
    split
    · exact (bwRelease_sinkFrame s).run
    · exact RunFrame.refl s
  | reader => exact RunFrame.refl s
  | composite => exact (releaseSink_sinkFrame e s).run.trans (releaseSource_runFrame _)

/-! The bodies of the composite commands. -/

theorem scanLoop_runFrame (fuel off len : Nat) (s : State) : RunFrame s (scanLoop fuel off len s) := by
  induction fuel generalizing off s with
  | zero => exact RunFrame.refl s
  | succ fuel ih =>
    unfold scanLoop; dsimp only
    split
    · exact (srcRead_readerFrame _ _ s).run.trans
        ((setScan_runFrame _ _).trans ((setEnc_runFrame _ _).trans (ih _ _)))
    · exact RunFrame.refl s

theorem freqScan_runFrame (s : State) : RunFrame s (freqScan s).state := by
  unfold freqScan
  have h := (setEnc_runFrame s (clearTable s.enc)).trans (srcOpen_runFrame _)
  split <;> rename_i h1 <;> rw [h1] at h
  · exact h
  · exact h.trans ((scanLoop_runFrame _ _ _ _).trans ((srcClose_runFrame _).trans (setEnc_runFrame _ _)))

theorem codeDerive_runFrame (s : State) : RunFrame s (codeDerive s).state := by
  unfold codeDerive; dsimp only
  split
  · exact (setEnc_runFrame _ _).trans (setEnc_runFrame _ _)
  · exact setEnc_runFrame _ _

theorem setEncValid_runFrame (s : State) (v : Bool) :
    RunFrame s (s.setStatus { s.status with encValid := v }) := by constructor <;> rfl

theorem encodeBody_runFrame (s : State) : RunFrame s (encodeBody s).state := by
  refine Result.bind_runFrame ((setEncValid_runFrame s false).trans (freqScan_runFrame _)) fun _ t _ => ?_
  dsimp only
  split
  · exact RunFrame.refl t
  · exact Result.bind_runFrame ((setEnc_runFrame t _).trans (codeDerive_runFrame _))
      fun _ u _ => setEncValid_runFrame u true

theorem emitHeader_sinkFrame (fuel j : Nat) (s : State) : SinkFrame s (emitHeader fuel j s).state := by
  induction fuel generalizing j s with
  | zero => exact SinkFrame.refl s
  | succ fuel ih =>
    unfold emitHeader; dsimp only
    split
    · exact Result.bind_sinkFrame (bwWbits_sinkFrame _ _ s) fun _ t _ => ih _ t
    · exact SinkFrame.refl s

theorem emitCode_sinkFrame (b : Byte) (s : State) : SinkFrame s (emitCode b s).state := by
  unfold emitCode
  split
  · exact SinkFrame.refl s
  · exact bwWbits_sinkFrame _ _ s

theorem emitCodes_sinkFrame (x : List Byte) (s : State) : SinkFrame s (emitCodes x s).state := by
  induction x generalizing s with
  | nil => exact SinkFrame.refl s
  | cons b x ih => exact Result.bind_sinkFrame (emitCode_sinkFrame b s) fun _ t _ => ih t

theorem payloadLoop_runFrame (fuel off len : Nat) (s : State) :
    RunFrame s (payloadLoop fuel off len s).state := by
  induction fuel generalizing off s with
  | zero => exact RunFrame.refl s
  | succ fuel ih =>
    unfold payloadLoop; dsimp only
    split
    · exact Result.bind_runFrame ((srcRead_readerFrame _ _ s).run.trans
        ((setScan_runFrame _ _).trans (emitCodes_sinkFrame _ _).run)) fun _ t _ => ih _ t
    · exact RunFrame.refl s

theorem compressFinish_runFrame (s : State) : RunFrame s (compressFinish s).state := by
  unfold compressFinish
  split
  · exact (srcClose_runFrame s).trans (bwClose_sinkFrame _).run
  · exact srcClose_runFrame s

theorem compressEmit_runFrame (len : Nat) (s : State) : RunFrame s (compressEmit len s).state := by
  refine Result.bind_runFrame ((setEnc_runFrame s _).trans (emitHeader_sinkFrame _ _ _).run) fun _ t _ => ?_
  refine Result.bind_runFrame (bwWbits_sinkFrame _ _ t).run fun _ u _ => ?_
  exact Result.bind_runFrame (payloadLoop_runFrame _ _ _ u) fun _ v _ => compressFinish_runFrame v

theorem compressBody_runFrame (s : State) : RunFrame s (compressBody s).state := by
  unfold compressBody
  have h := srcOpen_runFrame s
  split <;> rename_i h1 <;> rw [h1] at h
  · exact h
  · exact Result.bind_runFrame (h.trans (bwOpen_sinkFrame _).run) fun _ t _ => compressEmit_runFrame _ t

theorem parseNode_runFrame (fuel : Nat) (s : State) : RunFrame s (parseNode fuel s).state := by
  induction fuel generalizing s with
  | zero => exact RunFrame.refl s
  | succ fuel ih =>
    unfold parseNode; dsimp only
    split
    · exact RunFrame.refl s
    · split
      · exact setDec_runFrame s _
      · refine Result.bind_runFrame ((setDec_runFrame s _).trans (brRbit_readerFrame _).run) fun m t _ => ?_
        split
        · split
          · exact RunFrame.refl t
          · exact Result.bind_runFrame (brRbyte8_readerFrame t).run fun _ u _ => setDec_runFrame u _
        · exact Result.bind_runFrame (ih t) fun _ u _ =>
            Result.bind_runFrame (ih u) fun _ v _ => setDec_runFrame v _

theorem hdrParse_runFrame (s : State) : RunFrame s (hdrParse s).state := by
  refine Result.bind_runFrame ((setDec_runFrame s _).trans (parseNode_runFrame _ _)) fun _ t _ => ?_
  split <;> exact RunFrame.refl t

theorem padRead_runFrame (s : State) : RunFrame s (padRead s).state := by
  unfold padRead
  split
  · exact RunFrame.refl s
  · exact Result.bind_runFrame (brRbit_readerFrame s).run fun _ t _ =>
      Result.bind_runFrame (brRbit_readerFrame t).run fun _ u _ =>
      Result.bind_runFrame (brRbit_readerFrame u).run fun _ v _ => setDec_runFrame v _

theorem walkDown_readerFrame (fuel : Nat) (i : NodeId) (s : State) :
    ReaderFrame s (walkDown fuel i s).state := by
  induction fuel generalizing i s with
  | zero => exact ReaderFrame.refl s
  | succ fuel ih =>
    unfold walkDown
    split
    · exact ReaderFrame.refl s
    · split
      · exact ReaderFrame.refl s
      · have h := brRbit_readerFrame s
        cases hr : brRbit s with
        | done b t => rw [hr] at h; exact h.trans (ih _ t)
        | raised e t => rw [hr] at h; exact h

theorem treeWalk_runFrame (fuel : Nat) (s : State) : RunFrame s (treeWalk fuel s).state := by
  induction fuel generalizing s with
  | zero => exact RunFrame.refl s
  | succ fuel ih =>
    unfold treeWalk
    split
    · exact RunFrame.refl s
    · exact Result.bind_runFrame (walkDown_readerFrame _ _ s).run fun _ t _ =>
        Result.bind_runFrame (bwWbyte_sinkFrame _ t).run fun _ u _ => ih u

theorem decompressRun_runFrame (s : State) : RunFrame s (decompressRun s).state :=
  Result.bind_runFrame (hdrParse_runFrame s) fun _ t _ =>
    Result.bind_runFrame (padRead_runFrame t) fun _ u _ =>
    Result.bind_runFrame (treeWalk_runFrame _ u) fun _ v _ =>
    Result.bind_runFrame (bwClose_sinkFrame v).run fun _ w _ => brClose_runFrame w

theorem decompressBody_runFrame (s : State) : RunFrame s (decompressBody s).state := by
  unfold decompressBody
  have h := brOpen_runFrame s
  split <;> rename_i h1 <;> rw [h1] at h
  · exact h
  · exact h.trans (Result.bind_runFrame (bwOpen_sinkFrame _).run fun _ t _ => decompressRun_runFrame t)

end Sys2Proof.Machine
end

