-- ==== Sys2Proof/Laws/Ops.lean ====
section
/-! SUPPORT. What the port transactions, taking an error and ending an operation do, once each. -/

namespace Sys2Proof.Machine

/-! The SRC port. -/

theorem srcOpen_absent {s : State} (h : s.env.src = none) : srcOpen s = (false, s) := by
  unfold srcOpen; rw [h]

theorem srcOpen_present {s : State} {x : List Byte} (h : s.env.src = some x) :
    srcOpen s = (true, (s.setRegs { s.regs with srcLen := BitVec.ofNat 32 x.length }).setEnv
      { s.env with srcHeld := true }) := by
  unfold srcOpen; rw [h]

/-- A length within `LEN_MAX` is the number the register shows. -/
theorem ofNat_length {x : List Byte} (h : x.length ≤ Config.lenMax) : (BitVec.ofNat 32 x.length).toNat = x.length := by
  rw [BitVec.toNat_ofNat, Nat.mod_eq_of_lt]
  unfold Config.lenMax at h
  omega

/-- A read inside the source returns its bytes and changes nothing (20_memory.md R63). -/
theorem srcRead_inside {s : State} {x : List Byte} {off m : Nat} (h : s.env.src = some x)
    (hm : off + m ≤ x.length) : srcRead off m s = ((x.drop off).take m, s) := by
  have : ((x.drop off).take m).length = m := by rw [List.length_take, List.length_drop]; omega
  unfold srcRead
  simp only [h, Option.getD_some, this, Nat.sub_self, if_true]

/-- However the read goes, it returns as many bytes as asked for. -/
theorem srcRead_length (off m : Nat) (s : State) : (srcRead off m s).1.length = m := by
  unfold srcRead
  have : (((s.env.src.getD []).drop off).take m).length ≤ m := by rw [List.length_take]; omega
  dsimp only
  split
  · dsimp only; omega
  · simp only [List.length_append, List.length_map, List.length_range]; omega

/-! The DST port. -/

theorem dstOpen_creatable {s : State} (h : s.env.dstCreatable = true) :
    dstOpen s = (true, (s.setRegs { s.regs with dstLen := 0 }).setEnv { s.env with dst := [], dstHeld := true }) := by
  unfold dstOpen; rw [if_pos h]

theorem dstOpen_failing {s : State} (h : s.env.dstCreatable = false) : dstOpen s = (false, s) := by
  unfold dstOpen; rw [if_neg (by rw [h]; decide)]

theorem dstWrite_accepted {s : State} (v : List Byte) (h : s.env.verdicts.head? ≠ some false) :
    dstWrite v s = (true, (s.setRegs { s.regs with dstLen := s.regs.dstLen + BitVec.ofNat 32 v.length }).setEnv
      { s.env with dst := s.env.dst ++ v, verdicts := s.env.verdicts.tail }) := by
  unfold dstWrite
  rw [if_pos]
  cases hv : s.env.verdicts with
  | nil => rfl
  | cons b l => rw [hv] at h; cases b <;> simp_all

/-- A refused burst delivers a beginning of itself, is not counted, and uses one free value (20_memory.md R66). -/
theorem dstWrite_refused {s : State} (v : List Byte) (h : s.env.verdicts.head? = some false) :
    ∃ p, p <+: v ∧ dstWrite v s = (false, (s.setEnv
      { s.env with dst := s.env.dst ++ p, verdicts := s.env.verdicts.tail }).setFreeCount (s.freeCount + 1)) := by
  refine ⟨v.take (Config.failedWriteDelivers s.freeCount), List.take_prefix _ _, ?_⟩
  unfold dstWrite
  rw [if_neg]
  cases hv : s.env.verdicts with
  | nil => rw [hv] at h; cases h
  | cons b l => rw [hv] at h; cases b <;> simp_all

/-- Whatever is answered, DST only grows and its handle stays. -/
theorem dstWrite_grows (v : List Byte) (s : State) :
    s.env.dst <+: (dstWrite v s).2.env.dst ∧ (dstWrite v s).2.env.dstHeld = s.env.dstHeld ∧
      (dstWrite v s).2.bw = s.bw := by
  unfold dstWrite
  split <;> exact ⟨List.prefix_append _ _, rfl, rfl⟩

/-! Accepting bursts. -/

theorem AcceptsBursts.head {s : State} (h : AcceptsBursts s) : s.env.verdicts.head? ≠ some false := by
  intro hv
  have := h false (List.mem_of_mem_head? hv)
  cases this

theorem AcceptsBursts.tail {l : List Bool} (h : ∀ v ∈ l, v = true) : ∀ v ∈ l.tail, v = true :=
  fun v hv => h v (List.mem_of_mem_tail hv)

/-! Reporting. -/

/-- An operation that completed reports `OK`, whatever the place. -/
theorem endOp_done (site : Site) (s : State) : endOp site (.done () s) = endOk s := rfl

theorem endOp_raised (site : Site) (e : Raise) (s : State) : endOp site (.raised e s) = takeError site e s := rfl

theorem endOk_eq (s : State) : endOk s = { s with status := statusOk s } := rfl

/-- Taking an error changes what the clean-up changes, and the status (60_exceptions.md R262). -/
theorem takeError_eq (site : Site) (e : Raise) (s : State) :
    takeError site e s = { cleanUp site e s with status := statusErr e.code e.cause (cleanUp site e s) } := rfl

end Sys2Proof.Machine
end

