-- ==== Sys2Proof/Laws/Bodies.lean ====
section
/-! SUPPORT. What the bodies of the composite commands keep, on every path: `COMPRESS` the decoder, the reader and the
encoder side but for `ENC_PAD`, `DECOMPRESS` the encoder side and the scan buffer; and the operations that only add to DST. -/

namespace Sys2Proof.Machine

/-! `COMPRESS` (42_encoder.md R180). -/

/-- What `COMPRESS` keeps from the opening of the source until it reports. -/
structure CompressKeeps (s t : State) : Prop where
  run : RunFrame s t
  srcLen : t.regs.srcLen = s.regs.srcLen
  status : t.status = s.status
  enc : t.enc = { s.enc with encPad := t.enc.encPad }
  dec : t.dec = s.dec
  br : t.br = s.br

theorem CompressKeeps.refl (s : State) : CompressKeeps s s := ⟨RunFrame.refl s, rfl, rfl, rfl, rfl, rfl⟩

theorem CompressKeeps.trans {s t u : State} (h : CompressKeeps s t) (g : CompressKeeps t u) : CompressKeeps s u :=
  ⟨h.run.trans g.run, g.srcLen.trans h.srcLen, g.status.trans h.status,
    g.enc.trans (congrArg (fun e : Encoder => { e with encPad := u.enc.encPad }) h.enc), g.dec.trans h.dec,
    g.br.trans h.br⟩

theorem SinkFrame.compress {s t : State} (h : SinkFrame s t) : CompressKeeps s t :=
  ⟨h.run, h.srcLen, h.status, by rw [h.enc], h.dec, h.br⟩

theorem Result.bind_compressKeeps {α β : Type} {s : State} {r : Result α} {f : α → State → Result β}
    (hr : CompressKeeps s r.state) (hf : ∀ a t, r = .done a t → CompressKeeps t (f a t).state) :
    CompressKeeps s (r.bind f).state := by
  cases r with
  | done a t => exact hr.trans (hf a t rfl)
  | raised e t => exact hr

theorem srcRead_sinkFrame (off m : Nat) (s : State) : SinkFrame s (srcRead off m s).2 := by
  unfold srcRead; dsimp only; split <;> constructor <;> rfl

theorem setScan_compressKeeps (s : State) (b : List Byte) : CompressKeeps s (s.setScan b) :=
  ⟨setScan_runFrame s b, rfl, rfl, rfl, rfl, rfl⟩

theorem srcClose_compressKeeps (s : State) : CompressKeeps s (srcClose s) :=
  ⟨srcClose_runFrame s, rfl, rfl, rfl, rfl, rfl⟩

theorem setEncPad_compressKeeps (s : State) (n : BitVec 3) : CompressKeeps s (s.setEnc { s.enc with encPad := n }) :=
  ⟨setEnc_runFrame s _, rfl, rfl, rfl, rfl, rfl⟩

theorem payloadLoop_compressKeeps (fuel off len : Nat) (s : State) :
    CompressKeeps s (payloadLoop fuel off len s).state := by
  induction fuel generalizing off s with
  | zero => exact CompressKeeps.refl s
  | succ fuel ih =>
    unfold payloadLoop; dsimp only
    split
    · exact Result.bind_compressKeeps ((srcRead_sinkFrame _ _ s).compress.trans
        ((setScan_compressKeeps _ _).trans (emitCodes_sinkFrame _ _).compress)) fun _ t _ => ih _ t
    · exact CompressKeeps.refl s

theorem compressFinish_compressKeeps (s : State) : CompressKeeps s (compressFinish s).state := by
  unfold compressFinish
  split
  · exact (srcClose_compressKeeps s).trans (bwClose_sinkFrame _).compress
  · exact srcClose_compressKeeps s

theorem compressEmit_compressKeeps (len : Nat) (s : State) : CompressKeeps s (compressEmit len s).state := by
  refine Result.bind_compressKeeps
    ((setEncPad_compressKeeps s _).trans (emitHeader_sinkFrame _ _ _).compress) fun _ t _ => ?_
  refine Result.bind_compressKeeps (bwWbits_sinkFrame _ _ t).compress fun _ u _ => ?_
  exact Result.bind_compressKeeps (payloadLoop_compressKeeps _ _ _ u) fun _ v _ => compressFinish_compressKeeps v

theorem compressBody_keeps (s : State) : CompressKeeps (srcOpen s).2 (compressBody s).state := by
  unfold compressBody
  split <;> rename_i h <;> rw [h]
  · exact CompressKeeps.refl _
  · exact Result.bind_compressKeeps (bwOpen_sinkFrame _).compress fun _ t _ => compressEmit_compressKeeps _ t

/-! `DECOMPRESS` (43_decoder.md R211). -/

/-- What `DECOMPRESS` keeps from the opening of the source until it reports. -/
structure DecompressKeeps (s t : State) : Prop where
  run : RunFrame s t
  srcLen : t.regs.srcLen = s.regs.srcLen
  status : t.status = s.status
  enc : t.enc = s.enc
  scan : t.scan = s.scan

theorem DecompressKeeps.refl (s : State) : DecompressKeeps s s := ⟨RunFrame.refl s, rfl, rfl, rfl, rfl⟩

theorem DecompressKeeps.trans {s t u : State} (h : DecompressKeeps s t) (g : DecompressKeeps t u) :
    DecompressKeeps s u :=
  ⟨h.run.trans g.run, g.srcLen.trans h.srcLen, g.status.trans h.status, g.enc.trans h.enc, g.scan.trans h.scan⟩

theorem SinkFrame.decompress {s t : State} (h : SinkFrame s t) : DecompressKeeps s t :=
  ⟨h.run, h.srcLen, h.status, h.enc, h.scan⟩

theorem ReaderFrame.decompress {s t : State} (h : ReaderFrame s t) : DecompressKeeps s t :=
  ⟨h.run, congrArg Regs.srcLen h.regs, h.status, h.enc, h.scan⟩

theorem Result.bind_decompressKeeps {α β : Type} {s : State} {r : Result α} {f : α → State → Result β}
    (hr : DecompressKeeps s r.state) (hf : ∀ a t, r = .done a t → DecompressKeeps t (f a t).state) :
    DecompressKeeps s (r.bind f).state := by
  cases r with
  | done a t => exact hr.trans (hf a t rfl)
  | raised e t => exact hr

theorem setDec_decompressKeeps (s : State) (d : Decoder) : DecompressKeeps s (s.setDec d) :=
  ⟨setDec_runFrame s d, rfl, rfl, rfl, rfl⟩

theorem brClose_decompressKeeps (s : State) : DecompressKeeps s (brClose s).state := by
  refine ⟨brClose_runFrame s, ?_, ?_, ?_, ?_⟩ <;> (unfold brClose; split <;> rfl)

theorem parseNode_decompressKeeps (fuel : Nat) (s : State) : DecompressKeeps s (parseNode fuel s).state := by
  induction fuel generalizing s with
  | zero => exact DecompressKeeps.refl s
  | succ fuel ih =>
    unfold parseNode; dsimp only
    split
    · exact DecompressKeeps.refl s
    · split
      · exact setDec_decompressKeeps s _
      · refine Result.bind_decompressKeeps
          ((setDec_decompressKeeps s _).trans (brRbit_readerFrame _).decompress) fun m t _ => ?_
        split
        · split
          · exact DecompressKeeps.refl t
          · exact Result.bind_decompressKeeps (brRbyte8_readerFrame t).decompress
              fun _ u _ => setDec_decompressKeeps u _
        · exact Result.bind_decompressKeeps (ih t) fun _ u _ =>
            Result.bind_decompressKeeps (ih u) fun _ v _ => setDec_decompressKeeps v _

theorem hdrParse_decompressKeeps (s : State) : DecompressKeeps s (hdrParse s).state := by
  refine Result.bind_decompressKeeps
    ((setDec_decompressKeeps s _).trans (parseNode_decompressKeeps _ _)) fun _ t _ => ?_
  split <;> exact DecompressKeeps.refl t

theorem padRead_decompressKeeps (s : State) : DecompressKeeps s (padRead s).state := by
  unfold padRead
  split
  · exact DecompressKeeps.refl s
  · exact Result.bind_decompressKeeps (brRbit_readerFrame s).decompress fun _ t _ =>
      Result.bind_decompressKeeps (brRbit_readerFrame t).decompress fun _ u _ =>
      Result.bind_decompressKeeps (brRbit_readerFrame u).decompress fun _ v _ => setDec_decompressKeeps v _

theorem treeWalk_decompressKeeps (fuel : Nat) (s : State) : DecompressKeeps s (treeWalk fuel s).state := by
  induction fuel generalizing s with
  | zero => exact DecompressKeeps.refl s
  | succ fuel ih =>
    unfold treeWalk
    split
    · exact DecompressKeeps.refl s
    · exact Result.bind_decompressKeeps (walkDown_readerFrame _ _ s).decompress fun _ t _ =>
        Result.bind_decompressKeeps (bwWbyte_sinkFrame _ t).decompress fun _ u _ => ih u

theorem decompressBody_keeps (s : State) : DecompressKeeps (brOpen s).state (decompressBody s).state := by
  unfold decompressBody
  split <;> rename_i h <;> rw [h]
  · exact DecompressKeeps.refl _
  · refine Result.bind_decompressKeeps (bwOpen_sinkFrame _).decompress fun _ t _ => ?_
    exact Result.bind_decompressKeeps (hdrParse_decompressKeeps t) fun _ u _ =>
      Result.bind_decompressKeeps (padRead_decompressKeeps u) fun _ v _ =>
      Result.bind_decompressKeeps (treeWalk_decompressKeeps _ v) fun _ w _ =>
      Result.bind_decompressKeeps (bwClose_sinkFrame w).decompress fun _ y _ => brClose_decompressKeeps y

/-! Operations that only add to DST (20_memory.md R66). -/

theorem bwPutByte_grows (b : Byte) (s : State) : s.env.dst <+: (bwPutByte b s).state.env.dst := by
  unfold bwPutByte; dsimp only
  split
  · split <;> exact (dstWrite_grows (s.bw.buf ++ [b]) (s.setBw { s.bw with buf := s.bw.buf ++ [b] })).1
  · exact List.prefix_rfl

theorem bwPutBit_grows (v : Bool) (s : State) : s.env.dst <+: (bwPutBit v s).state.env.dst := by
  unfold bwPutBit; dsimp only
  split
  · have h := bwPutByte_grows (putBit s.bw.cur (s.bw.free - 1).toNat v)
      (s.setBw { s.bw with cur := putBit s.bw.cur (s.bw.free - 1).toNat v, free := s.bw.free - 1 })
    revert h
    generalize bwPutByte _ _ = r
    intro h
    cases r <;> exact h
  · exact List.prefix_rfl

theorem bwPutBits_grows (b : Bits) (s : State) : s.env.dst <+: (bwPutBits b s).state.env.dst := by
  induction b generalizing s with
  | nil => exact List.prefix_rfl
  | cons v b ih =>
    have h := bwPutBit_grows v s
    rw [bwPutBits]
    cases hr : bwPutBit v s with
    | done a t => rw [hr] at h; exact h.trans (ih t)
    | raised e t => rw [hr] at h; exact h

theorem bwWbits_grows (v : Word) (n : Nat) (s : State) : s.env.dst <+: (bwWbits v n s).state.env.dst := by
  unfold bwWbits
  split
  · exact List.prefix_rfl
  · split
    · exact bwPutBits_grows _ s
    · exact List.prefix_rfl

theorem bwWbyte_grows (b : Byte) (s : State) : s.env.dst <+: (bwWbyte b s).state.env.dst := by
  unfold bwWbyte
  split
  · split
    · exact bwPutByte_grows b s
    · exact List.prefix_rfl
  · exact List.prefix_rfl

theorem bwFlush_grows (s : State) : s.env.dst <+: (bwFlush s).2.env.dst := by
  unfold bwFlush; dsimp only
  split
  · exact List.prefix_rfl
  · exact (dstWrite_grows (flushBytes s.bw) (s.setBw { s.bw with buf := flushBytes s.bw })).1

theorem bwClose_grows (s : State) : s.env.dst <+: (bwClose s).state.env.dst := by
  unfold bwClose; dsimp only
  split
  · split <;> exact bwFlush_grows s
  · exact List.prefix_rfl

theorem cleanUp_grows (site : Site) (e : Raise) (s : State) : s.env.dst <+: (cleanUp site e s).env.dst := by
  have hs : ∀ u : State, (releaseSource u).env.dst = u.env.dst := by
    intro u; unfold releaseSource; split <;> rfl
  cases site with
  | decode => exact List.prefix_rfl
  | writer =>
    unfold cleanUp; dsimp only
    split <;> exact List.prefix_rfl
  | reader => exact List.prefix_rfl
  | composite =>
    show _ <+: (releaseSource (releaseSink e s)).env.dst
    rw [hs]
    unfold releaseSink
    split
    · show _ <+: (if e.cause = .dstWriteFail then s else (bwFlush s).2).env.dst
      split
      · exact List.prefix_rfl
      · exact bwFlush_grows s
    · exact List.prefix_rfl

/-- The clean-up keeps status, encoder, decoder and scan buffer, and of the reader all but whether it is open (R262). -/
theorem cleanUp_keeps (site : Site) (e : Raise) (s : State) :
    (cleanUp site e s).status = s.status ∧ (cleanUp site e s).enc = s.enc ∧ (cleanUp site e s).dec = s.dec ∧
      (cleanUp site e s).scan = s.scan ∧ (s.br.isOpen = false → (cleanUp site e s).br = s.br) := by
  have hc : ∀ u : State, (releaseSource u).status = u.status ∧ (releaseSource u).enc = u.enc ∧
      (releaseSource u).dec = u.dec ∧ (releaseSource u).scan = u.scan ∧
      (u.br.isOpen = false → (releaseSource u).br = u.br) := by
    intro u
    unfold releaseSource
    split
    · refine ⟨rfl, rfl, rfl, rfl, fun h => ?_⟩
      show ({ u.br with isOpen := false } : BitReader) = u.br
      rw [← h]
    · exact ⟨rfl, rfl, rfl, rfl, fun _ => rfl⟩
  cases site with
  | decode => exact ⟨rfl, rfl, rfl, rfl, fun _ => rfl⟩
  | writer => unfold cleanUp; dsimp only; split <;> exact ⟨rfl, rfl, rfl, rfl, fun _ => rfl⟩
  | reader => exact ⟨rfl, rfl, rfl, rfl, fun _ => rfl⟩
  | composite =>
    have h := releaseSink_sinkFrame e s
    obtain ⟨c1, c2, c3, c4, c5⟩ := hc (releaseSink e s)
    refine ⟨c1.trans h.status, c2.trans h.enc, c3.trans h.dec, c4.trans h.scan, fun ho => ?_⟩
    exact (c5 (by rw [h.br]; exact ho)).trans h.br

/-- An operation that only adds to DST still does after its end (R262). -/
theorem endOp_grows (site : Site) {s : State} {r : Result Unit} (h : s.env.dst <+: r.state.env.dst) :
    s.env.dst <+: (endOp site r).env.dst := by
  cases r with
  | done a t => exact h
  | raised e t => exact h.trans (cleanUp_grows site e t)

theorem cleanUp_srcLen (site : Site) (e : Raise) (s : State) : (cleanUp site e s).regs.srcLen = s.regs.srcLen := by
  cases site with
  | decode => rfl
  | writer => unfold cleanUp; dsimp only; split <;> rfl
  | reader => rfl
  | composite =>
    refine Eq.trans ?_ (releaseSink_sinkFrame e s).srcLen
    show (releaseSource (releaseSink e s)).regs.srcLen = _
    unfold releaseSource; split <;> rfl

theorem endOp_srcLen (site : Site) (r : Result Unit) : (endOp site r).regs.srcLen = r.state.regs.srcLen := by
  cases r with
  | done a t => rfl
  | raised e t => exact cleanUp_srcLen site e t

/-- After `COMPRESS` opened a source, `SRC_LEN` is its length however the command ends (20_memory.md R62). -/
theorem endOp_compressBody_srcLen {s : State} {x : List Byte} (hx : s.env.src = some x) :
    (endOp .composite (compressBody s)).regs.srcLen = BitVec.ofNat 32 x.length := by
  rw [endOp_srcLen, (compressBody_keeps s).srcLen, srcOpen_present hx]
  rfl

/-- After `DECOMPRESS` opened a source, `SRC_LEN` is its length however the command ends (20_memory.md R62). -/
theorem endOp_decompressBody_srcLen {s : State} {x : List Byte} (hi : s.br.isOpen = false) (hx : s.env.src = some x) :
    (endOp .composite (decompressBody s)).regs.srcLen = BitVec.ofNat 32 x.length := by
  rw [endOp_srcLen, (decompressBody_keeps s).srcLen]
  unfold brOpen
  rw [if_neg (by rw [hi]; decide), srcOpen_present hx]
  rfl

theorem scanLoop_env (fuel off len : Nat) (s : State) : (scanLoop fuel off len s).env = s.env := by
  induction fuel generalizing off s with
  | zero => rfl
  | succ fuel ih =>
    unfold scanLoop; dsimp only
    split
    · exact (ih _ _).trans (srcRead_readerFrame _ _ s).env
    · rfl

/-- `ENCODE` touches of the environment only whether the source is held (R171, R172). -/
theorem encodeBody_dst (s : State) : (encodeBody s).state.env.dst = s.env.dst := by
  have hf : ∀ u : State, (freqScan u).state.env.dst = u.env.dst := by
    intro u
    unfold freqScan
    cases hx : u.env.src with
    | none => rw [srcOpen_absent (s := u.setEnc (clearTable u.enc)) hx]; rfl
    | some x =>
      rw [srcOpen_present (s := u.setEnc (clearTable u.enc)) hx]
      dsimp only
      show (scanLoop _ _ _ _).env.dst = _
      rw [scanLoop_env]
      rfl
  have hc : ∀ u : State, (codeDerive u).state.env.dst = u.env.dst := by
    intro u
    unfold codeDerive; dsimp only
    split <;> rfl
  have h := hf (s.setStatus { s.status with encValid := false })
  unfold encodeBody
  cases hr : freqScan (s.setStatus { s.status with encValid := false }) with
  | raised e t => rw [hr] at h; exact h
  | done a t =>
    rw [hr] at h
    rw [Result.bind_done]
    split
    · exact h
    · have g := hc (t.setEnc (treeBuild t.params.tie t.enc))
      cases hd : codeDerive (t.setEnc (treeBuild t.params.tie t.enc)) with
      | raised e u => rw [hd] at g; exact Eq.trans g h
      | done a u => rw [hd] at g; exact Eq.trans g h

end Sys2Proof.Machine
end

