-- ==== Sys2Proof/Laws/Writer.lean ====
section
/-! SUPPORT. What the operations of the writer do: the bits they append to the bit string written so far, the form they
keep, and the two ways they end. -/

namespace Sys2Proof.Machine

/-- What an accepted writer operation changes: the writer, DST (which grows), the verdicts used up, and `DST_LEN` by the
bytes that reached DST (40_bitwriter.md R132 to R135). -/
structure SinkStep (s t : State) : Prop where
  frame : SinkFrame s t
  grows : s.env.dst <+: t.env.dst
  counted : t.regs.dstLen = s.regs.dstLen + BitVec.ofNat 32 (t.env.dst.length - s.env.dst.length)
  held : t.env.dstHeld = s.env.dstHeld
  freeCount : t.freeCount = s.freeCount
  accepts : AcceptsBursts s → AcceptsBursts t

theorem SinkStep.refl (s : State) : SinkStep s s := by
  refine ⟨SinkFrame.refl s, List.prefix_rfl, ?_, rfl, rfl, id⟩
  simp

theorem SinkStep.trans {s t u : State} (h : SinkStep s t) (g : SinkStep t u) : SinkStep s u := by
  refine ⟨h.frame.trans g.frame, h.grows.trans g.grows, ?_, g.held.trans h.held, g.freeCount.trans h.freeCount,
    g.accepts ∘ h.accepts⟩
  have h1 := h.grows.length_le
  have h2 := g.grows.length_le
  rw [g.counted, h.counted, BitVec.add_assoc, ← BitVec.ofNat_add]
  congr 2
  omega

theorem setBw_sinkStep (s : State) (w : BitWriter) : SinkStep s (s.setBw w) := by
  refine ⟨setBw_sinkFrame s w, List.prefix_rfl, ?_, rfl, rfl, id⟩
  simp

theorem dstWrite_sinkStep {s : State} (v : List Byte) (h : s.env.verdicts.head? ≠ some false) :
    SinkStep s (dstWrite v s).2 := by
  refine ⟨dstWrite_sinkFrame v s, (dstWrite_grows v s).1, ?_, (dstWrite_grows v s).2.1, ?_, ?_⟩
  all_goals rw [dstWrite_accepted v h]
  · simp
  · rfl
  · exact AcceptsBursts.tail

/-- The state an accepted operation leaves, written as the update of its own parts. -/
theorem SinkStep.eq {s t : State} (h : SinkStep s t) :
    t = { s with
          bw := t.bw
          regs := { s.regs with dstLen := t.regs.dstLen }
          env := { s.env with dst := t.env.dst, verdicts := t.env.verdicts } } := by
  obtain ⟨⟨h1, h2, h3, h4, h5, h6, h7, h8, h9, h10, h11, h12, h13, h14, h15⟩, -, -, h16, h17, -⟩ := h
  cases s with | mk p r st e d w b sc en ho bd f =>
  cases t with | mk p' r' st' e' d' w' b' sc' en' ho' bd' f' =>
  cases r; cases r'; cases en; cases en'
  simp_all

/-! One byte. -/

/-- `bw_putbyte` with room for more: the byte is in the buffer (R135). -/
theorem bwPutByte_room {s : State} (b : Byte) (h : s.bw.buf.length + 1 ≠ s.params.bufBytes) :
    bwPutByte b s = .done () (s.setBw { s.bw with buf := s.bw.buf ++ [b] }) := by
  unfold bwPutByte
  rw [if_neg]
  simpa using h

/-- `bw_putbyte` on the last slot, the burst accepted: buffer and byte are in DST (R135). -/
theorem bwPutByte_flushed {s : State} (b : Byte) (h : s.bw.buf.length + 1 = s.params.bufBytes)
    (hv : s.env.verdicts.head? ≠ some false) :
    bwPutByte b s = .done () { s with
      bw := { s.bw with buf := [] }
      regs := { s.regs with dstLen := s.regs.dstLen + BitVec.ofNat 32 (s.bw.buf ++ [b]).length }
      env := { s.env with dst := s.env.dst ++ (s.bw.buf ++ [b]), verdicts := s.env.verdicts.tail } } := by
  unfold bwPutByte
  rw [if_pos (by simpa using h)]
  rw [dstWrite_accepted _ (by exact hv)]
  rfl

/-- `bw_putbyte` on the last slot, the burst refused (R135, 20_memory.md R66). -/
theorem bwPutByte_refused {s : State} (b : Byte) (h : s.bw.buf.length + 1 = s.params.bufBytes)
    (hv : s.env.verdicts.head? = some false) :
    ∃ p, p <+: s.bw.buf ++ [b] ∧ bwPutByte b s = .raised ⟨.dstErr, .dstWriteFail⟩ { s with
      bw := { s.bw with buf := [] }
      env := { s.env with dst := s.env.dst ++ p, verdicts := s.env.verdicts.tail }
      freeCount := s.freeCount + 1 } := by
  obtain ⟨p, hp, hw⟩ := dstWrite_refused (s := s.setBw { s.bw with buf := s.bw.buf ++ [b] }) (s.bw.buf ++ [b]) hv
  refine ⟨p, hp, ?_⟩
  unfold bwPutByte
  rw [if_pos (by simpa using h)]
  have e : ∀ a : Bool × State, a = dstWrite (s.bw.buf ++ [b]) (s.setBw { s.bw with buf := s.bw.buf ++ [b] }) →
      a.1 = false → (if a.1 = true then Result.done () (a.2.setBw { s.bw with buf := [] })
        else .raised ⟨.dstErr, .dstWriteFail⟩ (a.2.setBw { s.bw with buf := [] })) =
      .raised ⟨.dstErr, .dstWriteFail⟩ (a.2.setBw { s.bw with buf := [] }) := by
    intro a _ h; rw [if_neg (by rw [h]; decide)]
  refine (e _ rfl (by rw [hw])).trans ?_
  rw [hw]
  rfl

/-- `bw_putbyte` in both ways it ends, from any state (R135). -/
theorem bwPutByte_outcome (b : Byte) (s : State) :
    (∃ t, bwPutByte b s = .done () t ∧ SinkStep s t ∧
      t.bw.isOpen = s.bw.isOpen ∧ t.bw.cur = s.bw.cur ∧ t.bw.free = s.bw.free ∧
      unpack t.env.dst ++ unpack t.bw.buf = unpack s.env.dst ++ unpack s.bw.buf ++ msb b 8 ∧
      (s.bw.buf.length < s.params.bufBytes → t.bw.buf.length < s.params.bufBytes)) ∨
    (s.env.verdicts.head? = some false ∧ ∃ t, bwPutByte b s = .raised ⟨.dstErr, .dstWriteFail⟩ t ∧ SinkFrame s t ∧
      s.env.dst <+: t.env.dst ∧ t.bw.isOpen = s.bw.isOpen ∧ t.env.dstHeld = s.env.dstHeld) := by
  by_cases h : s.bw.buf.length + 1 = s.params.bufBytes
  · by_cases hv : s.env.verdicts.head? = some false
    · obtain ⟨p, -, hp⟩ := bwPutByte_refused b h hv
      refine .inr ⟨hv, _, hp, ?_, List.prefix_append _ _, rfl, rfl⟩
      constructor <;> rfl
    · refine .inl ⟨_, bwPutByte_flushed b h hv, ?_, rfl, rfl, rfl, ?_, ?_⟩
      · refine ⟨by constructor <;> rfl, List.prefix_append _ _, ?_, rfl, rfl, AcceptsBursts.tail⟩
        simp
      · simp [unpack_append, unpack_cons]
      · intro hl; dsimp only; simp only [List.length_nil]; omega
  · refine .inl ⟨_, bwPutByte_room b h, setBw_sinkStep _ _, rfl, rfl, rfl, ?_, ?_⟩
    · simp [unpack_append, unpack_cons]
    · intro hl; simp only [State.setBw_bw, List.length_append, List.length_singleton]; omega

/-! One bit. -/

/-- The bits of a byte after its highest free position is filled. -/
theorem msb_putBit (x : Byte) (f : Nat) (v : Bool) (h : f < 8) :
    (msb (putBit x f v) 8).take (8 - f) = (msb x 8).take (8 - (f + 1)) ++ [v] := by
  have e : ∀ (y : Byte) (j : Nat), j < 8 → (msb y 8)[j]? = some (y.getLsbD (7 - j)) :=
    fun y j hj => msb_getElem? y 8 j hj
  apply List.ext_getElem?
  intro j
  by_cases hj : j < 8 - f
  · rw [List.getElem?_take_of_lt hj, e _ _ (by omega), putBit_getLsbD _ _ _ _ h]
    by_cases hl : j = 7 - f
    · rw [if_pos (by omega), List.getElem?_append_right (by simp; omega)]
      simp only [List.length_take, msb_length]
      rw [show j - min (8 - (f + 1)) 8 = 0 by omega]
      rfl
    · rw [if_neg (by omega), List.getElem?_append_left (by simp; omega), List.getElem?_take_of_lt (by omega),
        e _ _ (by omega)]
  · rw [List.getElem?_eq_none (by simp; omega), List.getElem?_eq_none (by simp; omega)]

/-- One round of the loop of R132 in both ways it ends, from every state of the writer's form. -/
theorem bwPutBit_outcome (v : Bool) {s : State} (hf : WriterForm s) (ho : s.bw.isOpen = true) :
    (∃ t, bwPutBit v s = .done () t ∧ SinkStep s t ∧ written t = written s ++ [v] ∧ WriterForm t ∧
      t.bw.isOpen = true) ∨
    (∃ t, bwPutBit v s = .raised ⟨.dstErr, .dstWriteFail⟩ t ∧ ¬ AcceptsBursts s ∧ SinkFrame s t ∧
      s.env.dst <+: t.env.dst ∧ t.bw.isOpen = true ∧ t.env.dstHeld = s.env.dstHeld) := by
  obtain ⟨h1, h8, hb, hz, -⟩ := hf
  have hfree : (s.bw.free - 1).toNat + 1 = s.bw.free.toNat := by
    rw [BitVec.toNat_sub]; simp; omega
  have hcur : ∀ k < (s.bw.free - 1).toNat, (putBit s.bw.cur (s.bw.free - 1).toNat v).getLsbD k = false := by
    intro k hk
    rw [putBit_getLsbD _ _ _ _ (by omega), if_neg (by omega)]
    exact hz k (by omega)
  have hbits := msb_putBit s.bw.cur (s.bw.free - 1).toNat v (by omega)
  rw [hfree] at hbits
  unfold bwPutBit
  dsimp only
  by_cases hlast : s.bw.free - 1 = 0
  · rw [if_pos hlast]
    have hone : s.bw.free.toNat = 1 := by rw [hlast] at hfree; simpa using hfree.symm
    rcases bwPutByte_outcome (putBit s.bw.cur (s.bw.free - 1).toNat v)
        (s.setBw { s.bw with cur := putBit s.bw.cur (s.bw.free - 1).toNat v, free := s.bw.free - 1 }) with
      ⟨t, ht, hs, hopen, hc, hfr, hw, hl⟩ | ⟨hv, t, ht, hs, hg, hopen, hheld⟩
    · refine .inl ⟨_, by rw [ht]; rfl, (setBw_sinkStep _ _).trans (hs.trans (setBw_sinkStep _ _)), ?_, ?_, ?_⟩
      · unfold written heldBits
        simp only [State.setBw_bw, State.setBw_env] at hw ⊢
        rw [← List.append_assoc, hw]
        have hf0 : (s.bw.free - 1).toNat = 0 := by rw [hlast]; rfl
        have hall : msb (putBit s.bw.cur (s.bw.free - 1).toNat v) 8 =
            (msb s.bw.cur 8).take (8 - s.bw.free.toNat) ++ [v] := by
          rw [← hbits, List.take_of_length_le]
          rw [msb_length]; omega
        rw [hall]
        simp
      · refine ⟨?_, ?_, ?_, ?_, ?_⟩
        · simp
        · simp
        · simp only [State.setBw_bw, State.setBw_params] at hl ⊢
          rw [hs.frame.params]; exact hl hb
        · intro k _; simp
        · intro hn; simp only [State.setBw_bw] at hn hopen; rw [hopen, ho] at hn; cases hn
      · simpa using hopen.trans ho
    · refine .inr ⟨t, by rw [ht]; rfl, ?_, (setBw_sinkFrame _ _).trans hs, hg, hopen.trans ho, hheld⟩
      intro ha
      exact ha.head hv
  · rw [if_neg hlast]
    have hpos : (s.bw.free - 1).toNat ≠ 0 := fun h => hlast (BitVec.eq_of_toNat_eq h)
    refine .inl ⟨_, rfl, setBw_sinkStep _ _, ?_, ?_, ho⟩
    · unfold written heldBits
      simp only [State.setBw_bw, State.setBw_env]
      rw [hbits]
      simp [List.append_assoc]
    · refine ⟨?_, ?_, hb, hcur, ?_⟩
      · simp only [State.setBw_bw]; omega
      · simp only [State.setBw_bw]; omega
      · intro hn; simp only [State.setBw_bw] at hn; rw [ho] at hn; cases hn

/-! Many bits. -/

/-- The loop of R132 in both ways it ends: all bits appended, or stopped at a refused burst. -/
theorem bwPutBits_outcome (b : Bits) {s : State} (hf : WriterForm s) (ho : s.bw.isOpen = true) :
    (∃ t, bwPutBits b s = .done () t ∧ SinkStep s t ∧ written t = written s ++ b ∧ WriterForm t ∧
      t.bw.isOpen = true) ∨
    (∃ t, bwPutBits b s = .raised ⟨.dstErr, .dstWriteFail⟩ t ∧ ¬ AcceptsBursts s ∧ SinkFrame s t ∧
      s.env.dst <+: t.env.dst ∧ t.bw.isOpen = true ∧ t.env.dstHeld = s.env.dstHeld) := by
  induction b generalizing s with
  | nil => exact .inl ⟨s, rfl, SinkStep.refl s, by simp, hf, ho⟩
  | cons v b ih =>
    rcases bwPutBit_outcome v hf ho with ⟨t, ht, hs, hw, hft, hot⟩ | ⟨t, ht, hr⟩
    · rcases ih hft hot with ⟨u, hu, hsu, hwu, hfu, hou⟩ | ⟨u, hu, hna, hsu, hg, hou, hh⟩
      · refine .inl ⟨u, by rw [bwPutBits, ht, Result.bind_done, hu], hs.trans hsu, ?_, hfu, hou⟩
        rw [hwu, hw]; simp
      · exact .inr ⟨u, by rw [bwPutBits, ht, Result.bind_done, hu], fun ha => hna (hs.accepts ha),
          hs.frame.trans hsu, hs.grows.trans hg, hou, hh.trans hs.held⟩
    · exact .inr ⟨t, by rw [bwPutBits, ht, Result.bind_raised], hr⟩

/-- `call BW.WBITS` with a legal count on an open writer, every burst accepted (R130, R132). -/
theorem bwWbits_appends (value : Word) {n : Nat} {s : State} (hn : n ≤ Config.codeMax) (hf : WriterForm s)
    (ho : s.bw.isOpen = true) (ha : AcceptsBursts s) :
    ∃ t, bwWbits value n s = .done () t ∧ SinkStep s t ∧ written t = written s ++ msb value n ∧ WriterForm t ∧
      t.bw.isOpen = true := by
  unfold bwWbits
  rw [if_neg (by omega), if_pos ho]
  rcases bwPutBits_outcome (msb value n) hf ho with h | ⟨_, _, hna, _⟩
  · exact h
  · exact absurd ha hna

/-! The flush. -/

/-- The bits a flush delivers: what the writer holds, padded with zero bits to whole bytes (R134). -/
theorem unpack_flushBytes {s : State} (hf : WriterForm s) :
    unpack (flushBytes s.bw) = heldBits s.bw ++ zeros ((8 - (heldBits s.bw).length % 8) % 8) := by
  obtain ⟨h1, h8, -, hz, -⟩ := hf
  have hl : (heldBits s.bw).length = 8 * s.bw.buf.length + (8 - s.bw.free.toNat) := by
    simp [heldBits]
  unfold flushBytes
  by_cases h : s.bw.free = 8
  · rw [if_pos h, hl, h]
    have : (8 - (8 * s.bw.buf.length + (8 - BitVec.toNat (8 : BitVec 4))) % 8) % 8 = 0 := by simp
    rw [this]
    simp [heldBits, h, zeros]
  · rw [if_neg h, hl]
    have h8' : s.bw.free.toNat ≠ 8 := fun e => h (BitVec.eq_of_toNat_eq (by simpa using e))
    have : (8 - (8 * s.bw.buf.length + (8 - s.bw.free.toNat)) % 8) % 8 = s.bw.free.toNat := by omega
    rw [this, unpack_append, heldBits, List.append_assoc]
    congr 1
    rw [unpack_cons, unpack_nil, List.append_nil]
    conv_lhs => rw [← List.take_append_drop (8 - s.bw.free.toNat) (msb s.bw.cur 8)]
    congr 1
    apply List.ext_getElem?
    intro j
    by_cases hj : j < s.bw.free.toNat
    · rw [List.getElem?_drop, msb_getElem? _ _ _ (by omega)]
      rw [show 8 - 1 - (8 - s.bw.free.toNat + j) = s.bw.free.toNat - 1 - j by omega, hz _ (by omega)]
      simp [zeros, hj]
    · rw [List.getElem?_eq_none (by simp; omega), List.getElem?_eq_none (by simp; omega)]

/-- The flush in both ways it ends (R134): a burst that is refused, or no burst or an accepted one. -/
theorem bwFlush_outcome (s : State) :
    (flushBytes s.bw ≠ [] ∧ s.env.verdicts.head? = some false ∧ (bwFlush s).1 = false ∧
      (∃ p, p <+: flushBytes s.bw ∧ (bwFlush s).2.env.dst = s.env.dst ++ p) ∧
      (bwFlush s).2.regs.dstLen = s.regs.dstLen ∧ (bwFlush s).2.env.dstHeld = s.env.dstHeld ∧
      (bwFlush s).2.env.verdicts = s.env.verdicts.tail) ∨
    ((flushBytes s.bw = [] ∨ s.env.verdicts.head? ≠ some false) ∧ (bwFlush s).1 = true ∧ SinkStep s (bwFlush s).2 ∧
      (bwFlush s).2.env.dst = s.env.dst ++ flushBytes s.bw) := by
  unfold bwFlush
  dsimp only
  split
  · rename_i h
    have h0 : flushBytes s.bw = [] := List.eq_nil_of_length_eq_zero h
    exact .inr ⟨.inl h0, rfl, setBw_sinkStep _ _, by simp [h0]⟩
  · rename_i h
    have hne : flushBytes s.bw ≠ [] := fun e => h (congrArg List.length e)
    by_cases hv : s.env.verdicts.head? = some false
    · obtain ⟨p, hpre, hp⟩ := dstWrite_refused (s := s.setBw { s.bw with buf := flushBytes s.bw }) (flushBytes s.bw) hv
      simp only [State.setBw_bw] at hp ⊢
      rw [hp]
      exact .inl ⟨hne, hv, rfl, ⟨p, hpre, rfl⟩, rfl, rfl, rfl⟩
    · refine .inr ⟨.inr hv, ?_, (setBw_sinkStep _ _).trans (dstWrite_sinkStep _ hv), ?_⟩
      · rw [dstWrite_accepted _ (by exact hv)]
      · rw [dstWrite_accepted _ (by exact hv)]; rfl

theorem bwRelease_eq (s : State) :
    bwRelease s = { s with
      bw := { isOpen := false, buf := [], cur := 0, free := 8 }
      env := { s.env with dstHeld := false } } := rfl

end Sys2Proof.Machine
end

