-- ==== Sys2Proof/Laws/Bursts.lean ====
section
/-! SUPPORT. How the bytes written reach DST in bursts: full buffers while the writer is open, the rest at the close, and what
is in DST when a burst is refused (20_memory.md R66, R76; 40_bitwriter.md R134, R135). -/

namespace Sys2Proof.Machine

/-- The bytes written so far by a writer on a byte boundary: DST and the buffer (10_state.md R32). -/
def bytesOut (s : State) : List Byte := s.env.dst ++ s.bw.buf

/-- Since the destination was opened, with the verdicts `vs` to come, only full buffers were delivered, all accepted. -/
def Streaming (vs : List Bool) (s : State) : Prop :=
  ∃ k, s.env.dst.length = k * s.params.bufBytes ∧ s.env.verdicts = vs.drop k ∧ (∀ j < k, vs[j]? ≠ some false) ∧
    s.regs.dstLen = BitVec.ofNat 32 (k * s.params.bufBytes)

theorem Streaming.congr {vs : List Bool} {s t : State} (h : Streaming vs s) (h1 : t.env.dst = s.env.dst)
    (h2 : t.params = s.params) (h3 : t.env.verdicts = s.env.verdicts) (h4 : t.regs.dstLen = s.regs.dstLen) :
    Streaming vs t := by
  obtain ⟨k, a, b, c, d⟩ := h
  exact ⟨k, by rw [h1, h2]; exact a, by rw [h3]; exact b, c, by rw [h4, h2]; exact d⟩

/-- Of the bytes `y`, in bursts of the buffer's size and with the verdicts `vs`, the first refused burst has just been
refused: the bursts before it and a beginning of it are in DST, and `DST_LEN` counts the former (R66, R255). -/
def RefusedIn (vs : List Bool) (y : List Byte) (t : State) : Prop :=
  ∃ k p, vs[k]? = some false ∧ (∀ j < k, vs[j]? ≠ some false) ∧ k * t.params.bufBytes < y.length ∧
    p <+: (y.drop (k * t.params.bufBytes)).take t.params.bufBytes ∧
    t.env.dst = y.take (k * t.params.bufBytes) ++ p ∧ t.regs.dstLen = BitVec.ofNat 32 (k * t.params.bufBytes) ∧
    t.env.verdicts = vs.drop (k + 1)

/-- What was to follow does not matter. -/
theorem RefusedIn.mono {vs : List Bool} {y y' : List Byte} {t : State} (h : RefusedIn vs y t) (hy : y <+: y') :
    RefusedIn vs y' t := by
  obtain ⟨k, p, h1, h2, h3, h4, h5, h6⟩ := h
  obtain ⟨z, rfl⟩ := hy
  refine ⟨k, p, h1, h2, by rw [List.length_append]; omega, ?_, ?_, h6⟩
  · rw [List.drop_append_of_le_length (by omega)]
    exact h4.trans (List.IsPrefix.take (List.prefix_append _ _) _)
  · rw [List.take_append_of_le_length (by omega)]; exact h5

theorem RefusedIn.congr {vs : List Bool} {y : List Byte} {s t : State} (h : RefusedIn vs y s) (h1 : t.env.dst = s.env.dst)
    (h2 : t.params = s.params) (h3 : t.env.verdicts = s.env.verdicts) (h4 : t.regs.dstLen = s.regs.dstLen) :
    RefusedIn vs y t := by
  obtain ⟨k, p, a, b, c, d, e, f, g⟩ := h
  exact ⟨k, p, a, b, by rw [h2]; exact c, by rw [h2]; exact d, by rw [h1, h2]; exact e, by rw [h4, h2]; exact f,
    h3.trans g⟩

/-- A refused burst is the first one that the environment refuses. -/
theorem RefusedIn.index {vs : List Bool} {y : List Byte} {t : State} {i : Nat} (h : RefusedIn vs y t)
    (h1 : vs[i]? = some false) (h2 : ∀ j < i, vs[j]? ≠ some false) :
    (∃ p, p <+: (y.drop (i * t.params.bufBytes)).take t.params.bufBytes ∧
      t.env.dst = y.take (i * t.params.bufBytes) ++ p) ∧
    t.regs.dstLen = BitVec.ofNat 32 (i * t.params.bufBytes) ∧ t.env.verdicts = vs.drop (i + 1) := by
  obtain ⟨k, p, a, b, -, d, e, f, g⟩ := h
  have : k = i := by
    rcases Nat.lt_trichotomy k i with hlt | heq | hgt
    · exact absurd a (h2 k hlt)
    · exact heq
    · exact absurd h1 (b i hgt)
  subst this
  exact ⟨⟨p, d, e⟩, f, g⟩

/-- A byte string that begins another as bits begins it as bytes. -/
theorem prefix_of_unpack {y z : List Byte} (h : unpack y <+: unpack z) : y <+: z := by
  obtain ⟨r, hr⟩ := h
  have hl : r.length % 8 = 0 := by
    have := congrArg List.length hr
    rw [List.length_append, unpack_length, unpack_length] at this
    omega
  refine ⟨pack r, unpack_injective ?_⟩
  rw [unpack_append, unpack_pack r hl, hr]

/-- `bw_putbyte` on a streaming writer (R135): it streams on with one more byte, or its burst, a full buffer, is the refused
one. -/
theorem bwPutByte_streams {vs : List Bool} (b : Byte) {s : State} (h : Streaming vs s) :
    (∀ t, bwPutByte b s = .done () t → Streaming vs t ∧ bytesOut t = bytesOut s ++ [b]) ∧
    (∀ e t, bwPutByte b s = .raised e t →
      RefusedIn vs (bytesOut s ++ [b]) t ∧ t.params.bufBytes ∣ (bytesOut s ++ [b]).length) := by
  obtain ⟨k, h1, h2, h3, h4⟩ := h
  have hhead : s.env.verdicts.head? = vs[k]? := by rw [h2, List.head?_drop]
  by_cases hfull : s.bw.buf.length + 1 = s.params.bufBytes
  · have hlen : (s.bw.buf ++ [b]).length = s.params.bufBytes := by simpa using hfull
    by_cases hv : s.env.verdicts.head? = some false
    · obtain ⟨p, hp, hr⟩ := bwPutByte_refused b hfull hv
      rw [hr]
      refine ⟨fun t ht => (by cases ht), fun e t ht => ?_⟩
      injection ht with _ ht
      subst ht
      have hy : bytesOut s ++ [b] = s.env.dst ++ (s.bw.buf ++ [b]) := List.append_assoc ..
      refine ⟨⟨k, p, hhead.symm.trans hv, h3, ?_, ?_, ?_, h4, ?_⟩, k + 1, ?_⟩
      · show k * s.params.bufBytes < _
        rw [hy, List.length_append, h1, hlen]; omega
      · show p <+: (List.drop (k * s.params.bufBytes) _).take s.params.bufBytes
        rw [hy, ← h1, List.drop_left, List.take_of_length_le (by omega)]
        exact hp
      · show s.env.dst ++ p = List.take (k * s.params.bufBytes) _ ++ p
        rw [hy, ← h1, List.take_left]
      · show s.env.verdicts.tail = _
        rw [h2, List.tail_drop]
      · show _ = s.params.bufBytes * (k + 1)
        rw [hy, List.length_append, h1, hlen, Nat.mul_comm, Nat.mul_succ]
    · rw [bwPutByte_flushed b hfull hv]
      refine ⟨fun t ht => ?_, fun e t ht => (by cases ht)⟩
      injection ht with _ ht
      subst ht
      refine ⟨⟨k + 1, ?_, ?_, ?_, ?_⟩, ?_⟩
      · show (s.env.dst ++ (s.bw.buf ++ [b])).length = _
        rw [List.length_append, h1, hlen, Nat.add_mul, Nat.one_mul]
      · show s.env.verdicts.tail = _
        rw [h2, List.tail_drop]
      · intro j hj
        rcases Nat.lt_succ_iff_lt_or_eq.mp hj with hj | rfl
        · exact h3 j hj
        · rw [← hhead]; exact hv
      · show s.regs.dstLen + _ = _
        rw [h4, hlen, ← BitVec.ofNat_add, Nat.add_mul, Nat.one_mul]
      · simp [bytesOut]
  · rw [bwPutByte_room b hfull]
    refine ⟨fun t ht => ?_, fun e t ht => (by cases ht)⟩
    injection ht with _ ht
    subst ht
    exact ⟨⟨k, h1, h2, h3, h4⟩, by simp [bytesOut]⟩

/-- The bits written are those of the bytes written and of the partial byte (10_state.md R32). -/
theorem written_eq (s : State) : written s = unpack (bytesOut s) ++ (msb s.bw.cur 8).take (8 - s.bw.free.toNat) := by
  unfold written heldBits bytesOut
  rw [unpack_append, List.append_assoc]

/-- One round of the loop of R132 on a streaming writer. -/
theorem bwPutBit_streams {vs : List Bool} (v : Bool) {s : State} (hf : WriterForm s) (h : Streaming vs s) :
    (∀ t, bwPutBit v s = .done () t → Streaming vs t) ∧
    (∀ e t, bwPutBit v s = .raised e t → ∃ y, unpack y = written s ++ [v] ∧ RefusedIn vs y t ∧
      t.params.bufBytes ∣ y.length) := by
  obtain ⟨h1, h8, -⟩ := hf
  unfold bwPutBit
  dsimp only
  by_cases hlast : s.bw.free - 1 = 0
  · rw [if_pos hlast]
    have hfree : s.bw.free.toNat = 1 := by
      have : s.bw.free = 1 := by
        rw [← BitVec.sub_add_cancel s.bw.free 1, hlast]; rfl
      rw [this]; rfl
    have h0 : (s.bw.free - 1).toNat = 0 := by rw [hlast]; rfl
    rw [h0]
    obtain ⟨d, r⟩ := bwPutByte_streams (putBit s.bw.cur 0 v)
      (s := s.setBw { s.bw with cur := putBit s.bw.cur 0 v, free := s.bw.free - 1 })
      (h.congr rfl rfl rfl rfl)
    generalize bwPutByte (putBit s.bw.cur 0 v)
      (s.setBw { s.bw with cur := putBit s.bw.cur 0 v, free := s.bw.free - 1 }) = w at d r ⊢
    cases w with
    | done a u =>
      refine ⟨fun t ht => ?_, fun e t ht => (by cases ht)⟩
      rw [Result.bind_done] at ht
      injection ht with _ ht
      subst ht
      exact (d u rfl).1.congr rfl rfl rfl rfl
    | raised e u =>
      refine ⟨fun t ht => (by cases ht), fun e' t ht => ?_⟩
      rw [Result.bind_raised] at ht
      injection ht with _ ht
      subst ht
      refine ⟨_, ?_, r e u rfl⟩
      rw [unpack_append, written_eq s, hfree]
      have := msb_putBit s.bw.cur 0 v (by decide)
      rw [List.take_of_length_le (by simp)] at this
      rw [unpack_cons, unpack_nil, List.append_nil, this, List.append_assoc]
      rfl
  · rw [if_neg hlast]
    refine ⟨fun t ht => ?_, fun e t ht => (by cases ht)⟩
    injection ht with _ ht
    subst ht
    exact h.congr rfl rfl rfl rfl

/-- The loop of R132 on a streaming writer. -/
theorem bwPutBits_streams {vs : List Bool} (b : Bits) {s : State} (hf : WriterForm s) (ho : s.bw.isOpen = true)
    (h : Streaming vs s) :
    (∀ t, bwPutBits b s = .done () t → Streaming vs t) ∧
    (∀ e t, bwPutBits b s = .raised e t → ∃ y, unpack y <+: written s ++ b ∧ RefusedIn vs y t ∧
      t.params.bufBytes ∣ y.length) := by
  induction b generalizing s with
  | nil =>
    refine ⟨fun t ht => ?_, fun e t ht => (by cases ht)⟩
    injection ht with _ ht
    subst ht
    exact h
  | cons v b ih =>
    obtain ⟨d, r⟩ := bwPutBit_streams v hf h
    rcases bwPutBit_outcome v hf ho with ⟨u, hu, -, hw, hfu, hou⟩ | ⟨u, hu, -⟩
    · obtain ⟨i1, i2⟩ := ih hfu hou (d u hu)
      rw [bwPutBits, hu, Result.bind_done]
      refine ⟨i1, fun e t ht => ?_⟩
      obtain ⟨y, hy, hr⟩ := i2 e t ht
      exact ⟨y, by rw [hw] at hy; simpa using hy, hr⟩
    · rw [bwPutBits, hu, Result.bind_raised]
      refine ⟨fun t ht => (by cases ht), fun e t ht => ?_⟩
      injection ht with _ ht
      subst ht
      obtain ⟨y, hy, hr⟩ := r _ u hu
      exact ⟨y, by rw [hy]; exact ⟨b, by simp⟩, hr⟩

/-! What was in DST and in `DST_LEN` before does not matter to the writer. -/

/-- The state with `d` in front of what DST holds and `n` more counted. -/
def onTop (d : List Byte) (n : Word) (s : State) : State :=
  { s with regs := { s.regs with dstLen := n + s.regs.dstLen }, env := { s.env with dst := d ++ s.env.dst } }

/-- A result seen on top of an earlier DST. -/
def Result.onTop (d : List Byte) (n : Word) : Result Unit → Result Unit
  | .done a t => .done a (Machine.onTop d n t)
  | .raised e t => .raised e (Machine.onTop d n t)

theorem Result.bind_onTop {d : List Byte} {n : Word} {r : Result Unit} {f : Unit → State → Result Unit}
    (h : ∀ a t, f a (Machine.onTop d n t) = (f a t).onTop d n) : (r.onTop d n).bind f = (r.bind f).onTop d n := by
  cases r with
  | done a t => exact h a t
  | raised e t => rfl

theorem dstWrite_onTop (d : List Byte) (n : Word) (v : List Byte) (s : State) :
    dstWrite v (onTop d n s) = ((dstWrite v s).1, onTop d n (dstWrite v s).2) := by
  unfold dstWrite onTop
  cases s.env.verdicts.headD true <;> simp [BitVec.add_assoc] <;> rfl

theorem bwPutByte_onTop (d : List Byte) (n : Word) (b : Byte) (s : State) :
    bwPutByte b (onTop d n s) = (bwPutByte b s).onTop d n := by
  let s1 := s.setBw { s.bw with buf := s.bw.buf ++ [b] }
  let after (a : Bool × State) : Result Unit :=
    if a.1 then .done () (a.2.setBw { s.bw with buf := [] })
    else .raised ⟨.dstErr, .dstWriteFail⟩ (a.2.setBw { s.bw with buf := [] })
  have hafter : ∀ c u, after (c, onTop d n u) = (after (c, u)).onTop d n := by
    intro c u
    cases c <;> rfl
  show (if s1.bw.buf.length = s.params.bufBytes then after (dstWrite s1.bw.buf (onTop d n s1))
      else .done () (onTop d n s1)) =
    Result.onTop d n (if s1.bw.buf.length = s.params.bufBytes then after (dstWrite s1.bw.buf s1) else .done () s1)
  rw [dstWrite_onTop, hafter]
  by_cases h : s1.bw.buf.length = s.params.bufBytes
  · rw [if_pos h, if_pos h]
  · rw [if_neg h, if_neg h]
    rfl

theorem bwPutBit_onTop (d : List Byte) (n : Word) (v : Bool) (s : State) :
    bwPutBit v (onTop d n s) = (bwPutBit v s).onTop d n := by
  unfold bwPutBit
  dsimp only
  rw [show (onTop d n s).bw = s.bw from rfl]
  split
  · refine Eq.trans ?_ (Result.bind_onTop fun a t => rfl)
    rw [← bwPutByte_onTop]
    rfl
  · rfl

theorem bwPutBits_onTop (d : List Byte) (n : Word) (b : Bits) (s : State) :
    bwPutBits b (onTop d n s) = (bwPutBits b s).onTop d n := by
  induction b generalizing s with
  | nil => rfl
  | cons v b ih =>
    rw [bwPutBits, bwPutBit_onTop]
    exact Result.bind_onTop fun a t => ih t

theorem unpack_wholeBytes (b : Bits) : unpack (wholeBytes b) = b.take (8 * (b.length / 8)) :=
  unpack_pack _ (by rw [List.length_take]; omega)

/-- The whole bytes of bytes and fewer than eight bits more. -/
theorem wholeBytes_eq {y : List Byte} {r : Bits} (h : r.length < 8) : wholeBytes (unpack y ++ r) = y := by
  apply unpack_injective
  rw [unpack_wholeBytes, List.length_append, unpack_length, show 8 * ((8 * y.length + r.length) / 8) = (unpack y).length by
    rw [unpack_length]; omega, List.take_left]

/-- Bytes that begin a bit string begin its whole bytes. -/
theorem prefix_wholeBytes {y : List Byte} {b : Bits} (h : unpack y <+: b) : y <+: wholeBytes b := by
  apply prefix_of_unpack
  rw [unpack_wholeBytes, List.prefix_take_iff]
  have := h.length_le
  rw [unpack_length] at this ⊢
  exact ⟨h, by omega⟩

/-- The loop of R132 from any DST, by its bursts: all of them are accepted, or the first refused one stops it (R66, R135). -/
theorem bwPutBits_bursts (b : Bits) {s : State} (hf : WriterForm s) (ho : s.bw.isOpen = true) :
    let y := wholeBytes (heldBits s.bw ++ b)
    let size := s.params.bufBytes
    let bursts := y.length / size
    (∃ t, bwPutBits b s = .done () t ∧ (∀ j < bursts, s.env.verdicts[j]? ≠ some false) ∧
      t.env.dst = s.env.dst ++ y.take (bursts * size) ∧
      t.regs.dstLen = s.regs.dstLen + BitVec.ofNat 32 (bursts * size) ∧ t.env.verdicts = s.env.verdicts.drop bursts) ∨
    (∃ t k, bwPutBits b s = .raised ⟨.dstErr, .dstWriteFail⟩ t ∧ k < bursts ∧ RefusesBurst s k ∧
      (∃ p, p <+: (y.drop (k * size)).take size ∧ t.env.dst = s.env.dst ++ y.take (k * size) ++ p) ∧
      t.regs.dstLen = s.regs.dstLen + BitVec.ofNat 32 (k * size) ∧ t.env.verdicts = s.env.verdicts.drop (k + 1)) := by
  intro y size bursts
  let s0 : State := { s with regs := { s.regs with dstLen := 0 }, env := { s.env with dst := [] } }
  have htop : s = onTop s.env.dst s.regs.dstLen s0 := by
    unfold onTop
    simp [s0]
  have hsize : 0 < size := Nat.lt_of_le_of_lt (Nat.zero_le _) hf.2.2.1
  have h0 : Streaming s.env.verdicts s0 := ⟨0, by simp [s0], by simp [s0], fun j h => (by omega), by simp [s0]⟩
  have hw0 : written s0 = heldBits s.bw := rfl
  obtain ⟨d, r⟩ := bwPutBits_streams b (s := s0) hf ho h0
  have hrun : bwPutBits b s = (bwPutBits b s0).onTop s.env.dst s.regs.dstLen := by
    conv_lhs => rw [htop]
    exact bwPutBits_onTop _ _ _ _
  rcases bwPutBits_outcome b (s := s0) hf ho with ⟨t, ht, hs, hw, hft, -⟩ | ⟨t, ht, -, hs, -⟩
  · obtain ⟨k, k1, k2, k3, k4⟩ := d t ht
    have hpar : t.params.bufBytes = size := congrArg Config.Params.bufBytes hs.frame.params
    rw [hpar] at k1 k4
    have hy : y = bytesOut t := by
      show wholeBytes (heldBits s.bw ++ b) = _
      rw [← hw0, ← hw, written_eq, wholeBytes_eq]
      have := hft.1
      rw [List.length_take, msb_length]; omega
    have hbuf : t.bw.buf.length < size := hpar ▸ hft.2.2.1
    have hk : bursts = k := by
      show y.length / size = k
      rw [hy, bytesOut, List.length_append, k1, Nat.mul_comm, Nat.mul_add_div hsize, Nat.div_eq_of_lt hbuf, Nat.add_zero]
    refine .inl ⟨onTop s.env.dst s.regs.dstLen t, by rw [hrun, ht]; rfl, by rw [hk]; exact k3, ?_, ?_, by rw [hk]; exact k2⟩
    · show s.env.dst ++ t.env.dst = _
      rw [hk, hy, bytesOut, ← k1, List.take_left]
    · show s.regs.dstLen + t.regs.dstLen = _
      rw [k4, hk]
  · obtain ⟨z, hz, hr, hd⟩ := r _ t ht
    have hpar : t.params.bufBytes = size := congrArg Config.Params.bufBytes hs.params
    rw [hw0] at hz
    have hzy : z <+: y := prefix_wholeBytes hz
    obtain ⟨k, p, a, a2, a3, a4, a5, a6, a7⟩ := hr
    obtain ⟨m, hm⟩ := hd
    rw [hpar] at a3 a4 a5 a6 hm
    have hkm : k + 1 ≤ m := by
      rw [hm, Nat.mul_comm] at a3
      exact Nat.lt_of_mul_lt_mul_left a3
    have hlast : (k + 1) * size ≤ z.length := by
      rw [hm, Nat.mul_comm]
      exact Nat.mul_le_mul_left size hkm
    have hkb : k < bursts := (Nat.le_div_iff_mul_le hsize).mpr (Nat.le_trans hlast hzy.length_le)
    obtain ⟨q, hq⟩ := hzy
    rw [Nat.add_mul, Nat.one_mul] at hlast
    refine .inr ⟨onTop s.env.dst s.regs.dstLen t, k, by rw [hrun, ht]; rfl, hkb, ⟨a, a2⟩, ⟨p, ?_, ?_⟩, ?_, a7⟩
    · rw [← hq, List.drop_append_of_le_length (by omega)]
      exact a4.trans ((List.prefix_append _ _).take _)
    · show s.env.dst ++ t.env.dst = _
      rw [a5, ← hq, List.take_append_of_le_length (by omega), List.append_assoc]
    · show s.regs.dstLen + t.regs.dstLen = _
      rw [a6]

/-- The close of a streaming writer (R134): all bytes are in DST and none of the verdicts asked for was a refusal, or the last
burst is the refused one. -/
theorem bwClose_streams {vs : List Bool} {s : State} (hb : s.bw.buf.length < s.params.bufBytes)
    (ho : s.bw.isOpen = true) (h : Streaming vs s) :
    (∃ u, bwClose s = .done () (bwRelease u) ∧ SinkStep s u ∧ u.env.dst = s.env.dst ++ flushBytes s.bw ∧
      ∀ i, vs[i]? = some false → (∀ j < i, vs[j]? ≠ some false) →
        (s.env.dst ++ flushBytes s.bw).length ≤ i * s.params.bufBytes) ∨
    (∃ u, bwClose s = .raised ⟨.dstErr, .dstWriteFail⟩ (bwRelease u) ∧ SinkFrame s u ∧
      RefusedIn vs (s.env.dst ++ flushBytes s.bw) u) := by
  obtain ⟨k, h1, h2, h3, h4⟩ := h
  have hhead : s.env.verdicts.head? = vs[k]? := by rw [h2, List.head?_drop]
  have hfl : (flushBytes s.bw).length ≤ s.params.bufBytes := by
    unfold flushBytes
    split
    · omega
    · rw [List.length_append, List.length_singleton]; omega
  have hfr := bwFlush_sinkFrame s
  rcases bwFlush_outcome s with ⟨hne, hv, f1, ⟨p, hp, fd⟩, fl, -, fv⟩ | ⟨hv, f1, f2, f3⟩
  · refine .inr ⟨(bwFlush s).2, ?_, hfr, k, p, hhead.symm.trans hv, h3, ?_, ?_, ?_, ?_,
      by rw [fv, h2, List.tail_drop]⟩
    · unfold bwClose
      rw [if_pos ho]
      dsimp only
      rw [if_neg (by rw [f1]; decide)]
    all_goals rw [hfr.params]
    · rw [List.length_append, h1]
      have := List.length_pos_iff.mpr hne
      omega
    · rw [← h1, List.drop_left, List.take_of_length_le hfl]; exact hp
    · rw [← h1, List.take_left]; exact fd
    · rw [fl]; exact h4
  · refine .inl ⟨(bwFlush s).2, ?_, f2, f3, fun i hi hj => ?_⟩
    · unfold bwClose
      rw [if_pos ho]
      dsimp only
      rw [if_pos f1]
    · rw [List.length_append, h1]
      have hik : k ≤ i := by
        rcases Nat.lt_or_ge i k with hlt | hge
        · exact absurd hi (h3 i hlt)
        · exact hge
      rcases hv with hv | hv
      · rw [hv]
        exact Nat.mul_le_mul_right _ hik
      · have hne : i ≠ k := fun e => hv (by rw [hhead, ← e]; exact hi)
        have : (k + 1) * s.params.bufBytes ≤ i * s.params.bufBytes := Nat.mul_le_mul_right _ (by omega)
        rw [Nat.add_mul, Nat.one_mul] at this
        omega

/-! The clean-up of a composite command (60_exceptions.md R262 (d)). -/

/-- It releases everything: from an open writer, or one that `BW.CLOSE` has released. -/
theorem cleanUp_released (e : Raise) {s : State} (h : s.bw.isOpen = true ∨ ∃ u, s = bwRelease u) :
    Released (cleanUp .composite e s) := by
  have h1 : (releaseSink e s).bw = { isOpen := false, buf := [], cur := 0, free := 8 } ∧
      (releaseSink e s).env.dstHeld = false := by
    unfold releaseSink
    split
    · exact ⟨rfl, rfl⟩
    · rename_i ho
      rcases h with h | ⟨u, rfl⟩
      · exact absurd h ho
      · exact ⟨rfl, rfl⟩
  show Released (releaseSource (releaseSink e s))
  unfold releaseSource
  split
  · exact ⟨h1.1, rfl, rfl, h1.2⟩
  · rename_i hn
    rw [not_or] at hn
    exact ⟨h1.1, by simpa using hn.2, by simpa using hn.1, h1.2⟩

theorem cleanUp_remaining (e : Raise) (s : State) : (cleanUp .composite e s).br.remaining = s.br.remaining := by
  have h := (releaseSink_sinkFrame e s).br
  show (releaseSource (releaseSink e s)).br.remaining = _
  rw [← h]
  unfold releaseSource; split <;> rfl

theorem releaseSource_dst (s : State) : (releaseSource s).env.dst = s.env.dst ∧ (releaseSource s).regs = s.regs ∧
    (releaseSource s).env.verdicts = s.env.verdicts := by
  unfold releaseSource; split <;> exact ⟨rfl, rfl, rfl⟩

/-- After a refused burst it writes nothing more and asks for no verdict. -/
theorem cleanUp_refused {e : Raise} (he : e.cause = .dstWriteFail) (s : State) :
    (cleanUp .composite e s).env.dst = s.env.dst ∧ (cleanUp .composite e s).regs = s.regs ∧
      (cleanUp .composite e s).env.verdicts = s.env.verdicts := by
  have h : (releaseSink e s).env.dst = s.env.dst ∧ (releaseSink e s).regs = s.regs ∧
      (releaseSink e s).env.verdicts = s.env.verdicts := by
    unfold releaseSink
    rw [if_pos he]
    split <;> exact ⟨rfl, rfl, rfl⟩
  obtain ⟨g1, g2, g3⟩ := releaseSource_dst (releaseSink e s)
  exact ⟨g1.trans h.1, g2.trans h.2.1, g3.trans h.2.2⟩

/-- After another cause it flushes an open writer: every bit written is in DST, padded with zeros to whole bytes. -/
theorem cleanUp_flushes {e : Raise} (he : e.cause ≠ .dstWriteFail) {s : State} (hf : WriterForm s)
    (ho : s.bw.isOpen = true) (ha : AcceptsBursts s) :
    unpack (cleanUp .composite e s).env.dst = written s ++ zeros (padTo8 (written s).length) ∧
      (cleanUp .composite e s).regs.dstLen =
        s.regs.dstLen + BitVec.ofNat 32 ((cleanUp .composite e s).env.dst.length - s.env.dst.length) := by
  have h : ∀ u, releaseSink e s = bwRelease u → u = (bwFlush s).2 →
      unpack (cleanUp .composite e s).env.dst = unpack u.env.dst ∧
      (cleanUp .composite e s).regs.dstLen = u.regs.dstLen ∧ (cleanUp .composite e s).env.dst = u.env.dst := by
    intro u hu _
    have h1 := releaseSource_dst (releaseSink e s)
    have h2 : (cleanUp .composite e s).env.dst = u.env.dst := h1.1.trans (by rw [hu]; rfl)
    exact ⟨by rw [h2], (congrArg Regs.dstLen h1.2.1).trans (by rw [hu]; rfl), h2⟩
  obtain ⟨h1, h2, h3⟩ := h (bwFlush s).2 (by unfold releaseSink; rw [if_pos ho, if_neg he]) rfl
  rcases bwFlush_outcome s with ⟨-, hv, -⟩ | ⟨-, -, f2, f3⟩
  · exact absurd hv ha.head
  · refine ⟨?_, by rw [h2, h3]; exact f2.counted⟩
    rw [h1, f3, unpack_append, unpack_flushBytes hf, ← List.append_assoc]
    unfold written padTo8
    congr 2
    rw [List.length_append, unpack_length]
    omega

/-- An error of a composite command with the writer open, or released by `BW.CLOSE`: everything is released, the status reports
it, and encoder, decoder and the count of unread bits stay (R262 (d), (e)). -/
theorem takeError_composite (e : Raise) {s : State} (h : s.bw.isOpen = true ∨ ∃ u, s = bwRelease u) :
    Released (takeError .composite e s) ∧ (takeError .composite e s).status = statusErr e.code e.cause s ∧
      (takeError .composite e s).enc = s.enc ∧ (takeError .composite e s).dec = s.dec ∧
      (takeError .composite e s).br.remaining = s.br.remaining := by
  obtain ⟨k1, k2, k3, -, -⟩ := cleanUp_keeps .composite e s
  obtain ⟨r1, r2, r3, r4⟩ := cleanUp_released e h
  refine ⟨⟨r1, r2, r3, r4⟩, ?_, k2, k3, cleanUp_remaining e s⟩
  show statusErr e.code e.cause (cleanUp .composite e s) = _
  unfold statusErr
  rw [k1]

/-- A composite command whose output `y` meets a refused burst (R66, R255, R262 (d)). -/
theorem takeError_stopped {s u : State} {y : List Byte} {i : Nat} (hr : RefusedIn s.env.verdicts y u)
    (hp : u.params = s.params) (hst : u.status = s.status) (ho : u.bw.isOpen = true ∨ ∃ v, u = bwRelease v)
    (hi : RefusesBurst s i) : StoppedAtBurst s i y (takeError .composite ⟨.dstErr, .dstWriteFail⟩ u) := by
  obtain ⟨h1, h2, -⟩ := takeError_composite ⟨.dstErr, .dstWriteFail⟩ ho
  obtain ⟨c1, c2, c3⟩ := cleanUp_refused (e := ⟨.dstErr, .dstWriteFail⟩) rfl u
  obtain ⟨⟨p, hp1, hp2⟩, hl, hv⟩ := hr.index hi.1 hi.2
  rw [hp] at hp1 hp2 hl
  refine ⟨?_, ⟨p, hp1, c1.trans hp2⟩, (congrArg Regs.dstLen c2).trans hl, c3.trans hv, h1⟩
  rw [h2]
  unfold statusErr
  rw [hst]

/-- A refused burst is one of those the delivery needs. -/
theorem RefusedIn.not_acceptsBytes {s u : State} {y : List Byte} (h : RefusedIn s.env.verdicts y u)
    (hp : u.params = s.params) : ¬ AcceptsBytes s y := by
  obtain ⟨k, -, h1, h2, h3, -⟩ := h
  intro ha
  have := ha k ⟨h1, h2⟩
  rw [← hp] at this
  omega

end Sys2Proof.Machine
end

