-- ==== Sys2Proof/Laws/Causes.lean ====
section
/-! SUPPORT. Which errors the parts of a command raise: a cause with a status it occurs with (30_encoding.md R95), and after
the opens none of the causes that say that a command did not start. -/

namespace Sys2Proof.Machine

/-- What is raised has a status its cause occurs with (30_encoding.md R95). -/
def RaisesFit {α} (r : Result α) : Prop := ∀ e t, r = .raised e t → e.code ∈ causeStatuses e.cause
theorem RaisesFit.done {α} (a : α) (t) : RaisesFit (.done a t) := fun _ _ h => by cases h
theorem RaisesFit.raised {α} {e : Raise} {t} (h : e.code ∈ causeStatuses e.cause) : RaisesFit (.raised e t : Result α) := fun _ _ g => by cases g; exact h
theorem RaisesFit.bind {α β : Type} {r : Result α} {f : α → State → Result β} (hr : RaisesFit r) (hf : ∀ a t, RaisesFit (f a t)) : RaisesFit (r.bind f) := by
  cases r with
  | done a t => exact hf a t
  | raised e t => exact RaisesFit.raised (hr e t rfl)

theorem bwOpen_raisesFit (s) : RaisesFit (bwOpen s) := by
  unfold bwOpen; split
  · exact RaisesFit.raised (by decide)
  · split
    · exact RaisesFit.raised (by decide)
    · exact RaisesFit.done _ _
theorem bwPutByte_raisesFit (b s) : RaisesFit (bwPutByte b s) := by
  unfold bwPutByte; dsimp only; split
  · split
    · exact RaisesFit.done _ _
    · exact RaisesFit.raised (by decide)
  · exact RaisesFit.done _ _
theorem bwPutBits_raisesFit (b s) : RaisesFit (bwPutBits b s) := by
  induction b generalizing s with
  | nil => exact RaisesFit.done _ _
  | cons v b ih =>
    refine RaisesFit.bind ?_ fun _ t => ih t
    unfold bwPutBit; dsimp only; split
    · exact RaisesFit.bind (bwPutByte_raisesFit _ _) fun _ _ => RaisesFit.done _ _
    · exact RaisesFit.done _ _
theorem bwWbits_raisesFit (v n s) : RaisesFit (bwWbits v n s) := by
  unfold bwWbits; split
  · exact RaisesFit.raised (by decide)
  · split
    · exact bwPutBits_raisesFit _ _
    · exact RaisesFit.raised (by decide)
theorem bwWbyte_raisesFit (b s) : RaisesFit (bwWbyte b s) := by
  unfold bwWbyte; split
  · split
    · exact bwPutByte_raisesFit _ _
    · exact RaisesFit.raised (by decide)
  · exact RaisesFit.raised (by decide)
theorem bwClose_raisesFit (s) : RaisesFit (bwClose s) := by
  unfold bwClose; dsimp only; split
  · split
    · exact RaisesFit.done _ _
    · exact RaisesFit.raised (by decide)
  · exact RaisesFit.raised (by decide)
theorem brOpen_raisesFit (s) : RaisesFit (brOpen s) := by
  unfold brOpen; split
  · exact RaisesFit.raised (by decide)
  · split
    · exact RaisesFit.raised (by decide)
    · exact RaisesFit.done _ _
theorem brRbit_raisesFit (s) : RaisesFit (brRbit s) := by
  unfold brRbit; dsimp only; split
  · split
    · exact RaisesFit.raised (by decide)
    · exact RaisesFit.done _ _
  · exact RaisesFit.raised (by decide)
theorem brRbyte8_raisesFit (s) : RaisesFit (brRbyte8 s) := by
  unfold brRbyte8; dsimp only; split
  · split
    · exact RaisesFit.raised (by decide)
    · exact RaisesFit.done _ _
  · exact RaisesFit.raised (by decide)
theorem brClose_raisesFit (s) : RaisesFit (brClose s) := by
  unfold brClose; split
  · exact RaisesFit.done _ _
  · exact RaisesFit.raised (by decide)
theorem encodeBody_raisesFit (s) : RaisesFit (encodeBody s) := by
  unfold encodeBody
  refine RaisesFit.bind ?_ fun _ t => ?_
  · unfold freqScan; split
    · exact RaisesFit.raised (by decide)
    · exact RaisesFit.done _ _
  · split
    · exact RaisesFit.raised (by decide)
    · refine RaisesFit.bind ?_ fun _ t => RaisesFit.done _ _
      unfold codeDerive
      generalize visit _ _ _ _ _ = a
      dsimp only; split
      · exact RaisesFit.done _ _
      · exact RaisesFit.raised (by decide)
theorem emitHeader_raisesFit (f j s) : RaisesFit (emitHeader f j s) := by
  induction f generalizing j s with
  | zero => exact RaisesFit.done _ _
  | succ f ih =>
    unfold emitHeader; dsimp only; split
    · exact RaisesFit.bind (bwWbits_raisesFit _ _ _) fun _ t => ih _ t
    · exact RaisesFit.done _ _
theorem emitCodes_raisesFit (x s) : RaisesFit (emitCodes x s) := by
  induction x generalizing s with
  | nil => exact RaisesFit.done _ _
  | cons b x ih =>
    refine RaisesFit.bind ?_ fun _ t => ih t
    unfold emitCode; split
    · exact RaisesFit.raised (by decide)
    · exact bwWbits_raisesFit _ _ _
theorem payloadLoop_raisesFit (f o l s) : RaisesFit (payloadLoop f o l s) := by
  induction f generalizing o s with
  | zero => exact RaisesFit.done _ _
  | succ f ih =>
    unfold payloadLoop; dsimp only; split
    · exact RaisesFit.bind (emitCodes_raisesFit _ _) fun _ t => ih _ t
    · exact RaisesFit.done _ _
theorem compressBody_raisesFit (s) : RaisesFit (compressBody s) := by
  unfold compressBody; split
  · exact RaisesFit.raised (by decide)
  · refine RaisesFit.bind (bwOpen_raisesFit _) fun _ t => ?_
    refine RaisesFit.bind (emitHeader_raisesFit _ _ _) fun _ t => RaisesFit.bind (bwWbits_raisesFit _ _ _) fun _ t => RaisesFit.bind (payloadLoop_raisesFit _ _ _ _) fun _ t => ?_
    unfold compressFinish; split
    · exact bwClose_raisesFit _
    · exact RaisesFit.raised (by decide)
theorem parseNode_raisesFit (f s) : RaisesFit (parseNode f s) := by
  induction f generalizing s with
  | zero => exact RaisesFit.raised (by decide)
  | succ f ih =>
    unfold parseNode; dsimp only; split
    · exact RaisesFit.raised (by decide)
    · split
      · exact RaisesFit.raised (by decide)
      · refine RaisesFit.bind (brRbit_raisesFit _) fun m t => ?_
        split
        · split
          · exact RaisesFit.raised (by decide)
          · exact RaisesFit.bind (brRbyte8_raisesFit _) fun _ _ => RaisesFit.done _ _
        · exact RaisesFit.bind (ih _) fun _ _ => RaisesFit.bind (ih _) fun _ _ => RaisesFit.done _ _
theorem walkDown_raisesFit (f i s) : RaisesFit (walkDown f i s) := by
  induction f generalizing i s with
  | zero => exact RaisesFit.raised (by decide)
  | succ f ih =>
    unfold walkDown; split
    · exact RaisesFit.done _ _
    · split
      · exact RaisesFit.raised (by decide)
      · exact RaisesFit.bind (brRbit_raisesFit _) fun _ _ => ih _ _
theorem treeWalk_raisesFit (f s) : RaisesFit (treeWalk f s) := by
  induction f generalizing s with
  | zero => exact RaisesFit.raised (by decide)
  | succ f ih =>
    unfold treeWalk; split
    · exact RaisesFit.done _ _
    · exact RaisesFit.bind (walkDown_raisesFit _ _ _) fun _ _ => RaisesFit.bind (bwWbyte_raisesFit _ _) fun _ _ => ih _
theorem decompressBody_raisesFit (s) : RaisesFit (decompressBody s) := by
  unfold decompressBody; split
  · exact RaisesFit.raised (by decide)
  · refine RaisesFit.bind (bwOpen_raisesFit _) fun _ t => ?_
    refine RaisesFit.bind (RaisesFit.bind (parseNode_raisesFit _ _) fun _ t => ?_) fun _ t => ?_
    · split
      · exact RaisesFit.raised (by decide)
      · exact RaisesFit.done _ _
    · refine RaisesFit.bind ?_ fun _ t => RaisesFit.bind (treeWalk_raisesFit _ _) fun _ t => RaisesFit.bind (bwClose_raisesFit _) fun _ t => brClose_raisesFit _
      unfold padRead; split
      · exact RaisesFit.raised (by decide)
      · exact RaisesFit.bind (brRbit_raisesFit _) fun _ _ => RaisesFit.bind (brRbit_raisesFit _) fun _ _ => RaisesFit.bind (brRbit_raisesFit _) fun _ _ => RaisesFit.done _ _

/-- The status in which an operation ends (30_encoding.md R94, R95; 60_exceptions.md R265). -/
theorem endOp_statusForm (site r) (h : RaisesFit r) : StatusForm (endOp site r) := by
  cases r with
  | done a t => exact ⟨rfl, by simp [endOp, endOk, causeStatuses], fun h => absurd rfl h⟩
  | raised e t => exact ⟨rfl, h e t rfl, fun _ => rfl⟩

/-! Causes after the opens. -/

/-- With the writer open: no cause of a command that did not start is raised, and the writer stays open. -/
def WriterStaysOpen {α} (s : State) (r : Result α) : Prop :=
  s.bw.isOpen = true → (∀ e t, r = .raised e t → e.cause ≠ .seq ∧ e.cause ≠ .srcOpenFail ∧ e.cause ≠ .dstOpenFail) ∧
    (∀ a t, r = .done a t → t.bw.isOpen = true)

theorem WriterStaysOpen.bind {α β : Type} {s : State} {r : Result α} {f : α → State → Result β} (hr : WriterStaysOpen s r) (hf : ∀ a t, r = .done a t → WriterStaysOpen t (f a t)) : WriterStaysOpen s (r.bind f) := by
  intro ho
  obtain ⟨h1, h2⟩ := hr ho
  cases r with
  | raised e t => exact ⟨fun e' t' h => h1 e' t' (by cases h; rfl), fun a t h => by cases h⟩
  | done a t => exact hf a t rfl (h2 a t rfl)

theorem WriterStaysOpen.done {α} {s t : State} (a : α) (h : t.bw.isOpen = s.bw.isOpen) : WriterStaysOpen s (.done a t) :=
  fun ho => ⟨fun _ _ h => (by cases h), fun _ _ g => by cases g; rw [h]; exact ho⟩
theorem WriterStaysOpen.raised {α} {s t : State} {e : Raise} (h : e.cause ≠ .seq ∧ e.cause ≠ .srcOpenFail ∧ e.cause ≠ .dstOpenFail) : WriterStaysOpen s (.raised e t : Result α) :=
  fun _ => ⟨fun _ _ g => (by cases g; exact h), fun _ _ g => (by cases g)⟩
theorem WriterStaysOpen.pre {α} {s t : State} {r : Result α} (h : WriterStaysOpen t r) (g : t.bw.isOpen = s.bw.isOpen) : WriterStaysOpen s r := fun ho => h (g.trans ho)

theorem bwPutByte_staysOpen (b s) : WriterStaysOpen s (bwPutByte b s) := by
  unfold bwPutByte; dsimp only
  split
  · split
    · exact WriterStaysOpen.done _ rfl
    · exact WriterStaysOpen.raised (by decide)
  · exact WriterStaysOpen.done _ rfl

theorem bwPutBits_staysOpen (b s) : WriterStaysOpen s (bwPutBits b s) := by
  induction b generalizing s with
  | nil => exact WriterStaysOpen.done _ rfl
  | cons v b ih =>
    refine WriterStaysOpen.bind ?_ fun _ t _ => ih t
    unfold bwPutBit; dsimp only
    split
    · refine WriterStaysOpen.bind ((bwPutByte_staysOpen _ _).pre rfl) fun _ t _ => WriterStaysOpen.done _ rfl
    · exact WriterStaysOpen.done _ rfl

theorem bwWbits_staysOpen (v n s) : WriterStaysOpen s (bwWbits v n s) := by
  intro ho
  unfold bwWbits
  split
  · exact WriterStaysOpen.raised (s := s) (by decide) ho
  · exact bwPutBits_staysOpen _ _ ho

theorem bwWbyte_staysOpen (v s) : WriterStaysOpen s (bwWbyte v s) := by
  intro ho
  unfold bwWbyte
  rw [if_pos ho]
  split
  · exact bwPutByte_staysOpen _ _ ho
  · exact WriterStaysOpen.raised (s := s) (by decide) ho

/-- With the writer open no cause of a command that did not start is raised. -/
def WriterEndsLate {α} (s : State) (r : Result α) : Prop :=
  s.bw.isOpen = true → (∀ e t, r = .raised e t → e.cause ≠ .seq ∧ e.cause ≠ .srcOpenFail ∧ e.cause ≠ .dstOpenFail)

theorem WriterStaysOpen.bindR {α β : Type} {s : State} {r : Result α} {f : α → State → Result β} (hr : WriterStaysOpen s r) (hf : ∀ a t, r = .done a t → WriterEndsLate t (f a t)) : WriterEndsLate s (r.bind f) := by
  intro ho
  obtain ⟨h1, h2⟩ := hr ho
  cases r with
  | raised e t => exact fun e' t' h => h1 e' t' (by cases h; rfl)
  | done a t => exact hf a t rfl (h2 a t rfl)

theorem bwClose_endsLate (s) : WriterEndsLate s (bwClose s) := by
  intro ho
  unfold bwClose
  rw [if_pos ho]; dsimp only
  split
  · exact fun _ _ h => by cases h
  · exact fun _ _ h => by cases h; decide

theorem compressEmit_endsLate (n s) : WriterEndsLate s (compressEmit n s) := by
  unfold compressEmit; dsimp only
  have hh : ∀ f j s, WriterStaysOpen s (emitHeader f j s) := by
    intro f
    induction f with
    | zero => intro j s; exact WriterStaysOpen.done _ rfl
    | succ f ih =>
      intro j s; unfold emitHeader; dsimp only; split
      · exact (bwWbits_staysOpen _ _ _).bind fun _ _ _ => ih _ _
      · exact WriterStaysOpen.done _ rfl
  have hc : ∀ x s, WriterStaysOpen s (emitCodes x s) := by
    intro x
    induction x with
    | nil => intro s; exact WriterStaysOpen.done _ rfl
    | cons b x ih =>
      intro s
      refine WriterStaysOpen.bind ?_ fun _ _ _ => ih _
      unfold emitCode; split
      · exact WriterStaysOpen.raised (by decide)
      · exact bwWbits_staysOpen _ _ _
  have hp : ∀ f o l s, WriterStaysOpen s (payloadLoop f o l s) := by
    intro f
    induction f with
    | zero => intro o l s; exact WriterStaysOpen.done _ rfl
    | succ f ih =>
      intro o l s; unfold payloadLoop; dsimp only; split
      · refine WriterStaysOpen.bind ((hc _ _).pre ?_) fun _ _ _ => ih _ _ _
        exact congrArg BitWriter.isOpen (srcRead_readerFrame _ _ s).bw
      · exact WriterStaysOpen.done _ rfl
  intro ho
  refine WriterStaysOpen.bindR ((hh _ _ _).pre rfl) (fun _ t _ => WriterStaysOpen.bindR (bwWbits_staysOpen _ _ _) fun _ t _ => WriterStaysOpen.bindR (hp _ _ _ _) fun _ t _ => ?_) ho
  unfold compressFinish; split
  · exact fun ho => bwClose_endsLate (srcClose t) ho
  · exact fun _ _ _ h => by cases h; decide

theorem bwOpen_cases (s : State) : (∃ t, bwOpen s = .done () t ∧ t.bw.isOpen = true) ∨ (∃ e, bwOpen s = .raised e s) := by
  unfold bwOpen dstOpen
  split
  · exact .inr ⟨_, rfl⟩
  · split
    · rename_i h; split at h
      · cases h
      · cases h; exact .inr ⟨_, rfl⟩
    · rename_i h; split at h
      · exact .inl ⟨_, rfl, rfl⟩
      · cases h

/-- The same with both units open. -/
def UnitsStayOpen {α} (s : State) (r : Result α) : Prop :=
  s.bw.isOpen = true → s.br.isOpen = true → (∀ e t, r = .raised e t → e.cause ≠ .seq ∧ e.cause ≠ .srcOpenFail ∧ e.cause ≠ .dstOpenFail) ∧
    (∀ a t, r = .done a t → t.bw.isOpen = true ∧ t.br.isOpen = true)
def UnitsEndLate {α} (s : State) (r : Result α) : Prop :=
  s.bw.isOpen = true → s.br.isOpen = true → (∀ e t, r = .raised e t → e.cause ≠ .seq ∧ e.cause ≠ .srcOpenFail ∧ e.cause ≠ .dstOpenFail)
theorem UnitsStayOpen.bind {α β : Type} {s : State} {r : Result α} {f : α → State → Result β} (hr : UnitsStayOpen s r) (hf : ∀ a t, r = .done a t → UnitsStayOpen t (f a t)) : UnitsStayOpen s (r.bind f) := by
  intro ho hb
  obtain ⟨h1, h2⟩ := hr ho hb
  cases r with
  | raised e t => exact ⟨fun e' t' h => h1 e' t' (by cases h; rfl), fun a t h => by cases h⟩
  | done a t => exact hf a t rfl (h2 a t rfl).1 (h2 a t rfl).2
theorem UnitsStayOpen.bindR {α β : Type} {s : State} {r : Result α} {f : α → State → Result β} (hr : UnitsStayOpen s r) (hf : ∀ a t, r = .done a t → UnitsEndLate t (f a t)) : UnitsEndLate s (r.bind f) := by
  intro ho hb
  obtain ⟨h1, h2⟩ := hr ho hb
  cases r with
  | raised e t => exact fun e' t' h => h1 e' t' (by cases h; rfl)
  | done a t => exact hf a t rfl (h2 a t rfl).1 (h2 a t rfl).2
theorem UnitsStayOpen.done {α} {s t : State} (a : α) (h : t.bw.isOpen = s.bw.isOpen) (g : t.br.isOpen = s.br.isOpen) : UnitsStayOpen s (.done a t) :=
  fun ho hb => ⟨fun _ _ h => (by cases h), fun _ _ k => by cases k; exact ⟨by rw [h]; exact ho, by rw [g]; exact hb⟩⟩
theorem UnitsStayOpen.raised {α} {s t : State} {e : Raise} (h : e.cause ≠ .seq ∧ e.cause ≠ .srcOpenFail ∧ e.cause ≠ .dstOpenFail) : UnitsStayOpen s (.raised e t : Result α) :=
  fun _ _ => ⟨fun _ _ g => (by cases g; exact h), fun _ _ g => (by cases g)⟩

theorem brRefill_open (s : State) : (brRefill s).br.isOpen = s.br.isOpen ∧ (brRefill s).bw = s.bw := by
  refine ⟨?_, (brRefill_readerFrame s).bw⟩
  unfold brRefill; split <;> rfl

theorem brRbit_unitsStay (s) : UnitsStayOpen s (brRbit s) := by
  intro ho hb
  unfold brRbit
  rw [if_pos hb]
  split
  · exact UnitsStayOpen.raised (s := s) (by decide) ho hb
  · exact UnitsStayOpen.done (s := s) _ (congrArg BitWriter.isOpen (brRefill_open s).2) (brRefill_open s).1 ho hb
theorem brRbyte8_unitsStay (s) : UnitsStayOpen s (brRbyte8 s) := by
  intro ho hb
  unfold brRbyte8
  rw [if_pos hb]
  split
  · exact UnitsStayOpen.raised (s := s) (by decide) ho hb
  · exact UnitsStayOpen.done (s := s) _ (congrArg BitWriter.isOpen (brRefill_open s).2) (brRefill_open s).1 ho hb

theorem parseNode_unitsStay (f s) : UnitsStayOpen s (parseNode f s) := by
  induction f generalizing s with
  | zero => exact UnitsStayOpen.raised (by decide)
  | succ f ih =>
    unfold parseNode; dsimp only
    split
    · exact UnitsStayOpen.raised (by decide)
    · split
      · exact UnitsStayOpen.raised (by decide)
      · have h := brRbit_unitsStay (s.setDec { s.dec with dtN := s.dec.dtN + 1 })
        refine UnitsStayOpen.bind (show UnitsStayOpen s _ from fun a b => h a b) fun m t _ => ?_
        split
        · split
          · exact UnitsStayOpen.raised (by decide)
          · exact (brRbyte8_unitsStay _).bind fun _ _ _ => UnitsStayOpen.done _ rfl rfl
        · exact (ih _).bind fun _ _ _ => (ih _).bind fun _ _ _ => UnitsStayOpen.done _ rfl rfl

theorem walkDown_unitsStay (f i s) : UnitsStayOpen s (walkDown f i s) := by
  induction f generalizing i s with
  | zero => exact UnitsStayOpen.raised (by decide)
  | succ f ih =>
    unfold walkDown
    split
    · exact UnitsStayOpen.done _ rfl rfl
    · split
      · exact UnitsStayOpen.raised (by decide)
      · exact (brRbit_unitsStay _).bind fun _ _ _ => ih _ _

theorem bwWbyte_unitsStay (b s) : UnitsStayOpen s (bwWbyte b s) := by
  intro ho hb
  obtain ⟨h1, h2⟩ := bwWbyte_staysOpen b s ho
  refine ⟨h1, fun a t h => ⟨h2 a t h, ?_⟩⟩
  have := (bwWbyte_sinkFrame b s).br
  rw [h] at this
  exact (congrArg BitReader.isOpen this).trans hb

theorem treeWalk_unitsStay (f s) : UnitsStayOpen s (treeWalk f s) := by
  induction f generalizing s with
  | zero => exact UnitsStayOpen.raised (by decide)
  | succ f ih =>
    unfold treeWalk
    split
    · exact UnitsStayOpen.done _ rfl rfl
    · exact (walkDown_unitsStay _ _ _).bind fun _ _ _ => (bwWbyte_unitsStay _ _).bind fun _ _ _ => ih _

theorem decompressRun_endsLate (s) : UnitsEndLate s (decompressRun s) := by
  unfold decompressRun
  refine UnitsStayOpen.bindR ?_ fun _ t _ => UnitsStayOpen.bindR ?_ fun _ u _ => UnitsStayOpen.bindR (treeWalk_unitsStay _ _) fun _ v _ => ?_
  · unfold hdrParse
    have h := parseNode_unitsStay 512 (s.setDec { s.dec with dtN := 0 })
    refine UnitsStayOpen.bind (show UnitsStayOpen s _ from fun a b => h a b) fun _ t _ => ?_
    split
    · exact UnitsStayOpen.raised (by decide)
    · exact UnitsStayOpen.done _ rfl rfl
  · unfold padRead
    split
    · exact UnitsStayOpen.raised (by decide)
    · exact (brRbit_unitsStay _).bind fun _ _ _ => (brRbit_unitsStay _).bind fun _ _ _ => (brRbit_unitsStay _).bind fun _ _ _ => UnitsStayOpen.done _ rfl rfl
  · intro ho hb e t h
    have h1 := bwClose_endsLate v ho
    have hbr := (bwClose_sinkFrame v).br
    cases hr : bwClose v with
    | raised e' t' => rw [hr] at h; cases h; exact h1 e t hr
    | done a w =>
      rw [hr] at h hbr
      rw [Result.bind_done] at h
      unfold brClose at h
      have : w.br = v.br := hbr
      rw [if_pos (by rw [this]; exact hb)] at h
      cases h

/-- The causes of a command that did not start: not allowed, or a port that did not open. -/
def OpenCause (c : Cause) : Prop := c = .seq ∨ c = .srcOpenFail ∨ c = .dstOpenFail

/-- a body that raises an opening cause has not touched DST -/
theorem compressBody_openCause {s : State} {e : Raise} {t : State} (h : compressBody s = .raised e t) (hc : OpenCause e.cause) : t.env.dst = s.env.dst := by
  unfold compressBody at h
  have h0 : (srcOpen s).2.env.dst = s.env.dst := by unfold srcOpen; split <;> rfl
  split at h <;> rename_i s1 h1 <;> rw [h1] at h0
  · cases h; exact h0
  · rcases bwOpen_cases s1 with ⟨u, hu, ho⟩ | ⟨e', he⟩
    · rw [hu, Result.bind_done] at h
      have := compressEmit_endsLate _ u ho e t h
      unfold OpenCause at hc; tauto
    · rw [he] at h; cases h; exact h0

theorem decompressBody_openCause {s : State} {e : Raise} {t : State} (h : decompressBody s = .raised e t) (hc : OpenCause e.cause) : t.env.dst = s.env.dst := by
  unfold decompressBody at h
  have h0 : (brOpen s).state.env.dst = s.env.dst := by
    unfold brOpen srcOpen
    split
    · rfl
    · cases s.env.src <;> rfl
  have h0' : ∀ a u, brOpen s = .done a u → u.br.isOpen = true := by
    intro a u
    unfold brOpen srcOpen
    split
    · intro h; cases h
    · cases s.env.src with
      | none => intro h; cases h
      | some x => intro h; cases h; rfl
  split at h <;> rename_i s1 h1 <;> rw [h1] at h0
  · cases h; exact h0
  · rcases bwOpen_cases s1 with ⟨u, hu, ho⟩ | ⟨e', he⟩
    · have hbr := (bwOpen_sinkFrame s1).br
      rw [hu, Result.bind_done] at h
      rw [hu] at hbr
      have hbu : u.br.isOpen = true := (congrArg BitReader.isOpen hbr).trans (h0' _ _ h1)
      have := decompressRun_endsLate u ho hbu e t h
      unfold OpenCause at hc; tauto
    · rw [he] at h; cases h; exact h0

end Sys2Proof.Machine
end

