-- ==== Sys2Proof/Laws/TieRule.lean ====
section
/-! SUPPORT. The order of the queue is a strict total order that refines weight and depth, for every tie rule, and every
order of finitely many nodes is that of some tie rule (42_encoder.md R175; decision D4). -/

namespace Sys2Proof.Machine

theorem tieBefore_iff {tie : Config.TieRule} {a b : Config.NodeKey} : tieBefore tie a b = true ↔
    tie.order.idxOf a < tie.order.idxOf b ∨ tie.order.idxOf a = tie.order.idxOf b ∧ a.id < b.id := by
  unfold tieBefore
  split <;> simp <;> omega

/-- The default is the order of the ids (R175). -/
theorem tieBefore_default (a b : Config.NodeKey) : tieBefore {} a b = decide (a.id < b.id) := rfl

theorem keyBefore_iff {tie : Config.TieRule} {a b : Config.NodeKey} :
    keyBefore tie a b = true ↔ a.weight < b.weight ∨ a.weight = b.weight ∧ (a.depth < b.depth ∨
      a.depth = b.depth ∧ tieBefore tie a b = true) := by
  unfold keyBefore
  by_cases hw : a.weight = b.weight <;> by_cases hd : a.depth = b.depth <;> simp [hw, hd]

theorem keyBefore_irrefl (tie : Config.TieRule) (a : Config.NodeKey) : keyBefore tie a a = false := by
  unfold keyBefore tieBefore
  simp

theorem keyBefore_trans {tie : Config.TieRule} {a b c : Config.NodeKey} (h : keyBefore tie a b = true)
    (g : keyBefore tie b c = true) : keyBefore tie a c = true := by
  rw [keyBefore_iff, tieBefore_iff] at *
  omega

/-- Of two nodes with different ids one comes before the other. -/
theorem keyBefore_total (tie : Config.TieRule) {a b : Config.NodeKey} (h : a.id ≠ b.id) :
    keyBefore tie a b = true ∨ keyBefore tie b a = true := by
  rw [keyBefore_iff, keyBefore_iff, tieBefore_iff, tieBefore_iff]
  omega

/-- Nodes listed once each come in the order of the list: every order of finitely many nodes is that of a tie rule. -/
theorem tieBefore_listed {tie : Config.TieRule} (hn : tie.order.Nodup) {i j : Nat} (hi : i < tie.order.length)
    (hj : j < tie.order.length) : tieBefore tie tie.order[i] tie.order[j] = decide (i < j) := by
  unfold tieBefore
  rw [hn.idxOf_getElem i hi, hn.idxOf_getElem j hj]
  by_cases h : i = j
  · subst h; simp
  · rw [if_neg h]

/-- The two children are the two nodes extracted, in one order or the other (R176). -/
theorem childrenOf_cases {α : Type} (tie : Config.TieRule) (k l : Config.NodeKey) (a b : α) :
    childrenOf tie k l a b = (a, b) ∨ childrenOf tie k l a b = (b, a) := by
  unfold childrenOf
  split
  · exact .inr rfl
  · exact .inl rfl

theorem joinTrees_cases (tie : Config.TieRule) (a b : QueueEntry) :
    joinTrees tie a b = .node a.tree b.tree ∨ joinTrees tie a b = .node b.tree a.tree := by
  unfold joinTrees
  rcases childrenOf_cases tie (queueKey a) (queueKey b) a.tree b.tree with h | h <;> rw [h]
  · exact .inl rfl
  · exact .inr rfl

@[simp] theorem joinTrees_height (tie : Config.TieRule) (a b : QueueEntry) :
    (joinTrees tie a b).height = 1 + max a.tree.height b.tree.height := by
  rcases joinTrees_cases tie a b with h | h <;> rw [h]
  · rfl
  · exact congrArg (1 + ·) (Nat.max_comm _ _)

end Sys2Proof.Machine
end

