-- ==== Sys2Proof/Laws/Trees.lean ====
section
/-! SUPPORT. Code trees: their leaves, codewords and headers, and the Huffman tree of a source. -/

namespace Sys2Proof.Machine

variable {tie : Config.TieRule}

/-- The symbols of the leaves, from left to right. -/
def CodeTree.leaves : CodeTree → List Byte
  | .leaf b => [b]
  | .node l r => l.leaves ++ r.leaves

theorem CodeTree.leaves_pos (t : CodeTree) : 1 ≤ t.leaves.length := by
  induction t with
  | leaf b => simp [leaves]
  | node l r ihl ihr => simp [leaves]; omega

theorem CodeTree.size_eq (t : CodeTree) : t.size + 1 = 2 * t.leaves.length := by
  induction t with
  | leaf b => rfl
  | node l r ihl ihr => simp only [size, leaves, List.length_append]; omega

theorem CodeTree.header_length (t : CodeTree) : t.header.length + 1 = 10 * t.leaves.length := by
  induction t with
  | leaf b => simp [header, leaves]
  | node l r ihl ihr => simp only [header, leaves, List.length_cons, List.length_append]; omega

theorem CodeTree.height_lt (t : CodeTree) : t.height < t.leaves.length := by
  induction t with
  | leaf b => simp [height, leaves]
  | node l r ihl ihr => simp only [height, leaves, List.length_append]; omega

/-- A tree has a codeword exactly for the symbols of its leaves. -/
theorem CodeTree.codeword_isSome (t : CodeTree) (b : Byte) : (t.codeword b).isSome ↔ b ∈ t.leaves := by
  induction t with
  | leaf s =>
    unfold codeword
    split <;> simp_all [leaves, eq_comm]
  | node l r ihl ihr =>
    rw [leaves, List.mem_append, ← ihl, ← ihr]
    rw [codeword]
    cases l.codeword b with
    | some p => simp
    | none => cases r.codeword b <;> simp

/-- A codeword leads to its symbol (30_encoding.md R99, R103). -/
theorem CodeTree.leafAt_codeword {t : CodeTree} {b : Byte} {p : Bits} (h : t.codeword b = some p) :
    t.leafAt p = some b := by
  induction t generalizing p with
  | leaf s =>
    unfold codeword at h
    split at h
    · cases h; subst s; rfl
    · cases h
  | node l r ihl ihr =>
    unfold codeword at h
    split at h
    · rename_i q hq; cases h; simp only [leafAt, if_true]; exact ihl hq
    · split at h
      · rename_i q hq; cases h; simp only [leafAt, Bool.false_eq_true, if_false]; exact ihr hq
      · cases h

/-- A codeword is no longer than the longest path. -/
theorem CodeTree.codeword_length {t : CodeTree} {b : Byte} {p : Bits} (h : t.codeword b = some p) :
    p.length ≤ t.height := by
  induction t generalizing p with
  | leaf s =>
    unfold codeword at h
    split at h
    · cases h; exact Nat.le_refl _
    · cases h
  | node l r ihl ihr =>
    unfold codeword at h
    split at h
    · rename_i q hq; cases h; have := ihl hq; simp only [height, List.length_cons]; omega
    · split at h
      · rename_i q hq; cases h; have := ihr hq; simp only [height, List.length_cons]; omega
      · cases h

/-- In a tree whose root is an internal node every codeword has a bit. -/
theorem CodeTree.codeword_pos {t : CodeTree} {b : Byte} {p : Bits} (hi : t.internal = true) (h : t.codeword b = some p) :
    1 ≤ p.length := by
  cases t with
  | leaf s => cases hi
  | node l r =>
    unfold codeword at h
    split at h
    · cases h; simp
    · split at h
      · cases h; simp
      · cases h

/-- In a tree whose root is an internal node every path to a leaf has a bit. -/
theorem CodeTree.leafAt_pos {t : CodeTree} {b : Byte} {p : Bits} (hi : t.internal = true) (h : t.leafAt p = some b) :
    1 ≤ p.length := by
  cases t with
  | leaf s => cases hi
  | node l r => cases p with
    | nil => cases h
    | cons d p => simp

/-! The Huffman tree of a source: what the queue holds. -/

/-- The leaves of all trees of a queue. -/
def queueLeaves (q : List QueueEntry) : List Byte := q.flatMap fun e => e.tree.leaves

theorem queueInsert_perm (a : QueueEntry) (q : List QueueEntry) : (queueInsert tie a q).Perm (a :: q) := by
  induction q with
  | nil => exact List.Perm.refl _
  | cons b q ih =>
    unfold queueInsert
    split
    · exact List.Perm.refl _
    · exact (ih.cons b).trans (List.Perm.swap a b q)

theorem queueInsert_length (a : QueueEntry) (q : List QueueEntry) : (queueInsert tie a q).length = q.length + 1 := by
  rw [(queueInsert_perm a q).length_eq]; rfl

theorem joinTrees_leaves (tie : Config.TieRule) (a b : QueueEntry) :
    (joinTrees tie a b).leaves.Perm (a.tree.leaves ++ b.tree.leaves) := by
  rcases joinTrees_cases tie a b with h | h <;> rw [h]
  · exact List.Perm.refl _
  · exact List.perm_append_comm

theorem queueMerge_leaves (fuel next : Nat) (q : List QueueEntry) :
    (queueLeaves (queueMerge tie fuel next q)).Perm (queueLeaves q) := by
  induction fuel generalizing next q with
  | zero => exact List.Perm.refl _
  | succ fuel ih =>
    unfold queueMerge
    split
    · rename_i a b rest
      refine (ih _ _).trans (((queueInsert_perm _ rest).flatMap_right _).trans ?_)
      simp only [queueLeaves, List.flatMap_cons, ← List.append_assoc]
      exact (joinTrees_leaves tie a b).append_right _
    · exact List.Perm.refl _

/-- With enough rounds the merge loop leaves one tree. -/
theorem queueMerge_length (fuel next : Nat) (q : List QueueEntry) (h1 : 1 ≤ q.length) (h2 : q.length ≤ fuel + 1) :
    (queueMerge tie fuel next q).length = 1 := by
  induction fuel generalizing next q with
  | zero => unfold queueMerge; omega
  | succ fuel ih =>
    unfold queueMerge
    split
    · rename_i a b rest
      apply ih
      · rw [queueInsert_length]; omega
      · rw [queueInsert_length]; simp only [List.length_cons] at h2; omega
    · rename_i hq
      match q, h1, hq with
      | [_], _, _ => rfl
      | _ :: _ :: _, _, hq => exact absurd rfl (hq _ _ _)

/-- All 256 bytes, each once. -/
theorem mem_allBytes (b : Byte) : b ∈ (List.range 256).map (BitVec.ofNat 8) :=
  List.mem_map.mpr ⟨b.toNat, List.mem_range.mpr b.isLt, by simp⟩

theorem allBytes_nodup : ((List.range 256).map (BitVec.ofNat 8)).Nodup := by
  refine (List.nodup_map_iff_inj_on List.nodup_range).mpr ?_
  intro i hi j hj h
  have := congrArg BitVec.toNat h
  simp only [BitVec.toNat_ofNat] at this
  rw [List.mem_range] at hi hj
  omega

/-- The seeded queue has one leaf for every symbol that occurs. -/
theorem queueOf_leaves (x : List Byte) :
    (queueLeaves (queueOf tie x)).Perm (((List.range 256).map (BitVec.ofNat 8)).filter fun b => b ∈ x) := by
  unfold queueOf
  suffices ∀ (l : List Byte) (q : List QueueEntry),
      (queueLeaves (l.foldl (fun q b => if x.count b = 0 then q
        else queueInsert tie ⟨x.count b, 0, b.toNat, .leaf b⟩ q) q)).Perm
      (queueLeaves q ++ l.filter fun b => b ∈ x) by
    simpa [queueLeaves] using this _ []
  intro l
  induction l with
  | nil => intro q; simp
  | cons b l ih =>
    intro q
    rw [List.foldl_cons]
    refine (ih _).trans ?_
    by_cases h : b ∈ x
    · rw [if_neg (by rw [List.count_eq_zero]; exact not_not_intro h), List.filter_cons_of_pos (by simpa using h)]
      refine (((queueInsert_perm _ q).flatMap_right _).append_right _).trans ?_
      simp only [List.flatMap_cons, CodeTree.leaves, List.cons_append]
      exact (List.perm_middle (l₁ := queueLeaves q)).symm
    · rw [if_pos (by rw [List.count_eq_zero]; exact h), List.filter_cons_of_neg (by simpa using h)]

/-- The symbols that occur in a source, in ascending order. -/
def present (x : List Byte) : List Byte := ((List.range 256).map (BitVec.ofNat 8)).filter fun b => b ∈ x

theorem present_nodup (x : List Byte) : (present x).Nodup := allBytes_nodup.filter _

theorem mem_present (x : List Byte) (b : Byte) : b ∈ present x ↔ b ∈ x := by
  unfold present
  rw [List.mem_filter]
  simp only [mem_allBytes, true_and, decide_eq_true_eq]

theorem present_length (x : List Byte) : (present x).length = distinctSymbols x := by
  unfold distinctSymbols
  refine List.Perm.length_eq ((List.perm_ext_iff_of_nodup (present_nodup x) x.nodup_dedup).mpr fun b => ?_)
  rw [mem_present, List.mem_dedup]

theorem distinctSymbols_le (x : List Byte) : distinctSymbols x ≤ 256 := by
  rw [← present_length]
  exact (List.length_filter_le _ _).trans (by simp)

theorem queueOf_length (x : List Byte) : (queueOf tie x).length = distinctSymbols x := by
  have hl : (queueLeaves (queueOf tie x)).length = (queueOf tie x).length := by
    unfold queueOf
    suffices ∀ (l : List Byte) (q : List QueueEntry), (queueLeaves q).length = q.length →
        (queueLeaves (l.foldl (fun q b => if x.count b = 0 then q
          else queueInsert tie ⟨x.count b, 0, b.toNat, .leaf b⟩ q) q)).length =
        (l.foldl (fun q b => if x.count b = 0 then q
          else queueInsert tie ⟨x.count b, 0, b.toNat, .leaf b⟩ q) q).length from this _ [] rfl
    intro l
    induction l with
    | nil => intro q h; exact h
    | cons b l ih =>
      intro q h
      rw [List.foldl_cons]
      apply ih
      split
      · exact h
      · have := ((queueInsert_perm (tie := tie) ⟨x.count b, 0, b.toNat, .leaf b⟩ q).flatMap_right fun e => e.tree.leaves).length_eq
        rw [queueInsert_length]
        unfold queueLeaves at h ⊢
        rw [this, List.flatMap_cons, List.length_append, h]
        simp [CodeTree.leaves]; omega
  rw [← hl, (queueOf_leaves x).length_eq]
  exact present_length x

/-- The Huffman tree of a source has one leaf for every symbol that occurs. -/
theorem huffmanTree_leaves {x : List Byte} {t : CodeTree} (h : huffmanTree tie x = some t) :
    t.leaves.Perm (present x) := by
  unfold huffmanTree at h
  split at h
  · cases h
  · rename_i e rest hq
    cases h
    have hlen : (queueMerge tie 256 256 (queueOf tie x)).length = 1 := by
      by_cases h0 : queueOf tie x = []
      · rw [h0] at hq; cases hq
      · apply queueMerge_length
        · exact List.length_pos_iff.mpr h0
        · rw [queueOf_length]; have := distinctSymbols_le x; omega
    rw [hq] at hlen
    have hr : rest = [] := List.length_eq_zero_iff.mp (by simpa using hlen)
    subst hr
    have := (queueMerge_leaves (tie := tie) 256 256 (queueOf tie x)).trans (queueOf_leaves x)
    rw [hq] at this
    simpa [queueLeaves, present] using this

theorem huffmanTree_nodup {x : List Byte} {t : CodeTree} (h : huffmanTree tie x = some t) : t.leaves.Nodup :=
  (huffmanTree_leaves h).nodup_iff.mpr (present_nodup x)

theorem huffmanTree_mem {x : List Byte} {t : CodeTree} (h : huffmanTree tie x = some t) (b : Byte) :
    b ∈ t.leaves ↔ b ∈ x := by
  rw [(huffmanTree_leaves h).mem_iff, mem_present]

theorem huffmanTree_count {x : List Byte} {t : CodeTree} (h : huffmanTree tie x = some t) :
    t.leaves.length = distinctSymbols x := by
  rw [(huffmanTree_leaves h).length_eq, present_length]

/-- With two symbols the root is an internal node (42_encoder.md R173). -/
theorem huffmanTree_internal {x : List Byte} {t : CodeTree} (h : huffmanTree tie x = some t)
    (h2 : 2 ≤ distinctSymbols x) : t.internal = true := by
  rw [← huffmanTree_count h] at h2
  cases t with
  | leaf b => simp [CodeTree.leaves] at h2
  | node l r => rfl

/-- A nonempty source has a Huffman tree. -/
theorem huffmanTree_exists {x : List Byte} (h : 1 ≤ distinctSymbols x) : ∃ t, huffmanTree tie x = some t := by
  have hlen : (queueMerge tie 256 256 (queueOf tie x)).length = 1 := by
    apply queueMerge_length
    · rw [queueOf_length]; exact h
    · rw [queueOf_length]; have := distinctSymbols_le x; omega
  unfold huffmanTree
  cases hq : queueMerge tie 256 256 (queueOf tie x) with
  | nil => rw [hq] at hlen; cases hlen
  | cons e rest => exact ⟨_, rfl⟩

/-- The bit string of a container is a whole number of bytes (R101, R102). -/
theorem unpack_containerOf (t : CodeTree) (x : List Byte) : unpack (containerOf t x) = containerBits t x := by
  unfold containerOf containerBits
  rw [unpack_pack]
  simp only [List.length_append, msb_length, zeros_length, padTo8]
  omega

end Sys2Proof.Machine
end

