-- ==== Sys2Proof/Laws/Emission.lean ====
section
/-! SUPPORT. What the emission loops of `COMPRESS` append to the bit string written so far, whatever the bursts answer. -/

namespace Sys2Proof.Machine

/-- An emission step: a step of the writer, the scan buffer apart (42_encoder.md R182 to R184). -/
def EmitStep (s t : State) : Prop := SinkStep s (t.setScan s.scan)

theorem SinkStep.emit {s t : State} (h : SinkStep s t) : EmitStep s t := by
  unfold EmitStep
  rw [← h.frame.scan]
  exact h

theorem setScan_emitStep (s : State) (b : List Byte) : EmitStep s (s.setScan b) := by
  show SinkStep s s
  exact SinkStep.refl s

theorem SinkStep.setScan {s t : State} (h : SinkStep s t) (b : List Byte) : SinkStep (s.setScan b) (t.setScan b) :=
  ⟨⟨h.frame.params, h.frame.arg, h.frame.result, h.frame.symSel, h.frame.srcLen, h.frame.status, h.frame.enc,
    h.frame.dec, h.frame.br, rfl, h.frame.src, h.frame.creatable, h.frame.srcHeld, h.frame.host, h.frame.busData⟩,
    h.grows, h.counted, h.held, h.freeCount, h.accepts⟩

theorem SinkFrame.setScan {s t : State} {c : List Byte} (h : SinkFrame s (t.setScan c)) (b : List Byte) :
    SinkFrame (s.setScan b) (t.setScan b) :=
  ⟨h.params, h.arg, h.result, h.symSel, h.srcLen, h.status, h.enc, h.dec, h.br, rfl, h.src, h.creatable, h.srcHeld,
    h.host, h.busData⟩

theorem EmitStep.trans {s t u : State} (h : EmitStep s t) (g : EmitStep t u) : EmitStep s u :=
  SinkStep.trans h (SinkStep.setScan g s.scan)

theorem EmitStep.enc {s t : State} (h : EmitStep s t) : t.enc = s.enc := (SinkStep.frame h).enc
theorem EmitStep.params {s t : State} (h : EmitStep s t) : t.params = s.params := (SinkStep.frame h).params
theorem EmitStep.src {s t : State} (h : EmitStep s t) : t.env.src = s.env.src := (SinkStep.frame h).src
theorem EmitStep.accepts {s t : State} (h : EmitStep s t) (ha : AcceptsBursts s) : AcceptsBursts t :=
  (show SinkStep s (t.setScan s.scan) from h).accepts ha

/-- The step of the writer that an emission leaves: all bits appended, the writer still open. -/
structure Emitted (s t : State) (b : Bits) : Prop where
  step : EmitStep s t
  bits : written t = written s ++ b
  form : WriterForm t
  opened : t.bw.isOpen = true

theorem Emitted.trans {s t u : State} {a b : Bits} (h : Emitted s t a) (g : Emitted t u b) : Emitted s u (a ++ b) :=
  ⟨h.step.trans g.step, by rw [g.bits, h.bits, List.append_assoc], g.form, g.opened⟩

/-- A run that ends: done, or stopped by a condition of its own. -/
def Result.ending (stop : Option Raise) (t : State) : Result Unit :=
  match stop with
  | none => .done () t
  | some e => .raised e t

/-- What an emission of the bits `b` does: it appends them all and ends as it would, or a burst is refused on the way, and
then what DST holds is in order (R132, R180; 20_memory.md R66). -/
def Emits (s : State) (b : Bits) (stop : Option Raise) (r : Result Unit) : Prop :=
  (∃ t, r = .ending stop t ∧ Emitted s t b ∧ ∀ vs, Streaming vs s → Streaming vs t) ∨
  (∃ t, r = .raised ⟨.dstErr, .dstWriteFail⟩ t ∧ ¬ AcceptsBursts s ∧ SinkFrame s (t.setScan s.scan) ∧
    t.bw.isOpen = true ∧ ∀ vs, Streaming vs s → ∃ y, unpack y <+: written s ++ b ∧ RefusedIn vs y t)

theorem Emits.refl {s : State} (hf : WriterForm s) (ho : s.bw.isOpen = true) (stop : Option Raise) :
    Emits s [] stop (.ending stop s) :=
  .inl ⟨s, rfl, ⟨(SinkStep.refl s).emit, by simp, hf, ho⟩, fun _ h => h⟩

/-- With every burst accepted the emission is whole. -/
theorem Emits.accepted {s : State} {b : Bits} {stop : Option Raise} {r : Result Unit} (h : Emits s b stop r)
    (ha : AcceptsBursts s) : ∃ t, r = .ending stop t ∧ Emitted s t b := by
  rcases h with ⟨t, h1, h2, -⟩ | ⟨t, -, h, -⟩
  · exact ⟨t, h1, h2⟩
  · exact absurd ha h

/-- One emission after another. -/
theorem Emits.bind {s : State} {b c : Bits} {stop : Option Raise} {r : Result Unit} {f : Unit → State → Result Unit}
    (h : Emits s b none r) (g : ∀ t, Emitted s t b → Emits t c stop (f () t)) : Emits s (b ++ c) stop (r.bind f) := by
  rcases h with ⟨t, rfl, he, hs⟩ | ⟨t, rfl, hn, hfr, hot, hr⟩
  · rcases g t he with ⟨u, hu, heu, hsu⟩ | ⟨u, hu, hn, hfr, hou, hr⟩
    · exact .inl ⟨u, hu, he.trans heu, fun vs h => hsu vs (hs vs h)⟩
    · refine .inr ⟨u, hu, fun ha => hn (he.step.accepts ha), ?_, hou, fun vs h => ?_⟩
      · exact (SinkStep.frame he.step).trans (SinkFrame.setScan hfr s.scan)
      · obtain ⟨y, hy, hr⟩ := hr vs (hs vs h)
        exact ⟨y, by rw [he.bits, List.append_assoc] at hy; exact hy, hr⟩
  · refine .inr ⟨t, rfl, hn, hfr, hot, fun vs h => ?_⟩
    obtain ⟨y, hy, hr⟩ := hr vs h
    exact ⟨y, hy.trans ⟨c, by simp⟩, hr⟩

/-- An emission that stops does not go on. -/
theorem Emits.stopped {s : State} {b : Bits} {e : Raise} {r : Result Unit} {f : Unit → State → Result Unit}
    (h : Emits s b (some e) r) : Emits s b (some e) (r.bind f) := by
  rcases h with ⟨t, rfl, h⟩ | ⟨t, rfl, h⟩
  · exact .inl ⟨t, rfl, h⟩
  · exact .inr ⟨t, rfl, h⟩

/-- The scan buffer is no matter. -/
theorem Emits.ofScan {s : State} {v : List Byte} {b : Bits} {stop : Option Raise} {r : Result Unit}
    (h : Emits (s.setScan v) b stop r) : Emits s b stop r := by
  rcases h with ⟨t, h1, h2, h3⟩ | ⟨t, h1, hn, hfr, h3⟩
  · exact .inl ⟨t, h1, ⟨(setScan_emitStep s v).trans h2.step, h2.bits, h2.form, h2.opened⟩, h3⟩
  · exact .inr ⟨t, h1, hn, SinkFrame.setScan hfr s.scan, h3⟩

/-- `call BW.WBITS` with a legal count on an open writer (R132). -/
theorem bwWbits_emits (value : Word) {n : Nat} {s : State} (hn : n ≤ Config.codeMax) (hf : WriterForm s)
    (ho : s.bw.isOpen = true) : Emits s (msb value n) none (bwWbits value n s) := by
  unfold bwWbits
  rw [if_neg (by omega), if_pos ho]
  rcases bwPutBits_outcome (msb value n) hf ho with ⟨t, h1, h2, h3, h4, h5⟩ | ⟨t, h1, hna, h2, h3, h4, h5⟩
  · exact .inl ⟨t, h1, ⟨h2.emit, h3, h4, h5⟩, fun vs h => (bwPutBits_streams _ hf ho h).1 t h1⟩
  · refine .inr ⟨t, h1, hna, ?_, h4, fun vs h => ?_⟩
    · rw [← h2.scan]
      exact h2
    · obtain ⟨y, g1, g2, -⟩ := (bwPutBits_streams _ hf ho h).2 _ t h1
      exact ⟨y, g1, g2⟩

/-- The header loop appends `HDR_BITS` bits; where that is the length of the header, they are the rest of it (R182). -/
theorem emitHeader_emits (fuel j : Nat) {s : State} (hf : WriterForm s) (ho : s.bw.isOpen = true) :
    ∃ b, Emits s b none (emitHeader fuel j s) ∧
      (s.enc.hdrBits.toNat = s.enc.hdr.length → s.enc.hdr.length ≤ j + fuel → b = s.enc.hdr.drop j) := by
  suffices ∀ e : Encoder, ∃ b, ∀ s : State, s.enc = e → WriterForm s → s.bw.isOpen = true →
      Emits s b none (emitHeader fuel j s) ∧
        (e.hdrBits.toNat = e.hdr.length → e.hdr.length ≤ j + fuel → b = e.hdr.drop j) by
    obtain ⟨b, h⟩ := this s.enc
    exact ⟨b, h s rfl hf ho⟩
  intro e
  clear hf ho
  induction fuel generalizing j with
  | zero =>
    refine ⟨[], fun s _ hf ho => ⟨Emits.refl hf ho none, fun _ h => ?_⟩⟩
    rw [List.drop_eq_nil_of_le (by omega)]
  | succ fuel ih =>
    by_cases hj : j < e.hdrBits.toNat
    · have hn : min 32 (e.hdrBits.toNat - j) ≤ 32 := Nat.min_le_left _ _
      have hn2 : min 32 (e.hdrBits.toNat - j) ≤ e.hdrBits.toNat - j := Nat.min_le_right _ _
      have hn1 : 1 ≤ min 32 (e.hdrBits.toNat - j) := by omega
      have hun : ∀ s : State, s.enc = e → emitHeader (fuel + 1) j s =
          (bwWbits (BitVec.ofNat 32 (num ((e.hdr.drop j).take (min 32 (e.hdrBits.toNat - j)))))
            (min 32 (e.hdrBits.toNat - j)) s).bind fun _ s1 =>
              emitHeader fuel (j + min 32 (e.hdrBits.toNat - j)) s1 := by
        intro s hs
        rw [emitHeader, hs, if_pos hj]
      generalize min 32 (e.hdrBits.toNat - j) = n at *
      obtain ⟨b, hb⟩ := ih (j + n)
      refine ⟨msb (BitVec.ofNat 32 (num ((e.hdr.drop j).take n))) n ++ b, fun s hs hf ho => ⟨?_, fun hh hl => ?_⟩⟩
      · rw [hun s hs]
        exact (bwWbits_emits _ hn hf ho).bind fun t ht =>
          (hb t (ht.step.enc.trans hs) ht.form ht.opened).1
      · rw [(hb s hs hf ho).2 hh (by omega)]
        have hlen : ((e.hdr.drop j).take n).length = n := by
          rw [List.length_take, List.length_drop]; omega
        have hm := msb_ofNat_num 32 ((e.hdr.drop j).take n) (by rw [hlen]; exact hn)
        rw [hlen] at hm
        rw [hm, ← List.drop_drop, List.take_append_drop]
    · refine ⟨[], fun s hs hf ho => ⟨?_, fun hh _ => ?_⟩⟩
      · unfold emitHeader
        rw [hs, if_neg hj]
        exact Emits.refl hf ho none
      · rw [List.drop_eq_nil_of_le (by omega)]

/-- How the emission of the codewords of `x` ends by itself: at the first byte without a code (R184). -/
def codeStop (e : Encoder) (x : List Byte) : Option Raise :=
  if codedPrefix e x = x then none else some ⟨.usageFault, .srcChanged⟩

theorem codedPrefix_cons_pos {e : Encoder} {b : Byte} {x : List Byte} (h : (symAt e b).len ≠ 0) :
    codedPrefix e (b :: x) = b :: codedPrefix e x := by
  unfold codedPrefix
  rw [List.takeWhile_cons_of_pos (by simpa using h)]

theorem codedPrefix_cons_neg {e : Encoder} {b : Byte} {x : List Byte} (h : (symAt e b).len = 0) :
    codedPrefix e (b :: x) = [] := by
  unfold codedPrefix
  rw [List.takeWhile_cons_of_neg (by simpa using h)]

/-- The prefix is all of the bytes exactly when every byte has a code. -/
theorem codedPrefix_eq {e : Encoder} {x : List Byte} : codedPrefix e x = x ↔ ∀ b ∈ x, (symAt e b).len ≠ 0 := by
  unfold codedPrefix
  rw [List.takeWhile_eq_self_iff]
  simp

theorem codedPrefix_append {e : Encoder} {x y : List Byte} (h : codedPrefix e x = x) :
    codedPrefix e (x ++ y) = x ++ codedPrefix e y := by
  have h' := codedPrefix_eq.mp h
  unfold codedPrefix
  rw [List.takeWhile_append_of_pos]
  intro b hb
  simpa using h' b hb

theorem codedPrefix_append_stop {e : Encoder} {x y : List Byte} (h : codedPrefix e x ≠ x) :
    codedPrefix e (x ++ y) = codedPrefix e x := by
  induction x with
  | nil => exact absurd rfl h
  | cons b x ih =>
    by_cases h0 : (symAt e b).len = 0
    · rw [List.cons_append, codedPrefix_cons_neg h0, codedPrefix_cons_neg h0]
    · rw [codedPrefix_cons_pos h0] at h
      rw [List.cons_append, codedPrefix_cons_pos h0, codedPrefix_cons_pos h0, ih fun e => h (by rw [e])]

theorem codedPrefix_prefix (e : Encoder) (x : List Byte) : codedPrefix e x <+: x := List.takeWhile_prefix _

/-- The codewords of a list of bytes, up to the first without a code (R184). -/
theorem emitCodes_emits (x : List Byte) {s : State} (hf : WriterForm s) (ho : s.bw.isOpen = true)
    (hl : ∀ b : Byte, (symAt s.enc b).len.toNat ≤ Config.codeMax) :
    Emits s ((codedPrefix s.enc x).flatMap (codeBitsOf s.enc)) (codeStop s.enc x) (emitCodes x s) := by
  induction x generalizing s with
  | nil => exact Emits.refl hf ho none
  | cons b x ih =>
    unfold emitCodes emitCode codeStop
    by_cases h0 : (symAt s.enc b).len = 0
    · rw [if_pos h0, codedPrefix_cons_neg h0, if_neg (by simp)]
      exact Emits.refl hf ho _
    · rw [if_neg h0, codedPrefix_cons_pos h0, List.flatMap_cons]
      refine (bwWbits_emits (symAt s.enc b).code (hl b) hf ho).bind fun t ht => ?_
      have := ih ht.form ht.opened (by rw [ht.step.enc]; exact hl)
      rw [ht.step.enc] at this
      simp only [List.cons.injEq, true_and]
      exact this

/-- The bursts of the payload loop, in order, are the source from the offset on: its codes are appended, up to the first
byte without a code (R184). -/
theorem payloadLoop_emits (x : List Byte) (fuel off : Nat) {s : State} (hp : 2 ≤ s.params.bufBytes)
    (hx : s.env.src = some x) (hf : WriterForm s) (ho : s.bw.isOpen = true)
    (hl : ∀ b : Byte, (symAt s.enc b).len.toNat ≤ Config.codeMax) (hoff : off ≤ x.length)
    (hfuel : x.length ≤ off + fuel) :
    Emits s ((codedPrefix s.enc (x.drop off)).flatMap (codeBitsOf s.enc)) (codeStop s.enc (x.drop off))
      (payloadLoop fuel off x.length s) := by
  induction fuel generalizing off s with
  | zero =>
    rw [List.drop_eq_nil_of_le (by omega)]
    exact Emits.refl hf ho none
  | succ fuel ih =>
    by_cases hlt : off < x.length
    · have hm1 : 1 ≤ min s.params.bufBytes (x.length - off) := by omega
      have hm2 : off + min s.params.bufBytes (x.length - off) ≤ x.length := by omega
      have hun : payloadLoop (fuel + 1) off x.length s =
          (emitCodes ((x.drop off).take (min s.params.bufBytes (x.length - off)))
            (s.setScan ((x.drop off).take (min s.params.bufBytes (x.length - off))))).bind fun _ s2 =>
              payloadLoop fuel (off + min s.params.bufBytes (x.length - off)) x.length s2 := by
        rw [payloadLoop, if_pos hlt]; dsimp only; rw [srcRead_inside hx hm2]; rfl
      rw [hun]
      generalize min s.params.bufBytes (x.length - off) = m at *
      have hsplit : x.drop off = (x.drop off).take m ++ x.drop (off + m) := by
        rw [← List.drop_drop, List.take_append_drop]
      generalize (x.drop off).take m = v at *
      rw [hsplit]
      have he := emitCodes_emits v (s := s.setScan v) hf ho hl
      refine Emits.ofScan (v := v) ?_
      simp only [State.setScan_enc] at he
      unfold codeStop at he ⊢
      by_cases hc : codedPrefix s.enc v = v
      · rw [if_pos hc, hc] at he
        rw [codedPrefix_append hc, List.flatMap_append]
        refine he.bind fun t ht => ?_
        have ht' := ht.step
        have := ih (off + m) (s := t) (by rw [ht'.params]; exact hp) (by rw [ht'.src]; exact hx) ht.form ht.opened
          (by rw [ht'.enc]; exact hl) hm2 (by omega)
        rw [ht'.enc] at this
        unfold codeStop at this
        simp only [State.setScan_enc] at this
        simp only [List.append_cancel_left_eq]
        exact this
      · rw [if_neg hc] at he
        have hne : codedPrefix s.enc (v ++ x.drop (off + m)) ≠ v ++ x.drop (off + m) := by
          rw [codedPrefix_append_stop hc]
          intro e
          have h1 := (codedPrefix_prefix s.enc v).length_le
          have h2 := congrArg List.length e
          rw [List.length_append] at h2
          exact hc ((codedPrefix_prefix s.enc v).eq_of_length (by omega))
        rw [if_neg hne, codedPrefix_append_stop hc]
        exact he.stopped
    · rw [List.drop_eq_nil_of_le (by omega), payloadLoop, if_neg hlt]
      exact Emits.refl hf ho none

end Sys2Proof.Machine
end

