-- ==== Sys2Proof/Laws/Tables.lean ====
section
/-! SUPPORT. What the encoder does with its tables: the scan counts the source, the node store holds the Huffman tree, the
traversal writes its header and its codewords. -/

namespace Sys2Proof.Machine

/-! The symbol table. -/

theorem symAt_setSym (e : Encoder) (b c : Byte) (r : SymRec) :
    symAt (setSym b r e) c = if b = c then r else symAt e c := by
  unfold symAt setSym
  dsimp only
  rw [Vector.getElem_set]
  by_cases h : b = c
  · subst h; simp
  · rw [if_neg h, if_neg (fun hh => h (BitVec.eq_of_toNat_eq hh))]

theorem symAt_clearTable (e : Encoder) (b : Byte) : symAt (clearTable e) b = {} := by
  unfold symAt clearTable; simp

/-- The records in the order of the symbols. -/
theorem sym_toList (e : Encoder) : e.sym.toList = allSymbols.map (symAt e) := by
  apply List.ext_getElem
  · simp [allSymbols]
  · intro i h1 h2
    have hi : i < 256 := by simpa using h1
    simp [allSymbols, symAt, Nat.mod_eq_of_lt hi]

theorem allSymbols_nodup : allSymbols.Nodup := allBytes_nodup

theorem mem_allSymbols (b : Byte) : b ∈ allSymbols := mem_allBytes b

theorem sum_map_ite {l : List Byte} (hl : l.Nodup) (c : Byte) (hc : c ∈ l) (f : Byte → Nat) :
    (l.map fun b => (if c = b then 1 else 0) * f b).sum = f c := by
  induction l with
  | nil => cases hc
  | cons a l ih =>
    rw [List.map_cons, List.sum_cons]
    rw [List.nodup_cons] at hl
    by_cases h : c = a
    · subst h
      have : (l.map fun b => (if c = b then 1 else 0) * f b).sum = 0 := by
        rw [List.sum_eq_zero]
        intro n hn
        have h' : ∀ {b}, c = b → b ∈ l → c ∈ l := fun e hb => by rw [e]; exact hb
        obtain ⟨b, hb, rfl⟩ := List.mem_map.mp hn
        rw [if_neg (fun e => hl.1 (h' e hb)), Nat.zero_mul]
      rw [this]; simp
    · rw [if_neg h, ih hl.2 ((List.mem_cons.mp hc).resolve_left h)]; simp

/-- A sum over the symbols, each weighted with how often it occurs, is a sum over the source. -/
theorem sum_counts (x : List Byte) (f : Byte → Nat) :
    (allSymbols.map fun b => x.count b * f b).sum = (x.map f).sum := by
  induction x with
  | nil => simp
  | cons c x ih =>
    have : (allSymbols.map fun b => (c :: x).count b * f b) =
        allSymbols.map fun b => x.count b * f b + (if c = b then 1 else 0) * f b := by
      apply List.map_congr_left
      intro b _
      rw [List.count_cons]
      by_cases h : c = b <;> simp [h, Nat.add_mul]
    rw [this, List.sum_map_add, ih, sum_map_ite allSymbols_nodup c (mem_allSymbols c), List.map_cons, List.sum_cons,
      Nat.add_comm]

/-- The payload length modulo 8 that `COMPRESS` computes is that of the sum over the table (42_encoder.md R181). -/
theorem payloadBits8_eq (e : Encoder) :
    payloadBits8 e = (allSymbols.map fun b => (symAt e b).count.toNat * (symAt e b).len.toNat).sum % 8 := by
  have key : ∀ (l : List SymRec) (a : Nat),
      (l.foldl (fun acc r => acc + (r.count.toNat % 8) * (r.len.toNat % 8)) a) % 8 =
        (a + (l.map fun r => r.count.toNat * r.len.toNat).sum) % 8 := by
    intro l
    induction l with
    | nil => intro a; simp
    | cons r l ih =>
      intro a
      rw [List.foldl_cons, ih, List.map_cons, List.sum_cons]
      have := Nat.mul_mod r.count.toNat r.len.toNat 8
      omega
  unfold payloadBits8
  rw [key, Nat.zero_add, sym_toList, List.map_map]
  rfl

/-! The scan (R172). -/

theorem symAt_countByte (e : Encoder) (b c : Byte) :
    symAt (countByte e b) c = if b = c then { symAt e b with count := (symAt e b).count + 1 } else symAt e c :=
  symAt_setSym e b c _

/-- Counting touches counts and `TOTAL` only (R172). -/
theorem countByte_eq (e : Encoder) (b : Byte) : countByte e b = { e with sym := (countByte e b).sym, total := e.total + 1 } := rfl

theorem foldl_countByte (x : List Byte) (e : Encoder) :
    (∀ c, symAt (x.foldl countByte e) c = { symAt e c with count := (symAt e c).count + BitVec.ofNat 32 (x.count c) }) ∧
    x.foldl countByte e = { e with sym := (x.foldl countByte e).sym, total := e.total + BitVec.ofNat 32 x.length } := by
  induction x generalizing e with
  | nil => exact ⟨fun c => by simp, by simp⟩
  | cons b x ih =>
    obtain ⟨h1, h2⟩ := ih (countByte e b)
    rw [List.foldl_cons]
    constructor
    · intro c
      rw [h1, symAt_countByte, List.count_cons]
      by_cases h : b = c
      · subst h
        simp only [if_true, beq_self_eq_true, Nat.add_comm (x.count b) 1, BitVec.ofNat_add, BitVec.add_assoc]
        rfl
      · simp [h]
    · conv_lhs => rw [h2]
      rw [List.length_cons, Nat.add_comm x.length 1, BitVec.ofNat_add, ← BitVec.add_assoc]
      rfl

/-- The scan of a source inside its length counts it whole, and writes nothing but the table and the scan buffer (R172). -/
theorem scanLoop_eq (x : List Byte) (fuel off : Nat) {s : State} (hp : 2 ≤ s.params.bufBytes)
    (hx : s.env.src = some x) (hoff : off ≤ x.length) (hfuel : x.length ≤ off + fuel) :
    ∃ v, scanLoop fuel off x.length s = (s.setEnc ((x.drop off).foldl countByte s.enc)).setScan v := by
  induction fuel generalizing off s with
  | zero => rw [List.drop_eq_nil_of_le (by omega)]; exact ⟨s.scan, rfl⟩
  | succ fuel ih =>
    by_cases hlt : off < x.length
    · have hm2 : off + min s.params.bufBytes (x.length - off) ≤ x.length := by omega
      have hm1 : 1 ≤ min s.params.bufBytes (x.length - off) := by omega
      rw [scanLoop, if_pos hlt]
      dsimp only
      rw [srcRead_inside hx hm2]
      generalize min s.params.bufBytes (x.length - off) = m at *
      obtain ⟨v, hv⟩ := ih (off + m) (s := (s.setScan ((x.drop off).take m)).setEnc (((x.drop off).take m).foldl countByte s.enc))
        hp hx hm2 (by omega)
      refine ⟨v, ?_⟩
      dsimp only at hv ⊢
      simp only [State.setScan_scan, State.setScan_enc]
      rw [hv]
      have : x.drop off = (x.drop off).take m ++ x.drop (off + m) := by
        rw [← List.drop_drop, List.take_append_drop]
      conv_rhs => rw [this, List.foldl_append]
      rfl
    · rw [scanLoop, if_neg hlt, List.drop_eq_nil_of_le (by omega)]; exact ⟨s.scan, rfl⟩

/-- The symbol table after the scan of a source (R172). -/
structure Counted (e : Encoder) (x : List Byte) : Prop where
  counts : ∀ b, (symAt e b).count.toNat = x.count b
  code : ∀ b, (symAt e b).code = 0
  len : ∀ b, (symAt e b).len = 0
  total : e.total.toNat = x.length
  hdrBits : e.hdrBits = 0

theorem clearTable_counted (e : Encoder) (x : List Byte) (h : x.length ≤ Config.lenMax) :
    Counted (x.foldl countByte (clearTable e)) x := by
  obtain ⟨h1, h2⟩ := foldl_countByte x (clearTable e)
  refine ⟨fun b => ?_, fun b => ?_, fun b => ?_, ?_, ?_⟩
  · rw [h1, symAt_clearTable]
    have := List.count_le_length (a := b) (l := x)
    have e : (({} : SymRec).count + BitVec.ofNat 32 (x.count b)) = BitVec.ofNat 32 (x.count b) := by simp
    dsimp only at e ⊢
    rw [e, BitVec.toNat_ofNat, Nat.mod_eq_of_lt]
    unfold Config.lenMax at h; omega
  · rw [h1, symAt_clearTable]
  · rw [h1, symAt_clearTable]
  · rw [h2]
    show ((0 : Word) + BitVec.ofNat 32 x.length).toNat = _
    rw [show (0 : Word) + BitVec.ofNat 32 x.length = BitVec.ofNat 32 x.length from BitVec.zero_add _, ofNat_length h]
  · rw [h2]; rfl

theorem presentCount_eq {e : Encoder} {x : List Byte} (h : Counted e x) : presentCount e = distinctSymbols x := by
  unfold presentCount
  rw [sym_toList, List.countP_map, ← present_length, List.countP_eq_length_filter]
  unfold present allSymbols
  congr 2
  funext b
  have hb := h.counts b
  have : ((symAt e b).count ≠ 0) ↔ b ∈ x := by
    rw [← List.count_pos_iff, ← hb]
    constructor
    · intro hn
      rcases Nat.eq_zero_or_pos (symAt e b).count.toNat with e0 | e0
      · exact absurd (BitVec.eq_of_toNat_eq e0) hn
      · exact e0
    · intro hp e0; rw [e0] at hp; cases hp
  simp only [Function.comp, this]

/-- `FREQ.SCAN` on a present source: counts, `TOTAL` and `NSYM` are those of the source, which is released (R172). -/
theorem freqScan_done {s : State} {x : List Byte} (hp : 2 ≤ s.params.bufBytes) (hx : s.env.src = some x)
    (hl : x.length ≤ Config.lenMax) :
    ∃ t, freqScan s = .done () t ∧ Counted t.enc x ∧ t.enc.nsym.toNat = distinctSymbols x ∧
      t.enc = { s.enc with
                sym := t.enc.sym, total := t.enc.total, nsym := t.enc.nsym, hdrBits := 0 } ∧
      t.regs = { s.regs with srcLen := BitVec.ofNat 32 x.length } ∧
      t = { s with
            enc := t.enc
            regs := t.regs
            scan := t.scan
            env := { s.env with srcHeld := false } } := by
  unfold freqScan
  rw [srcOpen_present (s := s.setEnc (clearTable s.enc)) hx]
  dsimp only
  have hlen : (BitVec.ofNat 32 x.length).toNat = x.length := ofNat_length hl
  simp only [State.setEnv_regs, State.setRegs_regs, hlen]
  obtain ⟨v, hv⟩ := scanLoop_eq x x.length 0
    (s := ((s.setEnc (clearTable s.enc)).setRegs
      { (s.setEnc (clearTable s.enc)).regs with srcLen := BitVec.ofNat 32 x.length }).setEnv
      { (s.setEnc (clearTable s.enc)).env with srcHeld := true }) hp hx (Nat.zero_le _) (by omega)
  rw [hv, List.drop_zero]
  have hc := clearTable_counted s.enc x hl
  have hpc := presentCount_eq hc
  have h2 := (foldl_countByte x (clearTable s.enc)).2
  refine ⟨_, rfl, ⟨hc.counts, hc.code, hc.len, hc.total, hc.hdrBits⟩, ?_, ?_, rfl, rfl⟩
  · show (BitVec.ofNat 9 (presentCount (x.foldl countByte (clearTable s.enc)))).toNat = _
    rw [hpc, BitVec.toNat_ofNat, Nat.mod_eq_of_lt]
    have := distinctSymbols_le x; omega
  · exact congrArg (fun e : Encoder => { e with
      sym := (x.foldl countByte (clearTable s.enc)).sym
      total := (x.foldl countByte (clearTable s.enc)).total
      nsym := BitVec.ofNat 9 (presentCount (x.foldl countByte (clearTable s.enc))) }) h2

end Sys2Proof.Machine
end

