-- ==== Sys2Proof/Laws/Compress.lean ====
section
/-! SUPPORT. What the body of `COMPRESS` leaves: the container of the source the table was built from, or the stop at a byte
without a code (42_encoder.md R180 to R185). -/

namespace Sys2Proof.Machine

/-- How many bits the current byte has free, by the number of bits written (10_state.md R32). -/
theorem free_of_written {s : State} (hf : WriterForm s) : s.bw.free.toNat % 8 = padTo8 (written s).length := by
  obtain ⟨h1, h8, -⟩ := hf
  unfold written heldBits padTo8
  simp only [List.length_append, unpack_length, List.length_take, msb_length]
  omega

/-- A codeword of the table is the path of the tree (10_state.md R27; 42_encoder.md R177). -/
theorem codeBitsOf_eq {s : State} {x : List Byte} {t : CodeTree} (h : EncodedFor s x t) {b : Byte} (hb : b ∈ x) :
    codeBitsOf s.enc b = (t.codeword b).getD [] := by
  obtain ⟨q, hq, -, h32, hl, hc⟩ := h.codes b hb
  unfold codeBitsOf
  rw [hl, hq, Option.getD_some]
  have : (symAt s.enc b).code = BitVec.ofNat 32 (num q) := by
    rw [← hc, BitVec.ofNat_toNat, BitVec.setWidth_eq]
  rw [this]
  exact msb_ofNat_num 32 q h32

theorem codeBitsOf_flatMap {s : State} {x : List Byte} {t : CodeTree} (h : EncodedFor s x t) :
    x.flatMap (codeBitsOf s.enc) = payloadBits t x := by
  unfold payloadBits
  exact List.flatMap_congr fun b hb => codeBitsOf_eq h hb

theorem encodedFor_coded {s : State} {x : List Byte} {t : CodeTree} (h : EncodedFor s x t) :
    (∀ b ∈ x, (symAt s.enc b).len ≠ 0) ∧ ∀ b : Byte, (symAt s.enc b).len.toNat ≤ Config.codeMax := by
  constructor
  · intro b hb h0
    obtain ⟨q, -, h1, -, hl, -⟩ := h.codes b hb
    rw [h0] at hl
    have : q.length = 0 := hl.symm
    omega
  · intro b
    by_cases hb : b ∈ x
    · obtain ⟨q, -, -, h32, hl, -⟩ := h.codes b hb
      rw [hl]; exact h32
    · rw [h.absent b hb]; exact Nat.zero_le _

/-- The padding length that `COMPRESS` computes from the table is that of the container (R101, R181). -/
theorem padLength_eq {s : State} {x : List Byte} {t : CodeTree} (h : EncodedFor s x t) :
    padLength s.enc = padTo8 (t.header.length + 3 + (payloadBits t x).length) := by
  have hsum : (allSymbols.map fun b => (symAt s.enc b).count.toNat * (symAt s.enc b).len.toNat).sum =
      (payloadBits t x).length := by
    have : (fun b => (symAt s.enc b).count.toNat * (symAt s.enc b).len.toNat) =
        fun b => x.count b * (symAt s.enc b).len.toNat := by
      funext b; rw [h.counts]
    rw [this, sum_counts, ← codeBitsOf_flatMap h, List.length_flatMap]
    congr 1
    apply List.map_congr_left
    intro b _
    simp [codeBitsOf]
  unfold padLength padTo8
  rw [payloadBits8_eq, hsum, h.hdrBits]
  omega

/-- The state in which `COMPRESS` starts to emit (R180). -/
def compressOpened (s : State) (x : List Byte) : State :=
  { s with
    regs := { s.regs with srcLen := BitVec.ofNat 32 x.length, dstLen := 0 }
    bw := { isOpen := true, buf := [], cur := 0, free := 8 }
    env := { s.env with srcHeld := true, dst := [], dstHeld := true } }

theorem compressBody_opened {s : State} {x : List Byte} (hi : s.bw.isOpen = false) (hx : s.env.src = some x)
    (hl : x.length ≤ Config.lenMax) (hc : s.env.dstCreatable = true) :
    compressBody s = compressEmit x.length (compressOpened s x) := by
  unfold compressBody
  rw [srcOpen_present hx]
  dsimp only
  have : bwOpen ((s.setRegs { s.regs with srcLen := BitVec.ofNat 32 x.length }).setEnv
      { s.env with srcHeld := true }) = .done () (compressOpened s x) := by
    unfold bwOpen
    rw [if_neg (by show ¬ s.bw.isOpen = true; rw [hi]; decide), dstOpen_creatable (by exact hc)]
    rfl
  rw [this, Result.bind_done]
  congr 1
  exact ofNat_length hl

theorem compressOpened_form {s : State} (x : List Byte) (hp : 2 ≤ s.params.bufBytes) :
    WriterForm (compressOpened s x) ∧ written (compressOpened s x) = [] := by
  refine ⟨⟨Nat.le_add_left 1 7, Nat.le_refl 8, ?_, ?_, fun h => by cases h⟩, rfl⟩
  · show 0 < s.params.bufBytes; omega
  · intro k _; exact BitVec.getLsbD_zero

/-- The state in which `COMPRESS` emits: `ENC_PAD` is written (R180, R181). -/
def compressStart (s : State) (x : List Byte) : State :=
  (compressOpened s x).setEnc { s.enc with encPad := BitVec.ofNat 3 (padLength s.enc) }

/-- Header, padding-length field and payload of `COMPRESS` (R182 to R184). -/
def emitContainer (len : Nat) (s : State) : Result Unit :=
  (emitHeader s.enc.hdrBits.toNat 0 s).bind fun _ s2 =>
  (bwWbits (s2.enc.encPad.setWidth 32) 3 s2).bind fun _ s3 => payloadLoop len 0 len s3

/-- `COMPRESS` after its opens: the emission, then the final check and the close (R180). -/
theorem compressBody_eq {s : State} {x : List Byte} (hi : s.bw.isOpen = false) (hx : s.env.src = some x)
    (hl : x.length ≤ Config.lenMax) (hc : s.env.dstCreatable = true) :
    compressBody s = (emitContainer x.length (compressStart s x)).bind fun _ t => compressFinish t := by
  rw [compressBody_opened hi hx hl hc]
  unfold emitContainer
  rw [Result.bind_assoc]
  simp only [Result.bind_assoc]
  rfl

theorem compressStart_streams (s : State) (x : List Byte) : Streaming s.env.verdicts (compressStart s x) :=
  ⟨0, by simp [compressStart, compressOpened], by simp [compressStart, compressOpened], fun j h => (by omega),
    by simp [compressStart, compressOpened]⟩

/-- The bits of the emission, up to the first byte without a code (R182 to R184). -/
theorem emitContainer_emits {s : State} {x : List Byte} (hp : 2 ≤ s.params.bufBytes) (hx : s.env.src = some x)
    (hl : ∀ b : Byte, (symAt s.enc b).len.toNat ≤ Config.codeMax) :
    ∃ h, Emits (compressStart s x)
        (h ++ msb (BitVec.ofNat 3 (padLength s.enc)) 3 ++ (codedPrefix s.enc x).flatMap (codeBitsOf s.enc))
        (codeStop s.enc x) (emitContainer x.length (compressStart s x)) ∧
      (s.enc.hdrBits.toNat = s.enc.hdr.length → h = s.enc.hdr) := by
  obtain ⟨hf, -⟩ := compressOpened_form (s := s) x hp
  obtain ⟨h, e1, hh⟩ := emitHeader_emits s.enc.hdrBits.toNat 0 (s := compressStart s x) hf rfl
  refine ⟨h, ?_, fun e => hh e (by show s.enc.hdr.length ≤ _; omega)⟩
  rw [List.append_assoc]
  refine e1.bind fun t1 h1 => Emits.bind (stop := codeStop s.enc x) ?_ fun t2 h2 => ?_
  · have hm : msb ((BitVec.ofNat 3 (padLength s.enc)).setWidth 32) 3 = msb (BitVec.ofNat 3 (padLength s.enc)) 3 := by
      apply msb_congr
      intro k hk
      rw [BitVec.getLsbD_setWidth]
      have : k < 32 := by omega
      simp [this]
    have he : t1.enc.encPad = BitVec.ofNat 3 (padLength s.enc) := by rw [h1.step.enc]; rfl
    rw [he, ← hm]
    exact bwWbits_emits _ (by decide) h1.form h1.opened
  · have h12 := (h1.trans h2).step
    have := payloadLoop_emits x x.length 0 (s := t2) (by rw [h12.params]; exact hp) (by rw [h12.src]; exact hx)
      h2.form h2.opened (by rw [h12.enc]; exact hl) (Nat.zero_le _) (by omega)
    rw [h12.enc, List.drop_zero] at this
    exact this

/-- The body of `COMPRESS` past its opens, in the ways it ends (R180, R184, R185; R262): a burst of the emission is refused;
a byte has no code; the final check fails; or all is emitted and only the close is left. -/
theorem compressBody_outcome {s : State} {x : List Byte} (hp : 2 ≤ s.params.bufBytes) (hi : s.bw.isOpen = false)
    (hl : ∀ b : Byte, (symAt s.enc b).len.toNat ≤ Config.codeMax) (hx : s.env.src = some x)
    (hlen : x.length ≤ Config.lenMax) (hc : s.env.dstCreatable = true) :
    ∃ h, (s.enc.hdrBits.toNat = s.enc.hdr.length → h = s.enc.hdr) ∧
      let e := h ++ msb (BitVec.ofNat 3 (padLength s.enc)) 3 ++ (codedPrefix s.enc x).flatMap (codeBitsOf s.enc)
      (∃ t, compressBody s = .raised ⟨.dstErr, .dstWriteFail⟩ t ∧ ¬ AcceptsBursts s ∧
        SinkFrame (compressStart s x) (t.setScan s.scan) ∧ t.bw.isOpen = true ∧
        ∃ y, unpack y <+: e ∧ RefusedIn s.env.verdicts y t) ∨
      (codedPrefix s.enc x ≠ x ∧ ∃ t, compressBody s = .raised ⟨.usageFault, .srcChanged⟩ t ∧
        Emitted (compressStart s x) t e) ∨
      (codedPrefix s.enc x = x ∧ padTo8 e.length ≠ padLength s.enc ∧
        ∃ t, compressBody s = .raised ⟨.usageFault, .padMismatch⟩ (srcClose t) ∧ Emitted (compressStart s x) t e) ∨
      (codedPrefix s.enc x = x ∧ padTo8 e.length = padLength s.enc ∧
        ∃ t, compressBody s = bwClose (srcClose t) ∧ Emitted (compressStart s x) t e ∧ Streaming s.env.verdicts t) := by
  obtain ⟨h, he, hh⟩ := emitContainer_emits (s := s) hp hx hl
  refine ⟨h, hh, ?_⟩
  have hst := compressStart_streams s x
  have hw : written (compressStart s x) = [] := (compressOpened_form (s := s) x hp).2
  rw [compressBody_eq hi hx hlen hc]
  generalize h ++ msb (BitVec.ofNat 3 (padLength s.enc)) 3 ++ (codedPrefix s.enc x).flatMap (codeBitsOf s.enc) = e at *
  dsimp only
  rcases he with ⟨t, ht, hem, hs⟩ | ⟨t, ht, hn, hfr, hot, hr⟩
  · have henc : t.enc.encPad = BitVec.ofNat 3 (padLength s.enc) := by rw [hem.step.enc]; rfl
    have hp8 : padLength s.enc < 8 := Nat.mod_lt _ (by decide)
    have hfree := free_of_written hem.form
    rw [hem.bits, hw, List.nil_append] at hfree
    right
    unfold codeStop at ht
    by_cases hcp : codedPrefix s.enc x = x
    · rw [if_pos hcp] at ht
      right
      rw [ht, Result.ending, Result.bind_done]
      unfold compressFinish
      rw [henc, BitVec.toNat_ofNat, Nat.mod_eq_of_lt hp8, hfree]
      by_cases hpad : padTo8 e.length = padLength s.enc
      · rw [if_pos hpad]
        exact .inr ⟨hcp, hpad, t, rfl, hem, hs _ hst⟩
      · rw [if_neg hpad]
        exact .inl ⟨hcp, hpad, t, rfl, hem⟩
    · rw [if_neg hcp] at ht
      rw [ht, Result.ending, Result.bind_raised]
      exact .inl ⟨hcp, t, rfl, hem⟩
  · obtain ⟨y, hy, hr⟩ := hr _ hst
    rw [hw, List.nil_append] at hy
    rw [ht, Result.bind_raised]
    exact .inl ⟨t, rfl, hn, hfr, hot, y, hy, hr⟩

/-- What the table emits for the source it was built from, with its padding, is the container (R102). -/
theorem emissionOf_encoded {s : State} {x : List Byte} {t : CodeTree} (h : EncodedFor s x t) :
    emissionOf s.enc x ++ zeros (padLength s.enc) = containerBits t x := by
  unfold emissionOf containerBits
  rw [codeBitsOf_flatMap h, h.header, padLength_eq h]

theorem padTo8_emissionOf {s : State} {x : List Byte} {t : CodeTree} (h : EncodedFor s x t) :
    padTo8 (emissionOf s.enc x).length = padLength s.enc := by
  unfold emissionOf
  rw [codeBitsOf_flatMap h, h.header, padLength_eq h]
  simp only [List.length_append, msb_length]

theorem codedPrefix_encoded {s : State} {x : List Byte} {t : CodeTree} (h : EncodedFor s x t) :
    codedPrefix s.enc x = x := codedPrefix_eq.mpr (encodedFor_coded h).1

/-- What `COMPRESS` past its opens leaves alone until it reports (R180, R263). -/
structure CompressLeaves (s u : State) : Prop where
  params : u.params = s.params
  status : u.status = s.status
  enc : u.enc = { s.enc with encPad := BitVec.ofNat 3 (padLength s.enc) }

theorem EmitStep.leaves {s t : State} {x : List Byte} (h : EmitStep (compressStart s x) t) : CompressLeaves s t :=
  ⟨h.params, (SinkStep.frame h).status, h.enc⟩

theorem CompressLeaves.sink {s t u : State} (h : CompressLeaves s t) (g : SinkFrame t u) : CompressLeaves s u :=
  ⟨g.params.trans h.params, g.status.trans h.status, g.enc.trans h.enc⟩

/-- `DST_LEN` counts all bytes that reached DST since `COMPRESS` opened it (R66). -/
theorem EmitStep.counted {s t u : State} {x : List Byte} (h : EmitStep (compressStart s x) t)
    (hc : u.regs.dstLen = t.regs.dstLen + BitVec.ofNat 32 (u.env.dst.length - t.env.dst.length))
    (hg : t.env.dst <+: u.env.dst) : u.regs.dstLen = BitVec.ofNat 32 u.env.dst.length := by
  have ht : t.regs.dstLen = (0#32) + BitVec.ofNat 32 (t.env.dst.length - 0) := SinkStep.counted h
  rw [hc, ht, BitVec.zero_add, ← BitVec.ofNat_add]
  have := hg.length_le
  congr 1
  omega

/-- The close of `COMPRESS` once all is emitted (R185): what was emitted is in DST, padded with zeros to whole bytes, and no
verdict asked for was a refusal, or the last burst is the refused one. -/
theorem compressClose_outcome {s t : State} {x y : List Byte} {e : Bits} (he : Emitted (compressStart s x) t e)
    (hs : Streaming s.env.verdicts t) (hw : written (compressStart s x) = [])
    (hy : unpack y = e ++ zeros (padTo8 e.length)) :
    (∃ u, bwClose (srcClose t) = .done () (bwRelease u) ∧ SinkStep (srcClose t) u ∧ u.env.dst = y ∧ AcceptsBytes s y) ∨
    (∃ u, bwClose (srcClose t) = .raised ⟨.dstErr, .dstWriteFail⟩ (bwRelease u) ∧ SinkFrame (srcClose t) u ∧
      RefusedIn s.env.verdicts y u) := by
  have hall : t.env.dst ++ flushBytes t.bw = y := by
    apply unpack_injective
    rw [hy, unpack_append, unpack_flushBytes he.form, ← List.append_assoc, ← List.nil_append e, ← hw, ← he.bits]
    unfold written padTo8
    congr 2
    rw [List.length_append, unpack_length]
    omega
  have hpar : t.params = s.params := he.step.params
  rcases bwClose_streams (vs := s.env.verdicts) (s := srcClose t) he.form.2.2.1 he.opened (hs.congr rfl rfl rfl rfl) with
    ⟨u, h1, h2, h3, h4⟩ | ⟨u, h1, h2, h3⟩
  · refine .inl ⟨u, h1, h2, h3.trans hall, fun i hi => ?_⟩
    have := h4 i hi.1 hi.2
    rw [show (srcClose t).env.dst ++ flushBytes (srcClose t).bw = y from hall] at this
    rw [← hpar]; exact this
  · refine .inr ⟨u, h1, h2, ?_⟩
    rwa [show (srcClose t).env.dst ++ flushBytes (srcClose t).bw = y from hall] at h3

/-- The body of `COMPRESS` on the source the table was built from (R102, R180 to R186 (a)): the container is in DST and none
of its bursts was refused, or one of them is the refused one. -/
theorem compressBody_encoded {s : State} {x : List Byte} {t : CodeTree} (hp : 2 ≤ s.params.bufBytes)
    (hi : s.bw.isOpen = false) (he : EncodedFor s x t) (hx : s.env.src = some x) (hl : x.length ≤ Config.lenMax)
    (hc : s.env.dstCreatable = true) :
    (∃ v u, compressBody s = .done () (bwRelease u) ∧ EmitStep (compressStart s x) v ∧ SinkStep (srcClose v) u ∧
      u.env.dst = containerOf t x ∧ AcceptsBytes s (containerOf t x)) ∨
    (∃ u, compressBody s = .raised ⟨.dstErr, .dstWriteFail⟩ u ∧ (u.bw.isOpen = true ∨ ∃ v, u = bwRelease v) ∧
      CompressLeaves s u ∧ RefusedIn s.env.verdicts (containerOf t x) u) := by
  obtain ⟨h, hh, ho⟩ := compressBody_outcome (s := s) hp hi (encodedFor_coded he).2 hx hl hc
  rw [hh (by rw [he.hdrBits, he.header]), codedPrefix_encoded he] at ho
  have hem : s.enc.hdr ++ msb (BitVec.ofNat 3 (padLength s.enc)) 3 ++ x.flatMap (codeBitsOf s.enc) =
      emissionOf s.enc x := rfl
  have hpad := padTo8_emissionOf he
  have hy : unpack (containerOf t x) = emissionOf s.enc x ++ zeros (padTo8 (emissionOf s.enc x).length) := by
    rw [unpack_containerOf, ← emissionOf_encoded he, hpad]
  rw [hem] at ho
  rcases ho with ⟨u, h1, -, h3, h4, y, h5, h6⟩ | ⟨hn, -⟩ | ⟨-, hn, -⟩ | ⟨-, -, v, h1, h2, h3⟩
  · refine .inr ⟨u, h1, .inl h4, ⟨h3.params, h3.status, h3.enc⟩, h6.mono (prefix_of_unpack ?_)⟩
    rw [hy]
    exact h5.trans (List.prefix_append _ _)
  · exact absurd rfl hn
  · exact absurd hpad hn
  · rcases compressClose_outcome h2 h3 (compressOpened_form (s := s) x hp).2 hy with ⟨u, k1, k2, k3, k4⟩ | ⟨u, k1, k2, k3⟩
    · exact .inl ⟨v, u, h1.trans k1, h2.step, k2, k3, k4⟩
    · refine .inr ⟨bwRelease u, h1.trans k1, .inr ⟨u, rfl⟩, ?_, k3.congr rfl rfl rfl rfl⟩
      have hv : CompressLeaves s (srcClose v) := ⟨h2.step.leaves.params, h2.step.leaves.status, h2.step.leaves.enc⟩
      have := hv.sink k2
      exact ⟨this.params, this.status, this.enc⟩

end Sys2Proof.Machine
end

