-- ==== Sys2Proof/Laws/Reader.lean ====
section
/-! SUPPORT. What the operations of the reader do: the refill keeps the form and the unread bits and leaves enough of them
in the buffer; a read returns the next ones. -/

namespace Sys2Proof.Machine

/-- The reader's form without the condition that it is open (10_state.md R33). -/
abbrev ReaderCounts (s : State) : Prop :=
  s.br.off.toNat ≤ s.regs.srcLen.toNat ∧ s.br.pos ≤ s.br.buf.length ∧
  s.br.buf.length ≤ s.params.bufBytes ∧ (s.br.bit ≠ 0 → s.br.pos < s.br.buf.length) ∧
  s.br.remaining.toNat + s.br.bit.toNat =
    8 * (s.regs.srcLen.toNat - s.br.off.toNat) + 8 * (s.br.buf.length - s.br.pos)

/-- After the refill either nine bits are buffered or the whole source is fetched (41_bitreader.md R152). -/
abbrev Refilled (s : State) : Prop :=
  s.br.pos + 2 ≤ s.br.buf.length ∨ s.br.off = s.regs.srcLen

/-- The refill in its two cases, with the number of bytes it fetches (R152). -/
theorem brRefill_cases {s : State} (hp : s.params.wf) (hf : ReaderCounts s) :
    (brRefill s = s ∧ Refilled s) ∨
    (∃ m, 1 ≤ m ∧ s.br.off.toNat + m ≤ s.regs.srcLen.toNat ∧
      (s.br.buf.drop s.br.pos).length + m ≤ s.params.bufBytes ∧
      (2 ≤ (s.br.buf.drop s.br.pos).length + m ∨ s.br.off.toNat + m = s.regs.srcLen.toNat) ∧
      brRefill s = (srcRead s.br.off.toNat m s).2.setBr
        { s.br with
          buf := s.br.buf.drop s.br.pos ++ (srcRead s.br.off.toNat m s).1
          pos := 0
          off := s.br.off + BitVec.ofNat 32 m }) := by
  obtain ⟨h1, h2, h3, h4, h5⟩ := hf
  have hbit : s.br.bit.toNat < 8 := s.br.bit.isLt
  by_cases h : brBuffered s.br < 9 ∧ s.br.off.toNat < s.regs.srcLen.toNat
  · right
    refine ⟨min (s.params.bufBytes - (s.br.buf.drop s.br.pos).length) (s.regs.srcLen.toNat - s.br.off.toNat),
      ?_, ?_, ?_, ?_, by unfold brRefill; rw [if_pos h]⟩
    all_goals
      have hl : (s.br.buf.drop s.br.pos).length = s.br.buf.length - s.br.pos := List.length_drop
      have := h.1
      have := hp.1
      unfold brBuffered brFill at *
      omega
  · left
    refine ⟨by unfold brRefill; rw [if_neg h], ?_⟩
    unfold brBuffered brFill at h
    by_cases ho : s.br.off.toNat < s.regs.srcLen.toNat
    · left; omega
    · right; exact BitVec.eq_of_toNat_eq (by omega)

/-- The refill keeps the reader's form and count and leaves what a read needs (R152). -/
theorem brRefill_counts {s : State} (hp : s.params.wf) (hf : ReaderCounts s) :
    ReaderCounts (brRefill s) ∧ Refilled (brRefill s) ∧ (brRefill s).br.remaining = s.br.remaining ∧
      (brRefill s).br.bit = s.br.bit ∧ (brRefill s).br.isOpen = s.br.isOpen := by
  rcases brRefill_cases hp hf with ⟨he, hr⟩ | ⟨m, hm, ho, hb, hr, he⟩
  · rw [he]; exact ⟨hf, hr, rfl, rfl, rfl⟩
  · obtain ⟨h1, h2, h3, h4, h5⟩ := hf
    have hfr := srcRead_readerFrame s.br.off.toNat m s
    have hl := srcRead_length s.br.off.toNat m s
    have hd : (s.br.buf.drop s.br.pos).length = s.br.buf.length - s.br.pos := List.length_drop
    have hoff : (s.br.off + BitVec.ofNat 32 m).toNat = s.br.off.toNat + m := by
      have := s.regs.srcLen.isLt
      rw [BitVec.toNat_add, BitVec.toNat_ofNat]; omega
    rw [he]
    refine ⟨⟨?_, ?_, ?_, ?_, ?_⟩, ?_, rfl, rfl, rfl⟩
    · simp only [State.setBr_br, State.setBr_regs, hfr.regs, hoff]; exact ho
    · exact Nat.zero_le _
    · simp only [State.setBr_br, State.setBr_params, hfr.params, List.length_append, hl]; exact hb
    · intro _; simp only [State.setBr_br, List.length_append, hl]; omega
    · simp only [State.setBr_br, State.setBr_regs, hfr.regs, hoff, List.length_append, hl]; omega
    · rcases hr with hr | hr
      · left; simp only [State.setBr_br, List.length_append, hl]; omega
      · right; apply BitVec.eq_of_toNat_eq; simp only [State.setBr_br, State.setBr_regs, hfr.regs, hoff]; exact hr

/-- The refill neither loses nor invents a bit, and changes only the reader (R152, R157). -/
theorem brRefill_unread {s : State} {x : List Byte} (hp : s.params.wf) (hf : ReaderCounts s)
    (hx : s.env.src = some x) (hl : s.regs.srcLen.toNat = x.length) :
    unread (brRefill s) = unread s ∧ brRefill s = s.setBr (brRefill s).br := by
  rcases brRefill_cases hp hf with ⟨he, -⟩ | ⟨m, hm, ho, -, -, he⟩
  · rw [he]; exact ⟨rfl, rfl⟩
  · have hoff : (s.br.off + BitVec.ofNat 32 m).toNat = s.br.off.toNat + m := by
      have := s.regs.srcLen.isLt
      rw [BitVec.toNat_add, BitVec.toNat_ofNat]; omega
    rw [srcRead_inside hx (by omega)] at he
    rw [he]
    refine ⟨?_, rfl⟩
    unfold unread
    simp only [State.setBr_br, State.setBr_env, List.drop_zero, hx, Option.getD_some, hoff]
    obtain ⟨h1, h2, h3, h4, h5⟩ := hf
    have hbit : s.br.bit.toNat ≤ (unpack (s.br.buf.drop s.br.pos)).length := by
      rw [unpack_length, List.length_drop]
      by_cases hz : s.br.bit = 0
      · rw [hz]; simp
      · have := h4 hz; have := s.br.bit.isLt; omega
    rw [unpack_append, List.drop_append_of_le_length hbit, List.append_assoc, ← unpack_append]
    congr 2
    rw [← List.drop_drop, List.take_append_drop]

/-- The slot at the position, when it is filled. -/
theorem brSlot_filled {r : BitReader} {i : Nat} (h : i < r.buf.length) : brSlot r i = r.buf[i] := by
  unfold brSlot
  rw [List.getElem?_eq_getElem h, Option.getD_some]

/-- The unread bits of a reader whose position is inside the buffer start with those of the current byte. -/
theorem unread_eq {s : State} (h : s.br.pos < s.br.buf.length) :
    unread s = (msb (brSlot s.br s.br.pos) 8).drop s.br.bit.toNat ++ unpack (s.br.buf.drop (s.br.pos + 1)) ++
      unpack ((s.env.src.getD []).drop s.br.off.toNat) := by
  unfold unread
  rw [brSlot_filled h, List.drop_eq_getElem_cons h, unpack_cons,
    List.drop_append_of_le_length (by rw [msb_length]; have := s.br.bit.isLt; omega)]

/-- A read needs no bit beyond the buffer: the position is inside it (R152, R153). -/
theorem pos_lt_of_remaining {s : State} (hf : ReaderCounts s) (hr : Refilled s) (h : 1 ≤ s.br.remaining.toNat) :
    s.br.pos < s.br.buf.length := by
  obtain ⟨h1, h2, h3, h4, h5⟩ := hf
  rcases hr with hr | hr
  · omega
  · rw [hr] at h5; omega

/-- Eight bits from inside a byte need the next one too (R152, R154). -/
theorem pos_succ_lt_of_remaining {s : State} (hf : ReaderCounts s) (hr : Refilled s) (h : 8 ≤ s.br.remaining.toNat)
    (hb : s.br.bit ≠ 0) : s.br.pos + 1 < s.br.buf.length := by
  obtain ⟨h1, h2, h3, h4, h5⟩ := hf
  rcases hr with hr | hr
  · omega
  · have : s.br.bit.toNat ≠ 0 := fun e => hb (BitVec.eq_of_toNat_eq e)
    rw [hr] at h5; omega

theorem remaining_sub {r : BitVec 35} {k : Nat} (hk : k < 2 ^ 35) (h : k ≤ r.toNat) :
    (r - BitVec.ofNat 35 k).toNat = r.toNat - k := by
  rw [BitVec.toNat_sub, BitVec.toNat_ofNat, Nat.mod_eq_of_lt hk]; omega

/-- `call BR.RBIT` on an open reader with a bit left, whatever the source answers (R153). -/
theorem brRbit_counts {s : State} (hp : s.params.wf) (hf : ReaderCounts s) (ho : s.br.isOpen = true)
    (h : s.br.remaining ≠ 0) :
    ∃ v t, brRbit s = .done v t ∧ ReaderCounts t ∧ t.br.remaining.toNat + 1 = s.br.remaining.toNat ∧
      t.br.isOpen = true := by
  obtain ⟨hc, hr, hrem, hbit, hop⟩ := brRefill_counts hp hf
  have h1 : 1 ≤ s.br.remaining.toNat := by
    rcases Nat.eq_zero_or_pos s.br.remaining.toNat with e | e
    · exact absurd (BitVec.eq_of_toNat_eq e) h
    · exact e
  have hpos := pos_lt_of_remaining hc hr (by rw [hrem]; exact h1)
  have hsub := remaining_sub (r := (brRefill s).br.remaining) (k := 1) (by decide) (by rw [hrem]; exact h1)
  refine ⟨_, _, by unfold brRbit; rw [if_pos ho, if_neg h], ?_, ?_, by simpa using hop.trans ho⟩
  · obtain ⟨c1, c2, c3, c4, c5⟩ := hc
    have hlt : (brRefill s).br.bit.toNat < 8 := (brRefill s).br.bit.isLt
    refine ⟨c1, ?_, c3, ?_, ?_⟩
    all_goals simp only [State.setBr_br, State.setBr_regs]
    · split <;> omega
    · intro hb; split
      · rename_i h7; rw [h7] at hb; exact absurd rfl hb
      · exact hpos
    · rw [show ((brRefill s).br.remaining - 1).toNat = _ from hsub]
      split
      · rename_i h7
        have e7 : (brRefill s).br.bit.toNat = 7 := by rw [h7]; rfl
        have e0 : ((brRefill s).br.bit + 1).toNat = 0 := by rw [h7]; rfl
        rw [e0, hrem] at *
        omega
      · rename_i h7
        have : (brRefill s).br.bit.toNat ≠ 7 := fun e => h7 (BitVec.eq_of_toNat_eq e)
        have e1 : ((brRefill s).br.bit + 1).toNat = (brRefill s).br.bit.toNat + 1 := by
          rw [BitVec.toNat_add]; simp; omega
        rw [e1, hrem] at *
        omega
  · simp only [State.setBr_br]
    rw [show ((brRefill s).br.remaining - 1).toNat = _ from hsub, hrem]; omega

/-- `call BR.RBYTE8` on an open reader with eight bits left, whatever the source answers (R154). -/
theorem brRbyte8_counts {s : State} (hp : s.params.wf) (hf : ReaderCounts s) (ho : s.br.isOpen = true)
    (h : 8 ≤ s.br.remaining.toNat) :
    ∃ b t, brRbyte8 s = .done b t ∧ ReaderCounts t ∧ t.br.remaining.toNat + 8 = s.br.remaining.toNat ∧
      t.br.isOpen = true := by
  obtain ⟨hc, hr, hrem, hbit, hop⟩ := brRefill_counts hp hf
  have hpos := pos_lt_of_remaining hc hr (by rw [hrem]; omega)
  have hpos2 := pos_succ_lt_of_remaining hc hr (by rw [hrem]; exact h)
  have hsub := remaining_sub (r := (brRefill s).br.remaining) (k := 8) (by decide) (by rw [hrem]; exact h)
  refine ⟨_, _, by unfold brRbyte8; rw [if_pos ho, if_neg (by omega)], ?_, ?_, by simpa using hop.trans ho⟩
  · obtain ⟨c1, c2, c3, c4, c5⟩ := hc
    refine ⟨c1, ?_, c3, ?_, ?_⟩
    all_goals simp only [State.setBr_br, State.setBr_regs]
    · omega
    · exact hpos2
    · rw [show ((brRefill s).br.remaining - 8).toNat = _ from hsub, hrem] at *; omega
  · simp only [State.setBr_br]
    rw [show ((brRefill s).br.remaining - 8).toNat = _ from hsub, hrem]; omega

/-- The byte at the bit position is the one the next eight bits spell (R154). -/
theorem brMerge_bits {s : State} (hpos : s.br.pos < s.br.buf.length)
    (hpos2 : s.br.bit ≠ 0 → s.br.pos + 1 < s.br.buf.length) : (unread s).take 8 = msb (brMerge s.br) 8 := by
  have hlt : s.br.bit.toNat < 8 := s.br.bit.isLt
  rw [unread_eq hpos]
  unfold brMerge
  by_cases hb : s.br.bit = 0
  · rw [if_pos hb, hb]
    simp
  · rw [if_neg hb]
    have h2 := hpos2 hb
    rw [List.drop_eq_getElem_cons h2, unpack_cons, ← brSlot_filled h2]
    generalize brSlot s.br s.br.pos = p
    generalize brSlot s.br (s.br.pos + 1) = q
    apply List.ext_getElem?
    intro j
    by_cases hj : j < 8
    · rw [List.getElem?_take_of_lt hj, msb_getElem? _ _ _ hj, List.append_assoc, List.append_assoc]
      by_cases hk : j < 8 - s.br.bit.toNat
      · rw [List.getElem?_append_left (by simp; omega), List.getElem?_drop, msb_getElem? _ _ _ (by omega)]
        congr 1
        rw [BitVec.getLsbD_or, BitVec.getLsbD_shiftLeft, BitVec.getLsbD_ushiftRight,
          BitVec.getLsbD_of_ge q _ (by omega)]
        have : ¬ (8 - 1 - j < s.br.bit.toNat) := by omega
        have h3 : 8 - 1 - j < 8 := by omega
        simp only [this, h3, decide_true, decide_false, Bool.not_false, Bool.true_and, Bool.or_false]
        congr 1; omega
      · rw [List.getElem?_append_right (by simp; omega)]
        simp only [List.length_drop, msb_length]
        rw [List.getElem?_append_left (by simp; omega), msb_getElem? _ _ _ (by omega)]
        congr 1
        rw [BitVec.getLsbD_or, BitVec.getLsbD_shiftLeft, BitVec.getLsbD_ushiftRight]
        have : 8 - 1 - j < s.br.bit.toNat := by omega
        simp only [this, decide_true, Bool.not_true, Bool.and_false, Bool.false_and, Bool.false_or]
        congr 1; omega
    · rw [List.getElem?_eq_none (by simp; omega), List.getElem?_eq_none (by simp; omega)]

end Sys2Proof.Machine
end

