-- ==== Sys2Proof/Laws/Reading.lean ====
section
/-! SUPPORT. The two reads of the open reader as reads of its unread bits (41_bitreader.md R150, R153, R154). -/

namespace Sys2Proof.Machine

/-- The reader is open on the source `x` and its counts are right (41_bitreader.md R150). -/
structure Reading (s : State) (x : List Byte) : Prop where
  params : s.params.wf
  opened : s.br.isOpen = true
  source : s.env.src = some x
  length : s.regs.srcLen.toNat = x.length
  counts : ReaderCounts s

/-- `BR.remaining` is the number of unread bits (10_state.md R33). -/
theorem Reading.unread_length {s : State} {x : List Byte} (h : Reading s x) :
    (unread s).length = s.br.remaining.toNat := by
  obtain ⟨h1, h2, h3, h4, h5⟩ := h.counts
  unfold unread
  rw [List.length_append, List.length_drop, unpack_length, unpack_length, List.length_drop, List.length_drop,
    h.source, Option.getD_some, ← h.length]
  have := s.br.bit.isLt
  by_cases hb : s.br.bit = 0
  · have : s.br.bit.toNat = 0 := by rw [hb]; rfl
    omega
  · have := h4 hb; omega

/-- What a read writes does not concern the reader's source (R157). -/
theorem Reading.congr {s t : State} {x : List Byte} (h : Reading s x) (hp : t.params = s.params) (hb : t.br = s.br)
    (hs : t.env.src = s.env.src) (hl : t.regs.srcLen = s.regs.srcLen) : Reading t x ∧ unread t = unread s := by
  obtain ⟨h1, h2, h3, h4, h5⟩ := h
  refine ⟨⟨by rw [hp]; exact h1, by rw [hb]; exact h2, by rw [hs]; exact h3, by rw [hl]; exact h4, ?_⟩, ?_⟩
  · unfold ReaderCounts; rw [hb, hl, hp]; exact h5
  · unfold unread; rw [hb, hs]

theorem msb_drop_eq (p : Byte) (k : Nat) (h : k < 8) :
    (msb p 8).drop k = p.getLsbD (7 - k) :: (msb p 8).drop (k + 1) := by
  have hk : k < (msb p 8).length := by simpa using h
  rw [List.drop_eq_getElem_cons hk]
  congr 1
  have := msb_getElem? p 8 k h
  rw [List.getElem?_eq_getElem hk] at this
  simpa using this

/-- `call BR.RBIT` takes the first unread bit (R153). -/
theorem brRbit_reads {s : State} {x : List Byte} {b : Bool} {rest : Bits} (h : Reading s x)
    (hu : unread s = b :: rest) :
    ∃ t, brRbit s = .done b t ∧ unread t = rest ∧ Reading t x ∧ t = s.setBr t.br := by
  have hr : s.br.remaining ≠ 0 := by
    intro e
    have hl := h.unread_length
    rw [hu, e] at hl
    exact absurd hl (Nat.succ_ne_zero _)
  have h1 : 1 ≤ s.br.remaining.toNat := by
    rw [← h.unread_length, hu]; simp
  obtain ⟨hcr, href, hrem, hbit, hop⟩ := brRefill_counts h.params h.counts
  obtain ⟨hun, hbr⟩ := brRefill_unread h.params h.counts h.source h.length
  have hpos := pos_lt_of_remaining hcr href (by rw [hrem]; exact h1)
  obtain ⟨v, t, ht, hct, hremt, hot⟩ := brRbit_counts h.params h.counts h.opened hr
  have ht' := ht
  unfold brRbit at ht'
  rw [if_pos h.opened, if_neg hr] at ht'
  injection ht' with hv ht2
  have hcons : unread s = v :: unread t := by
    rw [← hun, unread_eq hpos, ← hv, ← ht2, msb_drop_eq _ _ (brRefill s).br.bit.isLt]
    simp only [List.cons_append]
    congr 1
    unfold unread
    simp only [State.setBr_br, State.setBr_env]
    split
    · rename_i h7
      rw [h7]
      have : ((msb (brSlot (brRefill s).br (brRefill s).br.pos) 8).drop (BitVec.toNat (7 : BitVec 3) + 1)) = [] :=
        List.drop_eq_nil_of_le (by simp)
      rw [this]
      rfl
    · rename_i h7
      have : (brRefill s).br.bit.toNat ≠ 7 := fun e => h7 (BitVec.eq_of_toNat_eq e)
      have hlt : (brRefill s).br.bit.toNat < 8 := (brRefill s).br.bit.isLt
      have e1 : ((brRefill s).br.bit + 1).toNat = (brRefill s).br.bit.toNat + 1 := by
        rw [BitVec.toNat_add]; simp; omega
      rw [e1, brSlot_filled hpos, List.drop_eq_getElem_cons hpos, unpack_cons,
        List.drop_append_of_le_length (by simp; omega)]
  have hteq : t = s.setBr t.br := by
    rw [← ht2]; conv_lhs => rw [hbr]
    rfl
  rw [hu] at hcons
  injection hcons with c1 c2
  refine ⟨t, by rw [ht, c1], c2.symm, ⟨?_, hot, ?_, ?_, hct⟩, hteq⟩
  all_goals rw [hteq]
  · exact h.params
  · exact h.source
  · exact h.length

theorem byte_injective {a b : Byte} (h : msb a 8 = msb b 8) : a = b := by
  rw [← byte_of_msb a, h, byte_of_msb]

/-- `call BR.RBYTE8` takes the first eight unread bits (R154). -/
theorem brRbyte8_reads {s : State} {x : List Byte} {b : Byte} {rest : Bits} (h : Reading s x)
    (hu : unread s = msb b 8 ++ rest) :
    ∃ t, brRbyte8 s = .done b t ∧ unread t = rest ∧ Reading t x ∧ t = s.setBr t.br := by
  have hr : 8 ≤ s.br.remaining.toNat := by
    rw [← h.unread_length, hu]; simp
  obtain ⟨hcr, href, hrem, hbit, hop⟩ := brRefill_counts h.params h.counts
  obtain ⟨hun, hbr⟩ := brRefill_unread h.params h.counts h.source h.length
  have hpos := pos_lt_of_remaining hcr href (by rw [hrem]; omega)
  have hpos2 := pos_succ_lt_of_remaining hcr href (by rw [hrem]; exact hr)
  obtain ⟨v, t, ht, hct, hremt, hot⟩ := brRbyte8_counts h.params h.counts h.opened hr
  have ht' := ht
  unfold brRbyte8 at ht'
  rw [if_pos h.opened, if_neg (by omega)] at ht'
  injection ht' with hv ht2
  have hm := brMerge_bits hpos hpos2
  rw [hun, hv, hu, List.take_left' (msb_length b 8)] at hm
  have hut : unread t = (unread s).drop 8 := by
    rw [← hun, ← ht2]
    have hlt : (brRefill s).br.bit.toNat < 8 := (brRefill s).br.bit.isLt
    unfold unread
    simp only [State.setBr_br, State.setBr_env]
    have hL : 8 ≤ (List.drop (brRefill s).br.bit.toNat
        (unpack (List.drop (brRefill s).br.pos (brRefill s).br.buf))).length := by
      rw [List.length_drop, unpack_length, List.length_drop]
      by_cases hb : (brRefill s).br.bit = 0
      · have : (brRefill s).br.bit.toNat = 0 := by rw [hb]; rfl
        omega
      · have := hpos2 hb; omega
    rw [List.drop_append_of_le_length hL]
    congr 1
    rw [unpack_drop, unpack_drop, List.drop_drop, List.drop_drop, List.drop_drop]
    congr 1; omega
  rw [hu, List.drop_left' (msb_length b 8)] at hut
  have hteq : t = s.setBr t.br := by
    rw [← ht2]; conv_lhs => rw [hbr]
    rfl
  refine ⟨t, by rw [ht, byte_injective hm], hut, ⟨?_, hot, ?_, ?_, hct⟩, hteq⟩
  all_goals rw [hteq]
  · exact h.params
  · exact h.source
  · exact h.length

end Sys2Proof.Machine
end

