-- ==== Sys2Proof/Laws/Parsing.lean ====
section
/-! SUPPORT. The decoder on well-formed input: parsing a header stores its tree, and walking the tree along a codeword reaches
its leaf (43_decoder.md R212 to R215). -/

namespace Sys2Proof.Machine

theorem dtAt_setDt (d : Decoder) (i j : NodeId) (n : DtNode) (h : i.toNat < 511) :
    dtAt (setDt i n d) j = if i = j then n else dtAt d j := by
  unfold dtAt setDt
  dsimp only
  by_cases hj : j.toNat < 511
  · rw [dif_pos hj, dif_pos hj, Vector.getElem_setIfInBounds]
    by_cases hij : i = j
    · subst hij; simp
    · rw [if_neg hij, if_neg (fun hh => hij (BitVec.eq_of_toNat_eq hh))]
  · rw [dif_neg hj, dif_neg hj, if_neg (show ¬ i = j from fun hh => hj (hh ▸ h))]

/-- Only the entries of the subtree matter. -/
theorem DtHolds.congr {d f : Decoder} {i : NodeId} {t : CodeTree} (h : DtHolds d i t)
    (hf : ∀ j : NodeId, i.toNat ≤ j.toNat → j.toNat < i.toNat + t.size → dtAt f j = dtAt d j) : DtHolds f i t := by
  induction t generalizing i with
  | leaf b =>
    obtain ⟨a1, a2⟩ := h
    refine ⟨?_, ?_⟩ <;> rw [hf i (Nat.le_refl _) (Nat.lt_succ_self _)] <;> assumption
  | node l r ihl ihr =>
    obtain ⟨a1, a2, a3, a4, a5⟩ := h
    simp only [CodeTree.size] at hf
    refine ⟨?_, ?_, ?_, ?_, ?_⟩ <;> rw [hf i (Nat.le_refl _) (by omega)]
    · exact a1
    · exact a2
    · exact a3
    · exact ihl a4 fun j h1 h2 => hf j (by omega) (by omega)
    · exact ihr a5 fun j h1 h2 => hf j (by omega) (by omega)

/-- Only reader and decoder differ. -/
def DecStep (s t : State) : Prop := t = (s.setBr t.br).setDec t.dec

theorem DecStep.refl (s : State) : DecStep s s := rfl

theorem DecStep.trans {s t u : State} (h : DecStep s t) (g : DecStep t u) : DecStep s u := by
  unfold DecStep at *
  rw [h] at g
  exact g

theorem DecStep.reads {s t : State} (h : t = s.setBr t.br) : DecStep s t := by
  unfold DecStep
  conv_rhs => rw [show t.dec = s.dec by rw [h]; rfl]
  exact h

theorem DecStep.stores (s : State) (d : Decoder) : DecStep s (s.setDec d) := rfl

theorem Reading.setDec {s : State} {x : List Byte} (h : Reading s x) (d : Decoder) : Reading (s.setDec d) x :=
  (h.congr (t := s.setDec d) rfl rfl rfl rfl).1

/-- Parsing the header of a tree stores the tree from `DT_N` on and takes exactly its bits (R212). -/
theorem parseNode_spec (t : CodeTree) (fuel : Nat) {s : State} {x : List Byte} {rest : Bits} (h : Reading s x)
    (hu : unread s = t.header ++ rest) (hsize : s.dec.dtN.toNat + t.size ≤ 511) (hf : t.height < fuel) :
    ∃ i u, parseNode fuel s = .done i u ∧ i.toNat = s.dec.dtN.toNat ∧ unread u = rest ∧ Reading u x ∧ DecStep s u ∧
      u.dec.dtN.toNat = s.dec.dtN.toNat + t.size ∧
      DtHolds u.dec i t ∧
      (∀ j : NodeId, j.toNat < s.dec.dtN.toNat → dtAt u.dec j = dtAt s.dec j) := by
  induction t generalizing fuel s rest with
  | leaf b =>
    cases fuel with
    | zero => omega
    | succ fuel =>
      simp only [CodeTree.size] at hsize
      have hn : s.dec.dtN ≠ 511 := fun e => by rw [e] at hsize; exact absurd hsize (by decide)
      have hi : (s.dec.dtN.setWidth 9).toNat = s.dec.dtN.toNat := by
        rw [BitVec.toNat_setWidth, Nat.mod_eq_of_lt (by omega)]
      have hn1 : (s.dec.dtN + 1).toNat = s.dec.dtN.toNat + 1 := by
        rw [BitVec.toNat_add]
        show (s.dec.dtN.toNat + 1) % 1024 = _
        omega
      obtain ⟨r0, u0⟩ := h.congr (t := s.setDec { s.dec with dtN := s.dec.dtN + 1 }) rfl rfl rfl rfl
      rw [hu] at u0
      simp only [CodeTree.header, List.cons_append] at u0
      obtain ⟨s1, h1, u1, r1, d1⟩ := brRbit_reads r0 u0
      obtain ⟨s2, h2, u2, r2, d2⟩ := brRbyte8_reads r1 u1
      have hrem0 : s.br.remaining ≠ 0 := by
        intro e
        have hl := h.unread_length
        rw [hu, e] at hl
        exact absurd hl (by simp [CodeTree.header])
      have hrem1 : ¬ s1.br.remaining.toNat < 8 := by
        rw [← r1.unread_length, u1, List.length_append, msb_length]; omega
      have hd2 : s2.dec = { s.dec with dtN := s.dec.dtN + 1 } := by rw [d2, d1]; rfl
      have hlt : (s.dec.dtN.setWidth 9).toNat < 511 := by omega
      refine ⟨s.dec.dtN.setWidth 9, s2.setDec (setDt (s.dec.dtN.setWidth 9)
        { dtAt s2.dec (s.dec.dtN.setWidth 9) with leaf := true, sym := b } s2.dec), ?_, hi, ?_, ?_, ?_, ?_, ?_, ?_⟩
      · unfold parseNode
        rw [if_neg hn]
        dsimp only
        rw [if_neg (by exact hrem0), h1, Result.bind_done, if_pos rfl, if_neg hrem1, h2, Result.bind_done]
      · exact (r2.congr rfl rfl rfl rfl).2.trans u2
      · exact r2.setDec _
      · exact ((DecStep.stores s _).trans (DecStep.reads d1)).trans ((DecStep.reads d2).trans (DecStep.stores s2 _))
      · show s2.dec.dtN.toNat = _
        rw [hd2]; exact hn1
      · refine ⟨?_, ?_⟩ <;> rw [State.setDec_dec, dtAt_setDt _ _ _ _ hlt, if_pos rfl]
      · intro j hj
        rw [State.setDec_dec, dtAt_setDt _ _ _ _ hlt, if_neg (fun e => by rw [← e] at hj; omega), hd2]
        rfl
  | node l r ihl ihr =>
    cases fuel with
    | zero => omega
    | succ fuel =>
      simp only [CodeTree.size] at hsize
      simp only [CodeTree.height] at hf
      have hn : s.dec.dtN ≠ 511 := fun e => by
        rw [e] at hsize
        have : (511 : BitVec 10).toNat = 511 := rfl
        omega
      have hi : (s.dec.dtN.setWidth 9).toNat = s.dec.dtN.toNat := by
        rw [BitVec.toNat_setWidth, Nat.mod_eq_of_lt (by omega)]
      have hn1 : (s.dec.dtN + 1).toNat = s.dec.dtN.toNat + 1 := by
        rw [BitVec.toNat_add]
        show (s.dec.dtN.toNat + 1) % 1024 = _
        omega
      obtain ⟨r0, u0⟩ := h.congr (t := s.setDec { s.dec with dtN := s.dec.dtN + 1 }) rfl rfl rfl rfl
      rw [hu] at u0
      simp only [CodeTree.header, List.cons_append, List.append_assoc] at u0
      obtain ⟨s1, h1, u1, r1, d1⟩ := brRbit_reads r0 u0
      have hd1 : s1.dec = { s.dec with dtN := s.dec.dtN + 1 } := by rw [d1]; rfl
      have hs1 : s1.dec.dtN.toNat = s.dec.dtN.toNat + 1 := by rw [hd1]; exact hn1
      obtain ⟨il, s2, h2, i2, u2, r2, d2, n2, st2, k2⟩ := ihl fuel r1 u1 (by omega) (by omega)
      obtain ⟨ir, s3, h3, i3, u3, r3, d3, n3, st3, k3⟩ := ihr fuel r2 u2 (by omega) (by omega)
      rw [hs1] at i2 n2 k2
      rw [n2] at i3 n3 k3
      have hrem0 : s.br.remaining ≠ 0 := by
        intro e
        have hl := h.unread_length
        rw [hu, e] at hl
        exact absurd hl (by simp [CodeTree.header])
      have hlt : (s.dec.dtN.setWidth 9).toNat < 511 := by omega
      have hat := dtAt_setDt s3.dec (s.dec.dtN.setWidth 9) (s.dec.dtN.setWidth 9)
        { dtAt s3.dec (s.dec.dtN.setWidth 9) with leaf := false, left := il, right := ir } hlt
      rw [if_pos rfl] at hat
      have hkeep : ∀ j : NodeId, j.toNat ≠ s.dec.dtN.toNat → dtAt (setDt (s.dec.dtN.setWidth 9)
          { dtAt s3.dec (s.dec.dtN.setWidth 9) with leaf := false, left := il, right := ir } s3.dec) j =
          dtAt s3.dec j := by
        intro j hj
        rw [dtAt_setDt _ _ _ _ hlt, if_neg (fun e => by rw [← e] at hj; omega)]
      refine ⟨s.dec.dtN.setWidth 9, s3.setDec (setDt (s.dec.dtN.setWidth 9)
        { dtAt s3.dec (s.dec.dtN.setWidth 9) with leaf := false, left := il, right := ir } s3.dec),
        ?_, hi, ?_, ?_, ?_, ?_, ?_, ?_⟩
      · unfold parseNode
        rw [if_neg hn]
        dsimp only
        rw [if_neg (by exact hrem0), h1, Result.bind_done, if_neg (by decide), h2, Result.bind_done, h3,
          Result.bind_done]
      · exact (r3.congr rfl rfl rfl rfl).2.trans u3
      · exact r3.setDec _
      · exact ((DecStep.stores s _).trans (DecStep.reads d1)).trans ((d2.trans d3).trans (DecStep.stores s3 _))
      · show s3.dec.dtN.toNat = _
        rw [n3]; simp only [CodeTree.size]; omega
      · refine ⟨?_, ?_, ?_, ?_, ?_⟩ <;> rw [State.setDec_dec, hat]
        · dsimp only
          omega
        · dsimp only
          omega
        · exact st2.congr fun j g1 g2 => by rw [hkeep j (by omega), k3 j (by omega)]
        · exact st3.congr fun j g1 g2 => by rw [hkeep j (by omega)]
      · intro j hj
        rw [State.setDec_dec, hkeep j (by omega), k3 j (by omega), k2 j (by omega), hd1]
        rfl

/-- `HDR.PARSE` on a header with an internal root stores its tree at index 0 (R212, R213). -/
theorem hdrParse_done {t : CodeTree} {s : State} {x : List Byte} {rest : Bits} (h : Reading s x)
    (hu : unread s = t.header ++ rest) (hs : t.size ≤ 511) (hi : t.internal = true) :
    ∃ u, hdrParse s = .done () u ∧ unread u = rest ∧ Reading u x ∧ DecStep s u ∧ DtHolds u.dec 0 t ∧
      u.dec.dtN.toNat = t.size := by
  obtain ⟨r0, u0⟩ := h.congr (t := s.setDec { s.dec with dtN := 0 }) rfl rfl rfl rfl
  have hh : t.height < 512 := by
    have h1 := t.height_lt
    have h2 := t.size_eq
    omega
  have hz : (s.setDec { s.dec with dtN := 0 }).dec.dtN.toNat = 0 := rfl
  obtain ⟨i, u, p1, p2, p3, p4, p5, p6, p7, -⟩ := parseNode_spec t 512 r0 (u0.trans hu) (by omega) hh
  rw [hz, Nat.zero_add] at p6
  rw [hz] at p2
  have hi0 : i = 0 := BitVec.eq_of_toNat_eq p2
  rw [hi0] at p7
  refine ⟨u, ?_, p3, p4, (DecStep.stores s _).trans p5, p7, p6⟩
  unfold hdrParse
  rw [p1, Result.bind_done, if_neg]
  cases t with
  | leaf b => cases hi
  | node l r => rw [p7.1]; decide

/-- `PAD.READ` takes the three bits of the padding length (R214). -/
theorem padRead_done {s : State} {x : List Byte} {pad : BitVec 3} {rest : Bits} (h : Reading s x)
    (hu : unread s = msb pad 3 ++ rest) :
    ∃ u, padRead s = .done () u ∧ unread u = rest ∧ Reading u x ∧ DecStep s u ∧ u.dec = { s.dec with decPad := pad } := by
  have hr : ¬ s.br.remaining.toNat < 3 := by
    rw [← h.unread_length, hu, List.length_append, msb_length]; omega
  simp only [msb, List.cons_append, List.nil_append] at hu
  obtain ⟨s1, h1, u1, r1, d1⟩ := brRbit_reads h hu
  obtain ⟨s2, h2, u2, r2, d2⟩ := brRbit_reads r1 u1
  obtain ⟨s3, h3, u3, r3, d3⟩ := brRbit_reads r2 u2
  have hd : s3.dec = s.dec := by rw [d3, d2, d1]; rfl
  have hpad : BitVec.ofNat 3 ((pad.getLsbD 2).toNat * 4 + (pad.getLsbD 1).toNat * 2 + (pad.getLsbD 0).toNat) = pad := by
    have : ∀ p : BitVec 3,
        BitVec.ofNat 3 ((p.getLsbD 2).toNat * 4 + (p.getLsbD 1).toNat * 2 + (p.getLsbD 0).toNat) = p := by decide
    exact this pad
  refine ⟨s3.setDec { s3.dec with decPad := pad }, ?_, ?_, ?_, ?_, ?_⟩
  · unfold padRead
    rw [if_neg hr, h1, Result.bind_done, h2, Result.bind_done, h3, Result.bind_done, hpad]
  · exact (r3.congr rfl rfl rfl rfl).2.trans u3
  · exact r3.setDec _
  · exact ((DecStep.reads d1).trans (DecStep.reads d2)).trans ((DecStep.reads d3).trans (DecStep.stores s3 _))
  · show ({ s3.dec with decPad := pad } : Decoder) = _
    rw [hd]

/-- The inner loop of `TREE.WALK` along a path of the stored tree (R215). -/
theorem walkDown_done {t : CodeTree} (path : Bits) (fuel : Nat) (i : NodeId) {s : State} {x : List Byte}
    {rest : Bits} {b : Byte} (h : Reading s x) (hu : unread s = path ++ rest) (hst : DtHolds s.dec i t)
    (hp : t.leafAt path = some b) (hf : path.length < fuel) :
    ∃ u, walkDown fuel i s = .done b u ∧ unread u = rest ∧ Reading u x ∧ u = s.setBr u.br := by
  induction path generalizing t fuel i s with
  | nil =>
    cases fuel with
    | zero => omega
    | succ fuel =>
      cases t with
      | leaf c =>
        cases hp
        obtain ⟨a3, a4⟩ := hst
        exact ⟨s, by rw [walkDown, if_pos a3, a4], hu, h, rfl⟩
      | node l r => cases hp
  | cons d path ih =>
    cases fuel with
    | zero => omega
    | succ fuel =>
      cases t with
      | leaf c => cases hp
      | node l r =>
        obtain ⟨a3, -, -, a4, a5⟩ := hst
        have hrem : s.br.remaining ≠ 0 := by
          intro e
          have hl := h.unread_length
          rw [hu, e] at hl
          exact absurd hl (Nat.succ_ne_zero _)
        obtain ⟨s1, h1, u1, r1, d1⟩ := brRbit_reads h hu
        have hd : s1.dec = s.dec := by rw [d1]; rfl
        have hun : walkDown (fuel + 1) i s =
            walkDown fuel (if d then (dtAt s1.dec i).left else (dtAt s1.dec i).right) s1 := by
          rw [walkDown, a3, if_neg (by decide), if_neg hrem, h1, Result.bind_done]
        have hfin : ∀ {c : CodeTree}, DtHolds s.dec (if d then (dtAt s1.dec i).left else (dtAt s1.dec i).right) c →
            c.leafAt path = some b → ∃ u, walkDown (fuel + 1) i s = .done b u ∧ unread u = rest ∧ Reading u x ∧
              u = s.setBr u.br := by
          intro c hc hcp
          obtain ⟨u, w1, w2, w3, w4⟩ := ih fuel _ r1 u1 (by rw [hd]; exact hc) hcp
            (by simp only [List.length_cons] at hf; omega)
          refine ⟨u, by rw [hun, w1], w2, w3, ?_⟩
          rw [w4, d1]; rfl
        cases d with
        | true => exact hfin (c := l) (by rw [hd]; exact a4) hp
        | false => exact hfin (c := r) (by rw [hd]; exact a5) hp

end Sys2Proof.Machine
end

