-- ==== Sys2Proof/Laws/Headers.lean ====
section
/-! SUPPORT. `HDR.PARSE` on any bits ends as the scan of the header does (43_decoder.md R212, R213). -/

namespace Sys2Proof.Machine

/-- A marker with eight bits after it is a leaf. -/
theorem scanHeader_leaf (due n : Nat) (b : Byte) (rest : Bits) (h : n ≠ 511) :
    scanHeader (due + 1) n ((true :: msb b 8) ++ rest) = scanHeader due (n + 1) rest := by
  show (if n = Config.nodeMax then HeaderEnd.tooLarge _ else scanHeader due (n + 1) rest) = _
  rw [if_neg (show ¬ n = Config.nodeMax from h)]

/-- A marker with fewer than eight bits after it is a truncated header. -/
theorem scanHeader_short (due n : Nat) (rest : Bits) (h : n ≠ 511) (hl : rest.length < 8) :
    scanHeader (due + 1) n (true :: rest) = .truncated (n + 1) rest := by
  match rest, hl with
  | [], _ => exact if_neg (show ¬ n = Config.nodeMax from h)
  | [_], _ => exact if_neg (show ¬ n = Config.nodeMax from h)
  | [_, _], _ => exact if_neg (show ¬ n = Config.nodeMax from h)
  | [_, _, _], _ => exact if_neg (show ¬ n = Config.nodeMax from h)
  | [_, _, _, _], _ => exact if_neg (show ¬ n = Config.nodeMax from h)
  | [_, _, _, _, _], _ => exact if_neg (show ¬ n = Config.nodeMax from h)
  | [_, _, _, _, _, _], _ => exact if_neg (show ¬ n = Config.nodeMax from h)
  | [_, _, _, _, _, _, _], _ => exact if_neg (show ¬ n = Config.nodeMax from h)
  | _ :: _ :: _ :: _ :: _ :: _ :: _ :: _ :: _, hl => simp at hl; omega

theorem scanHeader_node (due n : Nat) (rest : Bits) (h : n ≠ 511) :
    scanHeader (due + 1) n (false :: rest) = scanHeader (due + 2) (n + 1) rest := by
  rw [scanHeader, if_neg (show ¬ n = Config.nodeMax from h)]

theorem scanHeader_empty (due n : Nat) (h : n ≠ 511) : scanHeader (due + 1) n [] = .truncated (n + 1) [] := by
  rw [scanHeader, if_neg (show ¬ n = Config.nodeMax from h)]

theorem scanHeader_full (due : Nat) (u : Bits) : scanHeader (due + 1) 511 u = .tooLarge u := by
  unfold scanHeader
  exact if_pos rfl

theorem scanHeader_whole (n : Nat) (u : Bits) : scanHeader 0 n u = .whole n u := by
  unfold scanHeader; rfl

/-- The header of a tree that fits is one subtree (R97, R212). -/
theorem scanHeader_tree (t : CodeTree) (due n : Nat) (rest : Bits) (h : n + t.size ≤ 511) :
    scanHeader (due + 1) n (t.header ++ rest) = scanHeader due (n + t.size) rest := by
  induction t generalizing due n rest with
  | leaf b =>
    simp only [CodeTree.size] at h ⊢
    exact scanHeader_leaf due n b rest (by omega)
  | node l r ihl ihr =>
    simp only [CodeTree.size] at h ⊢
    rw [CodeTree.header, List.cons_append, List.append_assoc, scanHeader_node _ _ _ (by omega), ihl _ _ _ (by omega),
      ihr _ _ _ (by omega)]
    congr 1; omega

/-- `HDR.PARSE` never writes `DEC_PAD` (R214). -/
theorem parseNode_decPad (fuel : Nat) (s : State) : (parseNode fuel s).state.dec.decPad = s.dec.decPad := by
  have hb : ∀ {α β : Type} {r : Result α} {f : α → State → Result β} {p : BitVec 3}, r.state.dec.decPad = p →
      (∀ a t, t.dec.decPad = p → (f a t).state.dec.decPad = p) → (r.bind f).state.dec.decPad = p := by
    intro α β r f p h g
    cases r with
    | done a t => exact g a t h
    | raised e t => exact h
  induction fuel generalizing s with
  | zero => rfl
  | succ fuel ih =>
    unfold parseNode; dsimp only
    split
    · rfl
    · split
      · rfl
      · refine hb (by rw [(brRbit_readerFrame _).dec]; rfl) fun m t ht => ?_
        split
        · split
          · exact ht
          · exact hb (by rw [(brRbyte8_readerFrame _).dec]; exact ht) fun b u hu => hu
        · exact hb ((ih t).trans ht) fun l u hu => hb ((ih u).trans hu) fun r v hv => hv

/-- How the scan ends where parsing is stopped by the cause `k` in the state `u` (R212, R213, R256). -/
def StopsAs (k : Cause) (u : State) (e : HeaderEnd) : Prop :=
  (k = .hdrTrunc ∧ e = .truncated u.dec.dtN.toNat (unread u)) ∨
    (k = .hdrTooLarge ∧ u.dec.dtN = 511 ∧ e = .tooLarge (unread u))

/-- Parsing a node on any bits: they begin with the header of a tree that fits, or parsing stops as the scan does (R212). -/
theorem parseNode_outcome (fuel : Nat) {s : State} {x : List Byte} (h : Reading s x) (hn : s.dec.dtN.toNat ≤ 511)
    (hf : 512 ≤ s.dec.dtN.toNat + fuel) :
    (∃ (t : CodeTree) (rest : Bits), unread s = t.header ++ rest ∧ s.dec.dtN.toNat + t.size ≤ 511 ∧ t.height < fuel) ∨
    (∃ k u, parseNode fuel s = .raised ⟨.sourceErr, k⟩ u ∧ Reading u x ∧ DecStep s u ∧
      ∀ due, StopsAs k u (scanHeader (due + 1) s.dec.dtN.toNat (unread s))) := by
  induction fuel generalizing s with
  | zero => omega
  | succ fuel ih =>
    by_cases h511 : s.dec.dtN = 511
    · have hN : s.dec.dtN.toNat = 511 := by rw [h511]; rfl
      refine .inr ⟨.hdrTooLarge, s, by rw [parseNode, if_pos h511], h, DecStep.refl s, fun due => .inr ⟨rfl, h511, ?_⟩⟩
      rw [hN, scanHeader_full]
    · have hlt : s.dec.dtN.toNat ≠ 511 := fun e => h511 (BitVec.eq_of_toNat_eq e)
      have hn1 : (s.dec.dtN + 1).toNat = s.dec.dtN.toNat + 1 := by
        rw [BitVec.toNat_add]
        show (s.dec.dtN.toNat + 1) % 1024 = _
        omega
      obtain ⟨r0, u0⟩ := h.congr (t := s.setDec { s.dec with dtN := s.dec.dtN + 1 }) rfl rfl rfl rfl
      cases hun : unread s with
      | nil =>
        have h0 : s.br.remaining = 0 := by
          apply BitVec.eq_of_toNat_eq
          rw [← h.unread_length, hun]; rfl
        refine .inr ⟨.hdrTrunc, s.setDec { s.dec with dtN := s.dec.dtN + 1 }, ?_, r0, DecStep.stores s _,
          fun due => .inl ⟨rfl, ?_⟩⟩
        · unfold parseNode
          rw [if_neg h511]
          dsimp only
          rw [if_pos (by exact h0)]
        · rw [scanHeader_empty _ _ hlt, u0, hun]
          simp only [State.setDec_dec, hn1]
      | cons m rest =>
        have h0 : s.br.remaining ≠ 0 := by
          intro e
          have hl := h.unread_length
          rw [hun, e] at hl
          exact absurd hl (Nat.succ_ne_zero _)
        rw [hun] at u0
        obtain ⟨s1, h1, u1, r1, d1⟩ := brRbit_reads r0 u0
        have hd1 : s1.dec = { s.dec with dtN := s.dec.dtN + 1 } := by rw [d1]; rfl
        have hs1 : s1.dec.dtN.toNat = s.dec.dtN.toNat + 1 := by rw [hd1]; exact hn1
        have hds : DecStep s s1 := (DecStep.stores s _).trans (DecStep.reads d1)
        cases m with
        | true =>
          by_cases h8 : rest.length < 8
          · refine .inr ⟨.hdrTrunc, s1, ?_, r1, hds, fun due => .inl ⟨rfl, ?_⟩⟩
            · unfold parseNode
              rw [if_neg h511]
              dsimp only
              rw [if_neg (by exact h0), h1, Result.bind_done, if_pos rfl, if_pos (by rw [← r1.unread_length, u1]; exact h8)]
            · rw [scanHeader_short _ _ _ hlt h8, u1, hs1]
          · refine .inl ⟨.leaf (BitVec.ofNat 8 (num (rest.take 8))), rest.drop 8, ?_, by simp only [CodeTree.size]; omega,
              Nat.succ_pos _⟩
            have hl : (rest.take 8).length = 8 := by rw [List.length_take]; omega
            have := msb_ofNat_num 8 (rest.take 8) (by omega)
            rw [hl] at this
            rw [CodeTree.header, this, List.cons_append, List.take_append_drop]
        | false =>
          have hscan : ∀ due, scanHeader (due + 1) s.dec.dtN.toNat (false :: rest) =
              scanHeader (due + 1 + 1) s1.dec.dtN.toNat (unread s1) := by
            intro due
            rw [scanHeader_node _ _ _ hlt, u1, hs1]
          have hrun : parseNode (fuel + 1) s = (parseNode fuel s1).bind fun l s3 =>
              (parseNode fuel s3).bind fun r s4 =>
                .done (s.dec.dtN.setWidth 9) (s4.setDec (setDt (s.dec.dtN.setWidth 9)
                  { dtAt s4.dec (s.dec.dtN.setWidth 9) with leaf := false, left := l, right := r } s4.dec)) := by
            rw [parseNode, if_neg h511]
            dsimp only
            rw [if_neg (by exact h0), h1, Result.bind_done, if_neg (by decide)]
          rcases ih r1 (by omega) (by omega) with ⟨l, rest2, e1, e2, e3⟩ | ⟨k, u, e1, e2, e3, e4⟩
          · obtain ⟨il, s2, h2, i2, u2, r2, d2, n2, -⟩ := parseNode_spec l fuel r1 e1 e2 e3
            rcases ih r2 (by omega) (by omega) with ⟨r, rest3, f1, f2, f3⟩ | ⟨k, u, f1, f2, f3, f4⟩
            · refine .inl ⟨.node l r, rest3, ?_, by simp only [CodeTree.size]; omega, by simp only [CodeTree.height]; omega⟩
              rw [CodeTree.header, List.cons_append, List.append_assoc, ← f1, u2, ← e1, u1]
            · refine .inr ⟨k, u, ?_, f2, hds.trans (d2.trans f3), fun due => ?_⟩
              · rw [hrun, h2, Result.bind_done, f1, Result.bind_raised]
              · rw [hscan, e1, scanHeader_tree l _ _ _ e2, ← n2, ← u2]
                exact f4 due
          · refine .inr ⟨k, u, by rw [hrun, e1, Result.bind_raised], e2, hds.trans e3, fun due => ?_⟩
            rw [hscan]
            exact e4 (due + 1)

theorem CodeTree.size_pos (t : CodeTree) : 1 ≤ t.size := by cases t <;> simp only [CodeTree.size] <;> omega

/-- Only a leaf has one node. -/
theorem CodeTree.internal_size {t : CodeTree} (h : t.internal = true) : t.size ≠ 1 := by
  cases t with
  | leaf b => cases h
  | node l r => have := l.size_pos; simp only [CodeTree.size]; omega

/-- `HDR.PARSE` and `PAD.READ` on any bits (R212 to R214): the bits begin with the header of a tree with an internal root and
three bits more, or the command ends with a header cause, as the scan of the header says. -/
theorem header_outcome {s : State} {x : List Byte} (h : Reading s x) :
    (∃ (t : CodeTree) (pad : BitVec 3) (rest : Bits), unread s = t.header ++ msb pad 3 ++ rest ∧ t.internal = true ∧
      t.size ≤ Config.nodeMax ∧ scanHeader 1 0 (unread s) = .whole t.size (msb pad 3 ++ rest)) ∨
    (∃ k u, ((hdrParse s).bind fun _ v => padRead v) = .raised ⟨.sourceErr, k⟩ u ∧ Reading u x ∧ DecStep s u ∧
      u.dec.decPad = s.dec.decPad ∧
      (StopsAs k u (scanHeader 1 0 (unread s)) ∨
        (k = .hdrRootLeaf ∧ u.dec.dtN = 1 ∧ scanHeader 1 0 (unread s) = .whole 1 (unread u)) ∨
        (k = .hdrTrunc ∧ u.dec.dtN ≠ 1 ∧ scanHeader 1 0 (unread s) = .whole u.dec.dtN.toNat (unread u) ∧
          (unread u).length < 3))) := by
  obtain ⟨r0, u0⟩ := h.congr (t := s.setDec { s.dec with dtN := 0 }) rfl rfl rfl rfl
  have hz : (s.setDec { s.dec with dtN := 0 }).dec.dtN.toNat = 0 := rfl
  have hparse : hdrParse s = (parseNode 512 (s.setDec { s.dec with dtN := 0 })).bind fun _ s1 =>
      if (dtAt s1.dec 0).leaf then .raised ⟨.sourceErr, .hdrRootLeaf⟩ s1 else .done () s1 := rfl
  have hpad := parseNode_decPad 512 (s.setDec { s.dec with dtN := 0 })
  rcases parseNode_outcome 512 r0 (by rw [hz]; omega) (by rw [hz]) with ⟨t, rest, e1, e2, e3⟩ | ⟨k, u, e1, e2, e3, e4⟩
  · rw [hz] at e2
    have hscan : scanHeader 1 0 (unread s) = .whole t.size rest := by
      rw [← u0, e1, scanHeader_tree t 0 0 rest e2, scanHeader_whole, Nat.zero_add]
    obtain ⟨i, u, p1, p2, p3, p4, p5, p6, p7, -⟩ := parseNode_spec t 512 r0 e1 (by rw [hz]; exact e2) e3
    rw [hz] at p2 p6
    have hi0 : i = 0 := BitVec.eq_of_toNat_eq p2
    rw [hi0] at p7
    rw [p1] at hpad
    have hds : DecStep s u := (DecStep.stores s _).trans p5
    cases hint : t.internal with
    | false =>
      cases t with
      | node l r => cases hint
      | leaf b =>
        refine .inr ⟨.hdrRootLeaf, u, ?_, p4, hds, hpad, .inr (.inl ⟨rfl, BitVec.eq_of_toNat_eq p6, ?_⟩)⟩
        · rw [hparse, p1, Result.bind_done, if_pos p7.1, Result.bind_raised]
        · rw [hscan, p3]; rfl
    | true =>
      have hleaf : (dtAt u.dec 0).leaf = false := by
        cases t with
        | leaf b => cases hint
        | node l r => exact p7.1
      have hne := CodeTree.internal_size hint
      by_cases h3 : rest.length < 3
      · refine .inr ⟨.hdrTrunc, u, ?_, p4, hds, hpad, .inr (.inr ⟨rfl, ?_, ?_, by rw [p3]; exact h3⟩)⟩
        · rw [hparse, p1, Result.bind_done, hleaf, if_neg (by decide), Result.bind_done, padRead,
            if_pos (by rw [← p4.unread_length, p3]; exact h3)]
        · intro e
          rw [e] at p6
          have : (1 : BitVec 10).toNat = 1 := rfl
          omega
        · rw [hscan, p3, p6, Nat.zero_add]
      · have hl : (rest.take 3).length = 3 := by rw [List.length_take]; omega
        have hm := msb_ofNat_num 3 (rest.take 3) (by omega)
        rw [hl] at hm
        refine .inl ⟨t, BitVec.ofNat 3 (num (rest.take 3)), rest.drop 3, ?_, hint, by unfold Config.nodeMax; omega, ?_⟩
        · rw [hm, List.append_assoc, List.take_append_drop, ← e1, u0]
        · rw [hm, List.take_append_drop, hscan]
  · rw [e1] at hpad
    refine .inr ⟨k, u, by rw [hparse, e1]; rfl, e2, (DecStep.stores s _).trans e3, hpad, .inl ?_⟩
    have := e4 0
    rw [hz, u0] at this
    exact this

end Sys2Proof.Machine
end

