-- ==== Sys2Proof/Laws/Walking.lean ====
section
/-! SUPPORT. `TREE.WALK` on a stored tree: along given codewords, and in the ways it ends on any bits (43_decoder.md R215 to
R217). -/

namespace Sys2Proof.Machine

theorem SinkFrame.setBr {s t : State} {q : BitReader} (h : SinkFrame s (t.setBr q)) (r : BitReader) :
    SinkFrame (s.setBr r) (t.setBr r) :=
  ⟨h.params, h.arg, h.result, h.symSel, h.srcLen, h.status, h.enc, h.dec, rfl, h.scan, h.src, h.creatable, h.srcHeld,
    h.host, h.busData⟩

theorem SinkStep.setBr {s t : State} (h : SinkStep s t) (r : BitReader) : SinkStep (s.setBr r) (t.setBr r) :=
  ⟨SinkFrame.setBr (q := t.br) h.frame r, h.grows, h.counted, h.held, h.freeCount, h.accepts⟩

/-- The writer stands open on a byte boundary with a slot free, as `DECOMPRESS` keeps it (R217). -/
structure ByteWriter (s : State) : Prop where
  opened : s.bw.isOpen = true
  aligned : s.bw.free = 8
  room : s.bw.buf.length < s.params.bufBytes

/-- `call BW.WBYTE` on such a writer, in both ways it ends (40_bitwriter.md R133, R135). -/
theorem bwWbyte_bytes (b : Byte) {s : State} (h : ByteWriter s) :
    (∃ t, bwWbyte b s = .done () t ∧ SinkStep s t ∧ ByteWriter t ∧ bytesOut t = bytesOut s ++ [b] ∧
      ∀ vs, Streaming vs s → Streaming vs t) ∨
    (∃ t, bwWbyte b s = .raised ⟨.dstErr, .dstWriteFail⟩ t ∧ ¬ AcceptsBursts s ∧ SinkFrame s t ∧ t.bw.isOpen = true ∧
      ∀ vs, Streaming vs s → RefusedIn vs (bytesOut s ++ [b]) t) := by
  have hun : bwWbyte b s = bwPutByte b s := by
    unfold bwWbyte
    rw [if_pos h.opened, if_pos h.aligned]
  rw [hun]
  rcases bwPutByte_outcome b s with ⟨t, ht, h1, h2, -, h4, h5, h6⟩ | ⟨hv, t, ht, h1, -, h3, -⟩
  · refine .inl ⟨t, ht, h1, ⟨h2.trans h.opened, h4.trans h.aligned, ?_⟩, ?_, fun vs hs => ?_⟩
    · rw [h1.frame.params]; exact h6 h.room
    · apply unpack_injective
      unfold bytesOut
      rw [unpack_append, h5, unpack_append, unpack_append, unpack_cons, unpack_nil, List.append_nil]
    · exact ((bwPutByte_streams b hs).1 t ht).1
  · exact .inr ⟨t, ht, fun ha => ha.head hv, h1, h3.trans h.opened, fun vs hs => ((bwPutByte_streams b hs).2 _ t ht).1⟩

/-- The loop of R215 after a symbol at `path`: the byte is written and the walk goes on behind it, or its burst is refused. -/
theorem treeWalk_symbol {t : CodeTree} {path : Bits} {b : Byte} {fuel : Nat} {s : State} {x : List Byte} {rest : Bits}
    (h : Reading s x) (hu : unread s = path ++ rest) (hne : s.br.remaining.toNat ≠ s.dec.decPad.toNat)
    (hst : DtHolds s.dec 0 t) (hp : t.leafAt path = some b) (hw : ByteWriter s) :
    (∃ u, treeWalk (fuel + 1) s = treeWalk fuel u ∧ unread u = rest ∧ Reading u x ∧ SinkStep s (u.setBr s.br) ∧
      ByteWriter u ∧ u.dec = s.dec ∧ bytesOut u = bytesOut s ++ [b] ∧ ∀ vs, Streaming vs s → Streaming vs u) ∨
    (∃ u, treeWalk (fuel + 1) s = .raised ⟨.dstErr, .dstWriteFail⟩ u ∧ ¬ AcceptsBursts s ∧
      SinkFrame s (u.setBr s.br) ∧ u.bw.isOpen = true ∧ ∀ vs, Streaming vs s → RefusedIn vs (bytesOut s ++ [b]) u) := by
  have hrem : s.br.remaining.toNat = path.length + rest.length := by
    rw [← h.unread_length, hu, List.length_append]
  obtain ⟨s1, w1, w2, w3, w4⟩ := walkDown_done path (s.br.remaining.toNat + 1) 0 h hu hst hp (by omega)
  have hw1 : ByteWriter s1 := by rw [w4]; exact ⟨hw.opened, hw.aligned, hw.room⟩
  have hb1 : bytesOut s1 = bytesOut s := by rw [w4]; rfl
  have ha1 : AcceptsBursts s → AcceptsBursts s1 := fun ha => by rw [w4]; exact ha
  have hs1 : ∀ vs, Streaming vs s → Streaming vs s1 := fun vs hs => by rw [w4]; exact hs.congr rfl rfl rfl rfl
  have hback : s1.setBr s.br = s := by rw [w4]; rfl
  rcases bwWbyte_bytes b hw1 with ⟨u, hu1, h1, h2, h3, h4⟩ | ⟨u, hu1, h1, h2, h3, h4⟩
  · obtain ⟨r2, u2⟩ := w3.congr h1.frame.params h1.frame.br h1.frame.src h1.frame.srcLen
    refine .inl ⟨u, ?_, u2.trans w2, r2, ?_, h2, ?_, h3.trans (by rw [hb1]), fun vs hs => h4 vs (hs1 vs hs)⟩
    · rw [treeWalk, if_neg hne, w1, Result.bind_done, hu1, Result.bind_done]
    · have := h1.setBr s.br
      rwa [hback] at this
    · exact h1.frame.dec.trans (by rw [w4]; rfl)
  · refine .inr ⟨u, ?_, fun ha => h1 (ha1 ha), ?_, h3, fun vs hs => by rw [← hb1]; exact h4 vs (hs1 vs hs)⟩
    · rw [treeWalk, if_neg hne, w1, Result.bind_done, hu1, Result.bind_raised]
    · have := SinkFrame.setBr (q := u.br) h2 s.br
      rwa [hback] at this

/-- `TREE.WALK` on codewords of the stored tree with the padding after them: their symbols are written and exactly the
padding is left, or a burst is refused on the way (R215 to R217). -/
theorem treeWalk_along {t : CodeTree} (paths : List Bits) (fuel : Nat) {s : State} {x out : List Byte} {rest : Bits}
    (h : Reading s x) (hu : unread s = paths.flatten ++ rest) (hrest : rest.length = s.dec.decPad.toNat)
    (hst : DtHolds s.dec 0 t) (hi : t.internal = true) (hp : paths.map t.leafAt = out.map some)
    (hf : paths.length < fuel) (hw : ByteWriter s) :
    (∃ u, treeWalk fuel s = .done () u ∧ unread u = rest ∧ Reading u x ∧ SinkStep s (u.setBr s.br) ∧ ByteWriter u ∧
      bytesOut u = bytesOut s ++ out ∧ ∀ vs, Streaming vs s → Streaming vs u) ∨
    (∃ u, treeWalk fuel s = .raised ⟨.dstErr, .dstWriteFail⟩ u ∧ ¬ AcceptsBursts s ∧ SinkFrame s (u.setBr s.br) ∧
      u.bw.isOpen = true ∧ ∀ vs, Streaming vs s → RefusedIn vs (bytesOut s ++ out) u) := by
  induction paths generalizing fuel s out with
  | nil =>
    cases fuel with
    | zero => omega
    | succ fuel =>
      cases out with
      | cons b out => cases hp
      | nil =>
        refine .inl ⟨s, ?_, hu, h, SinkStep.refl s, hw, by simp, fun _ hs => hs⟩
        rw [treeWalk, if_pos]
        rw [← h.unread_length, hu, ← hrest]
        rfl
  | cons p paths ih =>
    cases fuel with
    | zero => omega
    | succ fuel =>
      cases out with
      | nil => cases hp
      | cons b out =>
        simp only [List.map_cons, List.cons.injEq] at hp
        obtain ⟨hpb, hp⟩ := hp
        simp only [List.flatten_cons, List.append_assoc] at hu
        have hpos := CodeTree.leafAt_pos hi hpb
        have hne : s.br.remaining.toNat ≠ s.dec.decPad.toNat := by
          rw [← h.unread_length, hu, ← hrest, List.length_append, List.length_append]; omega
        have hcat : bytesOut s ++ (b :: out) = bytesOut s ++ [b] ++ out := by simp
        rcases treeWalk_symbol (fuel := fuel) h hu hne hst hpb hw with
          ⟨u, h1, h2, h3, h4, h5, h6, h7, h8⟩ | ⟨u, h1, h2, h3, h4, h5⟩
        · rcases ih fuel h3 h2 (by rw [h6]; exact hrest) (by rw [h6]; exact hst) hp
            (by simp only [List.length_cons] at hf; omega) h5 with
            ⟨v, k1, k2, k3, k4, k5, k6, k7⟩ | ⟨v, k1, k2, k3, k4, k5⟩
          · refine .inl ⟨v, h1.trans k1, k2, k3, h4.trans (k4.setBr s.br), k5, ?_, fun vs hs => k7 vs (h8 vs hs)⟩
            rw [k6, h7, hcat]
          · refine .inr ⟨v, h1.trans k1, fun ha => k2 (h4.accepts ha), ?_, k4, fun vs hs => ?_⟩
            · exact h4.frame.trans (SinkFrame.setBr k3 s.br)
            · rw [hcat, ← h7]; exact k5 vs (h8 vs hs)
        · refine .inr ⟨u, h1, h2, h3, h4, fun vs hs => (h5 vs hs).mono ?_⟩
          rw [hcat]; exact List.prefix_append _ _

/-- The inner loop of `TREE.WALK` on any bits: they begin with a codeword, or it runs out of them (R215, R216). -/
theorem walkDown_outcome (t : CodeTree) (fuel : Nat) (i : NodeId) {s : State} {x : List Byte}
    (h : Reading s x) (hst : DtHolds s.dec i t) (hf : s.br.remaining.toNat < fuel) :
    (∃ path b rest, unread s = path ++ rest ∧ t.leafAt path = some b) ∨
    (∃ u, walkDown fuel i s = .raised ⟨.decodeFault, .payloadTrunc⟩ u ∧ u.br.remaining = 0 ∧ u = s.setBr u.br) := by
  induction t generalizing fuel i s with
  | leaf c => exact .inl ⟨[], c, unread s, rfl, rfl⟩
  | node l r ihl ihr =>
    obtain ⟨a3, -, -, a4, a5⟩ := hst
    cases fuel with
    | zero => omega
    | succ fuel =>
      cases hun : unread s with
      | nil =>
        have h0 : s.br.remaining = 0 := by
          apply BitVec.eq_of_toNat_eq
          rw [← h.unread_length, hun]; rfl
        exact .inr ⟨s, by rw [walkDown, a3, if_neg (by decide), if_pos h0], h0, rfl⟩
      | cons d rest =>
        have hlen := h.unread_length
        rw [hun, List.length_cons] at hlen
        have h0 : s.br.remaining ≠ 0 := fun e => by rw [e] at hlen; exact absurd hlen (Nat.succ_ne_zero _)
        obtain ⟨s1, h1, u1, r1, d1⟩ := brRbit_reads h hun
        have hd : s1.dec = s.dec := by rw [d1]; rfl
        have hwd : walkDown (fuel + 1) i s =
            walkDown fuel (if d then (dtAt s1.dec i).left else (dtAt s1.dec i).right) s1 := by
          rw [walkDown, a3, if_neg (by decide), if_neg h0, h1, Result.bind_done]
        have hf1 : s1.br.remaining.toNat < fuel := by
          rw [← r1.unread_length, u1]; omega
        rw [hwd]
        cases d with
        | true =>
          rcases ihl fuel (dtAt s1.dec i).left r1 (by rw [hd]; exact a4) hf1 with ⟨p, b, q, e1, e2⟩ | ⟨u, e1, e2, e3⟩
          · exact .inl ⟨true :: p, b, q, by rw [← u1, e1]; rfl, e2⟩
          · exact .inr ⟨u, e1, e2, by rw [e3, d1]; rfl⟩
        | false =>
          rcases ihr fuel (dtAt s1.dec i).right r1 (by rw [hd]; exact a5) hf1 with ⟨p, b, q, e1, e2⟩ | ⟨u, e1, e2, e3⟩
          · exact .inl ⟨false :: p, b, q, by rw [← u1, e1]; rfl, e2⟩
          · exact .inr ⟨u, e1, e2, by rw [e3, d1]; rfl⟩

/-- `TREE.WALK` on any bits (R216): they are codewords with exactly the padding after them, or it runs out of bits, or a burst
is refused on the way. -/
theorem treeWalk_outcome {t : CodeTree} (fuel : Nat) {s : State} {x : List Byte} (h : Reading s x)
    (hst : DtHolds s.dec 0 t) (hi : t.internal = true) (hf : s.br.remaining.toNat < fuel) (hw : ByteWriter s) :
    (∃ (paths : List Bits) (out : List Byte) (rest : Bits), unread s = paths.flatten ++ rest ∧
      rest.length = s.dec.decPad.toNat ∧ paths.map t.leafAt = out.map some) ∨
    (∃ u, treeWalk fuel s = .raised ⟨.decodeFault, .payloadTrunc⟩ u ∧ u.br.remaining = 0 ∧ SinkFrame s (u.setBr s.br) ∧
      u.bw.isOpen = true) ∨
    (∃ u, treeWalk fuel s = .raised ⟨.dstErr, .dstWriteFail⟩ u ∧ ¬ AcceptsBursts s ∧ SinkFrame s (u.setBr s.br)) := by
  induction fuel generalizing s with
  | zero => omega
  | succ fuel ih =>
    by_cases hne : s.br.remaining.toNat = s.dec.decPad.toNat
    · exact .inl ⟨[], [], unread s, rfl, h.unread_length.trans hne, rfl⟩
    · rcases walkDown_outcome t (s.br.remaining.toNat + 1) 0 h hst (by omega) with
        ⟨p, b, rest, e1, e2⟩ | ⟨u, e1, e2, e3⟩
      · have hpos := CodeTree.leafAt_pos hi e2
        rcases treeWalk_symbol (fuel := fuel) h e1 hne hst e2 hw with
          ⟨u, h1, h2, h3, h4, h5, h6, -, -⟩ | ⟨u, h1, h2, h3, -⟩
        · have hfu : u.br.remaining.toNat < fuel := by
            rw [← h3.unread_length, h2]
            have := h.unread_length
            rw [e1, List.length_append] at this
            omega
          rw [h1]
          rcases ih h3 (by rw [h6]; exact hst) hfu h5 with
            ⟨ps, out, r, k1, k2, k3⟩ | ⟨v, k1, k2, k3, k4⟩ | ⟨v, k1, k2, k3⟩
          · refine .inl ⟨p :: ps, b :: out, r, ?_, by rw [← h6]; exact k2, by simp [e2, k3]⟩
            rw [e1, ← h2, k1, List.flatten_cons, List.append_assoc]
          · exact .inr (.inl ⟨v, k1, k2, h4.frame.trans (SinkFrame.setBr k3 s.br), k4⟩)
          · exact .inr (.inr ⟨v, k1, fun ha => k2 (h4.accepts ha), h4.frame.trans (SinkFrame.setBr k3 s.br)⟩)
        · exact .inr (.inr ⟨u, h1, h2, h3⟩)
      · refine .inr (.inl ⟨u, ?_, e2, ?_, ?_⟩)
        · rw [treeWalk, if_neg hne, e1, Result.bind_raised]
        · rw [show u.setBr s.br = s by rw [e3]; rfl]; exact SinkFrame.refl s
        · rw [e3]; exact hw.opened

end Sys2Proof.Machine
end

