-- ==== Sys2Proof/Laws/Decompress.lean ====
section
/-! SUPPORT. What the body of `DECOMPRESS` leaves on a well-formed container, on a header that is refused and on a payload that
runs out, and that the container of a source is well formed (43_decoder.md R211 to R218). -/

namespace Sys2Proof.Machine

/-- The state in which `DECOMPRESS` starts to parse (R211). -/
def decompressOpened (s : State) (x : List Byte) : State :=
  { s with
    regs := { s.regs with srcLen := BitVec.ofNat 32 x.length, dstLen := 0 }
    br := { isOpen := true, buf := [], pos := 0, bit := 0, off := 0, remaining := BitVec.ofNat 35 (8 * x.length) }
    bw := { isOpen := true, buf := [], cur := 0, free := 8 }
    env := { s.env with srcHeld := true, dst := [], dstHeld := true } }

theorem decompressBody_opened {s : State} {x : List Byte} (hi : s.idle) (hx : s.env.src = some x)
    (hl : x.length ≤ Config.lenMax) (hc : s.env.dstCreatable = true) :
    decompressBody s = decompressRun (decompressOpened s x) := by
  have hlen : (BitVec.ofNat 32 x.length).toNat = x.length := ofNat_length hl
  have h1 : brOpen s = .done () (((s.setRegs { s.regs with srcLen := BitVec.ofNat 32 x.length }).setEnv
      { s.env with srcHeld := true }).setBr
        { isOpen := true, buf := [], pos := 0, bit := 0, off := 0, remaining := BitVec.ofNat 35 (8 * x.length) }) := by
    unfold brOpen
    rw [if_neg (by rw [hi.2]; decide), srcOpen_present hx]
    simp only [State.setEnv_regs, State.setRegs_regs, hlen]
  unfold decompressBody
  rw [h1]
  dsimp only
  have h2 : bwOpen (((s.setRegs { s.regs with srcLen := BitVec.ofNat 32 x.length }).setEnv
      { s.env with srcHeld := true }).setBr
        { isOpen := true, buf := [], pos := 0, bit := 0, off := 0, remaining := BitVec.ofNat 35 (8 * x.length) }) =
      .done () (decompressOpened s x) := by
    unfold bwOpen
    rw [if_neg (by show ¬ s.bw.isOpen = true; rw [hi.1]; decide), dstOpen_creatable (by exact hc)]
    rfl
  rw [h2, Result.bind_done]

theorem decompressOpened_reading {s : State} {x : List Byte} (hp : s.params.wf) (hx : s.env.src = some x)
    (hl : x.length ≤ Config.lenMax) :
    Reading (decompressOpened s x) x ∧ unread (decompressOpened s x) = unpack x := by
  have hlen : (BitVec.ofNat 32 x.length).toNat = x.length := ofNat_length hl
  refine ⟨⟨hp, rfl, hx, hlen, Nat.zero_le _, Nat.le_refl _, Nat.zero_le _, fun h => absurd rfl h, ?_⟩, ?_⟩
  · show (BitVec.ofNat 35 (8 * x.length)).toNat + 0 = 8 * ((BitVec.ofNat 32 x.length).toNat - 0) + 8 * (0 - 0)
    rw [hlen, BitVec.toNat_ofNat, Nat.mod_eq_of_lt]
    · omega
    · unfold Config.lenMax at hl; omega
  · show ([] : Bits).drop 0 ++ unpack ((s.env.src.getD []).drop 0) = unpack x
    rw [hx]; rfl

/-- Parsing, reading and walking touch neither the status nor the encoder nor the source (R211). -/
structure DecompressLeaves (s u : State) : Prop where
  params : u.params = s.params
  status : u.status = s.status
  enc : u.enc = s.enc
  src : u.env.src = s.env.src

/-- A refused burst is one the environment does not accept. -/
theorem RefusedIn.not_accepts {s t : State} {y : List Byte} (h : RefusedIn s.env.verdicts y t) : ¬ AcceptsBursts s := by
  obtain ⟨k, -, h1, -⟩ := h
  intro ha
  have := ha false (List.mem_of_getElem? h1)
  cases this

/-- The two closes at the end, on a byte boundary (R211; 40_bitwriter.md R134): all bytes are in DST, or the last burst is the
refused one. -/
theorem closeBoth_outcome {vs : List Bool} {s : State} (hw : ByteWriter s) (hr : s.br.isOpen = true)
    (hs : Streaming vs s) :
    (∃ u, ((bwClose s).bind fun _ t => brClose t) = .done () u ∧ u.env.dst = bytesOut s ∧
      u.br.remaining = s.br.remaining ∧ u.dec = s.dec ∧ Released u ∧ DecompressLeaves s u ∧
      u.regs.dstLen = s.regs.dstLen + BitVec.ofNat 32 (u.env.dst.length - s.env.dst.length) ∧
      ∀ i, vs[i]? = some false → (∀ j < i, vs[j]? ≠ some false) → (bytesOut s).length ≤ i * s.params.bufBytes) ∨
    (∃ u, ((bwClose s).bind fun _ t => brClose t) = .raised ⟨.dstErr, .dstWriteFail⟩ (bwRelease u) ∧ SinkFrame s u ∧
      RefusedIn vs (bytesOut s) u) := by
  have hout : s.env.dst ++ flushBytes s.bw = bytesOut s := by
    unfold flushBytes bytesOut
    rw [if_pos hw.aligned]
  rcases bwClose_streams hw.room hw.opened hs with ⟨u, h1, h2, h3, h4⟩ | ⟨u, h1, h2, h3⟩
  · rw [h1, Result.bind_done]
    have ff := h2.frame
    rw [hout] at h3 h4
    refine .inl ⟨srcClose ((bwRelease u).setBr { (bwRelease u).br with isOpen := false }), ?_, h3, ?_, ff.dec,
      ⟨rfl, rfl, rfl, rfl⟩, ⟨ff.params, ff.status, ff.enc, ff.src⟩, h2.counted, h4⟩
    · unfold brClose
      rw [if_pos]
      exact (congrArg BitReader.isOpen ff.br).trans hr
    · show u.br.remaining = _
      rw [ff.br]
  · rw [hout] at h3
    exact .inr ⟨u, by rw [h1, Result.bind_raised], h2, h3⟩

/-- The body of `DECOMPRESS` behind a header with an internal root and its padding length: what is left is the walk over the
payload and the closes (R211 to R214). -/
theorem decompressBody_walks {s : State} {c : List Byte} {t : CodeTree} {pad : BitVec 3} {rest : Bits} (hp : s.params.wf)
    (hi : s.idle) (hx : s.env.src = some c) (hl : c.length ≤ Config.lenMax) (hc : s.env.dstCreatable = true)
    (hu : unpack c = t.header ++ msb pad 3 ++ rest) (ht : t.internal = true) (hn : t.size ≤ Config.nodeMax) :
    ∃ v, decompressBody s = ((treeWalk (v.br.remaining.toNat + 1) v).bind fun _ w =>
        (bwClose w).bind fun _ y => brClose y) ∧
      Reading v c ∧ unread v = rest ∧ TreeRead v.dec t pad ∧ ByteWriter v ∧
      Streaming s.env.verdicts v ∧ bytesOut v = [] ∧ v.env.verdicts = s.env.verdicts ∧
      DecStep (decompressOpened s c) v := by
  obtain ⟨r0, u0⟩ := decompressOpened_reading (s := s) hp hx hl
  rw [hu, List.append_assoc] at u0
  obtain ⟨s1, p1, p2, p3, p4, p5, p6⟩ := hdrParse_done r0 u0 hn ht
  obtain ⟨s2, q1, q2, q3, q4, q5⟩ := padRead_done p3 p2
  have e2 : s2 = ((decompressOpened s c).setBr s2.br).setDec s2.dec := p4.trans q4
  have hbw : s2.bw = { isOpen := true, buf := [], cur := 0, free := 8 } := by rw [e2]; rfl
  have henv : s2.env = (decompressOpened s c).env := by rw [e2]; rfl
  have hpar : s2.params = s.params := by rw [e2]; rfl
  have hregs : s2.regs.dstLen = 0 := by rw [e2]; rfl
  refine ⟨s2, ?_, q3, q2, ?_, ?_, ?_, ?_, by rw [henv]; rfl, e2⟩
  · rw [decompressBody_opened hi hx hl hc]
    unfold decompressRun
    rw [p1, Result.bind_done, q1, Result.bind_done]
  · rw [q5]; exact ⟨p5.congr fun _ _ _ => rfl, p6, rfl⟩
  · refine ⟨by rw [hbw], by rw [hbw], ?_⟩
    rw [hbw, hpar]
    exact Nat.lt_of_lt_of_le (by decide) hp.1
  · refine ⟨0, ?_, ?_, fun j h => (by omega), ?_⟩
    · rw [henv]; simp [decompressOpened]
    · rw [henv]; rfl
    · rw [hregs]; simp
  · unfold bytesOut; rw [hbw, henv]; rfl

/-- The codewords of a payload take a bit each at least. -/
theorem paths_length {t : CodeTree} (hi : t.internal = true) (ps : List Bits) (o : List Byte)
    (h : ps.map t.leafAt = o.map some) : ps.length ≤ ps.flatten.length := by
  induction ps generalizing o with
  | nil => exact Nat.zero_le _
  | cons p ps ih =>
    cases o with
    | nil => cases h
    | cons b o =>
      simp only [List.map_cons, List.cons.injEq] at h
      have h1 := CodeTree.leafAt_pos hi h.1
      have h2 := ih o h.2
      simp only [List.length_cons, List.flatten_cons, List.length_append]
      omega

theorem DecStep.leaves {s v : State} {c : List Byte} (h : DecStep (decompressOpened s c) v) : DecompressLeaves s v := by
  rw [show v = ((decompressOpened s c).setBr v.br).setDec v.dec from h]
  exact ⟨rfl, rfl, rfl, rfl⟩

theorem DecompressLeaves.trans {s t u : State} (h : DecompressLeaves s t) (g : DecompressLeaves t u) :
    DecompressLeaves s u :=
  ⟨g.params.trans h.params, g.status.trans h.status, g.enc.trans h.enc, g.src.trans h.src⟩

theorem SinkFrame.leaves {s t : State} {r : BitReader} (h : SinkFrame s (t.setBr r)) : DecompressLeaves s t :=
  ⟨h.params, h.status, h.enc, h.src⟩

/-- The body of `DECOMPRESS` on a well-formed container (R211 to R218): all is decoded and no verdict asked for was a refusal,
or a burst is refused. -/
theorem decompressBody_spells {s : State} {c out : List Byte} (hp : s.params.wf) (hi : s.idle)
    (hx : s.env.src = some c) (hl : c.length ≤ Config.lenMax) (hc : s.env.dstCreatable = true) {t : CodeTree} {pad : BitVec 3}
    (hs : SpellsBy c t pad out) :
    (∃ u, decompressBody s = .done () u ∧ u.env.dst = out ∧ TreeRead u.dec t pad ∧ u.br.remaining.toNat = pad.toNat ∧
      Released u ∧ DecompressLeaves s u ∧ u.regs.dstLen = BitVec.ofNat 32 out.length ∧
      ∀ i, RefusesBurst s i → out.length ≤ i * s.params.bufBytes) ∨
    (∃ u, decompressBody s = .raised ⟨.dstErr, .dstWriteFail⟩ u ∧ (u.bw.isOpen = true ∨ ∃ v, u = bwRelease v) ∧
      DecompressLeaves s u ∧ TreeRead u.dec t pad ∧ RefusedIn s.env.verdicts out u) := by
  obtain ⟨paths, rest, t1, t2, t3, t4, t5⟩ := hs
  rw [List.append_assoc] at t3
  obtain ⟨v, h1, h2, h3, h4, h6, h7, h8, h9, h10⟩ := decompressBody_walks hp hi hx hl hc t3 t1 t2
  have hlen : paths.length < v.br.remaining.toNat + 1 := by
    rw [← h2.unread_length, h3, List.length_append]
    have := paths_length t1 paths out t5
    omega
  rw [h1]
  rcases treeWalk_along paths _ h2 h3 (by rw [h4.decPad]; exact t4) h4.tree t1 t5 hlen h6 with
    ⟨w, w1, w2, w3, w4, w5, w6, w7⟩ | ⟨w, w1, w2, w3, w4, w5⟩
  · rw [w1, Result.bind_done]
    rw [h8, List.nil_append] at w6
    have hsw := w7 _ h7
    have hl1 : DecompressLeaves s w := h10.leaves.trans (SinkFrame.leaves (r := v.br) w4.frame)
    rcases closeBoth_outcome w5 w3.opened hsw with ⟨u, c1, c2, c3, c4, c5, c6, c7, c8⟩ | ⟨u, c1, c2, c3⟩
    · refine .inl ⟨u, c1, c2.trans w6, ?_, ?_, c5, hl1.trans c6, ?_, fun i hi => ?_⟩
      · rw [c4, show w.dec = v.dec from w4.frame.dec]; exact h4
      · rw [c3, ← w3.unread_length, w2, t4]
      · obtain ⟨k, k1, -, -, k4⟩ := hsw
        rw [c7, k4, ← k1, c2, ← BitVec.ofNat_add, w6]
        congr 1
        have : w.env.dst.length ≤ out.length := by
          rw [← w6]; unfold bytesOut; rw [List.length_append]; omega
        omega
      · rw [← w6, ← hl1.params]; exact c8 i hi.1 hi.2
    · refine .inr ⟨bwRelease u, c1, .inr ⟨u, rfl⟩, ?_, ?_, ?_⟩
      · exact hl1.trans ⟨c2.params, c2.status, c2.enc, c2.src⟩
      · show TreeRead u.dec t pad
        rw [c2.dec, show w.dec = v.dec from w4.frame.dec]; exact h4
      · rw [w6] at c3; exact c3.congr rfl rfl rfl rfl
  · rw [w1, Result.bind_raised]
    rw [h8, List.nil_append] at w5
    exact .inr ⟨w, rfl, .inl w4, h10.leaves.trans w3.leaves, by rw [show w.dec = v.dec from w3.dec]; exact h4, w5 _ h7⟩

/-- The body of `DECOMPRESS` behind a good header, on a container that is not well formed (R216): the bits run out, or a burst
is refused before. -/
theorem decompressBody_runsOut {s : State} {c : List Byte} {t : CodeTree} {pad : BitVec 3} {rest : Bits} (hp : s.params.wf)
    (hi : s.idle) (hx : s.env.src = some c) (hl : c.length ≤ Config.lenMax) (hc : s.env.dstCreatable = true)
    (hu : unpack c = t.header ++ msb pad 3 ++ rest) (ht : t.internal = true) (hn : t.size ≤ Config.nodeMax)
    (hno : ∀ out, ¬ SpellsOut c out) :
    (∃ u, decompressBody s = .raised ⟨.decodeFault, .payloadTrunc⟩ u ∧ u.br.remaining = 0 ∧ TreeRead u.dec t pad ∧
      u.bw.isOpen = true ∧ DecompressLeaves s u) ∨
    (∃ u, decompressBody s = .raised ⟨.dstErr, .dstWriteFail⟩ u ∧ ¬ AcceptsBursts s ∧ DecompressLeaves s u) := by
  obtain ⟨v, h1, h2, h3, h4, h6, h7, h8, h9, h10⟩ := decompressBody_walks hp hi hx hl hc hu ht hn
  rw [h1]
  rcases treeWalk_outcome (v.br.remaining.toNat + 1) h2 h4.tree ht (by omega) h6 with
    ⟨paths, out, r, e1, e2, e3⟩ | ⟨u, e1, e2, e3, e4⟩ | ⟨u, e1, e2, e3⟩
  · refine absurd ⟨t, pad, paths, r, ht, hn, ?_, by rw [← h4.decPad]; exact e2, e3⟩ (hno out)
    rw [hu, ← h3, e1, List.append_assoc, List.append_assoc, List.append_assoc]
  · rw [e1, Result.bind_raised]
    have hd : TreeRead (u.setBr v.br).dec t pad := by rw [e3.dec]; exact h4
    exact .inl ⟨u, rfl, e2, hd, e4, h10.leaves.trans e3.leaves⟩
  · rw [e1, Result.bind_raised]
    exact .inr ⟨u, rfl, fun ha => e2 (by unfold AcceptsBursts; rw [h9]; exact ha), h10.leaves.trans e3.leaves⟩

/-- The body of `DECOMPRESS` on a header that is refused (R212 to R214, R256). -/
theorem decompressBody_header {s : State} {c : List Byte} (hp : s.params.wf) (hi : s.idle) (hx : s.env.src = some c)
    (hl : c.length ≤ Config.lenMax) (hc : s.env.dstCreatable = true) :
    (∃ (t : CodeTree) (pad : BitVec 3) (rest : Bits), unpack c = t.header ++ msb pad 3 ++ rest ∧ t.internal = true ∧
      t.size ≤ Config.nodeMax ∧ scanHeader 1 0 (unpack c) = .whole t.size (msb pad 3 ++ rest)) ∨
    (∃ k u, decompressBody s = .raised ⟨.sourceErr, k⟩ u ∧ u.br.remaining.toNat = (unread u).length ∧
      DecStep (decompressOpened s c) u ∧ u.dec.decPad = s.dec.decPad ∧
      (StopsAs k u (scanHeader 1 0 (unpack c)) ∨
        (k = .hdrRootLeaf ∧ u.dec.dtN = 1 ∧ scanHeader 1 0 (unpack c) = .whole 1 (unread u)) ∨
        (k = .hdrTrunc ∧ u.dec.dtN ≠ 1 ∧ scanHeader 1 0 (unpack c) = .whole u.dec.dtN.toNat (unread u) ∧
          (unread u).length < 3))) := by
  obtain ⟨r0, u0⟩ := decompressOpened_reading (s := s) hp hx hl
  rcases header_outcome r0 with ⟨t, pad, rest, e1, e2, e3, e4⟩ | ⟨k, u, e1, e2, e3, e4, e5⟩
  · rw [u0] at e1 e4
    exact .inl ⟨t, pad, rest, e1, e2, e3, e4⟩
  · rw [u0] at e5
    refine .inr ⟨k, u, ?_, e2.unread_length.symm, e3, e4, e5⟩
    rw [decompressBody_opened hi hx hl hc]
    unfold decompressRun
    rw [← Result.bind_assoc, e1, Result.bind_raised]

/-- Any byte is one bit and seven more, and with the next bit's eight it starts a leaf (R212, R213). -/
theorem unpack_leaf (b0 b1 : Byte) (x : List Byte) (h : b0.getLsbD 7 = true) :
    ∃ (b : Byte) (rest : Bits), unpack (b0 :: b1 :: x) = (true :: msb b 8) ++ rest ∧
      rest.length = 8 * (x.length + 2) - 9 := by
  have hlen : (unpack (b0 :: b1 :: x)).length = 8 * (x.length + 2) := by
    rw [unpack_length]; rfl
  have hcons : unpack (b0 :: b1 :: x) = true :: (unpack (b0 :: b1 :: x)).drop 1 := by
    conv_lhs => rw [unpack_cons, show msb b0 8 = b0.getLsbD 7 :: msb b0 7 from rfl, h]
    rfl
  generalize unpack (b0 :: b1 :: x) = u at hlen hcons ⊢
  refine ⟨BitVec.ofNat 8 (num ((u.drop 1).take 8)), (u.drop 1).drop 8, ?_, ?_⟩
  · have h8 : ((u.drop 1).take 8).length = 8 := by
      rw [List.length_take, List.length_drop]; omega
    have := msb_ofNat_num 8 ((u.drop 1).take 8) (by omega)
    rw [h8] at this
    rw [this, List.cons_append, List.take_append_drop]
    exact hcons
  · rw [List.length_drop, List.length_drop]; omega

/-- The codewords of a source lead back to its symbols (R99, R103). -/
theorem payload_paths {t : CodeTree} {x : List Byte} (h : ∀ b ∈ x, b ∈ t.leaves) :
    payloadBits t x = (x.map fun b => (t.codeword b).getD []).flatten ∧
      (x.map fun b => (t.codeword b).getD []).map t.leafAt = x.map some := by
  refine ⟨List.flatMap_def, ?_⟩
  rw [List.map_map]
  apply List.map_congr_left
  intro b hb
  obtain ⟨q, hq⟩ := Option.isSome_iff_exists.mp ((t.codeword_isSome b).mpr (h b hb))
  simp only [Function.comp, hq, Option.getD_some]
  exact CodeTree.leafAt_codeword hq

end Sys2Proof.Machine
end

