-- ==== Sys2Proof/Laws/TreeStore.lean ====
section
/-! SUPPORT. The encoder's node store holds the Huffman tree of the counted source: the queue of node ids and the queue of
trees go through the same rounds (42_encoder.md R174 to R176). -/

namespace Sys2Proof.Machine

variable {tie : Config.TieRule}

theorem etAt_setEt (e : Encoder) (i j : NodeId) (n : EtNode) (h : i.toNat < 511) :
    etAt (setEt i n e) j = if i = j then n else etAt e j := by
  unfold etAt setEt
  dsimp only
  by_cases hj : j.toNat < 511
  · rw [dif_pos hj, dif_pos hj, Vector.getElem_setIfInBounds]
    by_cases hij : i = j
    · subst hij; simp
    · rw [if_neg hij, if_neg (fun hh => hij (BitVec.eq_of_toNat_eq hh))]
  · rw [dif_neg hj, dif_neg hj, if_neg (show ¬ i = j from fun hh => hj (hh ▸ h))]

/-- The subtree at `i` of the node store is the tree `t`, all of its node ids below `n` (10_state.md R28). -/
def Holds (e : Encoder) (n : Nat) (i : NodeId) : CodeTree → Prop
  | .leaf b => i.toNat < n ∧ (etAt e i).leaf = true ∧ (etAt e i).sym = b
  | .node l r => i.toNat < n ∧ (etAt e i).leaf = false ∧ Holds e n (etAt e i).left l ∧ Holds e n (etAt e i).right r

theorem Holds.lt {e : Encoder} {n : Nat} {i : NodeId} {t : CodeTree} (h : Holds e n i t) : i.toNat < n := by
  cases t <;> exact h.1

theorem Holds.mono {e : Encoder} {n m : Nat} {i : NodeId} {t : CodeTree} (h : Holds e n i t) (hm : n ≤ m) :
    Holds e m i t := by
  induction t generalizing i with
  | leaf b => exact ⟨by have := h.1; omega, h.2⟩
  | node l r ihl ihr => exact ⟨by have := h.1; omega, h.2.1, ihl h.2.2.1, ihr h.2.2.2⟩

/-- Only the entries below the bound matter. -/
theorem Holds.congr {e f : Encoder} {n : Nat} {i : NodeId} {t : CodeTree} (h : Holds e n i t)
    (hf : ∀ j : NodeId, j.toNat < n → etAt f j = etAt e j) : Holds f n i t := by
  induction t generalizing i with
  | leaf b => exact ⟨h.1, by rw [hf i h.1]; exact h.2.1, by rw [hf i h.1]; exact h.2.2⟩
  | node l r ihl ihr =>
    refine ⟨h.1, by rw [hf i h.1]; exact h.2.1, ?_, ?_⟩
    · rw [hf i h.1]; exact ihl h.2.2.1
    · rw [hf i h.1]; exact ihr h.2.2.2

/-- A node id of the queue stands for a tree of the tree queue: same key, same tree (R175). -/
structure Stands (e : Encoder) (n : Nat) (i : NodeId) (a : QueueEntry) : Prop where
  id : i.toNat = a.id
  weight : (etAt e i).weight.toNat = a.weight
  depth : (etAt e i).depth.toNat = a.depth
  tree : Holds e n i a.tree

theorem Stands.congr {e f : Encoder} {n m : Nat} {i : NodeId} {a : QueueEntry} (h : Stands e n i a) (hm : n ≤ m)
    (hf : ∀ j : NodeId, j.toNat < n → etAt f j = etAt e j) : Stands f m i a :=
  ⟨h.id, by rw [hf i h.tree.lt]; exact h.weight, by rw [hf i h.tree.lt]; exact h.depth,
    (h.tree.congr hf).mono hm⟩

theorem Stands.key {e : Encoder} {n : Nat} {i : NodeId} {a : QueueEntry} (h : Stands e n i a) : keyAt e i = queueKey a := by
  unfold keyAt queueKey
  rw [h.weight, h.depth, h.id]

theorem Stands.keyLt {e : Encoder} {n : Nat} {i j : NodeId} {a b : QueueEntry} (h : Stands e n i a)
    (g : Stands e n j b) : keyLt tie e i j = queueBefore tie a b := by
  unfold Machine.keyLt queueBefore
  rw [h.key, g.key]

/-- The two queues insert at the same place (R175). -/
theorem pqInsert_stands {e : Encoder} {n : Nat} {i : NodeId} {a : QueueEntry} {p : List NodeId} {q : List QueueEntry}
    (h : Stands e n i a) (hq : List.Forall₂ (Stands e n) p q) :
    List.Forall₂ (Stands e n) (pqInsert tie e i p) (queueInsert tie a q) := by
  induction hq with
  | nil => exact .cons h .nil
  | cons hb hq ih =>
    unfold pqInsert queueInsert
    rw [h.keyLt hb]
    split
    · exact .cons h (.cons hb hq)
    · exact .cons hb ih

theorem pqInsert_congr {e f : Encoder} {i : NodeId} {p : List NodeId} (h : ∀ j, etAt f j = etAt e j) :
    pqInsert tie f i p = pqInsert tie e i p := by
  have : ∀ j, keyLt tie f i j = keyLt tie e i j := fun j => by unfold keyLt keyAt; rw [h, h]
  induction p with
  | nil => rfl
  | cons j p ih => unfold pqInsert; rw [this, ih]

theorem forall₂_stands_congr {e f : Encoder} {n m : Nat} {p : List NodeId} {q : List QueueEntry}
    (h : List.Forall₂ (Stands e n) p q) (hm : n ≤ m) (hf : ∀ j : NodeId, j.toNat < n → etAt f j = etAt e j) :
    List.Forall₂ (Stands f m) p q :=
  h.imp fun _ _ g => g.congr hm hf

/-! Seeding (R174). -/

theorem leafId_toNat (b : Byte) : (leafId b).toNat = b.toNat := by
  unfold leafId
  rw [BitVec.toNat_setWidth, Nat.mod_eq_of_lt]
  have := b.isLt; omega

/-- What seeding and merging leave alone (R174, R176). -/
structure BuildFrame (e f : Encoder) : Prop where
  sym : f.sym = e.sym
  hdr : f.hdr = e.hdr
  hdrBits : f.hdrBits = e.hdrBits
  encPad : f.encPad = e.encPad
  nsym : f.nsym = e.nsym
  total : f.total = e.total

theorem BuildFrame.refl (e : Encoder) : BuildFrame e e := ⟨rfl, rfl, rfl, rfl, rfl, rfl⟩

theorem BuildFrame.trans {e f g : Encoder} (h : BuildFrame e f) (k : BuildFrame f g) : BuildFrame e g :=
  ⟨k.sym.trans h.sym, k.hdr.trans h.hdr, k.hdrBits.trans h.hdrBits, k.encPad.trans h.encPad, k.nsym.trans h.nsym,
    k.total.trans h.total⟩

theorem symAt_congr {e f : Encoder} (h : f.sym = e.sym) (b : Byte) : symAt f b = symAt e b := by
  unfold symAt; simp only [h]

theorem seedLeaf_frame (e : Encoder) (b : Byte) : BuildFrame e (seedLeaf tie e b) ∧ (seedLeaf tie e b).etNext = e.etNext := by
  unfold seedLeaf
  split
  · exact ⟨BuildFrame.refl e, rfl⟩
  · exact ⟨⟨rfl, rfl, rfl, rfl, rfl, rfl⟩, rfl⟩

/-- One round of seeding on both queues (R174). -/
theorem seedLeaf_stands {e : Encoder} {x : List Byte} {b : Byte} {q : List QueueEntry}
    (hc : ∀ b, (symAt e b).count.toNat = x.count b) (h : List.Forall₂ (Stands e b.toNat) e.pq q) :
    List.Forall₂ (Stands (seedLeaf tie e b) (b.toNat + 1)) (seedLeaf tie e b).pq
      (if x.count b = 0 then q else queueInsert tie ⟨x.count b, 0, b.toNat, .leaf b⟩ q) := by
  unfold seedLeaf
  have hz : (symAt e b).count = 0 ↔ x.count b = 0 := by
    rw [← hc b]
    constructor
    · intro h; rw [h]; rfl
    · intro h; exact BitVec.eq_of_toNat_eq h
  by_cases h0 : x.count b = 0
  · rw [if_pos h0, if_pos (hz.mpr h0)]
    exact forall₂_stands_congr h (by omega) fun _ _ => rfl
  · rw [if_neg h0, if_neg (fun h => h0 (hz.mp h))]
    dsimp only
    have hlt : (leafId b).toNat < 511 := by rw [leafId_toNat]; have := b.isLt; omega
    have hne : ∀ j : NodeId, j.toNat < b.toNat → leafId b ≠ j := by
      intro j hj e; rw [← e, leafId_toNat] at hj; omega
    have hat := etAt_setEt e (leafId b) (leafId b)
      { etAt e (leafId b) with leaf := true, sym := b, weight := (symAt e b).count, depth := 0 } hlt
    rw [if_pos rfl] at hat
    have hold : ∀ j : NodeId, j.toNat < b.toNat → etAt (setEt (leafId b)
        { etAt e (leafId b) with leaf := true, sym := b, weight := (symAt e b).count, depth := 0 } e) j = etAt e j := by
      intro j hj
      rw [etAt_setEt _ _ _ _ hlt, if_neg (hne j hj)]
    generalize hE : setEt (leafId b)
      { etAt e (leafId b) with leaf := true, sym := b, weight := (symAt e b).count, depth := 0 } e = E at *
    have hpq : E.pq = e.pq := by rw [← hE]; rfl
    have hnew : Stands E (b.toNat + 1) (leafId b) ⟨x.count b, 0, b.toNat, .leaf b⟩ := by
      refine ⟨leafId_toNat b, ?_, ?_, ?_, ?_, ?_⟩
      · rw [hat]; exact hc b
      · rw [hat]; rfl
      · rw [leafId_toNat]; omega
      · rw [hat]
      · rw [hat]
    have hq := pqInsert_stands (tie := tie) hnew (forall₂_stands_congr h (by omega : b.toNat ≤ b.toNat + 1) hold)
    rw [hpq]
    exact hq.imp fun _ _ g => g.congr (Nat.le_refl _) fun _ _ => rfl

/-- After seeding the two queues stand for each other (R174). -/
theorem seedLeaves_stands {e : Encoder} {x : List Byte} (hc : ∀ b, (symAt e b).count.toNat = x.count b) :
    List.Forall₂ (Stands (seedLeaves tie e) 256) (seedLeaves tie e).pq (queueOf tie x) ∧
      BuildFrame e (seedLeaves tie e) ∧ (seedLeaves tie e).etNext = 256 := by
  have key : ∀ (k : Nat), k ≤ 256 → ∀ (E : Encoder) (q : List QueueEntry),
      (∀ b, (symAt E b).count.toNat = x.count b) → List.Forall₂ (Stands E 0) E.pq q →
      let l := (List.range k).map (BitVec.ofNat 8)
      List.Forall₂ (Stands (l.foldl (seedLeaf tie) E) k) (l.foldl (seedLeaf tie) E).pq
        (l.foldl (fun q b => if x.count b = 0 then q else queueInsert tie ⟨x.count b, 0, b.toNat, .leaf b⟩ q) q) ∧
      BuildFrame E (l.foldl (seedLeaf tie) E) ∧ (l.foldl (seedLeaf tie) E).etNext = E.etNext := by
    intro k
    induction k with
    | zero => intro _ E q _ h; exact ⟨h, BuildFrame.refl E, rfl⟩
    | succ k ih =>
      intro hk E q hE h
      obtain ⟨h1, h2, h3⟩ := ih (by omega) E q hE h
      dsimp only at h1 h2 h3 ⊢
      rw [List.range_succ, List.map_append, List.foldl_append, List.foldl_append]
      simp only [List.map_cons, List.map_nil, List.foldl_cons, List.foldl_nil]
      have hb : (BitVec.ofNat 8 k).toNat = k := by rw [BitVec.toNat_ofNat, Nat.mod_eq_of_lt (by omega)]
      obtain ⟨f1, f2⟩ := seedLeaf_frame (((List.range k).map (BitVec.ofNat 8)).foldl (seedLeaf tie) E) (BitVec.ofNat 8 k)
      refine ⟨?_, h2.trans f1, f2.trans h3⟩
      have := seedLeaf_stands (tie := tie) (b := BitVec.ofNat 8 k) (x := x)
        (fun b => by rw [symAt_congr h2.sym]; exact hE b) (by rw [hb]; exact h1)
      rw [hb] at this ⊢
      exact this
  obtain ⟨h1, h2, h3⟩ := key 256 (Nat.le_refl _) { e with pq := [], etNext := 256 } [] hc .nil
  exact ⟨h1, ⟨h2.sym, h2.hdr, h2.hdrBits, h2.encPad, h2.nsym, h2.total⟩, h3⟩

/-! Merging (R176). -/

/-- The total weight of a queue. -/
def queueWeight (q : List QueueEntry) : Nat := (q.map (·.weight)).sum

theorem queueWeight_insert (a : QueueEntry) (q : List QueueEntry) :
    queueWeight (queueInsert tie a q) = a.weight + queueWeight q := by
  unfold queueWeight
  rw [((queueInsert_perm a q).map _).sum_eq, List.map_cons, List.sum_cons]

/-- The bounds that keep the merge inside its registers: weights below the word, depths are heights, ids below the
store's size (10_state.md R28; 42_encoder.md R176). -/
structure Bounded (q : List QueueEntry) (next : Nat) : Prop where
  weight : queueWeight q < 2 ^ 32
  depth : ∀ a ∈ q, a.depth = a.tree.height
  leaves : (queueLeaves q).length ≤ 256
  next : next + q.length ≤ 512

/-- One round of merging on both queues (R176). -/
theorem merge_stands {e : Encoder} {i j : NodeId} {p : List NodeId} {a b : QueueEntry} {q : List QueueEntry}
    (h : List.Forall₂ (Stands e e.etNext.toNat) (i :: j :: p) (a :: b :: q)) (hb : Bounded (a :: b :: q) e.etNext.toNat) :
    let E := setEt e.etNext (joinNodes tie e i j) e
    let F := { E with etNext := e.etNext + 1, pq := pqInsert tie E e.etNext p }
    let c : QueueEntry := ⟨a.weight + b.weight, 1 + max a.depth b.depth, e.etNext.toNat, joinTrees tie a b⟩
    List.Forall₂ (Stands F F.etNext.toNat) F.pq (queueInsert tie c q) ∧ Bounded (queueInsert tie c q) F.etNext.toNat ∧
      F.etNext.toNat = e.etNext.toNat + 1 ∧ BuildFrame e F := by
  obtain ⟨hw, hd, hl, hn⟩ := hb
  cases h with
  | cons hi h =>
  cases h with
  | cons hj h =>
  intro E F c
  simp only [List.length_cons] at hn
  have hlt : e.etNext.toNat < 511 := by omega
  have hnext : (e.etNext + 1).toNat = e.etNext.toNat + 1 := by
    rw [BitVec.toNat_add]
    show (e.etNext.toNat + 1) % 512 = _
    omega
  have hat : etAt E e.etNext = joinNodes tie e i j := by
    show etAt (setEt _ _ _) _ = _
    rw [etAt_setEt _ _ _ _ hlt, if_pos rfl]
  have hold : ∀ k : NodeId, k.toNat < e.etNext.toNat → etAt E k = etAt e k := by
    intro k hk
    show etAt (setEt _ _ _) _ = _
    rw [etAt_setEt _ _ _ _ hlt, if_neg (fun h => by rw [← h] at hk; omega)]
  have hwab : a.weight + b.weight < 2 ^ 32 := by
    unfold queueWeight at hw
    simp only [List.map_cons, List.sum_cons] at hw
    omega
  have hda := hd a List.mem_cons_self
  have hdb := hd b (List.mem_cons_of_mem _ List.mem_cons_self)
  have hla := a.tree.height_lt
  have hlb := b.tree.height_lt
  have hleaves : a.tree.leaves.length + b.tree.leaves.length ≤ 256 := by
    unfold queueLeaves at hl
    simp only [List.flatMap_cons, List.length_append] at hl
    omega
  have h' := forall₂_stands_congr h (by omega : e.etNext.toNat ≤ e.etNext.toNat + 1) hold
  have hi' := hi.congr (by omega : e.etNext.toNat ≤ e.etNext.toNat + 1) hold
  have hj' := hj.congr (by omega : e.etNext.toNat ≤ e.etNext.toNat + 1) hold
  have hnew : Stands E (e.etNext.toNat + 1) e.etNext c := by
    refine ⟨rfl, ?_, ?_, by omega, ?_, ?_, ?_⟩
    · rw [hat]
      show ((etAt e i).weight + (etAt e j).weight).toNat = a.weight + b.weight
      rw [BitVec.toNat_add, hi.weight, hj.weight, Nat.mod_eq_of_lt hwab]
    · rw [hat]
      show (1 + (if (etAt e i).depth.toNat < (etAt e j).depth.toNat then (etAt e j).depth else (etAt e i).depth)).toNat =
        1 + max a.depth b.depth
      have e1 : (if (etAt e i).depth.toNat < (etAt e j).depth.toNat then (etAt e j).depth else (etAt e i).depth).toNat =
          max a.depth b.depth := by
        rw [← hi.depth, ← hj.depth]
        split <;> omega
      rw [BitVec.toNat_add, e1]
      show (1 + max a.depth b.depth) % 256 = _
      omega
    · rw [hat]; rfl
    all_goals
      rw [hat]
      unfold joinNodes childrenOf
      rw [hi.key, hj.key]
      dsimp only
      split
    · exact hj'.tree
    · exact hi'.tree
    · exact hi'.tree
    · exact hj'.tree
  refine ⟨?_, ⟨?_, ?_, ?_, ?_⟩, hnext, ⟨rfl, rfl, rfl, rfl, rfl, rfl⟩⟩
  · show List.Forall₂ (Stands F (e.etNext + 1).toNat) (pqInsert tie E e.etNext p) _
    rw [hnext]
    exact (pqInsert_stands hnew h').imp fun _ _ g => g.congr (Nat.le_refl _) fun _ _ => rfl
  · rw [queueWeight_insert]
    unfold queueWeight at hw ⊢
    simp only [List.map_cons, List.sum_cons] at hw
    show a.weight + b.weight + _ < _
    omega
  · intro d hd'
    rcases List.mem_cons.mp ((queueInsert_perm (tie := tie) c q).subset hd') with rfl | hm
    · show 1 + max a.depth b.depth = (joinTrees tie a b).height
      rw [joinTrees_height, hda, hdb]
    · exact hd d (List.mem_cons_of_mem _ (List.mem_cons_of_mem _ hm))
  · have := ((queueInsert_perm (tie := tie) c q).flatMap_right fun e => e.tree.leaves).length_eq
    unfold queueLeaves at hl ⊢
    rw [this]
    simp only [List.flatMap_cons, List.length_append, c, (joinTrees_leaves tie _ _).length_eq] at hl ⊢
    omega
  · show (e.etNext + 1).toNat + _ ≤ _
    rw [queueInsert_length, hnext]; omega

/-- The two merge loops go through the same rounds (R176). -/
theorem mergeLoop_stands (fuel : Nat) {e : Encoder} {q : List QueueEntry}
    (h : List.Forall₂ (Stands e e.etNext.toNat) e.pq q) (hb : Bounded q e.etNext.toNat) :
    List.Forall₂ (Stands (mergeLoop tie fuel e) (mergeLoop tie fuel e).etNext.toNat) (mergeLoop tie fuel e).pq
        (queueMerge tie fuel e.etNext.toNat q) ∧ BuildFrame e (mergeLoop tie fuel e) := by
  induction fuel generalizing e q with
  | zero => exact ⟨h, BuildFrame.refl e⟩
  | succ fuel ih =>
    unfold mergeLoop queueMerge
    match hp : e.pq, q, h, hb with
    | [], [], h, _ => exact ⟨by rw [hp]; exact .nil, BuildFrame.refl e⟩
    | [i], [a], h, _ => exact ⟨by rw [hp]; exact h, BuildFrame.refl e⟩
    | i :: j :: p, a :: b :: q, h, hb =>
      obtain ⟨h1, h2, h3, h4⟩ := merge_stands (tie := tie) h hb
      dsimp only
      obtain ⟨k1, k2⟩ := ih h1 h2
      rw [h3] at k1
      exact ⟨k1, h4.trans k2⟩

theorem queueOf_weight (x : List Byte) : queueWeight (queueOf tie x) = x.length := by
  have : ∀ (l : List Byte) (q : List QueueEntry), queueWeight (l.foldl (fun q b => if x.count b = 0 then q
      else queueInsert tie ⟨x.count b, 0, b.toNat, .leaf b⟩ q) q) = queueWeight q + (l.map fun b => x.count b).sum := by
    intro l
    induction l with
    | nil => intro q; simp
    | cons b l ih =>
      intro q
      rw [List.foldl_cons, ih, List.map_cons, List.sum_cons]
      split
      · omega
      · rw [queueWeight_insert]; dsimp only; omega
  unfold queueOf
  rw [this]
  have hs := sum_counts x fun _ => 1
  simp only [Nat.mul_one] at hs
  have : queueWeight [] = 0 := rfl
  rw [this, Nat.zero_add]
  refine hs.trans ?_
  simp

theorem queueOf_depth (x : List Byte) : ∀ a ∈ queueOf tie x, a.depth = a.tree.height := by
  have : ∀ (l : List Byte) (q : List QueueEntry), (∀ a ∈ q, a.depth = a.tree.height) →
      ∀ a ∈ l.foldl (fun q b => if x.count b = 0 then q
        else queueInsert tie ⟨x.count b, 0, b.toNat, .leaf b⟩ q) q, a.depth = a.tree.height := by
    intro l
    induction l with
    | nil => intro q h; exact h
    | cons b l ih =>
      intro q h
      rw [List.foldl_cons]
      apply ih
      split
      · exact h
      · intro a ha
        rcases List.mem_cons.mp ((queueInsert_perm (tie := tie) _ q).subset ha) with rfl | hm
        · rfl
        · exact h a hm
  exact this _ [] (fun a ha => by cases ha)

theorem queueOf_bounded {x : List Byte} (hl : x.length ≤ Config.lenMax) : Bounded (queueOf tie x) 256 := by
  have hd := distinctSymbols_le x
  refine ⟨?_, queueOf_depth x, ?_, ?_⟩
  · rw [queueOf_weight]; unfold Config.lenMax at hl; omega
  · rw [(queueOf_leaves x).length_eq]
    exact (present_length x).le.trans hd
  · rw [queueOf_length]; omega

theorem treeBuild_eq (e : Encoder) :
    treeBuild tie e =
      { mergeLoop tie 256 (seedLeaves tie e) with
        etRoot := (mergeLoop tie 256 (seedLeaves tie e)).pq.headD (mergeLoop tie 256 (seedLeaves tie e)).etRoot, pq := [] } := by
  unfold treeBuild
  rfl

/-- `TREE.BUILD` on the counts of a source leaves its Huffman tree in the node store, at the root (R174 to R176). -/
theorem treeBuild_holds {e : Encoder} {x : List Byte} {t : CodeTree} (hc : ∀ b, (symAt e b).count.toNat = x.count b)
    (hl : x.length ≤ Config.lenMax) (ht : huffmanTree tie x = some t) :
    Holds (treeBuild tie e) 512 (treeBuild tie e).etRoot t ∧ BuildFrame e (treeBuild tie e) := by
  obtain ⟨s1, s2, s3⟩ := seedLeaves_stands (tie := tie) hc
  have hn : (seedLeaves tie e).etNext.toNat = 256 := by rw [s3]; rfl
  obtain ⟨m1, m2⟩ := mergeLoop_stands (tie := tie) 256 (e := seedLeaves tie e) (q := queueOf tie x) (by rw [hn]; exact s1)
    (by rw [hn]; exact queueOf_bounded hl)
  rw [hn] at m1
  have hm := s2.trans m2
  rw [treeBuild_eq]
  generalize mergeLoop tie 256 (seedLeaves tie e) = E at m1 hm ⊢
  refine ⟨?_, hm.sym, hm.hdr, hm.hdrBits, hm.encPad, hm.nsym, hm.total⟩
  unfold huffmanTree at ht
  split at ht
  · cases ht
  · rename_i a rest hq
    cases ht
    rw [hq] at m1
    match hp : E.pq, m1 with
    | i :: p, .cons h _ =>
      have := h.tree.mono (m := 512) (by have := E.etNext.isLt; omega)
      exact this.congr fun _ _ => rfl

end Sys2Proof.Machine
end

