-- ==== Sys2Proof/Laws/Derive.lean ====
section
/-! SUPPORT. The traversal of the node store writes the header and the codewords of the tree it holds (42_encoder.md R177
to R179), and what the body of `ENCODE` leaves on a present source (R171). -/

namespace Sys2Proof.Machine

variable {tie : Config.TieRule}

/-- `v << 1` with the new last bit, as the number of the longer path (R177). -/
theorem ofNat_num_false (p : Bits) : BitVec.ofNat 32 (num p) <<< 1 = BitVec.ofNat 32 (num (p ++ [false])) := by
  apply BitVec.eq_of_toNat_eq
  rw [num_append, BitVec.toNat_shiftLeft, BitVec.toNat_ofNat, BitVec.toNat_ofNat, Nat.shiftLeft_eq]
  simp [num_cons]

theorem ofNat_num_true (p : Bits) : (BitVec.ofNat 32 (num p) <<< 1) ||| 1 = BitVec.ofNat 32 (num (p ++ [true])) := by
  apply BitVec.eq_of_toNat_eq
  rw [num_append, BitVec.toNat_or, BitVec.toNat_shiftLeft, BitVec.toNat_ofNat, BitVec.toNat_ofNat, Nat.shiftLeft_eq]
  have h1 : num p % 2 ^ 32 * 2 ^ 1 % 2 ^ 32 = 2 ^ 1 * (num p % 2 ^ 31) := by omega
  rw [h1]
  have h2 : (1 : BitVec 32).toNat = 1 := rfl
  rw [h2, ← Nat.two_pow_add_eq_or_of_lt (by decide : 1 < 2 ^ 1)]
  simp only [List.length_singleton, num_cons, num_nil, List.length_nil, Bool.toNat_true]
  omega

theorem codeword_none {t : CodeTree} {b : Byte} (h : b ∉ t.leaves) : t.codeword b = none := by
  cases hc : t.codeword b with
  | none => rfl
  | some p => exact absurd ((t.codeword_isSome b).mp (by rw [hc]; rfl)) h

/-- The record a symbol has after the traversal of a tree at path `p` (R177). -/
def recAfter (p : Bits) (t : CodeTree) (e : Encoder) (b : Byte) : SymRec :=
  match t.codeword b with
  | some q => { symAt e b with code := BitVec.ofNat 32 (num (p ++ q)), len := BitVec.ofNat 6 (p ++ q).length }
  | none => symAt e b

/-- What a traversal leaves, whether or not it ends: only the codes of the symbol table and the header buffer (R177). -/
structure VisitFrame (e f : Encoder) : Prop where
  eq : f = { e with sym := f.sym, hdr := f.hdr }
  count : ∀ b, (symAt f b).count = (symAt e b).count

theorem VisitFrame.trans {e f g : Encoder} (h : VisitFrame e f) (k : VisitFrame f g) : VisitFrame e g :=
  ⟨k.eq.trans (congrArg (fun x : Encoder => { x with sym := g.sym, hdr := g.hdr }) h.eq),
    fun b => (k.count b).trans (h.count b)⟩

theorem VisitFrame.et {e f : Encoder} (h : VisitFrame e f) (i : NodeId) : etAt f i = etAt e i := by
  have : f.et = e.et := by rw [h.eq]
  unfold etAt; simp only [this]

/-- The traversal of a subtree at path `p` (R177, R178): it ends exactly when no leaf lies deeper than 32, and then the
header of the subtree is appended and its symbols have their codewords; otherwise no more than that header was written. -/
theorem visit_spec (t : CodeTree) (fuel : Nat) (i : NodeId) (p : Bits) (e : Encoder) (h : Holds e 512 i t)
    (hf : t.height < fuel) (hn : t.leaves.Nodup) :
    (visit fuel i (BitVec.ofNat 32 (num p)) p.length e).1 = decide (p.length + t.height ≤ 32) ∧
    VisitFrame e (visit fuel i (BitVec.ofNat 32 (num p)) p.length e).2 ∧
    (visit fuel i (BitVec.ofNat 32 (num p)) p.length e).2.hdr.length ≤ e.hdr.length + t.header.length ∧
    (p.length + t.height ≤ 32 →
      (visit fuel i (BitVec.ofNat 32 (num p)) p.length e).2.hdr = e.hdr ++ t.header ∧
      ∀ b, symAt (visit fuel i (BitVec.ofNat 32 (num p)) p.length e).2 b = recAfter p t e b) := by
  induction t generalizing fuel i p e with
  | leaf s =>
    cases fuel with
    | zero => omega
    | succ fuel =>
      obtain ⟨-, h1, h2⟩ := h
      unfold visit
      dsimp only
      rw [if_pos h1, h2]
      by_cases hl : p.length > Config.codeMax
      · rw [if_pos hl]
        unfold Config.codeMax at hl
        refine ⟨by simp [CodeTree.height]; omega, ⟨rfl, fun _ => rfl⟩, by simp [CodeTree.header], ?_⟩
        intro h; simp only [CodeTree.height] at h; omega
      · rw [if_neg hl]
        unfold Config.codeMax at hl
        refine ⟨by simp [CodeTree.height]; omega, ⟨rfl, ?_⟩, by simp [CodeTree.header, setSym], ?_⟩
        · intro b
          rw [symAt_setSym]
          split
          · subst_vars; rfl
          · rfl
        · intro _
          refine ⟨rfl, ?_⟩
          intro b
          rw [symAt_setSym]
          unfold recAfter CodeTree.codeword
          by_cases hb : s = b
          · subst hb; simp; rfl
          · simp [hb]; rfl
  | node l r ihl ihr =>
    cases fuel with
    | zero => omega
    | succ fuel =>
      obtain ⟨-, h1, h2, h3⟩ := h
      simp only [CodeTree.height] at hf
      rw [CodeTree.leaves, List.nodup_append] at hn
      obtain ⟨hnl, hnr, hdis⟩ := hn
      unfold visit
      dsimp only
      rw [h1, if_neg (by decide), ofNat_num_true, ofNat_num_false]
      have hpl : p.length + 1 = (p ++ [true]).length := by simp
      have hpr : p.length + 1 = (p ++ [false]).length := by simp
      have hE : ∀ j, etAt { e with hdr := e.hdr ++ [false] } j = etAt e j := fun _ => rfl
      obtain ⟨l1, l2, l4, l3⟩ := ihl fuel (etAt e i).left (p ++ [true]) { e with hdr := e.hdr ++ [false] }
        (h2.congr fun j _ => hE j) (by omega) hnl
      rw [← hpl] at l1 l2 l3 l4
      generalize visit fuel (etAt e i).left (BitVec.ofNat 32 (num (p ++ [true]))) (p.length + 1)
        { e with hdr := e.hdr ++ [false] } = L at l1 l2 l3 l4 ⊢
      have lf : VisitFrame e L.2 := ⟨l2.eq, l2.count⟩
      simp only [List.length_append, List.length_singleton] at l4
      simp only [CodeTree.height, CodeTree.header, List.length_cons, List.length_append]
      by_cases hl : p.length + 1 + l.height ≤ 32
      · rw [if_pos (by rw [l1]; simpa using hl)]
        obtain ⟨r1, r2, r4, r3⟩ := ihr fuel (etAt e i).right (p ++ [false]) L.2
          (h3.congr fun j _ => lf.et j) (by omega) hnr
        rw [← hpr] at r1 r2 r3 r4
        generalize visit fuel (etAt e i).right (BitVec.ofNat 32 (num (p ++ [false]))) (p.length + 1) L.2 = R
          at r1 r2 r3 r4 ⊢
        refine ⟨?_, lf.trans r2, by omega, ?_⟩
        · rw [r1]
          apply decide_eq_decide.mpr
          omega
        · intro hh
          obtain ⟨a1, a2⟩ := l3 hl
          obtain ⟨b1, b2⟩ := r3 (by omega)
          constructor
          · rw [b1, a1]; simp
          · intro b
            rw [b2]
            unfold recAfter at a2 ⊢
            rw [CodeTree.codeword]
            by_cases hbr : b ∈ r.leaves
            · have hbl : b ∉ l.leaves := fun hb => hdis b hb b hbr rfl
              have ha := a2 b
              rw [codeword_none hbl] at ha ⊢
              obtain ⟨q, hq⟩ := Option.isSome_iff_exists.mp ((r.codeword_isSome b).mpr hbr)
              rw [hq]
              dsimp only at ha ⊢
              rw [ha]
              simp; rfl
            · rw [codeword_none hbr]
              dsimp only
              rw [a2]
              cases l.codeword b with
              | none => rfl
              | some q => simp; rfl
      · rw [if_neg (by rw [l1]; simpa using hl)]
        refine ⟨?_, lf, by omega, ?_⟩
        · rw [l1]
          apply decide_eq_decide.mpr
          omega
        · intro hh; omega

/-! `CODE.DERIVE` and the body of `ENCODE`. -/

/-- `CODE.DERIVE` on a stored tree no deeper than 32: header, its length and the codewords (R177 to R179). -/
theorem codeDerive_done {s : State} {t : CodeTree} (h : Holds s.enc 512 s.enc.etRoot t) (hn : t.leaves.Nodup)
    (hh : t.height ≤ Config.codeMax) :
    ∃ f, codeDerive s = .done () (s.setEnc f) ∧ f.hdr = t.header ∧ f.hdrBits = BitVec.ofNat 12 t.header.length ∧
      (∀ b, symAt f b = recAfter [] t s.enc b) ∧
      f = { s.enc with sym := f.sym, hdr := f.hdr, hdrBits := f.hdrBits } := by
  unfold Config.codeMax at hh
  obtain ⟨v1, v2, -, v3⟩ := visit_spec t 256 s.enc.etRoot [] { s.enc with hdr := [] }
    (h.congr fun _ _ => rfl) (by omega) hn
  obtain ⟨v3, v4⟩ := v3 (by simpa using hh)
  have v1' := v1.trans (decide_eq_true (by simpa using hh))
  unfold codeDerive
  simp only [num_nil, List.length_nil, List.nil_append] at v1' v2 v3 v4
  dsimp only
  rw [show (0 : Word) = BitVec.ofNat 32 0 from rfl]
  generalize visit 256 s.enc.etRoot (BitVec.ofNat 32 0) 0 { s.enc with hdr := [] } = R at v1' v2 v3 v4 ⊢
  rw [if_pos v1']
  refine ⟨_, rfl, v3, ?_, v4, ?_⟩
  · simp only [State.setEnc_enc, v3]
  · exact congrArg (fun x : Encoder => { x with
      sym := R.2.sym, hdr := R.2.hdr, hdrBits := BitVec.ofNat 12 R.2.hdr.length }) v2.eq

/-- `CODE.DERIVE` on a stored tree with a leaf deeper than 32 (R178). -/
theorem codeDerive_raised {s : State} {t : CodeTree} (h : Holds s.enc 512 s.enc.etRoot t) (hn : t.leaves.Nodup)
    (hf : t.height < 256) (hh : Config.codeMax < t.height) :
    ∃ f, codeDerive s = .raised ⟨.sourceErr, .codeTooLong⟩ (s.setEnc f) ∧
      (∀ b, (symAt f b).count = (symAt s.enc b).count) ∧ f = { s.enc with sym := f.sym, hdr := f.hdr } ∧
      f.hdr.length ≤ t.header.length := by
  unfold Config.codeMax at hh
  obtain ⟨v1, v2, v4, -⟩ := visit_spec t 256 s.enc.etRoot [] { s.enc with hdr := [] }
    (h.congr fun _ _ => rfl) hf hn
  have v1' := v1.trans (decide_eq_false (by simpa using hh))
  unfold codeDerive
  simp only [num_nil, List.length_nil, Nat.zero_add] at v1' v2 v4
  dsimp only
  rw [show (0 : Word) = BitVec.ofNat 32 0 from rfl]
  generalize visit 256 s.enc.etRoot (BitVec.ofNat 32 0) 0 { s.enc with hdr := [] } = R at v1' v2 v4 ⊢
  rw [if_neg (by rw [v1']; decide)]
  exact ⟨R.2, rfl, v2.count, v2.eq, v4⟩

/-- What the body of `ENCODE` changes on a present source (R171, R172). -/
def encodeLeaves (s : State) (x : List Byte) (f : Encoder) (v : List Byte) (valid : Bool) : State :=
  { s with
    enc := f
    regs := { s.regs with srcLen := BitVec.ofNat 32 x.length }
    scan := v
    env := { s.env with srcHeld := false }
    status := { s.status with encValid := valid } }

/-- The scan as the first part of the body (R171, R172). -/
theorem encodeBody_scanned {s : State} {x : List Byte} (hp : 2 ≤ s.params.bufBytes) (hx : s.env.src = some x)
    (hl : x.length ≤ Config.lenMax) :
    ∃ f v, Counted f x ∧ f.nsym.toNat = distinctSymbols x ∧
      f = { s.enc with sym := f.sym, total := f.total, nsym := f.nsym, hdrBits := 0 } ∧
      freqScan (s.setStatus { s.status with encValid := false }) = .done () (encodeLeaves s x f v false) := by
  obtain ⟨t, h1, h2, h3, h4, h5, h6⟩ := freqScan_done (s := s.setStatus { s.status with encValid := false }) hp hx hl
  refine ⟨t.enc, t.scan, h2, h3, h4, ?_⟩
  rw [h1, h6, h5]
  rfl

/-- `ENCODE` stops after the scan when fewer than two symbols occur (R173). -/
theorem encodeBody_few {s : State} {x : List Byte} (hp : 2 ≤ s.params.bufBytes) (hx : s.env.src = some x)
    (hl : x.length ≤ Config.lenMax) (hd : distinctSymbols x < 2) :
    ∃ f v, Counted f x ∧ f.nsym.toNat = distinctSymbols x ∧
      f = { s.enc with sym := f.sym, total := f.total, nsym := f.nsym, hdrBits := 0 } ∧
      encodeBody s = .raised ⟨.sourceErr, .fewSymbols⟩ (encodeLeaves s x f v false) := by
  obtain ⟨f, v, h1, h2, h3, h4⟩ := encodeBody_scanned hp hx hl
  refine ⟨f, v, h1, h2, h3, ?_⟩
  unfold encodeBody
  rw [h4, Result.bind_done, if_pos (by show f.nsym.toNat < 2; omega)]

theorem treeBuild_counted {f : Encoder} {x : List Byte} {t : CodeTree} (hc : Counted f x)
    (hl : x.length ≤ Config.lenMax) (ht : huffmanTree tie x = some t) :
    Holds (treeBuild tie f) 512 (treeBuild tie f).etRoot t ∧ BuildFrame f (treeBuild tie f) ∧
      (∀ b, symAt (treeBuild tie f) b = symAt f b) := by
  obtain ⟨h1, h2⟩ := treeBuild_holds hc.counts hl ht
  exact ⟨h1, h2, symAt_congr h2.sym⟩

theorem huffmanTree_height {x : List Byte} {t : CodeTree} (ht : huffmanTree tie x = some t) : t.height < 256 := by
  have h1 := t.height_lt
  have h2 := distinctSymbols_le x
  rw [huffmanTree_count ht] at h1
  omega

theorem huffmanTree_header {x : List Byte} {t : CodeTree} (ht : huffmanTree tie x = some t) : t.header.length ≤ Config.hdrMaxBits := by
  have h1 := t.header_length
  have h2 := distinctSymbols_le x
  rw [huffmanTree_count ht] at h1
  unfold Config.hdrMaxBits
  omega

/-- `ENCODE` on a source whose tree has a leaf deeper than 32 (R178). -/
theorem encodeBody_tooLong {s : State} {x : List Byte} {t : CodeTree} (hp : 2 ≤ s.params.bufBytes)
    (hx : s.env.src = some x) (hl : x.length ≤ Config.lenMax) (hd : 2 ≤ distinctSymbols x)
    (ht : huffmanTree s.params.tie x = some t) (hh : Config.codeMax < t.height) :
    ∃ f v, (∀ b, (symAt f b).count.toNat = x.count b) ∧ f.total.toNat = x.length ∧ f.nsym.toNat = distinctSymbols x ∧
      f.hdrBits = 0 ∧ f.hdr.length ≤ Config.hdrMaxBits ∧
      encodeBody s = .raised ⟨.sourceErr, .codeTooLong⟩ (encodeLeaves s x f v false) := by
  obtain ⟨f, v, h1, h2, -, h4⟩ := encodeBody_scanned hp hx hl
  obtain ⟨b1, b2, b3⟩ := treeBuild_counted h1 hl ht
  obtain ⟨g, g1, g2, g3, g4⟩ := codeDerive_raised (s := (encodeLeaves s x f v false).setEnc (treeBuild s.params.tie f)) b1
    (huffmanTree_nodup ht) (huffmanTree_height ht) hh
  refine ⟨g, v, fun b => ?_, ?_, ?_, ?_, g4.trans (huffmanTree_header ht), ?_⟩
  · rw [g2]; exact (congrArg (fun r : SymRec => r.count.toNat) (b3 b)).trans (h1.counts b)
  · rw [g3]; simp only [State.setEnc_enc, b2.total]; exact h1.total
  · rw [g3]; simp only [State.setEnc_enc, b2.nsym]; exact h2
  · rw [g3]; simp only [State.setEnc_enc, b2.hdrBits]; exact h1.hdrBits
  · unfold encodeBody
    rw [h4, Result.bind_done, if_neg (by show ¬ f.nsym.toNat < 2; omega)]
    rw [show (encodeLeaves s x f v false).enc = f from rfl, show (encodeLeaves s x f v false).params = s.params from rfl, g1]
    rfl

/-- `ENCODE` on a source with two symbols whose tree has no leaf deeper than 32 (R171 to R179). -/
theorem encodeBody_done {s : State} {x : List Byte} {t : CodeTree} (hp : 2 ≤ s.params.bufBytes)
    (hx : s.env.src = some x) (hl : x.length ≤ Config.lenMax) (hd : 2 ≤ distinctSymbols x)
    (ht : huffmanTree s.params.tie x = some t) (hh : t.height ≤ Config.codeMax) :
    ∃ f v, EncodedFor (encodeLeaves s x f v true) x t ∧ encodeBody s = .done () (encodeLeaves s x f v true) := by
  obtain ⟨f, v, h1, h2, -, h4⟩ := encodeBody_scanned hp hx hl
  obtain ⟨b1, b2, b3⟩ := treeBuild_counted h1 hl ht
  obtain ⟨g, g1, g2, g3, g4, g5⟩ := codeDerive_done (s := (encodeLeaves s x f v false).setEnc (treeBuild s.params.tie f)) b1
    (huffmanTree_nodup ht) hh
  have hcodes : ∀ b, symAt g b = recAfter [] t f b := by
    intro b
    rw [g4]
    unfold recAfter
    simp only [State.setEnc_enc, b3]
  refine ⟨g, v, ⟨rfl, ?_, ?_, ?_, ht, ?_, ?_, g2, ?_⟩, ?_⟩
  · intro b
    show (symAt g b).count.toNat = _
    rw [hcodes, ← h1.counts]
    unfold recAfter
    split <;> rfl
  · show g.total.toNat = _
    rw [g5]; simp only [State.setEnc_enc, b2.total]; exact h1.total
  · show g.nsym.toNat = _
    rw [g5]; simp only [State.setEnc_enc, b2.nsym]; exact h2
  · intro b hb
    obtain ⟨q, hq⟩ := Option.isSome_iff_exists.mp ((t.codeword_isSome b).mpr ((huffmanTree_mem ht b).mpr hb))
    have hlen := (CodeTree.codeword_length hq).trans hh
    refine ⟨q, hq, CodeTree.codeword_pos (huffmanTree_internal ht hd) hq, hlen, ?_, ?_⟩
    · show (symAt g b).len.toNat = _
      rw [hcodes]
      unfold recAfter
      rw [hq]
      unfold Config.codeMax at hlen
      simp only [List.nil_append, BitVec.toNat_ofNat]
      omega
    · show (symAt g b).code.toNat = _
      rw [hcodes]
      unfold recAfter
      rw [hq]
      simp only [List.nil_append, BitVec.toNat_ofNat]
      exact Nat.mod_eq_of_lt ((num_lt q).trans_le (Nat.pow_le_pow_right (by decide) hlen))
  · intro b hb
    show (symAt g b).len = _
    rw [hcodes]
    unfold recAfter
    rw [codeword_none (fun h => hb ((huffmanTree_mem ht b).mp h))]
    exact h1.len b
  · show g.hdrBits.toNat = _
    rw [g3, BitVec.toNat_ofNat, Nat.mod_eq_of_lt (Nat.lt_of_le_of_lt (huffmanTree_header ht) (by decide))]
  · unfold encodeBody
    rw [h4, Result.bind_done, if_neg (by show ¬ f.nsym.toNat < 2; omega)]
    rw [show (encodeLeaves s x f v false).enc = f from rfl, show (encodeLeaves s x f v false).params = s.params from rfl, g1]
    rfl

end Sys2Proof.Machine
end

