-- ==== Sys2Proof/Laws/Memory.lean ====
section
/-! SUPPORT. Every memory operation keeps the form of the memories, the state after reset has it, and what each of them
does to a byte of SRC or DST. -/

namespace Sys2Proof.Machine

theorem wf_of_src {s t : State} (h : t.env.src = s.env.src) (hw : Memory.wf s.env) : Memory.wf t.env := by
  unfold Memory.wf; rw [h]; exact hw

theorem reset_memory : Memory.wf State.reset.env := by decide

theorem srcOpen_keeps_memory {s : State} (h : Memory.wf s.env) : Memory.wf (srcOpen s).2.env :=
  wf_of_src (srcOpen_runFrame s).src h

theorem srcRead_keeps_memory (off m : Nat) {s : State} (h : Memory.wf s.env) : Memory.wf (srcRead off m s).2.env := by
  rw [(srcRead_readerFrame off m s).env]; exact h

theorem srcClose_keeps_memory {s : State} (h : Memory.wf s.env) : Memory.wf (srcClose s).env := h

theorem dstOpen_keeps_memory {s : State} (h : Memory.wf s.env) : Memory.wf (dstOpen s).2.env :=
  wf_of_src (dstOpen_sinkFrame s).src h

theorem dstWrite_keeps_memory (v : List Byte) {s : State} (h : Memory.wf s.env) : Memory.wf (dstWrite v s).2.env :=
  wf_of_src (dstWrite_sinkFrame v s).src h

theorem dstClose_keeps_memory {s : State} (h : Memory.wf s.env) : Memory.wf (dstClose s).env := h

theorem hardReset_keeps_memory {s : State} (h : Memory.wf s.env) : Memory.wf (hardReset s).env := h

theorem strikeReset_keeps_memory (opened : Bool) {s : State} (t : State) (h : Memory.wf s.env) :
    Memory.wf (strikeReset opened s t).env := h

/-- A source the host puts in place has the form, or the host gets no move (70_reset_and_hazards.md R293). -/
theorem setSrc_keeps_memory {s t : State} {x : Option (List Byte)} (h : actOn (.setSrc x) s = .next t) :
    Memory.wf t.env := by
  simp only [actOn] at h
  split at h
  · cases h; assumption
  · cases h

/-! Single bytes. -/

/-- A byte of DST below its end stays where it is when a burst is delivered (20_memory.md R66). -/
theorem dstByte_dstWrite_below {v : List Byte} {s : State} {a : Nat} (h : a < s.env.dst.length) :
    dstByte (dstWrite v s).2 a = dstByte s a := by
  obtain ⟨p, hp⟩ := (dstWrite_grows v s).1
  unfold dstByte
  rw [← hp, List.getElem?_append_left h]

/-- An accepted burst stands behind what was in DST (20_memory.md R66). -/
theorem dstByte_dstWrite_above {v : List Byte} {s : State} (k : Nat) (h : s.env.verdicts.head? ≠ some false) :
    dstByte (dstWrite v s).2 (s.env.dst.length + k) = v[k]? := by
  rw [dstWrite_accepted v h]
  unfold dstByte
  simp [List.getElem?_append_right]

/-- `SrcRead` returns the bytes of SRC in order (20_memory.md R63). -/
theorem srcRead_getElem? {x : List Byte} {s : State} {off m : Nat} (k : Nat) (h : s.env.src = some x)
    (hm : off + m ≤ x.length) (hk : k < m) : (srcRead off m s).1[k]? = srcByte s (off + k) := by
  rw [srcRead_inside h hm]
  unfold srcByte
  rw [h, List.getElem?_take_of_lt hk, List.getElem?_drop, Option.getD_some]

end Sys2Proof.Machine
end

