-- ==== Sys2Proof/Laws/PerInstr.lean ====
section
/-! SUPPORT. Per instruction: the three fields of its command word (30_encoding.md R90). -/

namespace Sys2Proof

/-- The fields of a word put together from them. -/
theorem fields_of_word (r : BitVec 18) (n : BitVec 6) (o : BitVec 8) :
    opcField (r ++ n ++ o) = o ∧ nField (r ++ n ++ o) = n ∧ rsvField (r ++ n ++ o) = r := by
  unfold opcField nField rsvField
  refine ⟨?_, ?_, ?_⟩ <;> apply BitVec.eq_of_getLsbD_eq <;> intro i hi <;>
    simp only [BitVec.getLsbD_extractLsb', BitVec.getLsbD_append]
  · simp [hi]
  · have h1 : ¬ 8 + i < 8 := by omega
    have h2 : 8 + i - 8 < 6 := by omega
    have h3 : 8 + i - 8 = i := by omega
    simp [h1, h3, hi]
  · have h1 : ¬ 14 + i < 8 := by omega
    have h2 : ¬ 14 + i - 8 < 6 := by omega
    have h3 : 14 + i - 8 - 6 = i := by omega
    simp [h1, h2, h3, hi]

/-- A word is put together from its fields. -/
theorem word_of_fields (w : Word) : rsvField w ++ nField w ++ opcField w = w := by
  apply BitVec.eq_of_getLsbD_eq
  intro i hi
  unfold rsvField nField opcField
  simp only [BitVec.getLsbD_append, BitVec.getLsbD_extractLsb']
  split
  · simp_all
  · split
    · have : i - 8 < 6 := by omega
      have h : 8 + (i - 8) = i := by omega
      simp [this, h]
    · have : i - 8 - 6 < 18 := by omega
      have h : 14 + (i - 8 - 6) = i := by omega
      simp [this, h]

namespace Laws.EncodedFields

/-- The command word of an instruction has its opcode, its bit count and a zero reserved field (30_encoding.md R90, R92). -/
def Statement (i : Instr) : Prop :=
  opcField (encode i) = opcodeOf i ∧ nField (encode i) = countOperand i ∧ rsvField (encode i) = 0

theorem nop : Statement .nop := fields_of_word ..
theorem clear : Statement .clear := fields_of_word ..
theorem encode : Statement .encode := fields_of_word ..
theorem compress : Statement .compress := fields_of_word ..
theorem decompress : Statement .decompress := fields_of_word ..
theorem bwOpen : Statement .bwOpen := fields_of_word ..
theorem bwWbits (n : BitVec 6) : Statement (.bwWbits n) := fields_of_word ..
theorem bwWbyte : Statement .bwWbyte := fields_of_word ..
theorem bwClose : Statement .bwClose := fields_of_word ..
theorem brOpen : Statement .brOpen := fields_of_word ..
theorem brRbit : Statement .brRbit := fields_of_word ..
theorem brRbyte8 : Statement .brRbyte8 := fields_of_word ..
theorem brClose : Statement .brClose := fields_of_word ..

end Laws.EncodedFields

end Sys2Proof
end

