-- ==== Sys2Proof/Laws/Release.lean ====
section
/-! SUPPORT. Where the writer and its handle can go while a command runs, and that a composite command releases both units
and both handles on every path (60_exceptions.md R262). -/

namespace Sys2Proof.Machine

/-- The writer after its release (40_bitwriter.md R134). -/
def releasedWriter : BitWriter := { isOpen := false, buf := [], cur := 0, free := 8 }

/-- Where the writer and its handle are after a part of a command: open and held as before, released, as they were, or
newly open and held. -/
def WriterMoves (s t : State) : Prop :=
  (s.bw.isOpen = true ∧ t.bw.isOpen = true ∧ t.env.dstHeld = s.env.dstHeld) ∨ (t.bw = releasedWriter ∧ t.env.dstHeld = false) ∨
  (t.bw = s.bw ∧ t.env.dstHeld = s.env.dstHeld) ∨ (t.bw.isOpen = true ∧ t.env.dstHeld = true)

theorem WriterMoves.refl (s : State) : WriterMoves s s := .inr (.inr (.inl ⟨rfl, rfl⟩))
theorem WriterMoves.same {s t : State} (h : t.bw = s.bw) (g : t.env.dstHeld = s.env.dstHeld) : WriterMoves s t := .inr (.inr (.inl ⟨h, g⟩))
theorem WriterMoves.trans {s t u : State} (h : WriterMoves s t) (g : WriterMoves t u) : WriterMoves s u := by
  rcases g with ⟨g1, g2, g3⟩ | ⟨g1, g2⟩ | ⟨g1, g2⟩ | ⟨g1, g2⟩
  · rcases h with ⟨h1, h2, h3⟩ | ⟨h1, h2⟩ | ⟨h1, h2⟩ | ⟨h1, h2⟩
    · exact .inl ⟨h1, g2, g3.trans h3⟩
    · rw [h1] at g1; cases g1
    · exact .inl ⟨by rw [← h1]; exact g1, g2, g3.trans h2⟩
    · exact .inr (.inr (.inr ⟨g2, g3.trans h2⟩))
  · exact .inr (.inl ⟨g1, g2⟩)
  · unfold WriterMoves at *; rw [g1, g2]; exact h
  · exact .inr (.inr (.inr ⟨g1, g2⟩))

theorem WriterMoves.bind {α β : Type} {s : State} {r : Result α} {f : α → State → Result β}
    (hr : WriterMoves s r.state) (hf : ∀ a t, r = .done a t → WriterMoves t (f a t).state) : WriterMoves s (r.bind f).state := by
  cases r with
  | done a t => exact hr.trans (hf a t rfl)
  | raised e t => exact hr

theorem setEnc_writerMoves (s : State) (e) : WriterMoves s (s.setEnc e) := WriterMoves.same rfl rfl
theorem setDec_writerMoves (s : State) (e) : WriterMoves s (s.setDec e) := WriterMoves.same rfl rfl
theorem setScan_writerMoves (s : State) (e) : WriterMoves s (s.setScan e) := WriterMoves.same rfl rfl

theorem bwOpen_writerMoves (s : State) : WriterMoves s (bwOpen s).state := by
  unfold bwOpen
  split
  · exact WriterMoves.refl s
  · cases h : s.env.dstCreatable
    · rw [dstOpen_failing h]; exact WriterMoves.refl s
    · rw [dstOpen_creatable h]; exact .inr (.inr (.inr ⟨rfl, rfl⟩))

theorem bwPutByte_writerMoves (b : Byte) (s : State) : (bwPutByte b s).state.bw.isOpen = s.bw.isOpen ∧ (bwPutByte b s).state.env.dstHeld = s.env.dstHeld := by
  rcases bwPutByte_outcome b s with ⟨t, ht, hs, ho, -⟩ | ⟨-, t, ht, -, -, ho, hh⟩
  · rw [ht]; exact ⟨ho, hs.held⟩
  · rw [ht]; exact ⟨ho, hh⟩

theorem bwPutBit_writerMoves (v : Bool) (s : State) : (bwPutBit v s).state.bw.isOpen = s.bw.isOpen ∧ (bwPutBit v s).state.env.dstHeld = s.env.dstHeld := by
  unfold bwPutBit; dsimp only
  split
  · have h := bwPutByte_writerMoves (putBit s.bw.cur (s.bw.free - 1).toNat v)
      (s.setBw { s.bw with cur := putBit s.bw.cur (s.bw.free - 1).toNat v, free := s.bw.free - 1 })
    revert h
    generalize bwPutByte _ _ = r
    intro h
    cases r <;> exact h
  · exact ⟨rfl, rfl⟩

theorem bwPutBits_writerMoves (b : Bits) (s : State) : (bwPutBits b s).state.bw.isOpen = s.bw.isOpen ∧ (bwPutBits b s).state.env.dstHeld = s.env.dstHeld := by
  induction b generalizing s with
  | nil => exact ⟨rfl, rfl⟩
  | cons v b ih =>
    have h := bwPutBit_writerMoves v s
    rw [bwPutBits]
    cases hr : bwPutBit v s with
    | done a t => rw [hr] at h; exact ⟨(ih t).1.trans h.1, (ih t).2.trans h.2⟩
    | raised e t => rw [hr] at h; exact h

theorem bwWbits_writerMoves (v n) (s : State) : WriterMoves s (bwWbits v n s).state := by
  unfold bwWbits
  split
  · exact WriterMoves.refl s
  · split
    · rename_i ho
      have := bwPutBits_writerMoves (msb v n) s
      exact .inl ⟨ho, this.1.trans ho, this.2⟩
    · exact WriterMoves.refl s

theorem bwWbyte_writerMoves (b) (s : State) : WriterMoves s (bwWbyte b s).state := by
  unfold bwWbyte
  split
  · rename_i ho
    split
    · have := bwPutByte_writerMoves b s
      exact .inl ⟨ho, this.1.trans ho, this.2⟩
    · exact WriterMoves.refl s
  · exact WriterMoves.refl s

theorem bwClose_writerMoves (s : State) : WriterMoves s (bwClose s).state := by
  unfold bwClose; dsimp only
  split
  · split <;> exact .inr (.inl ⟨rfl, rfl⟩)
  · exact WriterMoves.refl s

theorem ReaderFrame.writerMoves {s t : State} (h : ReaderFrame s t) : WriterMoves s t := WriterMoves.same h.bw (by rw [h.env])

theorem brOpen_writerMoves (s : State) : WriterMoves s (brOpen s).state := by
  unfold brOpen
  split
  · exact WriterMoves.refl s
  · unfold srcOpen
    cases s.env.src <;> exact WriterMoves.refl _
theorem brClose_writerMoves (s : State) : WriterMoves s (brClose s).state := by
  unfold brClose; split <;> exact WriterMoves.refl _

theorem scanLoop_same (fuel off len : Nat) (s : State) : (scanLoop fuel off len s).bw = s.bw ∧ (scanLoop fuel off len s).br = s.br ∧ (scanLoop fuel off len s).env = s.env := by
  induction fuel generalizing off s with
  | zero => exact ⟨rfl, rfl, rfl⟩
  | succ fuel ih =>
    unfold scanLoop; dsimp only
    split
    · have h := ih (off + min s.params.bufBytes (len - off)) (((srcRead off (min s.params.bufBytes (len - off)) s).2.setScan (srcRead off (min s.params.bufBytes (len - off)) s).1).setEnc (List.foldl countByte (srcRead off (min s.params.bufBytes (len - off)) s).2.enc (srcRead off (min s.params.bufBytes (len - off)) s).1))
      have g := srcRead_readerFrame off (min s.params.bufBytes (len - off)) s
      have gb : (srcRead off (min s.params.bufBytes (len - off)) s).2.br = s.br := by
        unfold srcRead; dsimp only; split <;> rfl
      refine ⟨h.1.trans g.bw, h.2.1.trans gb, h.2.2.trans g.env⟩
    · exact ⟨rfl, rfl, rfl⟩

theorem codeDerive_same (s : State) : (codeDerive s).state.bw = s.bw ∧ (codeDerive s).state.br = s.br ∧ (codeDerive s).state.env = s.env ∧ (codeDerive s).state.params = s.params := by
  unfold codeDerive
  generalize visit 256 s.enc.etRoot 0 0 { s.enc with hdr := [] } = a
  dsimp only
  split <;> exact ⟨rfl, rfl, rfl, rfl⟩

/-- `ENCODE` keeps the writer, the reader and, of the environment, all but whether the source is held (R171). -/
theorem encodeBody_keeps (s : State) : (encodeBody s).state.bw = s.bw ∧ (encodeBody s).state.br = s.br ∧ (encodeBody s).state.env = { s.env with srcHeld := (encodeBody s).state.env.srcHeld } ∧
    ((encodeBody s).state.env.srcHeld = true → s.env.srcHeld = true) := by
  have hf : ∀ s : State, (freqScan s).state.bw = s.bw ∧ (freqScan s).state.br = s.br ∧ (freqScan s).state.env = { s.env with srcHeld := (freqScan s).state.env.srcHeld } ∧ ((freqScan s).state.env.srcHeld = true → s.env.srcHeld = true) ∧ (∀ a t, freqScan s = .done a t → t.env.srcHeld = false) := by
    intro s
    unfold freqScan
    cases h : s.env.src with
    | none =>
      rw [srcOpen_absent (s := s.setEnc (clearTable s.enc)) h]
      exact ⟨rfl, rfl, rfl, id, fun _ _ h => by cases h⟩
    | some x =>
      rw [srcOpen_present (s := s.setEnc (clearTable s.enc)) h]
      dsimp only
      have g := scanLoop_same (BitVec.ofNat 32 x.length).toNat 0 (BitVec.ofNat 32 x.length).toNat (((s.setEnc (clearTable s.enc)).setRegs { s.regs with srcLen := BitVec.ofNat 32 x.length }).setEnv { s.env with srcHeld := true })
      refine ⟨g.1, g.2.1, ?_, ?_, ?_⟩
      · exact congrArg (fun e : Env => { e with srcHeld := false }) g.2.2
      · intro h; cases h
      · intro a t h; cases h; rfl
  unfold encodeBody
  have h := hf (s.setStatus { s.status with encValid := false })
  cases hr : freqScan (s.setStatus { s.status with encValid := false }) with
  | raised e t => rw [hr] at h; exact ⟨h.1, h.2.1, h.2.2.1, h.2.2.2.1⟩
  | done a t =>
    rw [hr] at h
    rw [Result.bind_done]
    split
    · exact ⟨h.1, h.2.1, h.2.2.1, h.2.2.2.1⟩
    · have hc := codeDerive_same (t.setEnc (treeBuild t.params.tie t.enc))
      revert hc
      generalize codeDerive (t.setEnc (treeBuild t.params.tie t.enc)) = r
      intro hc
      have hc' : r.state.bw = t.bw ∧ r.state.br = t.br ∧ r.state.env = t.env := by
        simp only [State.setEnc_bw, State.setEnc_br, State.setEnc_env] at hc; exact ⟨hc.1, hc.2.1, hc.2.2.1⟩
      cases r with
      | done a u =>
        refine ⟨hc'.1.trans h.1, hc'.2.1.trans h.2.1, ?_, ?_⟩
        · show u.env = { s.env with srcHeld := u.env.srcHeld }
          rw [show u.env = t.env from hc'.2.2]; exact h.2.2.1
        · show u.env.srcHeld = true → _
          rw [show u.env = t.env from hc'.2.2]; exact h.2.2.2.1
      | raised e u =>
        refine ⟨hc'.1.trans h.1, hc'.2.1.trans h.2.1, ?_, ?_⟩
        · show u.env = { s.env with srcHeld := u.env.srcHeld }
          rw [show u.env = t.env from hc'.2.2]; exact h.2.2.1
        · show u.env.srcHeld = true → _
          rw [show u.env = t.env from hc'.2.2]; exact h.2.2.2.1

theorem emitHeader_writerMoves (fuel j) (s : State) : WriterMoves s (emitHeader fuel j s).state := by
  induction fuel generalizing j s with
  | zero => exact WriterMoves.refl s
  | succ fuel ih =>
    unfold emitHeader; dsimp only
    split
    · exact WriterMoves.bind (bwWbits_writerMoves _ _ s) fun _ t _ => ih _ t
    · exact WriterMoves.refl s
theorem emitCode_writerMoves (b) (s : State) : WriterMoves s (emitCode b s).state := by
  unfold emitCode; split
  · exact WriterMoves.refl s
  · exact bwWbits_writerMoves _ _ s
theorem emitCodes_writerMoves (x) (s : State) : WriterMoves s (emitCodes x s).state := by
  induction x generalizing s with
  | nil => exact WriterMoves.refl s
  | cons b x ih => exact WriterMoves.bind (emitCode_writerMoves b s) fun _ t _ => ih t
theorem srcRead_br (off m) (s : State) : (srcRead off m s).2.br = s.br := by unfold srcRead; dsimp only; split <;> rfl
theorem payloadLoop_writerMoves (fuel off len) (s : State) : WriterMoves s (payloadLoop fuel off len s).state := by
  induction fuel generalizing off s with
  | zero => exact WriterMoves.refl s
  | succ fuel ih =>
    unfold payloadLoop; dsimp only
    split
    · exact WriterMoves.bind ((ReaderFrame.writerMoves (srcRead_readerFrame _ _ s)).trans ((setScan_writerMoves _ _).trans (emitCodes_writerMoves _ _))) fun _ t _ => ih _ t
    · exact WriterMoves.refl s
theorem compressFinish_writerMoves (s : State) : WriterMoves s (compressFinish s).state := by
  unfold compressFinish; split
  · exact (WriterMoves.same rfl rfl : WriterMoves s (srcClose s)).trans (bwClose_writerMoves _)
  · exact WriterMoves.same rfl rfl
theorem compressEmit_writerMoves (len) (s : State) : WriterMoves s (compressEmit len s).state := by
  unfold compressEmit; dsimp only
  refine WriterMoves.bind ((setEnc_writerMoves s _).trans (emitHeader_writerMoves _ _ _)) fun _ t _ => ?_
  refine WriterMoves.bind (bwWbits_writerMoves _ _ t) fun _ u _ => ?_
  exact WriterMoves.bind (payloadLoop_writerMoves _ _ _ u) fun _ v _ => compressFinish_writerMoves v
theorem srcOpen_writerMoves (s : State) : WriterMoves s (srcOpen s).2 := by
  unfold srcOpen; split <;> exact WriterMoves.same rfl rfl
theorem compressBody_writerMoves (s : State) : WriterMoves s (compressBody s).state := by
  unfold compressBody
  have h := srcOpen_writerMoves s
  split <;> rename_i h1 <;> rw [h1] at h
  · exact h
  · exact WriterMoves.bind (h.trans (bwOpen_writerMoves _)) fun _ t _ => compressEmit_writerMoves _ t

theorem parseNode_writerMoves (fuel : Nat) (s : State) : WriterMoves s (parseNode fuel s).state := by
  induction fuel generalizing s with
  | zero => exact WriterMoves.refl s
  | succ fuel ih =>
    unfold parseNode; dsimp only
    split
    · exact WriterMoves.refl s
    · split
      · exact WriterMoves.same rfl rfl
      · refine WriterMoves.bind ((setDec_writerMoves s _).trans (ReaderFrame.writerMoves (brRbit_readerFrame _))) fun m t _ => ?_
        split
        · split
          · exact WriterMoves.refl t
          · exact WriterMoves.bind (ReaderFrame.writerMoves (brRbyte8_readerFrame t)) fun _ u _ => WriterMoves.same rfl rfl
        · exact WriterMoves.bind (ih t) fun _ u _ => WriterMoves.bind (ih u) fun _ v _ => WriterMoves.same rfl rfl
theorem hdrParse_writerMoves (s : State) : WriterMoves s (hdrParse s).state := by
  refine WriterMoves.bind ((setDec_writerMoves s _).trans (parseNode_writerMoves _ _)) fun _ t _ => ?_
  split <;> exact WriterMoves.refl t
theorem padRead_writerMoves (s : State) : WriterMoves s (padRead s).state := by
  unfold padRead
  split
  · exact WriterMoves.refl s
  · exact WriterMoves.bind (ReaderFrame.writerMoves (brRbit_readerFrame s)) fun _ t _ => WriterMoves.bind (ReaderFrame.writerMoves (brRbit_readerFrame t)) fun _ u _ => WriterMoves.bind (ReaderFrame.writerMoves (brRbit_readerFrame u)) fun _ v _ => WriterMoves.same rfl rfl
theorem treeWalk_writerMoves (fuel) (s : State) : WriterMoves s (treeWalk fuel s).state := by
  induction fuel generalizing s with
  | zero => exact WriterMoves.refl s
  | succ fuel ih =>
    unfold treeWalk
    split
    · exact WriterMoves.refl s
    · exact WriterMoves.bind (ReaderFrame.writerMoves (walkDown_readerFrame _ _ s)) fun _ t _ => WriterMoves.bind (bwWbyte_writerMoves _ t) fun _ u _ => ih u
theorem decompressRun_writerMoves (s : State) : WriterMoves s (decompressRun s).state :=
  WriterMoves.bind (hdrParse_writerMoves s) fun _ t _ => WriterMoves.bind (padRead_writerMoves t) fun _ u _ => WriterMoves.bind (treeWalk_writerMoves _ u) fun _ v _ =>
    WriterMoves.bind (bwClose_writerMoves v) fun _ w _ => brClose_writerMoves w
theorem decompressBody_writerMoves (s : State) : WriterMoves s (decompressBody s).state := by
  unfold decompressBody
  have h := brOpen_writerMoves s
  split <;> rename_i h1 <;> rw [h1] at h
  · exact h
  · exact h.trans (WriterMoves.bind (bwOpen_writerMoves _) fun _ t _ => decompressRun_writerMoves t)

/-! The paths on which a command completes. -/
theorem Result.bind_eq_done {α β : Type} {r : Result α} {f : α → State → Result β} {b t} (h : r.bind f = .done b t) :
    ∃ a u, r = .done a u ∧ f a u = .done b t := by
  cases r with
  | done a u => exact ⟨a, u, rfl, h⟩
  | raised e u => cases h

theorem bwClose_released {s : State} {a t} (h : bwClose s = .done a t) : t.bw = releasedWriter ∧ t.env.dstHeld = false ∧ t.env.srcHeld = s.env.srcHeld ∧ t.br = s.br := by
  have hf := bwClose_sinkFrame s
  rw [h] at hf
  unfold bwClose at h
  dsimp only at h
  split at h
  · split at h
    · injection h with h1 h2
      refine ⟨?_, ?_, hf.srcHeld, hf.br⟩ <;> rw [← h2] <;> rfl
    · cases h
  · cases h

theorem compressBody_released {s : State} {a t} (h : compressBody s = .done a t) : t.bw = releasedWriter ∧ t.env.dstHeld = false ∧ t.env.srcHeld = false := by
  unfold compressBody at h
  split at h
  · cases h
  · obtain ⟨_, u, -, h⟩ := Result.bind_eq_done h
    unfold compressEmit at h
    obtain ⟨_, u, -, h⟩ := Result.bind_eq_done h
    obtain ⟨_, u, -, h⟩ := Result.bind_eq_done h
    obtain ⟨_, u, -, h⟩ := Result.bind_eq_done h
    unfold compressFinish at h
    split at h
    · obtain ⟨h1, h2, h3, h4⟩ := bwClose_released h
      exact ⟨h1, h2, h3⟩
    · cases h

theorem decompressBody_released {s : State} {a t} (h : decompressBody s = .done a t) : t.bw = releasedWriter ∧ t.env.dstHeld = false ∧ t.env.srcHeld = false ∧ t.br.isOpen = false := by
  unfold decompressBody at h
  split at h
  · cases h
  · obtain ⟨_, u, -, h⟩ := Result.bind_eq_done h
    unfold decompressRun at h
    obtain ⟨_, u, -, h⟩ := Result.bind_eq_done h
    obtain ⟨_, u, -, h⟩ := Result.bind_eq_done h
    obtain ⟨_, u, -, h⟩ := Result.bind_eq_done h
    obtain ⟨_, u, hu, h⟩ := Result.bind_eq_done h
    obtain ⟨h1, h2, h3, h4⟩ := bwClose_released hu
    unfold brClose at h
    split at h
    · cases h; exact ⟨h1, h2, rfl, rfl⟩
    · cases h

/-- The end of a composite command leaves both units closed and no handle held (R262 (d)). -/
theorem endOp_composite_released {s : State} {r : Result Unit} (hi : s.idle) (hh : HandleForm s) (hw : WriterMoves s r.state)
    (hd : ∀ a t, r = .done a t → (t.bw = releasedWriter ∨ t.bw = s.bw) ∧ t.env.dstHeld = false ∧ t.env.srcHeld = false ∧ t.br.isOpen = false) :
    (endOp .composite r).bw.isOpen = false ∧ (endOp .composite r).br.isOpen = false ∧ (endOp .composite r).env.srcHeld = false ∧ (endOp .composite r).env.dstHeld = false
     ∧ ((endOp .composite r).bw = releasedWriter ∨ (endOp .composite r).bw = s.bw) := by
  cases r with
  | done a t =>
    obtain ⟨h1, h2, h3, h4⟩ := hd a t rfl
    refine ⟨?_, h4, h3, h2, h1⟩
    show t.bw.isOpen = false
    rcases h1 with h1 | h1
    · rw [h1]; rfl
    · rw [h1]; exact hi.1
  | raised e t =>
    have key : (releaseSink e t).bw.isOpen = false ∧ (releaseSink e t).env.dstHeld = false ∧ ((releaseSink e t).bw = releasedWriter ∨ (releaseSink e t).bw = s.bw) := by
      unfold releaseSink
      split
      · exact ⟨rfl, rfl, .inl rfl⟩
      · rename_i ho
        rcases hw with ⟨-, h, -⟩ | ⟨h, h2⟩ | ⟨h, h2⟩ | ⟨h, -⟩
        · exact absurd h ho
        · simp only [Result.state_raised] at *; exact ⟨by rw [h]; rfl, h2, .inl h⟩
        · simp only [Result.state_raised] at *; exact ⟨by rw [h]; exact hi.1, by rw [h2, hh.1]; exact hi.1, .inr h⟩
        · exact absurd h ho
    have k2 : ∀ u : State, (releaseSource u).bw = u.bw ∧ (releaseSource u).env.dstHeld = u.env.dstHeld ∧ (releaseSource u).br.isOpen = false ∧ (releaseSource u).env.srcHeld = false := by
      intro u
      unfold releaseSource
      split
      · exact ⟨rfl, rfl, rfl, rfl⟩
      · rename_i hn
        rw [not_or] at hn
        exact ⟨rfl, rfl, by simpa using hn.2, by simpa using hn.1⟩
    obtain ⟨a1, a2, a3, a4⟩ := k2 (releaseSink e t)
    exact ⟨(congrArg BitWriter.isOpen a1).trans key.1, a3, a4, a2.trans key.2.1, by rcases key.2.2 with k | k <;> [left; right] <;> exact a1.trans k⟩


end Sys2Proof.Machine
end

