-- ==== Sys2Proof/Laws/Steps.lean ====
section
/-! SUPPORT. What a step can be: a command that ends in one of two ways, a word that is no command, a host action; and an
invariant that all of them keep is kept by the step. -/

namespace Sys2Proof.Machine

/-- What every command keeps until it reports, `RESULT` and the status but for `STICKY` apart. -/
structure HostSideFrame (s t : State) : Prop where
  params : t.params = s.params
  arg : t.regs.arg = s.regs.arg
  symSel : t.regs.symSel = s.regs.symSel
  sticky : t.status.sticky = s.status.sticky
  src : t.env.src = s.env.src
  creatable : t.env.dstCreatable = s.env.dstCreatable
  host : t.host = s.host
  busData : t.busData = s.busData

theorem RunFrame.host_side {s t : State} (h : RunFrame s t) : HostSideFrame s t := ⟨h.params, h.arg, h.symSel, h.sticky, h.src, h.creatable, h.host, h.busData⟩

/-- Every command but `CLEAR` is an operation that ends as operations end (44_system.md R233; 60_exceptions.md R262). -/
theorem exec_ends (i : Instr) (s : State) (hi : i ≠ .clear) :
    ∃ site r, exec i s = .next (endOp site r) ∧ HostSideFrame s r.state ∧ (i ≠ .brRbit → i ≠ .brRbyte8 → RunFrame s r.state) := by
  cases i with
  | clear => exact absurd rfl hi
  | nop => exact ⟨.decode, .done () s, rfl, (RunFrame.refl s).host_side, fun _ _ => RunFrame.refl s⟩
  | encode =>
    by_cases h : s.idle
    · exact ⟨_, _, by simp only [exec, execEncode]; rw [if_pos h], (encodeBody_runFrame s).host_side, fun _ _ => encodeBody_runFrame s⟩
    · exact ⟨.decode, .raised _ s, by simp only [exec, execEncode]; rw [if_neg h]; rfl, (RunFrame.refl s).host_side, fun _ _ => RunFrame.refl s⟩
  | compress =>
    by_cases h : s.idle ∧ s.status.encValid = true
    · exact ⟨_, _, by simp only [exec, execCompress]; rw [if_pos h], (compressBody_runFrame s).host_side, fun _ _ => compressBody_runFrame s⟩
    · exact ⟨.decode, .raised _ s, by simp only [exec, execCompress]; rw [if_neg h]; rfl, (RunFrame.refl s).host_side, fun _ _ => RunFrame.refl s⟩
  | decompress =>
    by_cases h : s.idle
    · exact ⟨_, _, by simp only [exec, execDecompress]; rw [if_pos h], (decompressBody_runFrame s).host_side, fun _ _ => decompressBody_runFrame s⟩
    · exact ⟨.decode, .raised _ s, by simp only [exec, execDecompress]; rw [if_neg h]; rfl, (RunFrame.refl s).host_side, fun _ _ => RunFrame.refl s⟩
  | bwOpen => exact ⟨_, _, rfl, (bwOpen_sinkFrame s).run.host_side, fun _ _ => (bwOpen_sinkFrame s).run⟩
  | bwWbits n => exact ⟨_, _, rfl, (bwWbits_sinkFrame _ _ s).run.host_side, fun _ _ => (bwWbits_sinkFrame _ _ s).run⟩
  | bwWbyte => exact ⟨_, _, rfl, (bwWbyte_sinkFrame _ s).run.host_side, fun _ _ => (bwWbyte_sinkFrame _ s).run⟩
  | bwClose => exact ⟨_, _, rfl, (bwClose_sinkFrame s).run.host_side, fun _ _ => (bwClose_sinkFrame s).run⟩
  | brOpen => exact ⟨_, _, rfl, (brOpen_runFrame s).host_side, fun _ _ => brOpen_runFrame s⟩
  | brRbit =>
    refine ⟨_, _, rfl, ?_, fun h => absurd rfl h⟩
    have h := (brRbit_readerFrame s).run.host_side
    cases hr : brRbit s with
    | done a t => rw [hr] at h; exact ⟨h.params, h.arg, h.symSel, h.sticky, h.src, h.creatable, h.host, h.busData⟩
    | raised e t => rw [hr] at h; exact h
  | brRbyte8 =>
    refine ⟨_, _, rfl, ?_, fun _ h => absurd rfl h⟩
    have h := (brRbyte8_readerFrame s).run.host_side
    cases hr : brRbyte8 s with
    | done a t => rw [hr] at h; exact ⟨h.params, h.arg, h.symSel, h.sticky, h.src, h.creatable, h.host, h.busData⟩
    | raised e t => rw [hr] at h; exact h
  | brClose => exact ⟨_, _, rfl, (brClose_runFrame s).host_side, fun _ _ => brClose_runFrame s⟩

/-- A command word written runs its command, or takes the usage fault of a word that is no command (44_system.md R233). -/
theorem issueCommand_cases {w : Word} {s u : State} (h : issueCommand w s = .next u) :
    (∃ i, decode w = .command i ∧ exec i (s.setStatus { s.status with busy := true }) = .next u) ∨
    (∃ e, u = takeError .decode e (s.setStatus { s.status with busy := true }) ∧ causeStatuses e.cause = [e.code] ∧ e.code ≠ .ok) := by
  unfold issueCommand at h
  dsimp only at h
  split at h
  · rename_i i hd; exact .inl ⟨i, hd, h⟩
  · cases h; exact .inr ⟨_, rfl, rfl, by decide⟩
  · cases h; exact .inr ⟨_, rfl, rfl, by decide⟩

/-- A step is the next action of the host, or nothing when it has none. -/
theorem step_cases {s t : State} (h : step s = .next t) :
    (s.host = [] ∧ t = s) ∨ (∃ a rest, s.host = a :: rest ∧ actOn a (s.setHost rest) = .next t ∧ (s.status.busy = true → allowedWhileBusy s.params a = true)) := by
  unfold step hostMove at h
  split at h
  · rename_i e; cases h; exact .inl ⟨e, rfl⟩
  · rename_i a rest e
    split at h
    · cases h
    · rename_i hb
      refine .inr ⟨a, rest, e, h, fun hb2 => ?_⟩
      by_contra hc
      exact hb ⟨hb2, by simpa using hc⟩

/-- An invariant that commands, faults of the decode stage, host actions and reset keep is kept by the step. -/
theorem step_keeps (P : State → Prop) (hb : ∀ s b, P s → P (s.setStatus { s.status with busy := b }))
    (hx : ∀ i s t, P s → exec i s = .next t → P t)
    (he : ∀ e s, causeStatuses e.cause = [e.code] → e.code ≠ .ok → P s → P (takeError .decode e s))
    (hhost : ∀ s h, P s → P (s.setHost h))
    (hbus : ∀ s w, P s → P (s.setBusData w))
    (hregs : ∀ s a y, P s → P (s.setRegs { s.regs with arg := a, symSel := y }))
    (hsrc : ∀ s x, (x.getD []).length ≤ Config.lenMax → P s → P (s.setEnv { s.env with src := x }))
    (hdst : ∀ s x, P s → P (s.setEnv { s.env with dst := x }))
    (hver : ∀ s c v, P s → P (s.setEnv { s.env with dstCreatable := c, verdicts := v }))
    (hres : ∀ s, P s → P (hardReset s))
    (hstr : ∀ o s t, P s → P (strikeReset o s t))
    (s t : State) (hs : P s) (h : step s = .next t) : P t := by
  rcases step_cases h with ⟨-, rfl⟩ | ⟨a, rest, hh, ha, -⟩
  · exact hs
  have hiss : ∀ w s t, P s → issueCommand w s = .next t → P t := by
    intro w s t hs h
    rcases issueCommand_cases h with ⟨i, -, hi⟩ | ⟨e, rfl, h1, h2⟩
    · exact hx i _ _ (hb s true hs) hi
    · exact he e _ h1 h2 (hb s true hs)
  have hs' := hhost s rest hs
  cases a with
  | reset => cases ha; exact hres _ hs'
  | issueThenReset w =>
    simp only [actOn, issueStruck] at ha
    split at ha <;> cases ha
    exact hstr _ _ _ hs'
  | setDst c => cases ha; exact hdst _ c hs'
  | setVerdicts c v => cases ha; exact hver _ c v hs'
  | setSrc x =>
    simp only [actOn] at ha
    split at ha <;> cases ha
    exact hsrc _ x (by assumption) hs'
  | read ad n =>
    simp only [actOn] at ha
    split at ha <;> cases ha
    exact hbus _ _ hs'
  | write ad n v =>
    simp only [actOn] at ha
    split at ha
    · cases ha
    · split at ha
      · exact hiss _ _ _ hs' ha
      · cases ha
        generalize regAt _ = q
        cases q <;> first | exact hs' | exact hregs _ v _ hs' | exact hregs _ _ (v.extractLsb' 0 8) hs'

end Sys2Proof.Machine
end

