-- ==== Sys2Proof/Laws/TableForms.lean ====
section
/-! SUPPORT. The parts of `ENCODE` keep every code length at most 32 and the queue empty (10_state.md R27, R29). -/

namespace Sys2Proof.Machine

variable {tie : Config.TieRule}

/-- `TableForm` of an encoder side. -/
abbrev EncoderForm (e : Encoder) : Prop := (∀ b : Byte, (symAt e b).len.toNat ≤ Config.codeMax) ∧ e.pq = []

theorem countByte_encoderForm {e : Encoder} (b) (h : EncoderForm e) : EncoderForm (countByte e b) := by
  refine ⟨fun c => ?_, h.2⟩
  show (symAt (setSym b { symAt e b with count := (symAt e b).count + 1 } e) c).len.toNat ≤ _
  rw [symAt_setSym]
  split
  · exact h.1 b
  · exact h.1 c

theorem scanLoop_encoderForm (f o l s) (h : EncoderForm s.enc) : EncoderForm (scanLoop f o l s).enc := by
  induction f generalizing o s with
  | zero => exact h
  | succ f ih =>
    unfold scanLoop; dsimp only; split
    · apply ih
      simp only [State.setEnc_enc, State.setScan_enc, State.setScan_scan]
      generalize (srcRead o _ s).1 = x
      rw [(srcRead_readerFrame _ _ s).enc]
      generalize s.enc = e at h
      induction x generalizing e with
      | nil => exact h
      | cons b x ih => exact ih _ (countByte_encoderForm b h)
    · exact h

theorem visit_encoderForm (f i v l e) (h : EncoderForm e) : EncoderForm (visit f i v l e).2 := by
  induction f generalizing i v l e with
  | zero => exact h
  | succ f ih =>
    unfold visit; dsimp only; split
    · split
      · exact h
      · rename_i hl
        refine ⟨fun c => ?_, h.2⟩
        rw [symAt_setSym]
        split
        · show (BitVec.ofNat 6 l).toNat ≤ _
          rw [BitVec.toNat_ofNat]
          have := Nat.mod_le l (2 ^ 6)
          omega
        · exact h.1 c
    · split
      · apply ih; apply ih; exact h
      · apply ih; exact h

theorem treeBuild_sym (e : Encoder) : (treeBuild tie e).sym = e.sym := by
  have hm : ∀ f (e : Encoder), (mergeLoop tie f e).sym = e.sym := by
    intro f
    induction f with
    | zero => intro e; rfl
    | succ f ih =>
      intro e; unfold mergeLoop
      split
      · rw [ih]; rfl
      · rfl
  have hs : ∀ (l : List Byte) (e : Encoder), (l.foldl (seedLeaf tie) e).sym = e.sym := by
    intro l
    induction l with
    | nil => intro e; rfl
    | cons b l ih =>
      intro e
      rw [List.foldl_cons, ih]
      unfold seedLeaf; split <;> rfl
  unfold treeBuild; dsimp only
  rw [hm]; exact hs _ _

theorem treeBuild_encoderForm {e} (h : EncoderForm e) : EncoderForm (treeBuild tie e) := by
  refine ⟨fun c => ?_, rfl⟩
  unfold symAt
  simp only [treeBuild_sym]
  exact h.1 c

theorem codeDerive_encoderForm (s) (h : EncoderForm s.enc) : EncoderForm (codeDerive s).state.enc := by
  unfold codeDerive
  have := visit_encoderForm 256 s.enc.etRoot 0 0 { s.enc with hdr := [] } h
  revert this
  generalize visit _ _ _ _ _ = a
  intro this
  dsimp only; split <;> exact this

theorem encodeBody_encoderForm (s) (h : EncoderForm s.enc) : EncoderForm (encodeBody s).state.enc := by
  unfold encodeBody
  have hf : EncoderForm (freqScan (s.setStatus { s.status with encValid := false })).state.enc := by
    have hc : EncoderForm (clearTable s.enc) := by
      refine ⟨fun b => ?_, h.2⟩
      unfold symAt clearTable; dsimp only
      rw [Vector.getElem_replicate]; decide
    unfold freqScan
    cases hx : s.env.src with
    | none => rw [srcOpen_absent (by exact hx)]; exact hc
    | some x =>
      rw [srcOpen_present (by exact hx)]
      exact scanLoop_encoderForm _ _ _ _ hc
  generalize freqScan _ = r at hf
  cases r with
  | raised e t => exact hf
  | done a t =>
    rw [Result.bind_done]
    split
    · exact hf
    · have hv : EncoderForm (codeDerive (t.setEnc (treeBuild t.params.tie t.enc))).state.enc := codeDerive_encoderForm _ (by rw [State.setEnc_enc]; exact treeBuild_encoderForm hf)
      generalize codeDerive _ = r at hv
      cases r <;> exact hv

/-! The header buffer (00_scope.md R6; 10_state.md R30). -/

/-- `HeaderForm` of an encoder side that is valid or not. -/
abbrev HeaderFits (e : Encoder) (valid : Bool) : Prop :=
  e.hdr.length ≤ Config.hdrMaxBits ∧ e.hdrBits.toNat ≤ Config.hdrMaxBits ∧
  (valid = true → e.hdrBits.toNat = e.hdr.length)

/-- What the body of `ENCODE` leaves in the header buffer fits, on every path (R173, R178, R179). -/
theorem encodeBody_headerForm {s : State} (hp : 2 ≤ s.params.bufBytes) (hm : Memory.wf s.env) (h : HeaderForm s) :
    HeaderForm (encodeBody s).state := by
  cases hx : s.env.src with
  | none =>
    have : encodeBody s = .raised ⟨.fileOpenErr, .srcOpenFail⟩
        ((s.setStatus { s.status with encValid := false }).setEnc (clearTable s.enc)) := by
      unfold encodeBody freqScan
      rw [srcOpen_absent (by exact hx)]
      rfl
    rw [this]
    exact ⟨h.1, Nat.zero_le _, fun h => by cases h⟩
  | some x =>
    have hl : x.length ≤ Config.lenMax := by
      have h' : (s.env.src.getD []).length ≤ Config.lenMax := hm
      rw [hx] at h'; exact h'
    by_cases hd : distinctSymbols x < 2
    · obtain ⟨f, v, -, -, h3, h4⟩ := encodeBody_few hp hx hl hd
      rw [h4]
      refine ⟨?_, ?_, fun h => by cases h⟩
      · show f.hdr.length ≤ _
        rw [h3]; exact h.1
      · show f.hdrBits.toNat ≤ _
        rw [h3]; exact Nat.zero_le _
    · obtain ⟨t, ht⟩ := huffmanTree_exists (x := x) (by omega)
      by_cases hh : t.height ≤ Config.codeMax
      · obtain ⟨f, v, h1, h2⟩ := encodeBody_done hp hx hl (by omega) ht hh
        rw [h2]
        have h3 := huffmanTree_header ht
        refine ⟨?_, ?_, fun _ => h1.hdrBits.trans (by rw [Result.state_done, h1.header])⟩
        · rw [Result.state_done, h1.header]; exact h3
        · rw [Result.state_done, h1.hdrBits]; exact h3
      · obtain ⟨f, v, -, -, -, h3, h4, h5⟩ := encodeBody_tooLong hp hx hl (by omega) ht (by omega)
        rw [h5]
        refine ⟨h4, ?_, fun h => by cases h⟩
        show f.hdrBits.toNat ≤ _
        rw [h3]; exact Nat.zero_le _

end Sys2Proof.Machine
end

