-- ==== Sys2Proof/Tests/Slice0.lean ====
section
/-! SUPPORT. The tests: ill-formed commands, command words written out from the table, one-step vectors of
95_test_vectors.md, and for every statement with hypotheses the states and operands that meet them. -/

namespace Sys2Proof.Tests

open Sys2Proof.Machine

/-! WellFormed (30_encoding.md R93 step 2). -/

theorem test_wf_refuses_count_33 : (Instr.bwWbits 33).wf = false := by decide
theorem test_wf_refuses_count_63 : (Instr.bwWbits 63).wf = false := by decide
theorem test_wf_accepts_count_32 : (Instr.bwWbits 32).wf = true := by decide

/-! Decoding: the words of the table's rows, written bit by bit as RSV (18), N (6), OPC (8) (30_encoding.md R90, R92). -/

theorem test_decode_nop : decode 0b000000000000000000_000000_00000000#32 = .command .nop := by decide
theorem test_decode_clear : decode 0b000000000000000000_000000_00000001#32 = .command .clear := by decide
theorem test_decode_encode : decode 0b000000000000000000_000000_00010000#32 = .command .encode := by decide
theorem test_decode_compress : decode 0b000000000000000000_000000_00010001#32 = .command .compress := by decide
theorem test_decode_decompress : decode 0b000000000000000000_000000_00010010#32 = .command .decompress := by decide
theorem test_decode_bw_open : decode 0b000000000000000000_000000_00100000#32 = .command .bwOpen := by decide
theorem test_decode_bw_wbits : decode 0b000000000000000000_000011_00100001#32 = .command (.bwWbits 3) := by decide
theorem test_decode_bw_wbyte : decode 0b000000000000000000_000000_00100010#32 = .command .bwWbyte := by decide
theorem test_decode_bw_close : decode 0b000000000000000000_000000_00100011#32 = .command .bwClose := by decide
theorem test_decode_br_open : decode 0b000000000000000000_000000_00110000#32 = .command .brOpen := by decide
theorem test_decode_br_rbit : decode 0b000000000000000000_000000_00110001#32 = .command .brRbit := by decide
theorem test_decode_br_rbyte8 : decode 0b000000000000000000_000000_00110010#32 = .command .brRbyte8 := by decide
theorem test_decode_br_close : decode 0b000000000000000000_000000_00110011#32 = .command .brClose := by decide

/-- Vector S8: an unknown opcode goes before any operand check. -/
theorem test_decode_unknown_opcode : decode 0x00004002#32 = .illegalCmd := by decide
/-- Vector S6: a count on a command without one. -/
theorem test_decode_stray_count : decode 0x00000110#32 = .illegalOperand := by decide
/-- Vector S7: a reserved bit. -/
theorem test_decode_reserved_bit : decode 0x00004021#32 = .illegalOperand := by decide
/-- Vector W4: `n = 33`. -/
theorem test_decode_count_33 : decode 0x00002121#32 = .illegalOperand := by decide

/-- The table's row of `BW.WBITS` with `N = 32`. -/
theorem test_table_word : decodeTableWord 32 0x2021 = some (.bwWbits 32) := by decide

/-! One step. -/

/-- The bytes with the given numbers. -/
def bytes (l : List Nat) : List Byte := l.map (BitVec.ofNat 8)

/-- Whether an answer is a next state of which `p` holds. -/
def endsIn (o : Host.Outcome State Fault Refusal) (p : State → Bool) : Bool :=
  match o with
  | .next t => p t
  | .fault _ => false
  | .refused _ => false

/-- A state with a small buffer and a source. -/
def withSrc (size : Nat) (x : List Nat) : State :=
  { State.reset with params := { bufBytes := size }, env := { State.reset.env with src := some (bytes x) } }

/-- What the host reads at `STATUS` and `CAUSE`. -/
def shows (status cause : Nat) (t : State) : Bool :=
  (readReg t .status).toNat = status && (readReg t .cause).toNat = cause

/-- A step from reset runs the word placed for it: `BW.OPEN` (vector W1 step 1). -/
theorem test_step_bw_open :
    endsIn (step (State.reset.withFetchWord 32 0x20)) (fun t => shows 0x20 0 t && t.env.dstHeld) = true := by
  decide +kernel

/-- Vector W3 through the step: the writer is closed. -/
theorem test_step_out_of_order :
    endsIn (step (State.reset.withFetchWord 32 0x121)) (shows 0x85 0x0C) = true := by decide +kernel

/-- R93: a word that is no command (vector S5). -/
theorem test_step_illegal_word :
    endsIn (step (State.reset.withFetchWord 32 0x02)) (shows 0x85 0x0A) = true := by decide +kernel

/-- R61: a host write of `SYM_SEL` keeps the low eight bits. -/
theorem test_step_write_sym_sel :
    endsIn (step { State.reset with host := [.write 0x34 4 0x1FF] }) (fun t => t.regs.symSel = 0xFF) = true := by
  decide +kernel

/-- R230: `NOP` clears the status of an error but not `STICKY`. -/
theorem test_nop_keeps_sticky :
    endsIn (exec .nop { State.reset with status := { code := .dstErr, cause := .dstWriteFail, sticky := true } })
      (shows 0x80 0) = true := by decide +kernel

/-- R231: `CLEAR` keeps `ARG` and clears `STICKY`. -/
theorem test_clear_keeps_arg :
    endsIn (exec .clear { State.reset with regs := { arg := 7, result := 9 }, status := { sticky := true } })
      (fun t => shows 0 0 t && t.regs.arg = 7 && t.regs.result = 0) = true := by decide +kernel

/-- The open writer of vector W1 after step 2. -/
def writerW1 : State :=
  { State.reset with
    params := { bufBytes := 2 }
    regs := { arg := 0xDEADBEEF }
    bw := { isOpen := true, buf := [], cur := 0xA0, free := 5 }
    env := { dstHeld := true } }

/-- Vector W1 step 3: 32 bits across a byte boundary and two flushes. -/
theorem test_bw_wbits_across_bytes :
    endsIn (exec (.bwWbits 32) writerW1) (fun t =>
      t.env.dst = bytes [0xBB, 0xD5, 0xB7, 0xDD] && t.bw.cur = 0xE0 && t.bw.free = 5 && t.regs.dstLen = 4) = true := by
  decide +kernel

/-- Vector W6: only the low four bits of `ARG` are used. -/
theorem test_bw_wbits_low_bits :
    endsIn (exec (.bwWbits 4) { writerW1 with regs := { arg := 0xFFFFFFF5 }, bw := { isOpen := true } })
      (fun t => t.bw.cur = 0x50 && t.bw.free = 4) = true := by decide +kernel

/-- Vector W1 step 5: a byte on an unaligned writer is refused. -/
theorem test_bw_wbyte_unaligned :
    endsIn (exec .bwWbyte writerW1) (fun t => shows 0xA5 0x0D t && t.bw = writerW1.bw) = true := by decide +kernel

/-- Vector W1 step 7: the byte fills the buffer, which is flushed at once. -/
theorem test_bw_wbyte_flushes :
    endsIn (exec .bwWbyte { writerW1 with regs := { arg := 0x5AA }, bw := { isOpen := true, buf := [0xFF] } })
      (fun t => t.env.dst = bytes [0xFF, 0xAA] && t.bw.buf = []) = true := by decide +kernel

/-- Vector W1 step 9: the partial byte is padded with zero bits. -/
theorem test_bw_close_pads :
    endsIn (exec .bwClose { writerW1 with bw := { isOpen := true, cur := 0xC0, free := 6 } })
      (fun t => t.env.dst = bytes [0xC0] && shows 0 0 t && t.bw.free = 8 && !t.env.dstHeld) = true := by decide +kernel

/-- Vector W8: the destination cannot be created. -/
theorem test_bw_open_fails :
    endsIn (exec .bwOpen { State.reset with env := { dst := [1], dstCreatable := false } })
      (fun t => shows 0x83 0x04 t && t.env.dst = [1]) = true := by decide +kernel

/-- Vector B1 step 1. -/
theorem test_br_open :
    endsIn (exec .brOpen (withSrc 2 [0x58, 0x6C, 0x42]))
      (fun t => shows 0x40 0 t && t.br.remaining = 24 && t.br.buf = [] && t.regs.srcLen = 3) = true := by decide +kernel

/-- Vector B4: an absent source. -/
theorem test_br_open_absent : endsIn (exec .brOpen State.reset) (shows 0x81 0x01) = true := by decide +kernel

/-- The open reader of vector B1 after step 4. -/
def readerB1 : State :=
  { withSrc 2 [0x58, 0x6C, 0x42] with
    regs := { srcLen := 3 }
    br := { isOpen := true, buf := bytes [0x58, 0x6C], pos := 0, bit := 3, off := 2, remaining := 21 }
    env := { src := some (bytes [0x58, 0x6C, 0x42]), srcHeld := true } }

/-- Vector B1 step 5: a byte read at a bit position that is not a byte boundary. -/
theorem test_br_rbyte8_unaligned :
    endsIn (exec .brRbyte8 readerB1)
      (fun t => t.regs.result = 0xC3 && t.br.pos = 1 && t.br.bit = 3 && t.br.remaining = 13) = true := by decide +kernel

/-- Vector B1 step 6: a refill that carries one byte over. -/
theorem test_br_rbit_refills :
    endsIn (exec .brRbit { readerB1 with br := { readerB1.br with pos := 1, remaining := 13 } })
      (fun t => t.regs.result = 0 && t.br.buf = bytes [0x6C, 0x42] && t.br.pos = 0 && t.br.bit = 4) = true := by
  decide +kernel

/-- Vector B1 step 12: the end of the source. -/
theorem test_br_rbyte8_end :
    endsIn (exec .brRbyte8 { readerB1 with br := { readerB1.br with remaining := 0 } }) (shows 0xC4 0x0E) = true := by
  decide +kernel

/-- Vector B1 step 14. -/
theorem test_br_close :
    endsIn (exec .brClose readerB1) (fun t => shows 0 0 t && !t.env.srcHeld && t.br.remaining = 21) = true := by
  decide +kernel

/-- Vector E1: the table of "aaaabbc". -/
theorem test_encode_table :
    endsIn (exec .encode (withSrc 4 [0x61, 0x61, 0x61, 0x61, 0x62, 0x62, 0x63])) (fun t =>
      shows 0x10 0 t && t.enc.hdrBits = 29 && t.enc.total = 7 && t.enc.nsym = 3 &&
      symAt t.enc 0x61 = ⟨4, 0, 1⟩ && symAt t.enc 0x62 = ⟨2, 2, 2⟩ && symAt t.enc 0x63 = ⟨1, 3, 2⟩) = true := by
  decide +kernel

/-- Vector E4: one symbol only. -/
theorem test_encode_few_symbols :
    endsIn (exec .encode (withSrc 4 [0x61, 0x61])) (fun t => shows 0x82 0x02 t && t.enc.nsym = 1) = true := by
  decide +kernel

/-- The encoder side after `ENCODE` on "ab" (vector R1). -/
def encodedAb (x : List Nat) : State :=
  { withSrc 2 x with
    status := { encValid := true }
    enc := { sym := ((Vector.replicate 256 {}).set 0x61 ⟨1, 1, 1⟩).set 0x62 ⟨1, 0, 1⟩
             hdr := false :: (true :: msb (0x61 : Byte) 8 ++ (true :: msb (0x62 : Byte) 8))
             hdrBits := 19, nsym := 2, total := 2 } }

/-- Vector K1: the container of "ab". -/
theorem test_compress_container :
    endsIn (exec .compress (encodedAb [0x61, 0x62])) (fun t =>
      shows 0x10 0 t && t.env.dst = bytes [0x58, 0x6C, 0x42] && t.regs.dstLen = 3) = true := by decide +kernel

/-- Vector K3: the source changed, the final check fails. -/
theorem test_compress_pad_mismatch :
    endsIn (exec .compress (encodedAb [0x61, 0x62, 0x61])) (fun t =>
      shows 0x95 0x10 t && t.env.dst = bytes [0x58, 0x6C, 0x42, 0x80]) = true := by decide +kernel

/-- Vector R3 read back: the container of "aab". -/
theorem test_decompress_container :
    endsIn (exec .decompress (withSrc 2 [0x58, 0xAC, 0x3C, 0x80])) (fun t =>
      shows 0 0 t && t.env.dst = bytes [0x61, 0x61, 0x62] && t.dec.decPad = 7 && t.br.remaining = 7) = true := by
  decide +kernel

/-- R255: an absent source is `SOURCE_ERR` for `DECOMPRESS`. -/
theorem test_decompress_absent : endsIn (exec .decompress State.reset) (shows 0x82 0x01) = true := by decide +kernel

/-! Witnesses: states and operands that meet the hypotheses of each statement that has some, clause by clause. -/

theorem test_witness_DecodeOfEncode : (Instr.bwWbits 32).wf = true ∧ (Instr.brRbyte8).wf = true := by decide

theorem test_witness_EncodeOfDecode : ∃ (w : Word) (i : Instr), decode w = .command i :=
  ⟨_, _, test_decode_bw_wbits⟩

theorem test_witness_StepRunsDecodedCommand :
    ∃ (s : State) (rest : List HostAction) (w : Word) (i : Instr),
      s.status.busy = false ∧ s.host = commandWrite s.params w :: rest ∧ decode w = .command i :=
  ⟨State.reset.withFetchWord 32 0x20, [], 0x20, .bwOpen, by decide⟩

theorem test_witness_StepEndsIllegalWord :
    ∃ s t : State, s.status.busy = false ∧ s.host = [commandWrite s.params 0x02] ∧ decode 0x02 = .illegalCmd ∧
      t.status.busy = false ∧ t.host = [commandWrite t.params 0x2121] ∧ decode 0x2121 = .illegalOperand :=
  ⟨State.reset.withFetchWord 32 0x02, State.reset.withFetchWord 32 0x2121, by decide⟩

/-- A state whose host has one action to come. -/
def hostWill (a : HostAction) : State := { State.reset with host := [a] }

theorem test_witness_HostWriteStoresOrIsIgnored :
    (∀ o ∈ [0x04, 0x34, 0x08, 0xFC], (hostWill (.write (0 + o) 4 5)).status.busy = false ∧
      (hostWill (.write (0 + o) 4 5)).host = [.write ((hostWill (.write (0 + o) 4 5)).params.regBase + o) 4 5] ∧
      o % 4 = 0 ∧ o < 256) ∧
    (0x08 ≠ 0x00 ∧ 0x08 ≠ 0x04 ∧ 0x08 ≠ 0x34) ∧ (0xFC ≠ 0x00 ∧ 0xFC ≠ 0x04 ∧ 0xFC ≠ 0x34) := by decide

theorem test_witness_HostReadHasNoSideEffect :
    ∀ o ∈ [0x00, 0x48, 0x4C, 0xFC], (hostWill (.read (0 + o) 4)).status.busy = false ∧
      (hostWill (.read (0 + o) 4)).host = [.read ((hostWill (.read (0 + o) 4)).params.regBase + o) 4] ∧
      o % 4 = 0 ∧ o < 256 := by decide

/-- A source one byte too long. -/
def tooLong : List Byte := List.replicate (Config.lenMax + 1) 0

theorem test_witness_HostOutsideContractRefused :
    ((hostWill (.write (0 + 255) 1 0)).status.busy = false ∧ 255 < 256 ∧ (1 ≠ 4 ∨ 255 % 4 ≠ 0) ∧
      (hostWill (.write (0 + 255) 1 0)).host = [.write ((hostWill (.write 255 1 0)).params.regBase + 255) 1 0]) ∧
    ((hostWill (.read (0 + 2) 4)).status.busy = false ∧ 2 < 256 ∧ (4 ≠ 4 ∨ 2 % 4 ≠ 0) ∧
      (hostWill (.read (0 + 2) 4)).host = [.read ((hostWill (.read 2 4)).params.regBase + 2) 4]) ∧
    (∀ a ∈ [HostAction.write 0 4 0, .read 0x0C 4, .read 0x08 1, .setSrc none, .issueThenReset 0],
      let s := { hostWill a with status := { busy := true } }
      s.status.busy = true ∧ s.host = [a] ∧ a ≠ .reset ∧ a ≠ .read (s.params.regBase + 0x08) 4) ∧
    (let s := { hostWill (.read 0x08 4) with status := { busy := true } }
     s.status.busy = true ∧ s.host = [.read (s.params.regBase + 0x08) 4]) ∧
    ((hostWill (.setSrc (some tooLong))).status.busy = false ∧
      (hostWill (.setSrc (some tooLong))).host = [.setSrc (some tooLong)] ∧ Config.lenMax < tooLong.length) := by
  refine ⟨by decide, by decide, by decide, by decide, rfl, rfl, ?_⟩
  rw [tooLong, List.length_replicate]
  omega

theorem test_witness_HardwareResetStep : ∃ (s : State) (rest : List HostAction), s.host = .reset :: rest :=
  ⟨hostWill .reset, [], rfl⟩

theorem test_witness_ResetDuringOperation :
    ∃ (s : State) (rest : List HostAction) (w : Word), s.status.busy = false ∧ s.host = .issueThenReset w :: rest :=
  ⟨hostWill (.issueThenReset 0x11), [], 0x11, rfl, rfl⟩

/-- A state whose destination cannot be created. -/
def noCreate : State := { State.reset with env := { dstCreatable := false } }

theorem test_witness_BwOpenAcquiresSink :
    writerW1.bw.isOpen = true ∧ (noCreate.bw.isOpen = false ∧ noCreate.env.dstCreatable = false) ∧
    (State.reset.bw.isOpen = false ∧ State.reset.env.dstCreatable = true) := by decide

/-- The writer of vector W1 meets its form; so does one with a single free bit and a buffer that is full but for a byte. -/
theorem test_witness_BwWbitsAppends :
    WriterForm writerW1 ∧ writerW1.bw.isOpen = true ∧ AcceptsBursts writerW1 ∧ (32 : BitVec 6).toNat ≤ 32 ∧
    WriterForm { writerW1 with bw := { isOpen := true, buf := [1], cur := 2, free := 1 } } := by decide

/-- The writer of vector W1, with a verdict for each burst to come. -/
def writerVerdicts (verdicts : List Bool) : State :=
  { writerW1 with env := { dstHeld := true, verdicts := verdicts } }

/-- The 32 bits of vector W1 step 3 make two bursts of two bytes: the first or the second may be refused, the third is none. -/
theorem test_witness_BwWbitsOutcomes :
    (0 : BitVec 6).toNat ≤ 32 ∧ writerW1.bw.isOpen = true ∧
    (let s := writerVerdicts []
     let y := wholeBytes (heldBits s.bw ++ msb s.regs.arg (32 : BitVec 6).toNat)
     y = bytes [0xBB, 0xD5, 0xB7, 0xDD] ∧ y.length / s.params.bufBytes = 2) ∧
    (∀ vs ∈ [[true, true, false], [false], [true, false]], WriterForm (writerVerdicts vs)) ∧
    (∀ i < 2, ¬ RefusesBurst (writerVerdicts [true, true, false]) i) ∧
    RefusesBurst (writerVerdicts [false]) 0 ∧ RefusesBurst (writerVerdicts [true, false]) 1 := by decide

theorem test_witness_BwWbitsIgnoresHighBits :
    ∀ k < (4 : BitVec 6).toNat, (0xFFFFFFF5 : Word).getLsbD k = (0x5 : Word).getLsbD k := by decide

theorem test_witness_BwWbitsCountLimits :
    32 < (33 : BitVec 6).toNat ∧ ((0 : BitVec 6) = 0 ∧ writerW1.bw.isOpen = true) := by decide

/-- A writer at a byte boundary whose buffer the next byte fills. -/
def writerFull (verdicts : List Bool) : State :=
  { writerW1 with bw := { isOpen := true, buf := [0xFF] }, env := { dstHeld := true, verdicts := verdicts } }

theorem test_witness_BwWbytePutsByte :
    State.reset.bw.isOpen = false ∧
    (writerW1.bw.isOpen = true ∧ writerW1.bw.free ≠ 8) ∧
    (let s := { writerW1 with bw := { isOpen := true } }
     s.bw.isOpen = true ∧ s.bw.free = 8 ∧ (s.bw.buf ++ [s.regs.arg.extractLsb' 0 8]).length ≠ s.params.bufBytes) ∧
    (let s := writerFull []
     s.bw.isOpen = true ∧ s.bw.free = 8 ∧ (s.bw.buf ++ [s.regs.arg.extractLsb' 0 8]).length = s.params.bufBytes ∧
       s.env.verdicts.head? ≠ some false) ∧
    (let s := writerFull [false]
     s.bw.isOpen = true ∧ s.bw.free = 8 ∧ (s.bw.buf ++ [s.regs.arg.extractLsb' 0 8]).length = s.params.bufBytes ∧
       s.env.verdicts.head? = some false) := by decide

theorem test_witness_BwWbyteIsWbits8 :
    WriterForm (writerFull [false]) ∧ (writerFull [false]).bw.isOpen = true ∧ (writerFull [false]).bw.free = 8 := by
  decide

theorem test_witness_BwClosePacks :
    WriterForm writerW1 ∧ writerW1.bw.isOpen = true ∧ AcceptsBursts writerW1 := by decide

theorem test_witness_BwCloseAlwaysCloses :
    (let s := { writerFull [false] with bw := { isOpen := true } }
     s.bw.isOpen = true ∧ flushBytes s.bw = []) ∧
    ((writerFull []).bw.isOpen = true ∧ (writerFull []).env.verdicts.head? ≠ some false) ∧
    ((writerFull [false]).bw.isOpen = true ∧ flushBytes (writerFull [false]).bw ≠ [] ∧
      (writerFull [false]).env.verdicts.head? = some false) := by decide

theorem test_witness_BrOpenAcquiresSource :
    readerB1.br.isOpen = true ∧ (State.reset.br.isOpen = false ∧ State.reset.env.src = none) ∧
    ((withSrc 2 []).br.isOpen = false ∧ (withSrc 2 []).env.src = some [] ∧ ([] : List Byte).length ≤ Config.lenMax) := by
  decide

theorem test_witness_BrOpenStandsForSource :
    (withSrc 2 [1]).br.isOpen = false ∧ (withSrc 2 [1]).env.src = some [1] ∧ ([1] : List Byte).length ≤ Config.lenMax := by
  decide

theorem readerB1_stands : ReaderStandsFor readerB1 (bytes [0x58, 0x6C, 0x42]) :=
  ⟨by decide, by decide, by decide, by decide, by decide, by decide⟩

theorem test_witness_BrRbitReturnsNextBit :
    ∃ (s : State) (x : List Byte), s.params.wf ∧ ReaderStandsFor s x ∧ s.br.remaining ≠ 0 :=
  ⟨readerB1, _, by decide, readerB1_stands, by decide⟩

theorem test_witness_BrRbyte8ReturnsNextByte :
    ∃ (s : State) (x : List Byte), s.params.wf ∧ ReaderStandsFor s x ∧ 8 ≤ s.br.remaining.toNat :=
  ⟨readerB1, _, by decide, readerB1_stands, by decide⟩

theorem test_witness_BrReadsPastEndFault :
    (let s := { readerB1 with br := { readerB1.br with remaining := 0 } }
     s.br.isOpen = true ∧ s.br.remaining = 0) ∧
    (let s := { readerB1 with br := { readerB1.br with remaining := 7 } }
     s.br.isOpen = true ∧ s.br.remaining.toNat < 8) := by decide

theorem test_witness_BrCloseReleasesSource : readerB1.br.isOpen = true ∧ State.reset.br.isOpen = false := by decide

theorem test_witness_CommandsOutOfOrderRefused :
    (Instr.wf .compress = true ∧ allowed .compress State.reset = false) ∧
    (Instr.wf (.bwWbits 0) = true ∧ allowed (.bwWbits 0) State.reset = false) ∧
    (Instr.wf .bwOpen = true ∧ allowed .bwOpen writerW1 = false) ∧
    (Instr.wf .decompress = true ∧ allowed .decompress readerB1 = false) := by decide

theorem test_witness_EncodeSourceAbsent : State.reset.idle ∧ State.reset.env.src = none := by decide

theorem test_witness_EncodeFewSymbols :
    ∀ x ∈ [[], [0x61], [0x61, 0x61]], (withSrc 2 x).params.wf ∧ (withSrc 2 x).idle ∧
      (withSrc 2 x).env.src = some (bytes x) ∧ (bytes x).length ≤ Config.lenMax ∧ distinctSymbols (bytes x) < 2 := by
  decide

/-- The Huffman tree of "ab" (vector R1). -/
def treeAb : CodeTree := .node (.leaf 0x61) (.leaf 0x62)

theorem tree_ab : huffmanTree {} (bytes [0x61, 0x62]) = some treeAb := by decide +kernel

/-- The key of a leaf that occurs once. -/
def once (b : Nat) : Config.NodeKey := ⟨1, 0, b⟩

/-- Another tie rule on "ab", where the two leaves tie: with the second node extracted as left child (decision D5: the mirror
choice exchanges 0 and 1 on that edge), or with 0x62 before 0x61 (decision D4), "b" gets the codeword 1 and "a" the codeword 0;
with both at once the tree is that of the default. Nodes that do not tie are not touched: in "abb" the lighter "a" is still
extracted first. -/
theorem test_tie_rule :
    huffmanTree { secondLeft := [(once 0x61, once 0x62)] } (bytes [0x61, 0x62]) = some (.node (.leaf 0x62) (.leaf 0x61)) ∧
    huffmanTree { order := [once 0x62] } (bytes [0x61, 0x62]) = some (.node (.leaf 0x62) (.leaf 0x61)) ∧
    huffmanTree { order := [once 0x62], secondLeft := [(once 0x62, once 0x61)] } (bytes [0x61, 0x62]) = some treeAb ∧
    huffmanTree { order := [once 0x62] } (bytes [0x61, 0x62, 0x62]) = some treeAb := by decide +kernel

theorem test_witness_EncodeBuildsTable :
    (withSrc 2 [0x61, 0x62]).params.wf ∧ (withSrc 2 [0x61, 0x62]).idle ∧
    (withSrc 2 [0x61, 0x62]).env.src = some (bytes [0x61, 0x62]) ∧ (bytes [0x61, 0x62]).length ≤ Config.lenMax ∧
    2 ≤ distinctSymbols (bytes [0x61, 0x62]) ∧ huffmanTree {} (bytes [0x61, 0x62]) = some treeAb ∧
    treeAb.height ≤ Config.codeMax :=
  ⟨by decide, by decide, by decide, by decide, by decide, tree_ab, by decide⟩

/-- `ENCODE` on "ab" under the mirrored tie rule: the codeword of "b" is 1 and that of "a" is 0 (R176, R177). -/
theorem test_encode_tieRule :
    (fun e : Encoder => (symAt e 0x61).code = 0 ∧ (symAt e 0x62).code = 1 ∧ (symAt e 0x61).len = 1)
      (encodeBody { withSrc 2 [0x61, 0x62] with
        params := { bufBytes := 2, tie := { secondLeft := [(once 0x61, once 0x62)] } } }).state.enc := by decide +kernel

/-- The first Fibonacci numbers, as a list from the given two on. -/
def fibs : Nat → Nat → Nat → List Nat
  | 0, _, _ => []
  | k + 1, a, b => a :: fibs k b (a + b)

/-- The source of vector E9: 34 byte values with Fibonacci counts, given as runs. -/
def runs : List (Nat × Nat) := (List.range 34).zip (fibs 34 1 1)

/-- The source of vector E9. -/
def sourceE9 : List Byte := runs.flatMap fun r => List.replicate r.2 (BitVec.ofNat 8 r.1)

/-- How often a byte occurs in the source of vector E9. -/
def countE9 (b : Byte) : Nat := (runs.map fun r => if b = BitVec.ofNat 8 r.1 then r.2 else 0).sum

theorem sourceE9_count (b : Byte) : sourceE9.count b = countE9 b := by
  unfold sourceE9 countE9
  generalize runs = l
  induction l with
  | nil => rfl
  | cons r l ih =>
    rw [List.flatMap_cons, List.count_append, ih, List.map_cons, List.sum_cons, List.count_replicate]
    congr 1
    by_cases h : b = BitVec.ofNat 8 r.1
    · simp [h]
    · simp [h, Ne.symm h]

theorem sourceE9_length : sourceE9.length = 14930351 := by
  have h : sourceE9.length = (runs.map fun r => r.2).sum := by
    unfold sourceE9
    generalize runs = l
    induction l with
    | nil => rfl
    | cons r l ih => rw [List.flatMap_cons, List.length_append, ih, List.length_replicate, List.map_cons, List.sum_cons]
  rw [h]
  decide

/-- The Huffman tree from the counts alone. -/
def treeOfCounts (count : Byte → Nat) : Option CodeTree :=
  (queueMerge {} 256 256 (((List.range 256).map (BitVec.ofNat 8)).foldl
    (fun q b => if count b = 0 then q else queueInsert {} ⟨count b, 0, b.toNat, .leaf b⟩ q) [])).head?.map (·.tree)

theorem huffmanTree_counts (x : List Byte) : huffmanTree {} x = treeOfCounts (fun b => x.count b) := by
  unfold huffmanTree treeOfCounts queueOf
  generalize queueMerge {} 256 256 _ = q
  cases q <;> rfl

theorem sourceE9_tree : ∃ t, huffmanTree {} sourceE9 = some t ∧ Config.codeMax < t.height := by
  have h : (huffmanTree {} sourceE9).map CodeTree.height = some 33 := by
    rw [huffmanTree_counts, show (fun b => sourceE9.count b) = countE9 from funext sourceE9_count]
    decide +kernel
  obtain ⟨t, ht, hh⟩ := Option.map_eq_some_iff.mp h
  exact ⟨t, ht, by rw [hh]; decide⟩

theorem sourceE9_distinct : 2 ≤ distinctSymbols sourceE9 := by
  have h0 : (0 : Byte) ∈ sourceE9.dedup := by
    rw [List.mem_dedup, ← List.count_pos_iff, sourceE9_count]; decide
  have h1 : (1 : Byte) ∈ sourceE9.dedup := by
    rw [List.mem_dedup, ← List.count_pos_iff, sourceE9_count]; decide
  unfold distinctSymbols
  generalize sourceE9.dedup = l at h0 h1
  match l with
  | [] => cases h0
  | [a] =>
    rw [List.mem_singleton] at h0 h1
    rw [← h0] at h1
    exact absurd h1 (by decide)
  | _ :: _ :: _ => simp

theorem test_witness_EncodeCodeTooLong :
    ∃ (s : State) (x : List Byte) (t : CodeTree), s.params.wf ∧ s.idle ∧ s.env.src = some x ∧
      x.length ≤ Config.lenMax ∧ 2 ≤ distinctSymbols x ∧ huffmanTree s.params.tie x = some t ∧ Config.codeMax < t.height := by
  obtain ⟨t, ht, hh⟩ := sourceE9_tree
  refine ⟨{ State.reset with env := { src := some sourceE9 } }, sourceE9, t, by decide, by decide, rfl, ?_,
    sourceE9_distinct, ht, hh⟩
  rw [sourceE9_length]
  decide

theorem encodedAb_form (x : List Nat) : EncodedFor (encodedAb x) (bytes [0x61, 0x62]) treeAb := by
  have hs : (encodedAb x).enc = (encodedAb []).enc := rfl
  refine ⟨rfl, ?_, rfl, ?_, tree_ab, ?_, ?_, rfl, rfl⟩
  · rw [hs]; decide +kernel
  · rw [hs]; decide +kernel
  · rw [hs]
    intro b hb
    have : b = 0x61 ∨ b = 0x62 := by simpa [bytes] using hb
    rcases this with rfl | rfl
    · exact ⟨[true], by decide +kernel⟩
    · exact ⟨[false], by decide +kernel⟩
  · rw [hs]; decide +kernel

theorem test_witness_CompressOpenFailures :
    (let s := { encodedAb [] with env := { src := none } }
     s.idle ∧ HandleForm s ∧ s.status.encValid = true ∧ s.env.src = none) ∧
    (let s := { encodedAb [] with env := { src := some [1], dstCreatable := false } }
     s.idle ∧ HandleForm s ∧ s.status.encValid = true ∧ s.env.src = some [1] ∧ s.env.dstCreatable = false) :=
  ⟨⟨by decide, by decide, rfl, rfl⟩, by decide, by decide, rfl, rfl, rfl⟩

/-- The encoder side after `ENCODE` on "ab", with a verdict for each burst to come. -/
def encodedVerdicts (verdicts : List Bool) : State :=
  { encodedAb [0x61, 0x62] with env := { (encodedAb [0x61, 0x62]).env with verdicts := verdicts } }

/-- A refusal of the third burst does not touch the three bytes of the container, which two bursts deliver; of the first and
of the second it does. -/
theorem test_witness_CompressMakesContainer :
    (∀ vs, (encodedVerdicts vs).params.wf ∧ (encodedVerdicts vs).idle ∧
      EncodedFor (encodedVerdicts vs) (bytes [0x61, 0x62]) treeAb ∧
      (encodedVerdicts vs).env.src = some (bytes [0x61, 0x62]) ∧ (bytes [0x61, 0x62]).length ≤ Config.lenMax ∧
      (encodedVerdicts vs).env.dstCreatable = true) ∧
    AcceptsBytes (encodedVerdicts [true, true, false]) (containerOf treeAb (bytes [0x61, 0x62])) ∧
    (RefusesBurst (encodedVerdicts [false]) 0 ∧ 0 * 2 < (containerOf treeAb (bytes [0x61, 0x62])).length) ∧
    (RefusesBurst (encodedVerdicts [true, false]) 1 ∧ 1 * 2 < (containerOf treeAb (bytes [0x61, 0x62])).length) := by
  refine ⟨fun vs => ⟨(by decide : (encodedAb []).params.wf), ⟨rfl, rfl⟩, ?_, rfl, by decide, rfl⟩, ?_, by decide, by decide⟩
  · have h := encodedAb_form [0x61, 0x62]
    exact ⟨h.1, h.2, h.3, h.4, h.5, h.6, h.7, h.8, h.9⟩
  · intro i h
    match i with
    | 0 => exact absurd h.1 (by decide)
    | 1 => exact absurd h.1 (by decide)
    | i + 2 =>
      show 3 ≤ (i + 2) * 2
      omega

/-- The sources of vectors K2 (a byte without a code), K4 (a change that is not seen) and K3 (the final check fails). -/
theorem test_witness_CompressOfChangedSource :
    (∀ x ∈ [[0x61, 0x62, 0x63], [0x61, 0x62, 0x61, 0x62, 0x61, 0x62, 0x61, 0x62, 0x61, 0x62], [0x61, 0x62, 0x61]],
      (encodedAb x).params.wf ∧ (encodedAb x).idle ∧ (encodedAb x).status.encValid = true ∧ TableForm (encodedAb x) ∧
      (encodedAb x).env.src = some (bytes x) ∧ (bytes x).length ≤ Config.lenMax ∧
      (encodedAb x).env.dstCreatable = true ∧ AcceptsBursts (encodedAb x) ∧ HeaderForm (encodedAb x)) ∧
    (∃ b ∈ bytes [0x61, 0x62, 0x63], (symAt (encodedAb []).enc b).len = 0) ∧
    (let e := (encodedAb []).enc
     let x := bytes [0x61, 0x62, 0x61, 0x62, 0x61, 0x62, 0x61, 0x62, 0x61, 0x62]
     (∀ b ∈ x, (symAt e b).len ≠ 0) ∧ ((emissionOf e (codedPrefix e x)).length + padLength e) % 8 = 0) ∧
    (let e := (encodedAb []).enc
     let x := bytes [0x61, 0x62, 0x61]
     (∀ b ∈ x, (symAt e b).len ≠ 0) ∧ ((emissionOf e (codedPrefix e x)).length + padLength e) % 8 ≠ 0) := by
  have ht : ∀ x, TableForm (encodedAb x) := fun x => by
    have : TableForm (encodedAb []) := ⟨by decide +kernel, rfl⟩
    exact this
  refine ⟨fun x hx => ⟨(by decide : (encodedAb []).params.wf), ⟨rfl, rfl⟩, rfl, ht x, rfl, ?_, rfl, ?_, ?_⟩,
    ⟨0x63, by decide, by decide +kernel⟩, by decide +kernel, by decide +kernel⟩
  · revert x; decide
  · intro v hv; cases hv
  · exact (by decide : HeaderForm (encodedAb []))

/-- The last clause of the frames of `COMPRESS` and `DECOMPRESS`: allowed, and a source is there. -/
theorem test_witness_CompressFrame :
    (encodedAb [0x61]).idle ∧ (encodedAb [0x61]).status.encValid = true ∧
      (encodedAb [0x61]).env.src = some (bytes [0x61]) := ⟨⟨rfl, rfl⟩, rfl, rfl⟩

theorem test_witness_DecompressFrame :
    (withSrc 2 [0x61]).idle ∧ (withSrc 2 [0x61]).env.src = some (bytes [0x61]) := ⟨⟨rfl, rfl⟩, rfl⟩

theorem test_witness_DecompressOpenFailures :
    (State.reset.idle ∧ HandleForm State.reset ∧ State.reset.env.src = none) ∧
    (let s := { State.reset with env := { src := some [1], dstCreatable := false } }
     s.idle ∧ HandleForm s ∧ s.env.src = some [1] ∧ s.env.dstCreatable = false) := by decide

/-- The containers of vectors D4, D5, D6, D7 (the header ends early), D9 (a 512th node), D8 (a single leaf) and D11 (the padding
length ends early), with the nodes and the bits left that the vectors give. -/
theorem test_witness_DecompressRejectsHeaders :
    (∀ c ∈ [[], [0x58], [0x58, 0x6C], [0xB0], List.replicate 64 0, [0xB0, 0x80], [0x2C, 0x36, 0x25, 0x8E, 0xC9]],
      (withSrc 2 c).params.wf ∧ (withSrc 2 c).idle ∧ (withSrc 2 c).env.src = some (bytes c) ∧
      (bytes c).length ≤ Config.lenMax ∧ (withSrc 2 c).env.dstCreatable = true) ∧
    scanHeader 1 0 (unpack (bytes [])) = .truncated 1 [] ∧
    scanHeader 1 0 (unpack (bytes [0x58])) = .truncated 2 [false, true, true, false, false, false] ∧
    scanHeader 1 0 (unpack (bytes [0x58, 0x6C])) = .truncated 3 [false, true, true, false, false] ∧
    scanHeader 1 0 (unpack (bytes [0xB0])) = .truncated 1 [false, true, true, false, false, false, false] ∧
    scanHeader 1 0 (unpack (bytes (List.replicate 64 0))) = .tooLarge [false] ∧
    scanHeader 1 0 (unpack (bytes [0xB0, 0x80])) = .whole 1 (zeros 7) ∧
    (scanHeader 1 0 (unpack (bytes [0x2C, 0x36, 0x25, 0x8E, 0xC9])) = .whole 7 [true] ∧ 7 ≠ 1 ∧ [true].length < 3) ∧
    (bytes [0xB0, 0x80] = 0xB0 :: 0x80 :: [] ∧ (0xB0 : Byte).getLsbD 7 = true) := by
  refine ⟨fun c hc => ⟨(by decide : (withSrc 2 []).params.wf), ⟨rfl, rfl⟩, rfl, ?_, rfl⟩, ?_⟩
  · revert c; decide +kernel
  · decide +kernel

/-- The container of "ab" is well formed (30_encoding.md R104). -/
theorem spells_ab : SpellsBy (bytes [0x58, 0x6C, 0x42]) treeAb 0 (bytes [0x61, 0x62]) :=
  ⟨[[true], [false]], [], by decide⟩

/-- The container of vector D12 behind SRC. -/
def sourceD12 : State := withSrc 2 [0x2C, 0x76, 0x2B, 0x08, 0x09]

/-- Vector D12: the payload ends inside a codeword. -/
theorem sourceD12_faults : endsIn (exec .decompress sourceD12) (fun t => t.status.code = .decodeFault) = true := by
  decide +kernel

/-- The container of vector D12 spells nothing: of a well-formed container `DECOMPRESS` does not end with a decode fault. -/
theorem spells_nothing (out : List Byte) : ¬ SpellsOut (bytes [0x2C, 0x76, 0x2B, 0x08, 0x09]) out := by
  rintro ⟨t, pad, h⟩
  have hf := sourceD12_faults
  have he : exec .decompress sourceD12 = .next (endOp .composite (decompressBody sourceD12)) := by
    rw [exec, execDecompress, if_pos ⟨rfl, rfl⟩]
  rw [he] at hf
  rcases decompressBody_spells (s := sourceD12) ⟨by decide, by decide⟩ ⟨rfl, rfl⟩ rfl (by decide) rfl h with
    ⟨u, h1, -⟩ | ⟨u, h1, -⟩
  · rw [h1] at hf
    exact Bool.false_ne_true hf
  · rw [h1] at hf
    exact Bool.false_ne_true hf

theorem test_witness_DecompressDecodes :
    (∀ vs, let s := { withSrc 2 [0x58, 0x6C, 0x42] with env := { (withSrc 2 [0x58, 0x6C, 0x42]).env with verdicts := vs } }
      s.params.wf ∧ s.idle ∧ s.env.src = some (bytes [0x58, 0x6C, 0x42]) ∧ s.env.dstCreatable = true ∧
      SpellsBy (bytes [0x58, 0x6C, 0x42]) treeAb 0 (bytes [0x61, 0x62]) ∧
      (vs = [true, false] → AcceptsBytes s (bytes [0x61, 0x62])) ∧
      (vs = [false] → RefusesBurst s 0 ∧ 0 * s.params.bufBytes < (bytes [0x61, 0x62]).length)) ∧
    (bytes [0x58, 0x6C, 0x42]).length ≤ Config.lenMax ∧
    (let t : CodeTree := .node (.node (.leaf 0x63) (.leaf 0x62)) (.leaf 0x61)
     let c := bytes [0x2C, 0x76, 0x2B, 0x08, 0x09]
     sourceD12.params.wf ∧ sourceD12.idle ∧ sourceD12.env.src = some c ∧ c.length ≤ Config.lenMax ∧
       sourceD12.env.dstCreatable = true ∧
       unpack c = t.header ++ msb (0 : BitVec 3) 3 ++ [false, false, false, false, true, false, false, true] ∧
       t.internal = true ∧ t.size ≤ Config.nodeMax ∧ (∀ out, ¬ SpellsOut c out) ∧ AcceptsBursts sourceD12) ∧
    ∃ t, exec .decompress sourceD12 = .next t := by
  refine ⟨fun vs => ⟨(by decide : (withSrc 2 []).params.wf), ⟨rfl, rfl⟩, rfl, rfl, spells_ab, ?_, ?_⟩, by decide, ?_,
    ⟨_, rfl⟩⟩
  · rintro rfl i h
    match i with
    | 0 => exact absurd h.1 (by decide)
    | i + 1 =>
      show 2 ≤ (i + 1) * 2
      omega
  · rintro rfl
    exact ⟨by decide, by decide⟩
  · exact ⟨by decide, ⟨rfl, rfl⟩, rfl, by decide, rfl, by decide, rfl, by decide, spells_nothing, by decide⟩

theorem test_witness_ContainerSpellsSource :
    2 ≤ distinctSymbols (bytes [0x61, 0x62]) ∧ huffmanTree {} (bytes [0x61, 0x62]) = some treeAb :=
  ⟨by decide, tree_ab⟩

theorem test_witness_RoundTrip :
    ∃ (s : State) (x : List Byte) (t : CodeTree), s.params.wf ∧ s.idle ∧ s.env.src = some x ∧
      x.length ≤ Config.lenMax ∧ 2 ≤ distinctSymbols x ∧ huffmanTree s.params.tie x = some t ∧ t.height ≤ Config.codeMax ∧
      (containerOf t x).length ≤ Config.lenMax ∧ s.env.dstCreatable = true ∧ AcceptsBursts s :=
  ⟨withSrc 2 [0x61, 0x62], bytes [0x61, 0x62], treeAb, by decide, by decide, rfl, by decide, by decide, tree_ab,
    by decide, by decide, rfl, by decide⟩

theorem test_witness_StickyRule :
    (∃ t : State, exec .brOpen State.reset = .next t ∧ t.status.code ≠ .ok) ∧
    (∃ (s t : State) (a : HostAction) (rest : List HostAction), s.host = a :: rest ∧ a ≠ .reset ∧
      (∀ w, a ≠ .issueThenReset w) ∧ a ≠ commandWrite s.params (encode .clear) ∧ s.status.sticky = true ∧
      step s = .next t) ∧
    (∃ (s t : State), s.status.busy = false ∧ s.host = [commandWrite s.params 0x02] ∧ step s = .next t ∧
      t.status.code ≠ .ok) ∧
    (∃ (s t : State), s.host = [.reset] ∧ step s = .next t) :=
  ⟨⟨endOp .reader (brOpen State.reset), rfl, by decide +kernel⟩,
    ⟨{ State.reset with status := { sticky := true }, host := [commandWrite {} 0] }, _, commandWrite {} 0, [], rfl,
      by decide, (by intro w h; cases h), by decide, rfl, rfl⟩,
    ⟨State.reset.withFetchWord 32 0x02, _, rfl, rfl, rfl, by decide⟩, hostWill .reset, _, rfl, rfl⟩

theorem test_witness_CommandsLeaveHostSide : ∃ (i : Instr) (s t : State), exec i s = .next t ∧
    i ≠ .brRbit ∧ i ≠ .brRbyte8 ∧ i ≠ .clear :=
  ⟨.nop, State.reset, _, rfl, by decide⟩

theorem test_witness_DstOnlyGrows : ∃ (s t : State), Instr.bwWbyte ≠ .bwOpen ∧ Instr.bwWbyte ≠ .compress ∧
    Instr.bwWbyte ≠ .decompress ∧ exec .bwWbyte s = .next t ∧ 0 < s.env.dst.length :=
  ⟨{ writerW1 with env := { dst := [1], dstHeld := true } }, _, by decide, by decide, by decide, rfl, by decide⟩

theorem test_witness_CompositeReleasesHandles : ∃ t : State, State.reset.idle ∧ HandleForm State.reset ∧
    exec .compress State.reset = .next t :=
  ⟨_, by decide, by decide, rfl⟩

/-- One witness for all the invariants: a state with an open writer and one with an open reader, each with a step. -/
theorem test_witness_StepKeeps :
    (∃ t, step writerW1 = .next t) ∧ writerW1.params.wf ∧ WriterForm writerW1 ∧ HandleForm writerW1 ∧
    StatusForm writerW1 ∧ Memory.wf writerW1.env ∧
    (∃ t, step readerB1 = .next t) ∧ readerB1.params.wf ∧ ReaderForm readerB1 ∧ readerB1.br.isOpen = true ∧
    HandleForm readerB1 ∧ Memory.wf readerB1.env :=
  ⟨⟨_, rfl⟩, by decide, by decide, by decide, by decide, by decide, ⟨_, rfl⟩, by decide, by decide, rfl, by decide,
    by decide⟩

/-- The witness of `StepKeepsTableForm`: a valid table with codes and its header. -/
theorem test_witness_StepKeepsTableForm :
    TableForm (encodedAb []) ∧ HeaderForm (encodedAb []) ∧ (encodedAb []).status.encValid = true ∧
    (encodedAb []).params.wf ∧ Memory.wf (encodedAb []).env ∧ ∃ t, step (encodedAb []) = .next t :=
  ⟨⟨by decide +kernel, rfl⟩, by decide, rfl, by decide, by decide, _, rfl⟩

end Sys2Proof.Tests
end

section
/-! The table side of the block (00_scope.md R6; 10_state.md R21, R27 to R30): only `ENCODE` and the resets write it, and
what each of them leaves has the forms that every step keeps. -/

namespace Sys2Proof.Machine

/-- The table side of `s` stands in `t`: the encoder but for `ENC_PAD`, which `COMPRESS` writes (42_encoder.md R181), and
whether the table is valid. -/
structure TableKept (s t : State) : Prop where
  enc : t.enc = { s.enc with encPad := t.enc.encPad }
  valid : t.status.encValid = s.status.encValid

namespace TableKept

theorem refl (s : State) : TableKept s s := ⟨rfl, rfl⟩

theorem trans {s t u : State} (h : TableKept s t) (g : TableKept t u) : TableKept s u :=
  ⟨g.enc.trans (congrArg (fun e : Encoder => { e with encPad := u.enc.encPad }) h.enc), g.valid.trans h.valid⟩

theorem of_eq {s t : State} (he : t.enc = s.enc) (hs : t.status = s.status) : TableKept s t :=
  ⟨by rw [he], by rw [hs]⟩

theorem tableForm {s t : State} (h : TableKept s t) (hs : TableForm s) : TableForm t := by
  unfold TableForm
  rw [h.enc]
  exact hs

theorem headerForm {s t : State} (h : TableKept s t) (hs : HeaderForm s) : HeaderForm t := by
  unfold HeaderForm
  rw [h.enc, h.valid]
  exact hs

end TableKept

/-! The units and the composite bodies. -/

theorem SinkFrame.tableKept {s t : State} (h : SinkFrame s t) : TableKept s t := .of_eq h.enc h.status

theorem ReaderFrame.tableKept {s t : State} (h : ReaderFrame s t) : TableKept s t := .of_eq h.enc h.status

theorem CompressKeeps.tableKept {s t : State} (h : CompressKeeps s t) : TableKept s t :=
  ⟨h.enc, congrArg Status.encValid h.status⟩

theorem DecompressKeeps.tableKept {s t : State} (h : DecompressKeeps s t) : TableKept s t := .of_eq h.enc h.status

theorem srcOpen_tableKept (s : State) : TableKept s (srcOpen s).2 := by
  unfold srcOpen
  split <;> exact ⟨rfl, rfl⟩

theorem brOpen_tableKept (s : State) : TableKept s (brOpen s).state := by
  unfold brOpen
  have h := srcOpen_tableKept s
  split
  · exact .refl s
  · split <;> rename_i h1 <;> rw [h1] at h <;> exact ⟨h.enc, h.valid⟩

theorem compressBody_tableKept (s : State) : TableKept s (compressBody s).state :=
  (srcOpen_tableKept s).trans (compressBody_keeps s).tableKept

theorem decompressBody_tableKept (s : State) : TableKept s (decompressBody s).state :=
  (brOpen_tableKept s).trans (decompressBody_keeps s).tableKept

/-- A continuation that only writes `RESULT` keeps the table side (41_bitreader.md R153, R154). -/
theorem bind_writeResult_tableKept {α : Type} {s : State} {r : Result α} (f : α → Word) (h : TableKept s r.state) :
    TableKept s (r.bind fun a t => .done () (writeResult (f a) t)).state := by
  cases r <;> exact ⟨h.enc, h.valid⟩

/-! The end of an operation (44_system.md R233; 60_exceptions.md R262). -/

theorem takeError_tableKept (site : Site) (e : Raise) (s : State) : TableKept s (takeError site e s) := by
  obtain ⟨hstatus, henc, -⟩ := cleanUp_keeps site e s
  exact (TableKept.of_eq henc hstatus).trans ⟨rfl, rfl⟩

theorem endOp_tableKept (site : Site) {s : State} {r : Result Unit} (h : TableKept s r.state) :
    TableKept s (endOp site r) := by
  cases r with
  | done a t => exact h.trans ⟨rfl, rfl⟩
  | raised e t => exact h.trans (takeError_tableKept site e t)

theorem endOp_source (site : Site) (r : Result Unit) :
    (endOp site r).params = r.state.params ∧ (endOp site r).env.src = r.state.env.src := by
  cases r with
  | done a t => exact ⟨rfl, rfl⟩
  | raised e t => exact ⟨(cleanUp_runFrame site e t).params, (cleanUp_runFrame site e t).src⟩

/-! Reset and `CLEAR` (10_state.md R37; 44_system.md R231; 70_reset_and_hazards.md R280). -/

theorem hardReset_tableKept (s : State) : TableKept State.reset (hardReset s) := ⟨rfl, rfl⟩

theorem reset_tableForm : TableForm State.reset := by
  refine ⟨fun b => ?_, rfl⟩
  show ((Vector.replicate 256 ({} : SymRec))[b.toNat]'b.isLt).len.toNat ≤ _
  rw [Vector.getElem_replicate]
  decide

theorem reset_headerForm : HeaderForm State.reset := by decide

theorem clearBlock_tableKept (s : State) : TableKept State.reset (endOk (clearBlock s)) := ⟨rfl, rfl⟩

theorem clearBlock_source (s : State) :
    (clearBlock s).params = s.params ∧ (clearBlock s).env.src = s.env.src := by
  unfold clearBlock
  dsimp only
  split <;> split <;> exact ⟨rfl, rfl⟩

/-! A command. -/

/-- What a command does to the table side: it keeps it, or resets it, or leaves it as the body of `ENCODE` does. -/
theorem exec_table_cases {i : Instr} {s t : State} (h : exec i s = .next t) :
    TableKept s t ∨ TableKept State.reset t ∨ TableKept (encodeBody s).state t := by
  cases i with
  | nop => cases h; exact .inl ⟨rfl, rfl⟩
  | clear => cases h; exact .inr (.inl (clearBlock_tableKept s))
  | encode =>
    simp only [exec, execEncode] at h
    split at h <;> cases h
    · exact .inr (.inr (endOp_tableKept _ (.refl _)))
    · exact .inl (takeError_tableKept ..)
  | compress =>
    simp only [exec, execCompress] at h
    split at h <;> cases h
    · exact .inl (endOp_tableKept _ (compressBody_tableKept s))
    · exact .inl (takeError_tableKept ..)
  | decompress =>
    simp only [exec, execDecompress] at h
    split at h <;> cases h
    · exact .inl (endOp_tableKept _ (decompressBody_tableKept s))
    · exact .inl (takeError_tableKept ..)
  | bwOpen => cases h; exact .inl (endOp_tableKept _ (bwOpen_sinkFrame s).tableKept)
  | bwWbits n => cases h; exact .inl (endOp_tableKept _ (bwWbits_sinkFrame _ _ s).tableKept)
  | bwWbyte => cases h; exact .inl (endOp_tableKept _ (bwWbyte_sinkFrame _ s).tableKept)
  | bwClose => cases h; exact .inl (endOp_tableKept _ (bwClose_sinkFrame s).tableKept)
  | brOpen => cases h; exact .inl (endOp_tableKept _ (brOpen_tableKept s))
  | brRbit =>
    cases h
    exact .inl (endOp_tableKept _ (bind_writeResult_tableKept zextBit (brRbit_readerFrame s).tableKept))
  | brRbyte8 =>
    cases h
    exact .inl (endOp_tableKept _ (bind_writeResult_tableKept zextByte (brRbyte8_readerFrame s).tableKept))
  | brClose => cases h; exact .inl (endOp_tableKept _ (brClose_decompressKeeps s).tableKept)

theorem exec_keeps_tableForm {i : Instr} {s t : State} (hs : TableForm s) (h : exec i s = .next t) : TableForm t := by
  rcases exec_table_cases h with hk | hr | he
  · exact hk.tableForm hs
  · exact hr.tableForm reset_tableForm
  · exact he.tableForm (encodeBody_encoderForm s hs)

theorem exec_keeps_headerForm {i : Instr} {s t : State} (hp : s.params.wf) (hm : Memory.wf s.env) (hs : HeaderForm s)
    (h : exec i s = .next t) : HeaderForm t := by
  rcases exec_table_cases h with hk | hr | he
  · exact hk.headerForm hs
  · exact hr.headerForm reset_headerForm
  · exact he.headerForm (encodeBody_headerForm hp.1 hm hs)

/-- No command changes the parameters or what stands behind SRC (10_state.md R35, R36). -/
theorem exec_source {i : Instr} {s t : State} (h : exec i s = .next t) :
    t.params = s.params ∧ t.env.src = s.env.src := by
  by_cases hi : i = .clear
  · subst hi
    cases h
    exact clearBlock_source s
  · obtain ⟨site, r, hr, hf, -⟩ := exec_ends i s hi
    obtain ⟨hparams, hsrc⟩ := endOp_source site r
    rw [hr] at h
    cases h
    exact ⟨hparams.trans hf.params, hsrc.trans hf.src⟩

/-! The step. -/

/-- `HeaderForm` with what keeps `ENCODE` from overflowing the header: legal parameters and a source within `LEN_MAX`. -/
structure HeaderInvariant (s : State) : Prop where
  params : s.params.wf
  memory : Memory.wf s.env
  header : HeaderForm s

theorem exec_keeps_headerInvariant {i : Instr} {s t : State} (hs : HeaderInvariant s) (h : exec i s = .next t) :
    HeaderInvariant t := by
  obtain ⟨hparams, hsrc⟩ := exec_source h
  exact ⟨hparams ▸ hs.params, wf_of_src hsrc hs.memory, exec_keeps_headerForm hs.params hs.memory hs.header h⟩

theorem takeError_keeps_headerInvariant (site : Site) (e : Raise) {s : State} (hs : HeaderInvariant s) :
    HeaderInvariant (takeError site e s) := by
  obtain ⟨hparams, hsrc⟩ := endOp_source site (.raised e s)
  exact ⟨by rw [← endOp_raised, hparams]; exact hs.params, wf_of_src hsrc hs.memory,
    (takeError_tableKept site e s).headerForm hs.header⟩

theorem step_keeps_tableForm {s t : State} (hs : TableForm s) (h : step s = .next t) : TableForm t :=
  step_keeps TableForm
    (hb := fun _ _ h => h)
    (hx := fun _ _ _ => exec_keeps_tableForm)
    (he := fun e s _ _ => (takeError_tableKept .decode e s).tableForm)
    (hhost := fun _ _ h => h) (hbus := fun _ _ h => h) (hregs := fun _ _ _ h => h)
    (hsrc := fun _ _ _ h => h) (hdst := fun _ _ h => h) (hver := fun _ _ _ h => h)
    (hres := fun s _ => (hardReset_tableKept s).tableForm reset_tableForm)
    (hstr := fun _ _ _ _ => (hardReset_tableKept _).tableForm reset_tableForm)
    s t hs h

theorem step_keeps_headerInvariant {s t : State} (hs : HeaderInvariant s) (h : step s = .next t) : HeaderInvariant t :=
  step_keeps HeaderInvariant
    (hb := fun _ _ ⟨hp, hm, hh⟩ => ⟨hp, hm, hh⟩)
    (hx := fun _ _ _ => exec_keeps_headerInvariant)
    (he := fun e _ _ _ => takeError_keeps_headerInvariant .decode e)
    (hhost := fun _ _ ⟨hp, hm, hh⟩ => ⟨hp, hm, hh⟩)
    (hbus := fun _ _ ⟨hp, hm, hh⟩ => ⟨hp, hm, hh⟩)
    (hregs := fun _ _ _ ⟨hp, hm, hh⟩ => ⟨hp, hm, hh⟩)
    (hsrc := fun _ _ hx ⟨hp, _, hh⟩ => ⟨hp, hx, hh⟩)
    (hdst := fun _ _ ⟨hp, hm, hh⟩ => ⟨hp, hm, hh⟩)
    (hver := fun _ _ _ ⟨hp, hm, hh⟩ => ⟨hp, hm, hh⟩)
    (hres := fun s ⟨hp, hm, _⟩ => ⟨hp, hm, (hardReset_tableKept s).headerForm reset_headerForm⟩)
    (hstr := fun _ _ _ ⟨hp, hm, _⟩ => ⟨hp, hm, (hardReset_tableKept _).headerForm reset_headerForm⟩)
    s t hs h

/-- Settles O58: only `ENCODE` and the resets write the table side; the header of a Huffman tree of at most 256 leaves has at
most 2559 bits. -/
theorem stepKeepsTableForm : Obligations.StepKeepsTableForm := by
  intro s t h
  exact ⟨fun hs => step_keeps_tableForm hs h,
    fun hp hm hs => (step_keeps_headerInvariant ⟨hp, hm, hs⟩ h).header⟩

end Sys2Proof.Machine
end

section
/-! How the composite commands start (44_system.md R234): past its precondition the body runs to its end, else the command is
refused at the decode stage. -/

namespace Sys2Proof.Machine

theorem next_ite_cases {c : Prop} [Decidable c] {a b t : State}
    (h : (if c then .next a else .next b : Host.Outcome State Fault Refusal) = .next t) : (c ∧ t = a) ∨ t = b := by
  split at h <;> cases h
  case isTrue hc => exact .inl ⟨hc, rfl⟩
  case isFalse => exact .inr rfl

theorem exec_encode_cases {s t : State} (h : exec .encode s = .next t) :
    (s.idle ∧ t = endOp .composite (encodeBody s)) ∨ t = takeError .decode ⟨.usageFault, .seq⟩ s :=
  next_ite_cases h

theorem exec_compress_cases {s t : State} (h : exec .compress s = .next t) :
    ((s.idle ∧ s.status.encValid = true) ∧ t = endOp .composite (compressBody s)) ∨
      t = takeError .decode ⟨.usageFault, .seq⟩ s :=
  next_ite_cases h

theorem exec_decompress_cases {s t : State} (h : exec .decompress s = .next t) :
    (s.idle ∧ t = endOp .composite (decompressBody s)) ∨ t = takeError .decode ⟨.usageFault, .seq⟩ s :=
  next_ite_cases h

theorem exec_encode_idle {s : State} (h : s.idle) : exec .encode s = .next (endOp .composite (encodeBody s)) :=
  if_pos h

theorem exec_compress_valid {s : State} (h : s.idle) (hv : s.status.encValid = true) :
    exec .compress s = .next (endOp .composite (compressBody s)) :=
  if_pos ⟨h, hv⟩

theorem exec_decompress_idle {s : State} (h : s.idle) : exec .decompress s = .next (endOp .composite (decompressBody s)) :=
  if_pos h

end Sys2Proof.Machine
end

section
/-! The form of the writer (10_state.md R32): the host-issued writer commands keep it, a composite command leaves the writer
closed, and nothing else touches it but the resets. -/

namespace Sys2Proof.Machine

theorem WriterForm.congr {s t : State} (hs : WriterForm s) (hb : t.bw = s.bw) (hp : t.params = s.params) :
    WriterForm t := by
  unfold WriterForm
  rw [hb, hp]
  exact hs

/-- The writer at its reset values but for `BW.open`, as `BW.OPEN`, the release and reset leave it. -/
theorem emptyWriter_form {s : State} {o : Bool} (hp : s.params.wf) (hb : s.bw = { isOpen := o }) : WriterForm s := by
  unfold WriterForm
  rw [hb]
  exact ⟨Nat.le_add_left 1 7, Nat.le_refl 8, Nat.lt_of_lt_of_le Nat.two_pos hp.1,
    fun _ _ => BitVec.getLsbD_zero, fun _ => ⟨rfl, rfl⟩⟩

/-! The host-issued writer commands (40_bitwriter.md R131 to R135; 60_exceptions.md R262 (b)). -/

/-- How a host-issued writer operation from `s` may end so that the form is kept: done in the form, or raised with an error
whose clean-up releases the writer, or raised with the writer untouched. -/
def WriterEnds (s : State) : Result Unit → Prop
  | .done _ t => WriterForm t
  | .raised e t => e.code = .dstErr ∨ t.bw = s.bw

theorem bwOpen_ends {s : State} (hp : s.params.wf) : WriterEnds s (bwOpen s) := by
  unfold bwOpen
  split
  · exact .inr rfl
  · cases hc : s.env.dstCreatable with
    | false => rw [dstOpen_failing hc]; exact .inl rfl
    | true => rw [dstOpen_creatable hc]; exact emptyWriter_form hp rfl

theorem bwWbits_ends (v : Word) (n : Nat) {s : State} (hs : WriterForm s) : WriterEnds s (bwWbits v n s) := by
  unfold bwWbits
  split
  · exact .inr rfl
  · split
    case isFalse => exact .inr rfl
    case isTrue ho =>
      rcases bwPutBits_outcome (msb v n) hs ho with ⟨t, ht, -, -, hf, -⟩ | ⟨t, ht, -⟩ <;> rw [ht]
      · exact hf
      · exact .inl rfl

theorem bwPutByte_ends (b : Byte) {s : State} (hs : WriterForm s) (ho : s.bw.isOpen = true) :
    WriterEnds s (bwPutByte b s) := by
  obtain ⟨hlo, hhi, hroom, hzero, -⟩ := hs
  rcases bwPutByte_outcome b s with ⟨t, ht, hstep, hopen, hcur, hfree, -, hlen⟩ | ⟨-, t, ht, -⟩ <;> rw [ht]
  · refine ⟨hfree ▸ hlo, hfree ▸ hhi, hstep.frame.params ▸ hlen hroom, ?_, fun hn => ?_⟩
    · rw [hcur, hfree]; exact hzero
    · rw [hopen, ho] at hn; cases hn
  · exact .inl rfl

theorem bwWbyte_ends (b : Byte) {s : State} (hs : WriterForm s) : WriterEnds s (bwWbyte b s) := by
  unfold bwWbyte
  split
  case isFalse => exact .inr rfl
  case isTrue ho =>
    split
    · exact bwPutByte_ends b hs ho
    · exact .inr rfl

theorem bwClose_ends {s : State} (hp : s.params.wf) : WriterEnds s (bwClose s) := by
  have hframe := bwClose_sinkFrame s
  cases hr : bwClose s with
  | done a t =>
    rw [hr] at hframe
    exact emptyWriter_form (hframe.params ▸ hp) (bwClose_released hr).1
  | raised e t =>
    unfold bwClose at hr
    dsimp only at hr
    split at hr
    · split at hr <;> cases hr
      exact .inl rfl
    · cases hr
      exact .inr rfl

/-- The end of a host-issued writer operation keeps the form: an error of the sink releases the writer (R262 (b)). -/
theorem endOp_writer_keeps_form {s : State} {r : Result Unit} (hp : s.params.wf) (hs : WriterForm s)
    (hframe : SinkFrame s r.state) (hends : WriterEnds s r) : WriterForm (endOp .writer r) := by
  cases r with
  | done a t => exact hends.congr rfl rfl
  | raised e t =>
    have hparams : t.params = s.params := hframe.params
    rw [endOp_raised, takeError_eq]
    unfold cleanUp
    dsimp only
    split
    case isTrue => exact emptyWriter_form (o := false) (hparams ▸ hp) rfl
    case isFalse hne => exact hs.congr (hends.resolve_left hne) hparams

/-! The reader's commands and the composite commands. -/

theorem brOpen_bw (s : State) : (brOpen s).state.bw = s.bw := by
  unfold brOpen
  split
  · rfl
  · unfold srcOpen
    cases s.env.src <;> rfl

theorem brClose_bw (s : State) : (brClose s).state.bw = s.bw := by
  unfold brClose
  split <;> rfl

theorem bind_writeResult_bw {α : Type} (r : Result α) (f : α → Word) :
    (r.bind fun a t => .done () (writeResult (f a) t)).state.bw = r.state.bw := by
  cases r <;> rfl

theorem endOp_reader_bw (r : Result Unit) : (endOp .reader r).bw = r.state.bw := by
  cases r <;> rfl

theorem releaseSource_bw (s : State) : (releaseSource s).bw = s.bw := by
  unfold releaseSource
  split <;> rfl

/-- The end of a composite command that found the writer closed: it is released, or as it was (R262 (d)). -/
theorem endOp_composite_bw {s : State} {r : Result Unit} (hclosed : s.bw.isOpen = false) (hmoves : WriterMoves s r.state)
    (hdone : ∀ a t, r = .done a t → t.bw = releasedWriter ∨ t.bw = s.bw) :
    (endOp .composite r).bw = releasedWriter ∨ (endOp .composite r).bw = s.bw := by
  cases r with
  | done a t => exact hdone a t rfl
  | raised e t =>
    have hbw : (endOp .composite (.raised e t)).bw = (releaseSink e t).bw := releaseSource_bw _
    rw [hbw]
    unfold releaseSink
    split
    case isTrue => exact .inl rfl
    case isFalse hne =>
      rcases hmoves with ⟨ho, -⟩ | ⟨hr, -⟩ | ⟨hsame, -⟩ | ⟨ho, -⟩
      · rw [hclosed] at ho; cases ho
      · exact .inl hr
      · exact .inr hsame
      · exact absurd ho hne

theorem endOp_encodeBody_bw {s : State} (hi : s.idle) :
    (endOp .composite (encodeBody s)).bw = releasedWriter ∨ (endOp .composite (encodeBody s)).bw = s.bw := by
  obtain ⟨hbw, -, henv, -⟩ := encodeBody_keeps s
  refine endOp_composite_bw hi.1 (.same hbw (by rw [henv])) fun a t hr => .inr ?_
  rw [hr] at hbw
  exact hbw

theorem endOp_compressBody_bw {s : State} (hi : s.idle) :
    (endOp .composite (compressBody s)).bw = releasedWriter ∨ (endOp .composite (compressBody s)).bw = s.bw :=
  endOp_composite_bw hi.1 (compressBody_writerMoves s) fun _ _ hr => .inl (compressBody_released hr).1

theorem endOp_decompressBody_bw {s : State} (hi : s.idle) :
    (endOp .composite (decompressBody s)).bw = releasedWriter ∨ (endOp .composite (decompressBody s)).bw = s.bw :=
  endOp_composite_bw hi.1 (decompressBody_writerMoves s) fun _ _ hr => .inl (decompressBody_released hr).1

/-! A command and the step. -/

/-- What a command does to the writer: it leaves it, or releases it, or leaves it in its form. -/
theorem exec_writer_cases {i : Instr} {s t : State} (hp : s.params.wf) (hs : WriterForm s) (h : exec i s = .next t) :
    t.bw = s.bw ∨ t.bw = releasedWriter ∨ WriterForm t := by
  cases i with
  | nop => cases h; exact .inl rfl
  | clear => cases h; exact .inr (.inl rfl)
  | encode =>
    rcases exec_encode_cases h with ⟨hi, rfl⟩ | rfl
    · exact (endOp_encodeBody_bw hi).elim (.inr ∘ .inl) .inl
    · exact .inl rfl
  | compress =>
    rcases exec_compress_cases h with ⟨hi, rfl⟩ | rfl
    · exact (endOp_compressBody_bw hi.1).elim (.inr ∘ .inl) .inl
    · exact .inl rfl
  | decompress =>
    rcases exec_decompress_cases h with ⟨hi, rfl⟩ | rfl
    · exact (endOp_decompressBody_bw hi).elim (.inr ∘ .inl) .inl
    · exact .inl rfl
  | bwOpen => cases h; exact .inr (.inr (endOp_writer_keeps_form hp hs (bwOpen_sinkFrame s) (bwOpen_ends hp)))
  | bwWbits n => cases h; exact .inr (.inr (endOp_writer_keeps_form hp hs (bwWbits_sinkFrame ..) (bwWbits_ends _ _ hs)))
  | bwWbyte => cases h; exact .inr (.inr (endOp_writer_keeps_form hp hs (bwWbyte_sinkFrame ..) (bwWbyte_ends _ hs)))
  | bwClose => cases h; exact .inr (.inr (endOp_writer_keeps_form hp hs (bwClose_sinkFrame s) (bwClose_ends hp)))
  | brOpen => cases h; exact .inl ((endOp_reader_bw _).trans (brOpen_bw s))
  | brRbit =>
    cases h
    exact .inl ((endOp_reader_bw _).trans ((bind_writeResult_bw _ zextBit).trans (brRbit_readerFrame s).bw))
  | brRbyte8 =>
    cases h
    exact .inl ((endOp_reader_bw _).trans ((bind_writeResult_bw _ zextByte).trans (brRbyte8_readerFrame s).bw))
  | brClose => cases h; exact .inl ((endOp_reader_bw _).trans (brClose_bw s))

/-- `WriterForm` with the legal parameters that give the buffer room for two bytes (00_scope.md R6). -/
structure WriterInvariant (s : State) : Prop where
  params : s.params.wf
  form : WriterForm s

theorem exec_keeps_writerInvariant {i : Instr} {s t : State} (hs : WriterInvariant s) (h : exec i s = .next t) :
    WriterInvariant t := by
  have hparams := (exec_source h).1
  have hwf : t.params.wf := hparams ▸ hs.params
  refine ⟨hwf, ?_⟩
  rcases exec_writer_cases hs.params hs.form h with hsame | hreleased | hform
  · exact hs.form.congr hsame hparams
  · exact emptyWriter_form hwf hreleased
  · exact hform

theorem step_keeps_writerInvariant {s t : State} (hs : WriterInvariant s) (h : step s = .next t) : WriterInvariant t :=
  step_keeps WriterInvariant
    (hb := fun _ _ ⟨hp, hf⟩ => ⟨hp, hf⟩)
    (hx := fun _ _ _ => exec_keeps_writerInvariant)
    (he := fun _ _ _ _ ⟨hp, hf⟩ => ⟨hp, hf⟩)
    (hhost := fun _ _ ⟨hp, hf⟩ => ⟨hp, hf⟩)
    (hbus := fun _ _ ⟨hp, hf⟩ => ⟨hp, hf⟩)
    (hregs := fun _ _ _ ⟨hp, hf⟩ => ⟨hp, hf⟩)
    (hsrc := fun _ _ _ ⟨hp, hf⟩ => ⟨hp, hf⟩)
    (hdst := fun _ _ ⟨hp, hf⟩ => ⟨hp, hf⟩)
    (hver := fun _ _ _ ⟨hp, hf⟩ => ⟨hp, hf⟩)
    (hres := fun _ ⟨hp, _⟩ => ⟨hp, emptyWriter_form (o := false) hp rfl⟩)
    (hstr := fun _ _ _ ⟨hp, _⟩ => ⟨hp, emptyWriter_form (o := false) hp rfl⟩)
    s t hs h

/-- Settles O54: only the host-issued writer commands leave the writer open, each in its form; every error of the sink and
every composite command releases it. -/
theorem stepKeepsWriterForm : Obligations.StepKeepsWriterForm := by
  intro s t hp hs h
  obtain ⟨hp', hs'⟩ := step_keeps_writerInvariant ⟨hp, hs⟩ h
  exact ⟨hp', hs'⟩

end Sys2Proof.Machine
end

section
/-! The form of the reader (10_state.md R33): the reader's commands keep it, a composite command leaves the reader closed, and
nothing else touches the reader, `SRC_LEN` or the buffer size while it is open but the resets. -/

namespace Sys2Proof.Machine

theorem ReaderForm.congr {s t : State} (hs : ReaderForm s) (hb : t.br = s.br) (hl : t.regs.srcLen = s.regs.srcLen)
    (hp : t.params = s.params) : ReaderForm t := by
  unfold ReaderForm
  rw [hb, hl, hp]
  exact hs

theorem closedReader_form {s : State} (h : s.br.isOpen = false) : ReaderForm s := by
  intro ho
  rw [h] at ho
  cases ho

theorem SinkFrame.readerForm {s t : State} (h : SinkFrame s t) (hs : ReaderForm s) : ReaderForm t :=
  hs.congr h.br h.srcLen h.params

/-! The reader's commands (41_bitreader.md R151 to R156). -/

/-- `8 * SRC_LEN` fits in the 35 bits of `BR.remaining` (R151). -/
theorem brOpen_keeps_form {s : State} (hs : ReaderForm s) : ReaderForm (brOpen s).state := by
  unfold brOpen
  split
  · exact hs
  · split
    case h_1 hopen =>
      cases hx : s.env.src with
      | none => rw [srcOpen_absent hx] at hopen; cases hopen; exact hs
      | some x => rw [srcOpen_present hx] at hopen; cases hopen
    case h_2 u hopen =>
      intro _
      refine ⟨Nat.zero_le _, Nat.le_refl _, Nat.zero_le _, fun h => absurd rfl h, ?_⟩
      have hlen := u.regs.srcLen.isLt
      show (BitVec.ofNat 35 (8 * u.regs.srcLen.toNat)).toNat + 0 = 8 * (u.regs.srcLen.toNat - 0) + 8 * (0 - 0)
      rw [BitVec.toNat_ofNat]
      omega

theorem brRbit_keeps_form {s : State} (hp : s.params.wf) (hs : ReaderForm s) : ReaderForm (brRbit s).state := by
  by_cases hread : s.br.isOpen = true ∧ s.br.remaining ≠ 0
  · obtain ⟨v, t, ht, hcounts, -⟩ := brRbit_counts hp (hs hread.1) hread.1 hread.2
    rw [ht]
    exact fun _ => hcounts
  · unfold brRbit
    split
    case isTrue ho => rw [if_pos (not_not.mp fun hr => hread ⟨ho, hr⟩)]; exact hs
    case isFalse => exact hs

theorem brRbyte8_keeps_form {s : State} (hp : s.params.wf) (hs : ReaderForm s) : ReaderForm (brRbyte8 s).state := by
  by_cases hread : s.br.isOpen = true ∧ 8 ≤ s.br.remaining.toNat
  · obtain ⟨v, t, ht, hcounts, -⟩ := brRbyte8_counts hp (hs hread.1) hread.1 hread.2
    rw [ht]
    exact fun _ => hcounts
  · unfold brRbyte8
    split
    case isTrue ho => rw [if_pos (not_le.mp fun hr => hread ⟨ho, hr⟩)]; exact hs
    case isFalse => exact hs

theorem brClose_keeps_form {s : State} (hs : ReaderForm s) : ReaderForm (brClose s).state := by
  unfold brClose
  split
  · exact closedReader_form rfl
  · exact hs

theorem bind_writeResult_readerForm {α : Type} {r : Result α} (f : α → Word) (h : ReaderForm r.state) :
    ReaderForm (r.bind fun a t => .done () (writeResult (f a) t)).state := by
  cases r <;> exact h

/-! The ends of the operations (60_exceptions.md R262). -/

theorem takeError_decode_readerForm (e : Raise) {s : State} (hs : ReaderForm s) : ReaderForm (takeError .decode e s) := hs

theorem endOp_reader_keeps_form {r : Result Unit} (h : ReaderForm r.state) : ReaderForm (endOp .reader r) := by
  cases r <;> exact h

theorem endOp_writer_readerForm {s : State} {r : Result Unit} (hframe : SinkFrame s r.state) (hs : ReaderForm s) :
    ReaderForm (endOp .writer r) := by
  cases r with
  | done a t => exact hframe.readerForm hs
  | raised e t =>
    rw [endOp_raised, takeError_eq]
    unfold cleanUp
    dsimp only
    split
    · exact (hframe.trans (bwRelease_sinkFrame t)).readerForm hs
    · exact hframe.readerForm hs

/-- A composite command that completes with the reader closed leaves it closed on every path, since the clean-up closes it
(R262 (d)). -/
theorem endOp_composite_readerClosed {r : Result Unit} (hdone : ∀ a t, r = .done a t → t.br.isOpen = false) :
    (endOp .composite r).br.isOpen = false := by
  cases r with
  | done a t => exact hdone a t rfl
  | raised e t =>
    show (releaseSource (releaseSink e t)).br.isOpen = false
    unfold releaseSource
    split
    case isTrue => rfl
    case isFalse hne => exact Bool.eq_false_iff.mpr (not_or.mp hne).2

theorem endOp_encodeBody_readerClosed {s : State} (hi : s.idle) : (endOp .composite (encodeBody s)).br.isOpen = false := by
  obtain ⟨-, hbr, -⟩ := encodeBody_keeps s
  refine endOp_composite_readerClosed fun a t hr => ?_
  rw [hr] at hbr
  exact (congrArg BitReader.isOpen hbr).trans hi.2

theorem compressBody_br (s : State) : (compressBody s).state.br = s.br := by
  rw [(compressBody_keeps s).br]
  unfold srcOpen
  cases s.env.src <;> rfl

theorem endOp_compressBody_readerClosed {s : State} (hi : s.idle) :
    (endOp .composite (compressBody s)).br.isOpen = false := by
  have hbr := compressBody_br s
  refine endOp_composite_readerClosed fun a t hr => ?_
  rw [hr] at hbr
  exact (congrArg BitReader.isOpen hbr).trans hi.2

theorem endOp_decompressBody_readerClosed (s : State) : (endOp .composite (decompressBody s)).br.isOpen = false :=
  endOp_composite_readerClosed fun _ _ hr => (decompressBody_released hr).2.2.2

/-! A command and the step. -/

theorem exec_keeps_readerForm {i : Instr} {s t : State} (hp : s.params.wf) (hs : ReaderForm s) (h : exec i s = .next t) :
    ReaderForm t := by
  cases i with
  | nop => cases h; exact hs
  | clear => cases h; exact closedReader_form rfl
  | encode =>
    rcases exec_encode_cases h with ⟨hi, rfl⟩ | rfl
    · exact closedReader_form (endOp_encodeBody_readerClosed hi)
    · exact takeError_decode_readerForm _ hs
  | compress =>
    rcases exec_compress_cases h with ⟨⟨hi, -⟩, rfl⟩ | rfl
    · exact closedReader_form (endOp_compressBody_readerClosed hi)
    · exact takeError_decode_readerForm _ hs
  | decompress =>
    rcases exec_decompress_cases h with ⟨-, rfl⟩ | rfl
    · exact closedReader_form (endOp_decompressBody_readerClosed s)
    · exact takeError_decode_readerForm _ hs
  | bwOpen => cases h; exact endOp_writer_readerForm (bwOpen_sinkFrame s) hs
  | bwWbits n => cases h; exact endOp_writer_readerForm (bwWbits_sinkFrame ..) hs
  | bwWbyte => cases h; exact endOp_writer_readerForm (bwWbyte_sinkFrame ..) hs
  | bwClose => cases h; exact endOp_writer_readerForm (bwClose_sinkFrame s) hs
  | brOpen => cases h; exact endOp_reader_keeps_form (brOpen_keeps_form hs)
  | brRbit => cases h; exact endOp_reader_keeps_form (bind_writeResult_readerForm zextBit (brRbit_keeps_form hp hs))
  | brRbyte8 => cases h; exact endOp_reader_keeps_form (bind_writeResult_readerForm zextByte (brRbyte8_keeps_form hp hs))
  | brClose => cases h; exact endOp_reader_keeps_form (brClose_keeps_form hs)

/-- `ReaderForm` with the legal parameters that give the buffer room for two bytes (00_scope.md R6; 41_bitreader.md R152). -/
structure ReaderInvariant (s : State) : Prop where
  params : s.params.wf
  form : ReaderForm s

theorem exec_keeps_readerInvariant {i : Instr} {s t : State} (hs : ReaderInvariant s) (h : exec i s = .next t) :
    ReaderInvariant t :=
  ⟨(exec_source h).1 ▸ hs.params, exec_keeps_readerForm hs.params hs.form h⟩

theorem step_keeps_readerInvariant {s t : State} (hs : ReaderInvariant s) (h : step s = .next t) : ReaderInvariant t :=
  step_keeps ReaderInvariant
    (hb := fun _ _ ⟨hp, hf⟩ => ⟨hp, hf⟩)
    (hx := fun _ _ _ => exec_keeps_readerInvariant)
    (he := fun e _ _ _ ⟨hp, hf⟩ => ⟨hp, takeError_decode_readerForm e hf⟩)
    (hhost := fun _ _ ⟨hp, hf⟩ => ⟨hp, hf⟩)
    (hbus := fun _ _ ⟨hp, hf⟩ => ⟨hp, hf⟩)
    (hregs := fun _ _ _ ⟨hp, hf⟩ => ⟨hp, hf⟩)
    (hsrc := fun _ _ _ ⟨hp, hf⟩ => ⟨hp, hf⟩)
    (hdst := fun _ _ ⟨hp, hf⟩ => ⟨hp, hf⟩)
    (hver := fun _ _ _ ⟨hp, hf⟩ => ⟨hp, hf⟩)
    (hres := fun _ ⟨hp, _⟩ => ⟨hp, closedReader_form rfl⟩)
    (hstr := fun _ _ _ ⟨hp, _⟩ => ⟨hp, closedReader_form rfl⟩)
    s t hs h

/-- Settles O55: a refill and a read keep the positions and the count of `BR.remaining`; every other command leaves the reader
as it is or closed. -/
theorem stepKeepsReaderForm : Obligations.StepKeepsReaderForm := by
  intro s t hp hs h
  exact (step_keeps_readerInvariant ⟨hp, hs⟩ h).form

end Sys2Proof.Machine
end

section
/-! What no command changes (10_state.md R23, R35, R36; 20_memory.md R60), and the form of the source. -/

namespace Sys2Proof.Machine

/-- What every command keeps, `CLEAR` included: the host's registers, the parameters, what stands behind SRC, whether DST can
be created, and the host's side of the bus. -/
structure CommandFrame (s t : State) : Prop where
  arg : t.regs.arg = s.regs.arg
  symSel : t.regs.symSel = s.regs.symSel
  params : t.params = s.params
  src : t.env.src = s.env.src
  creatable : t.env.dstCreatable = s.env.dstCreatable
  host : t.host = s.host
  busData : t.busData = s.busData

theorem CommandFrame.trans {s t u : State} (h : CommandFrame s t) (g : CommandFrame t u) : CommandFrame s u :=
  ⟨g.arg.trans h.arg, g.symSel.trans h.symSel, g.params.trans h.params, g.src.trans h.src,
    g.creatable.trans h.creatable, g.host.trans h.host, g.busData.trans h.busData⟩

theorem RunFrame.command {s t : State} (h : RunFrame s t) : CommandFrame s t :=
  ⟨h.arg, h.symSel, h.params, h.src, h.creatable, h.host, h.busData⟩

theorem HostSideFrame.command {s t : State} (h : HostSideFrame s t) : CommandFrame s t :=
  ⟨h.arg, h.symSel, h.params, h.src, h.creatable, h.host, h.busData⟩

theorem setStatus_commandFrame (s : State) (x : Status) : CommandFrame s (s.setStatus x) := by constructor <;> rfl

theorem clearBlock_commandFrame (s : State) : CommandFrame s (clearBlock s) := by
  unfold clearBlock
  dsimp only
  split <;> split <;> constructor <;> rfl

/-- The clean-up and the report touch neither the host's side nor `RESULT` (60_exceptions.md R262). -/
theorem endOp_commandFrame (site : Site) (r : Result Unit) :
    CommandFrame r.state (endOp site r) ∧ (endOp site r).regs.result = r.state.regs.result := by
  cases r with
  | done a t => exact ⟨setStatus_commandFrame t _, rfl⟩
  | raised e t =>
    have hclean := cleanUp_runFrame site e t
    exact ⟨hclean.command.trans (setStatus_commandFrame _ _), hclean.result⟩

theorem exec_commandFrame {i : Instr} {s t : State} (h : exec i s = .next t) : CommandFrame s t := by
  by_cases hi : i = .clear
  · subst hi
    cases h
    exact (clearBlock_commandFrame s).trans (setStatus_commandFrame _ _)
  · obtain ⟨site, r, hr, hframe, -⟩ := exec_ends i s hi
    rw [hr] at h
    cases h
    exact hframe.command.trans (endOp_commandFrame site r).1

theorem exec_result {i : Instr} {s t : State} (hbit : i ≠ .brRbit) (hbyte : i ≠ .brRbyte8) (hclear : i ≠ .clear)
    (h : exec i s = .next t) : t.regs.result = s.regs.result := by
  obtain ⟨site, r, hr, -, hrun⟩ := exec_ends i s hclear
  rw [hr] at h
  cases h
  exact (endOp_commandFrame site r).2.trans (hrun hbit hbyte).result

/-- Settles O51: the body of a command, the clean-up and the report each keep the host's side; only the two reads write
`RESULT`, and `CLEAR` resets it. -/
theorem commandsLeaveHostSide : Obligations.CommandsLeaveHostSide := by
  intro i s t h
  obtain ⟨harg, hsym, hparams, hsrc, hcreatable, hhost, hbus⟩ := exec_commandFrame h
  exact ⟨harg, hsym, hparams, hsrc, hcreatable, hhost, hbus, fun hbit hbyte hclear => exec_result hbit hbyte hclear h⟩

/-- The source is within `LEN_MAX` and the parameters are `p` (10_state.md R35, R36). -/
structure SourceInvariant (p : Config.Params) (s : State) : Prop where
  memory : Memory.wf s.env
  params : s.params = p

theorem exec_keeps_sourceInvariant {p : Config.Params} {i : Instr} {s t : State} (hs : SourceInvariant p s)
    (h : exec i s = .next t) : SourceInvariant p t := by
  obtain ⟨hparams, hsrc⟩ := exec_source h
  exact ⟨wf_of_src hsrc hs.memory, hparams.trans hs.params⟩

theorem step_keeps_sourceInvariant {p : Config.Params} {s t : State} (hs : SourceInvariant p s) (h : step s = .next t) :
    SourceInvariant p t :=
  step_keeps (SourceInvariant p)
    (hb := fun _ _ ⟨hm, hp⟩ => ⟨hm, hp⟩)
    (hx := fun _ _ _ => exec_keeps_sourceInvariant)
    (he := fun _ _ _ _ ⟨hm, hp⟩ => ⟨hm, hp⟩)
    (hhost := fun _ _ ⟨hm, hp⟩ => ⟨hm, hp⟩)
    (hbus := fun _ _ ⟨hm, hp⟩ => ⟨hm, hp⟩)
    (hregs := fun _ _ _ ⟨hm, hp⟩ => ⟨hm, hp⟩)
    (hsrc := fun _ _ hx ⟨_, hp⟩ => ⟨hx, hp⟩)
    (hdst := fun _ _ ⟨hm, hp⟩ => ⟨hm, hp⟩)
    (hver := fun _ _ _ ⟨hm, hp⟩ => ⟨hm, hp⟩)
    (hres := fun _ ⟨hm, hp⟩ => ⟨hm, hp⟩)
    (hstr := fun _ _ _ ⟨hm, hp⟩ => ⟨hm, hp⟩)
    s t hs h

/-- Settles O59: only the host replaces the source, and a longer one gets no move. -/
theorem stepKeepsSourceForm : Obligations.StepKeepsSourceForm := by
  intro s t hm h
  obtain ⟨hm', hp⟩ := step_keeps_sourceInvariant ⟨hm, rfl⟩ h
  exact ⟨hm', hp⟩

end Sys2Proof.Machine
end

section
/-! `ENCODE` on a source with two symbols (42_encoder.md R170 to R179), and the round trip (R186 (e); 43_decoder.md R218). -/

namespace Sys2Proof.Machine

theorem EncodedFor.congr {s u : State} {x : List Byte} {t : CodeTree} (h : EncodedFor s x t) (he : u.enc = s.enc)
    (hp : u.params = s.params) (hv : u.status.encValid = s.status.encValid) : EncodedFor u x t :=
  ⟨hv.trans h.valid, he ▸ h.counts, he ▸ h.total, he ▸ h.nsym, hp ▸ h.tree, he ▸ h.codes, he ▸ h.absent, he ▸ h.header,
    he ▸ h.hdrBits⟩

/-- `ENCODE` on a source whose tree fits in 32 bits, with the state it leaves (R171 to R179). -/
theorem exec_encode_done {s : State} {x : List Byte} {t : CodeTree} (hp : s.params.wf) (hi : s.idle)
    (hx : s.env.src = some x) (hl : x.length ≤ Config.lenMax) (hd : 2 ≤ distinctSymbols x)
    (ht : huffmanTree s.params.tie x = some t) (hh : t.height ≤ Config.codeMax) :
    ∃ f v, exec .encode s = .next (endOk (encodeLeaves s x f v true)) ∧
      EncodedFor (endOk (encodeLeaves s x f v true)) x t := by
  obtain ⟨f, v, hfor, hbody⟩ := encodeBody_done hp.1 hx hl hd ht hh
  exact ⟨f, v, by rw [exec_encode_idle hi, hbody, endOp_done], hfor.congr rfl rfl rfl⟩

/-- Settles O35: the scan counts the source, the store holds its Huffman tree, the traversal writes header and codewords. -/
theorem encodeBuildsTable : Obligations.EncodeBuildsTable := by
  intro s x t hp hi hx hl hd ht hh
  obtain ⟨f, v, hexec, hfor⟩ := exec_encode_done hp hi hx hl hd ht hh
  exact ⟨_, hexec, hfor, rfl, ofNat_length hl, rfl⟩

theorem releaseSource_srcHeld (s : State) : (releaseSource s).env.srcHeld = false := by
  unfold releaseSource
  split
  case isTrue => rfl
  case isFalse hne => exact Bool.eq_false_iff.mpr (not_or.mp hne).1

/-- Settles O36: the traversal stops at the first leaf deeper than 32, with the counts of the scan in the table. -/
theorem encodeCodeTooLong : Obligations.EncodeCodeTooLong := by
  intro s x t hp hi hx hl hd ht hh
  obtain ⟨f, v, hcounts, htotal, hnsym, hhdr, -, hbody⟩ := encodeBody_tooLong hp.1 hx hl hd ht hh
  obtain ⟨hstatus, henc, -⟩ := cleanUp_keeps .composite ⟨.sourceErr, .codeTooLong⟩ (encodeLeaves s x f v false)
  refine ⟨takeError .composite ⟨.sourceErr, .codeTooLong⟩ (encodeLeaves s x f v false),
    by rw [exec_encode_idle hi, hbody, endOp_raised], ?_⟩
  rw [takeError_eq]
  dsimp only
  rw [henc, cleanUp_srcLen]
  refine ⟨?_, hcounts, htotal, hnsym, hhdr, ofNat_length hl, releaseSource_srcHeld _⟩
  unfold statusErr
  rw [hstatus]
  rfl

/-! The round trip. -/

/-- The container of a source under its Huffman tree is well formed with that tree and spells the source (30_encoding.md
R104). -/
theorem container_spellsBy {tie : Config.TieRule} {x : List Byte} {t : CodeTree} (hd : 2 ≤ distinctSymbols x)
    (ht : huffmanTree tie x = some t) :
    SpellsBy (containerOf t x) t (BitVec.ofNat 3 (padTo8 (t.header.length + 3 + (payloadBits t x).length))) x := by
  obtain ⟨hpayload, hpaths⟩ := payload_paths fun b hb => (huffmanTree_mem ht b).mpr hb
  refine ⟨_, zeros (padTo8 (t.header.length + 3 + (payloadBits t x).length)), huffmanTree_internal ht hd, ?_, ?_, ?_,
    hpaths⟩
  · have hsize := t.size_eq
    have hsymbols := distinctSymbols_le x
    rw [huffmanTree_count ht] at hsize
    unfold Config.nodeMax
    omega
  · rw [unpack_containerOf, ← hpayload]
    rfl
  · rw [zeros_length, BitVec.toNat_ofNat]
    unfold padTo8
    omega

/-- `COMPRESS` with the result of `ENCODE` on the source at hand and every burst accepted: the state it leaves holds the
container and still accepts every burst (42_encoder.md R186 (a)). -/
theorem exec_compress_done {s : State} {x : List Byte} {t : CodeTree} (hp : s.params.wf) (hi : s.idle)
    (hfor : EncodedFor s x t) (hx : s.env.src = some x) (hl : x.length ≤ Config.lenMax) (hc : s.env.dstCreatable = true)
    (ha : AcceptsBursts s) :
    ∃ u, exec .compress s = .next u ∧ u.env.dst = containerOf t x ∧ u.status.code = .ok ∧ u.params = s.params ∧ u.idle ∧
      u.env.dstCreatable = true ∧ AcceptsBursts u := by
  have hframe := compressBody_runFrame s
  have hbr := compressBody_br s
  rcases compressBody_encoded hp.1 hi.1 hfor hx hl hc with ⟨v, u, hbody, hemit, hclose, hdst, -⟩ | ⟨u, -, -, -, hrefused⟩
  · rw [hbody] at hframe hbr
    have hidle : u.br.isOpen = false := (congrArg BitReader.isOpen hbr).trans hi.2
    have haccepts : AcceptsBursts v := hemit.accepts ha
    exact ⟨endOk (bwRelease u), by rw [exec_compress_valid hi hfor.valid, hbody, endOp_done], hdst, rfl, hframe.params,
      ⟨rfl, hidle⟩, hframe.creatable.trans hc, hclose.accepts haccepts⟩
  · exact absurd ha hrefused.not_accepts

/-- `DECOMPRESS` on a well-formed container with every burst accepted (43_decoder.md R211 to R218). -/
theorem exec_decompress_done {s : State} {c out : List Byte} {t : CodeTree} {pad : BitVec 3} (hp : s.params.wf) (hi : s.idle)
    (hx : s.env.src = some c) (hl : c.length ≤ Config.lenMax) (hc : s.env.dstCreatable = true) (ha : AcceptsBursts s)
    (hs : SpellsBy c t pad out) :
    ∃ u, exec .decompress s = .next u ∧ u.env.dst = out ∧ DtHolds u.dec 0 t ∧ u.status.code = .ok := by
  rcases decompressBody_spells hp hi hx hl hc hs with ⟨u, hbody, hdst, htree, -⟩ | ⟨u, -, -, -, -, hrefused⟩
  · exact ⟨endOk u, by rw [exec_decompress_idle hi, hbody, endOp_done], hdst, htree.tree, rfl⟩
  · exact absurd ha hrefused.not_accepts

/-- Settles O48: what `ENCODE` leaves is what `COMPRESS` needs, and the container it leaves spells the source. -/
theorem roundTrip : Obligations.RoundTrip := by
  intro s x t hp hi hx hl hd ht hh hcl hc ha
  obtain ⟨f, b, hencode, hfor⟩ := exec_encode_done hp hi hx hl hd ht hh
  obtain ⟨v, hcompress, hdst, hvok, hvp, hvi, hvc, hva⟩ :=
    exec_compress_done (s := endOk (encodeLeaves s x f b true)) hp hi hfor hx hl hc ha
  obtain ⟨w, hdecompress, hout, htree, hwok⟩ :=
    exec_decompress_done (s := { v with env := { v.env with src := some v.env.dst } }) (hvp ▸ hp) hvi rfl (hdst ▸ hcl)
      hvc hva (hdst ▸ container_spellsBy hd ht)
  exact ⟨_, v, w, hencode, hcompress, hdecompress, hout, htree, rfl, hvok, hwok⟩

end Sys2Proof.Machine
end

section
/-! The host's moves: register accesses and the issue of a command (10_state.md R21 to R26; 20_memory.md R61; 44_system.md R232,
R233). -/

namespace Sys2Proof.Machine

theorem windowOffset_aligned (p : Config.Params) {offset : Nat} (ha : offset % 4 = 0) (hw : offset < 256) :
    windowOffset p (p.regBase + offset) 4 = .ok offset := by
  unfold windowOffset Config.windowBytes
  rw [if_neg (by omega), if_pos (by omega), Nat.add_sub_cancel_left]

/-- An idle block carries out the host's next action. -/
theorem step_acts {s : State} {a : HostAction} {rest : List HostAction} (hb : s.status.busy = false)
    (hh : s.host = a :: rest) : step s = actOn a (s.setHost rest) := by
  unfold step hostMove
  rw [hh]
  exact if_neg fun h => by rw [hb] at h; cases h.1

/-- The three registers that a write acts on stand at one offset each (R21). -/
theorem offset_of_regAt {offset : Nat} :
    (regAt offset = .cmd → offset = 0x00) ∧ (regAt offset = .arg → offset = 0x04) ∧
      (regAt offset = .symSel → offset = 0x34) := by
  unfold regAt
  split <;> simp

theorem regAt_reserved {offset : Nat} (h : 0x4C ≤ offset) : regAt offset = .reserved := by
  unfold regAt
  split <;> simp_all

theorem writeReg_ignored (s : State) (v : Word) {r : Reg} (harg : r ≠ .arg) (hsym : r ≠ .symSel) : writeReg s v r = s := by
  cases r with
  | arg => exact absurd rfl harg
  | symSel => exact absurd rfl hsym
  | _ => rfl

theorem actOn_command (s : State) (w : Word) : actOn (commandWrite s.params w) s = issueCommand w s := by
  have hoffset := windowOffset_aligned s.params (offset := 0) rfl (by decide)
  rw [Nat.add_zero] at hoffset
  simp only [commandWrite, actOn]
  rw [hoffset]
  rfl

theorem actOn_write (s : State) (v : Word) {offset : Nat} (ha : offset % 4 = 0) (hw : offset < 256) (h0 : offset ≠ 0) :
    actOn (.write (s.params.regBase + offset) 4 v) s = .next (writeReg s v (regAt offset)) := by
  simp only [actOn]
  rw [windowOffset_aligned s.params ha hw]
  dsimp only
  split
  case h_1 hcmd => exact absurd (offset_of_regAt.1 hcmd) h0
  case h_2 => rfl

theorem actOn_read (s : State) {offset : Nat} (ha : offset % 4 = 0) (hw : offset < 256) :
    actOn (.read (s.params.regBase + offset) 4) s = .next (s.setBusData (readReg s (regAt offset))) := by
  simp only [actOn]
  rw [windowOffset_aligned s.params ha hw]

theorem issueCommand_command {w : Word} {i : Instr} (s : State) (h : decode w = .command i) :
    issueCommand w s = exec i (s.setStatus { s.status with busy := true }) := by
  unfold issueCommand
  rw [h]

/-- Settles O5: the write of `CMD` sets `BUSY` and runs the decoded command. -/
theorem stepRunsDecodedCommand : Obligations.StepRunsDecodedCommand := by
  intro s rest w i hb hh hd
  calc step s = actOn (commandWrite s.params w) (s.setHost rest) := step_acts hb hh
    _ = issueCommand w (s.setHost rest) := actOn_command (s.setHost rest) w
    _ = exec i { s with host := rest, status := { s.status with busy := true } } := issueCommand_command _ hd

/-- Settles O7: the write reaches the register at its offset, and only `ARG` and `SYM_SEL` store it. -/
theorem hostWriteStoresOrIsIgnored : Obligations.HostWriteStoresOrIsIgnored := by
  intro s rest offset v hb hh ha hw
  have hstep (h0 : offset ≠ 0) : step s = .next (writeReg (s.setHost rest) v (regAt offset)) :=
    (step_acts hb hh).trans (actOn_write (s.setHost rest) v ha hw h0)
  refine ⟨?_, ?_, ?_⟩
  · rintro rfl
    exact hstep (by decide)
  · rintro rfl
    exact hstep (by decide)
  · intro h0 harg hsym
    obtain ⟨-, hregArg, hregSym⟩ := offset_of_regAt (offset := offset)
    rw [hstep h0, writeReg_ignored _ _ (harg ∘ hregArg) (hsym ∘ hregSym)]
    rfl

/-- Settles O8: the read puts the register's word on the host's side and nothing else. -/
theorem hostReadHasNoSideEffect : Obligations.HostReadHasNoSideEffect := by
  intro s rest offset hb hh ha hw
  refine ⟨(step_acts hb hh).trans (actOn_read (s.setHost rest) ha hw), ?_⟩
  rintro (rfl | hreserved)
  · rfl
  · rw [regAt_reserved hreserved]
    rfl

/-! The words a host reads (10_state.md R21, R24, R25). -/

/-- `STATUS` from its fields, five flags above the three bits of `CODE` (R24): 256 words in all. -/
theorem statusWord_fields (s : State) :
    (statusWord s).extractLsb' 0 3 = codeBits s.status.code ∧ (statusWord s).getLsbD 3 = s.status.busy ∧
    (statusWord s).getLsbD 4 = s.status.encValid ∧ (statusWord s).getLsbD 5 = s.bw.isOpen ∧
    (statusWord s).getLsbD 6 = s.br.isOpen ∧ (statusWord s).getLsbD 7 = s.status.sticky ∧
    (statusWord s).extractLsb' 8 24 = 0 := by
  unfold statusWord
  generalize codeBits s.status.code = code
  generalize s.status.busy = busy
  generalize s.status.encValid = valid
  generalize s.bw.isOpen = writer
  generalize s.br.isOpen = reader
  generalize s.status.sticky = sticky
  revert code busy valid writer reader sticky
  decide

/-- A byte shown in a word stands in bits 7:0 with zeros above (R25). -/
theorem setWidth_byte_fields (b : BitVec 8) :
    (b.setWidth 32).extractLsb' 0 8 = b ∧ (b.setWidth 32).extractLsb' 8 24 = 0 := by
  have hb := b.isLt
  constructor <;> apply BitVec.eq_of_toNat_eq <;>
    rw [BitVec.extractLsb'_toNat, BitVec.toNat_setWidth_of_le (by decide), Nat.shiftRight_eq_div_pow]
  · omega
  · exact (Nat.mod_eq_of_lt (by omega)).trans (Nat.div_eq_of_lt hb)

/-- `REMAIN_HI:REMAIN_LO` is the one 35-bit count (R21). -/
theorem remaining_halves (r : BitVec 35) :
    ((r.extractLsb' 32 3).setWidth 32).toNat * 2 ^ 32 + (r.extractLsb' 0 32).toNat = r.toNat := by
  have hr := r.isLt
  rw [BitVec.toNat_setWidth_of_le (by decide), BitVec.extractLsb'_toNat, BitVec.extractLsb'_toNat,
    Nat.shiftRight_eq_div_pow, Nat.shiftRight_zero]
  omega

/-- Settles O9: each offset reaches its register, and a narrow element is shown with zeros above its width. -/
theorem registerWindowWords : Obligations.RegisterWindowWords := by
  refine ⟨by decide, by decide, fun s => ?_⟩
  obtain ⟨hcode, hbusy, hvalid, hwriter, hreader, hsticky, hstatus⟩ := statusWord_fields s
  obtain ⟨hcause, hcause0⟩ := setWidth_byte_fields (causeBits s.status.cause)
  have hnarrow {w : Nat} (b : BitVec w) (hw : w ≤ 32) : (b.setWidth 32).toNat = b.toNat := BitVec.toNat_setWidth_of_le hw
  exact ⟨rfl, hcode, hbusy, hvalid, hwriter, hreader, hsticky, hstatus, hcause, hcause0, rfl, rfl, rfl,
    hnarrow _ (by decide), hnarrow _ (by decide), hnarrow _ (by decide), rfl, remaining_halves _, hnarrow _ (by decide),
    rfl, rfl, hnarrow _ (by decide), hnarrow _ (by decide), hnarrow _ (by decide)⟩

end Sys2Proof.Machine
end

section
/-! Reset (10_state.md R37; 70_reset_and_hazards.md R280): what hardware reset leaves, and that it has every form the steps
keep. -/

namespace Sys2Proof.Machine

theorem symAt_reset (b : Byte) : symAt {} b = {} := Vector.getElem_replicate ..

theorem hardReset_blockAtReset (s : State) : BlockAtReset (hardReset s) where
  result := rfl
  status := ⟨rfl, rfl, rfl, rfl⟩
  cause := rfl
  lengths := ⟨rfl, rfl⟩
  counts := ⟨rfl, rfl, rfl, rfl, rfl⟩
  table b := by
    have hrec : symAt (hardReset s).enc b = {} := symAt_reset b
    rw [hrec]
    exact ⟨rfl, rfl, rfl⟩
  trees := ⟨rfl, rfl⟩
  queue := rfl
  writer := ⟨rfl, rfl, rfl, rfl⟩
  reader := ⟨rfl, rfl, rfl, rfl, rfl, rfl⟩
  handles := ⟨rfl, rfl⟩

/-- Settles O11: the state after reset is what hardware reset makes of itself. -/
theorem resetValues : Obligations.ResetValues :=
  ⟨hardReset_blockAtReset State.reset, rfl, rfl⟩

/-- Reset is a move the host has also while `BUSY = 1` (44_system.md R233). -/
theorem step_reset {s : State} {rest : List HostAction} (hh : s.host = .reset :: rest) :
    step s = .next (hardReset (s.setHost rest)) := by
  unfold step hostMove
  rw [hh]
  exact if_neg fun h => by cases h.2

/-- Settles O12: the reset action is hardware reset of the state with that action used up. -/
theorem hardwareResetStep : Obligations.HardwareResetStep := by
  intro s rest hh
  exact ⟨_, step_reset hh, hardReset_blockAtReset _, rfl, rfl, rfl, rfl, rfl⟩

/-- Settles O60: both units are closed and empty, the status is `OK` and the table is clear after reset. -/
theorem resetMeetsForms : Obligations.ResetMeetsForms := by
  have hparams : State.reset.params.wf := by decide
  refine ⟨hparams, emptyWriter_form (o := false) hparams rfl, closedReader_form rfl, ⟨rfl, rfl⟩, ?_, reset_tableForm,
    reset_headerForm, reset_memory⟩
  exact ⟨rfl, by decide, fun hne => absurd rfl hne⟩

end Sys2Proof.Machine
end

section
/-! The handles of the two ports (20_memory.md R62 to R67): between operations a unit holds its port exactly while it is open,
and a composite command leaves both units closed and no handle held (60_exceptions.md R262). -/

namespace Sys2Proof.Machine

/-! The writer's commands (40_bitwriter.md R131 to R135). -/

/-- Wherever a part of a command leaves the writer, DST is held exactly while the writer is open. -/
theorem WriterMoves.dstHeld {s t : State} (h : WriterMoves s t) (hs : s.env.dstHeld = s.bw.isOpen) :
    t.env.dstHeld = t.bw.isOpen := by
  rcases h with ⟨hso, hto, hheld⟩ | ⟨hbw, hheld⟩ | ⟨hbw, hheld⟩ | ⟨hto, hheld⟩
  · rw [hheld, hs, hso, hto]
  · rw [hheld, hbw]; rfl
  · rw [hheld, hs, hbw]
  · rw [hheld, hto]

/-- The end of a host-issued writer operation: an error of the sink releases the writer with its handle (R262 (b)). -/
theorem endOp_writer_keeps_handles {s : State} {r : Result Unit} (hframe : SinkFrame s r.state)
    (hmoves : WriterMoves s r.state) (hs : HandleForm s) : HandleForm (endOp .writer r) := by
  have hr : HandleForm r.state := ⟨hmoves.dstHeld hs.1, by rw [hframe.srcHeld, hframe.br]; exact hs.2⟩
  cases r with
  | done a t => exact hr
  | raised e t =>
    rw [endOp_raised, takeError_eq]
    unfold cleanUp
    dsimp only
    split
    · exact ⟨rfl, hr.2⟩
    · exact hr

/-! The reader's commands (41_bitreader.md R151 to R156). -/

theorem ReaderFrame.keeps_handles {s t : State} (h : ReaderFrame s t) (ho : t.br.isOpen = s.br.isOpen)
    (hs : HandleForm s) : HandleForm t := by
  unfold HandleForm
  rw [h.env, h.bw, ho]
  exact hs

theorem brRbit_isOpen (s : State) : (brRbit s).state.br.isOpen = s.br.isOpen := by
  unfold brRbit
  split
  · split
    · rfl
    · exact (brRefill_open s).1
  · rfl

theorem brRbyte8_isOpen (s : State) : (brRbyte8 s).state.br.isOpen = s.br.isOpen := by
  unfold brRbyte8
  split
  · split
    · rfl
    · exact (brRefill_open s).1
  · rfl

theorem brOpen_keeps_handles {s : State} (hs : HandleForm s) : HandleForm (brOpen s).state := by
  unfold brOpen
  split
  · exact hs
  · cases hx : s.env.src with
    | none => rw [srcOpen_absent hx]; exact hs
    | some x => rw [srcOpen_present hx]; exact ⟨hs.1, rfl⟩

theorem brClose_keeps_handles {s : State} (hs : HandleForm s) : HandleForm (brClose s).state := by
  unfold brClose
  split
  · exact ⟨hs.1, rfl⟩
  · exact hs

theorem bind_writeResult_handles {α : Type} {r : Result α} (f : α → Word) (h : HandleForm r.state) :
    HandleForm (r.bind fun a t => .done () (writeResult (f a) t)).state := by
  cases r <;> exact h

theorem endOp_reader_keeps_handles {r : Result Unit} (h : HandleForm r.state) : HandleForm (endOp .reader r) := by
  cases r <;> exact h

/-! The composite commands (60_exceptions.md R262 (d)). -/

/-- Both units are closed and no handle is held. -/
structure NothingHeld (t : State) : Prop where
  writer : t.bw.isOpen = false
  reader : t.br.isOpen = false
  source : t.env.srcHeld = false
  sink : t.env.dstHeld = false

theorem NothingHeld.handleForm {t : State} (h : NothingHeld t) : HandleForm t :=
  ⟨h.sink.trans h.writer.symm, h.source.trans h.reader.symm⟩

theorem HandleForm.nothingHeld {s : State} (h : HandleForm s) (hi : s.idle) : NothingHeld s :=
  ⟨hi.1, hi.2, h.2.trans hi.2, h.1.trans hi.1⟩

theorem endOp_encodeBody_nothingHeld {s : State} (hi : s.idle) (hh : HandleForm s) :
    NothingHeld (endOp .composite (encodeBody s)) := by
  obtain ⟨hbw, hbr, henv, hsrc⟩ := encodeBody_keeps s
  obtain ⟨-, hreader, hsource, hsink⟩ := hh.nothingHeld hi
  have hdst : (encodeBody s).state.env.dstHeld = s.env.dstHeld := by rw [henv]
  obtain ⟨hw, hr, hs, hd, -⟩ := endOp_composite_released hi hh (.same hbw hdst) fun a t ht => by
    rw [ht] at hbw hbr hdst hsrc
    refine ⟨.inr hbw, hdst.trans hsink, ?_, (congrArg BitReader.isOpen hbr).trans hreader⟩
    exact Bool.eq_false_iff.mpr fun hheld => by rw [hsource] at hsrc; cases hsrc hheld
  exact ⟨hw, hr, hs, hd⟩

theorem endOp_compressBody_nothingHeld {s : State} (hi : s.idle) (hh : HandleForm s) :
    NothingHeld (endOp .composite (compressBody s)) := by
  have hbr := compressBody_br s
  obtain ⟨hw, hr, hs, hd, -⟩ := endOp_composite_released hi hh (compressBody_writerMoves s) fun a t ht => by
    rw [ht] at hbr
    obtain ⟨hbw, hsink, hsource⟩ := compressBody_released ht
    exact ⟨.inl hbw, hsink, hsource, (congrArg BitReader.isOpen hbr).trans hi.2⟩
  exact ⟨hw, hr, hs, hd⟩

theorem endOp_decompressBody_nothingHeld {s : State} (hi : s.idle) (hh : HandleForm s) :
    NothingHeld (endOp .composite (decompressBody s)) := by
  obtain ⟨hw, hr, hs, hd, -⟩ := endOp_composite_released hi hh (decompressBody_writerMoves s) fun a t ht => by
    obtain ⟨hbw, hsink, hsource, hreader⟩ := decompressBody_released ht
    exact ⟨.inl hbw, hsink, hsource, hreader⟩
  exact ⟨hw, hr, hs, hd⟩

/-- A composite command leaves nothing held, or is refused at the decode stage (44_system.md R234). -/
theorem exec_composite_handles {i : Instr} {s t : State} (hi : i = .encode ∨ i = .compress ∨ i = .decompress)
    (hh : HandleForm s) (h : exec i s = .next t) : NothingHeld t ∨ t = takeError .decode ⟨.usageFault, .seq⟩ s := by
  rcases hi with rfl | rfl | rfl
  · rcases exec_encode_cases h with ⟨hidle, rfl⟩ | hrefused
    · exact .inl (endOp_encodeBody_nothingHeld hidle hh)
    · exact .inr hrefused
  · rcases exec_compress_cases h with ⟨⟨hidle, -⟩, rfl⟩ | hrefused
    · exact .inl (endOp_compressBody_nothingHeld hidle hh)
    · exact .inr hrefused
  · rcases exec_decompress_cases h with ⟨hidle, rfl⟩ | hrefused
    · exact .inl (endOp_decompressBody_nothingHeld hidle hh)
    · exact .inr hrefused

/-- Settles O53: past its precondition a composite command releases what it opened on every path; a refused one finds an idle
block. -/
theorem compositeReleasesHandles : Obligations.CompositeReleasesHandles := by
  intro i s t hi hidle hh h
  have hheld : NothingHeld t := by
    rcases exec_composite_handles hi hh h with hheld | rfl
    · exact hheld
    · exact HandleForm.nothingHeld (s := takeError .decode _ s) hh hidle
  exact ⟨hheld.writer, hheld.reader, hheld.source, hheld.sink⟩

/-! A command and the step. -/

theorem exec_composite_keeps_handles {i : Instr} {s t : State} (hi : i = .encode ∨ i = .compress ∨ i = .decompress)
    (hh : HandleForm s) (h : exec i s = .next t) : HandleForm t := by
  rcases exec_composite_handles hi hh h with hheld | rfl
  · exact hheld.handleForm
  · exact hh

theorem exec_keeps_handles {i : Instr} {s t : State} (hs : HandleForm s) (h : exec i s = .next t) : HandleForm t := by
  cases i with
  | nop => cases h; exact hs
  | clear => cases h; exact ⟨rfl, rfl⟩
  | encode => exact exec_composite_keeps_handles (.inl rfl) hs h
  | compress => exact exec_composite_keeps_handles (.inr (.inl rfl)) hs h
  | decompress => exact exec_composite_keeps_handles (.inr (.inr rfl)) hs h
  | bwOpen => cases h; exact endOp_writer_keeps_handles (bwOpen_sinkFrame s) (bwOpen_writerMoves s) hs
  | bwWbits n => cases h; exact endOp_writer_keeps_handles (bwWbits_sinkFrame ..) (bwWbits_writerMoves ..) hs
  | bwWbyte => cases h; exact endOp_writer_keeps_handles (bwWbyte_sinkFrame ..) (bwWbyte_writerMoves ..) hs
  | bwClose => cases h; exact endOp_writer_keeps_handles (bwClose_sinkFrame s) (bwClose_writerMoves s) hs
  | brOpen => cases h; exact endOp_reader_keeps_handles (brOpen_keeps_handles hs)
  | brRbit =>
    cases h
    have hread := (brRbit_readerFrame s).keeps_handles (brRbit_isOpen s) hs
    exact endOp_reader_keeps_handles (bind_writeResult_handles zextBit hread)
  | brRbyte8 =>
    cases h
    have hread := (brRbyte8_readerFrame s).keeps_handles (brRbyte8_isOpen s) hs
    exact endOp_reader_keeps_handles (bind_writeResult_handles zextByte hread)
  | brClose => cases h; exact endOp_reader_keeps_handles (brClose_keeps_handles hs)

/-- Settles O56: a unit takes its handle where it opens and gives it back where it closes or is released; reset closes both
units and releases both handles. -/
theorem stepKeepsHandleForm : Obligations.StepKeepsHandleForm :=
  step_keeps HandleForm
    (hb := fun _ _ h => h)
    (hx := fun _ _ _ => exec_keeps_handles)
    (he := fun _ _ _ _ h => h)
    (hhost := fun _ _ h => h) (hbus := fun _ _ h => h) (hregs := fun _ _ _ h => h)
    (hsrc := fun _ _ _ h => h) (hdst := fun _ _ h => h) (hver := fun _ _ _ h => h)
    (hres := fun _ _ => ⟨rfl, rfl⟩)
    (hstr := fun _ _ _ _ => ⟨rfl, rfl⟩)

end Sys2Proof.Machine
end

section
/-! The host outside its contract (20_memory.md R61; 44_system.md R233; 70_reset_and_hazards.md R284, R293, R298): where the step
gives it no move. -/

namespace Sys2Proof.Machine

theorem windowOffset_notWord (p : Config.Params) {offset bytes : Nat} (hw : offset < 256)
    (ha : bytes ≠ 4 ∨ offset % 4 ≠ 0) : windowOffset p (p.regBase + offset) bytes = .error .accessNotWord := by
  unfold windowOffset Config.windowBytes
  rw [if_neg (by omega), if_neg (by omega)]

theorem actOn_write_notWord (s : State) {offset bytes : Nat} (v : Word) (hw : offset < 256)
    (ha : bytes ≠ 4 ∨ offset % 4 ≠ 0) :
    actOn (.write (s.params.regBase + offset) bytes v) s = .refused .accessNotWord := by
  simp only [actOn]
  rw [windowOffset_notWord s.params hw ha]

theorem actOn_read_notWord (s : State) {offset bytes : Nat} (hw : offset < 256) (ha : bytes ≠ 4 ∨ offset % 4 ≠ 0) :
    actOn (.read (s.params.regBase + offset) bytes) s = .refused .accessNotWord := by
  simp only [actOn]
  rw [windowOffset_notWord s.params hw ha]

theorem actOn_setSrc_tooLong (s : State) {x : List Byte} (h : Config.lenMax < x.length) :
    actOn (.setSrc (some x)) s = .refused .sourceTooLong :=
  if_neg (Nat.not_le.mpr h)

/-- `BUSY = 1` allows a reset and the 32-bit read of `STATUS` only (44_system.md R233). -/
theorem not_allowedWhileBusy {p : Config.Params} {a : HostAction} (hreset : a ≠ .reset)
    (hread : a ≠ .read (p.regBase + 0x08) 4) : allowedWhileBusy p a = false := by
  cases a with
  | reset => exact absurd rfl hreset
  | read addr bytes =>
    refine Bool.eq_false_iff.mpr fun hallowed => ?_
    obtain ⟨haddr, hbytes⟩ := Bool.and_eq_true_iff.mp hallowed
    exact hread (by rw [of_decide_eq_true haddr, of_decide_eq_true hbytes])
  | _ => rfl

theorem step_busy_refused {s : State} {a : HostAction} {rest : List HostAction} (hb : s.status.busy = true)
    (hh : s.host = a :: rest) (ha : allowedWhileBusy s.params a = false) : step s = .refused .hostWhileBusy := by
  unfold step hostMove
  rw [hh]
  exact if_pos ⟨hb, ha⟩

theorem step_allowed {s : State} {a : HostAction} {rest : List HostAction} (hh : s.host = a :: rest)
    (ha : allowedWhileBusy s.params a = true) : step s = actOn a (s.setHost rest) := by
  unfold step hostMove
  rw [hh]
  exact if_neg fun h => by rw [ha] at h; cases h.2

theorem step_read_status {s : State} {rest : List HostAction} (hh : s.host = .read (s.params.regBase + 0x08) 4 :: rest) :
    step s = .next ((s.setHost rest).setBusData (readReg (s.setHost rest) .status)) :=
  (step_allowed hh (by simp [allowedWhileBusy])).trans
    (actOn_read (s.setHost rest) (offset := 0x08) (by decide) (by decide))

/-- Settles O10: an access that is no aligned word, an action that `BUSY = 1` does not allow and a source beyond `LEN_MAX` are
refused; the read of `STATUS` is allowed while `BUSY = 1`. -/
theorem hostOutsideContractRefused : Obligations.HostOutsideContractRefused := by
  intro s rest
  refine ⟨?_, ?_, ?_, ?_⟩
  · rintro offset bytes v hb hw ha (hh | hh)
    · exact (step_acts hb hh).trans (actOn_write_notWord (s.setHost rest) v hw ha)
    · exact (step_acts hb hh).trans (actOn_read_notWord (s.setHost rest) hw ha)
  · intro a hb hh hreset hread
    exact step_busy_refused hb hh (not_allowedWhileBusy hreset hread)
  · intro _ hh
    exact step_read_status hh
  · intro x hb hh hx
    exact (step_acts hb hh).trans (actOn_setSrc_tooLong (s.setHost rest) hx)

end Sys2Proof.Machine
end

section
/-! The bytes of DST (20_memory.md R60, R65, R66): only the commands that open the destination empty it; every other command
leaves what DST held in its place. -/

namespace Sys2Proof.Machine

theorem dstByte_of_prefix {s t : State} {a : Nat} (h : s.env.dst <+: t.env.dst) (ha : a < s.env.dst.length) :
    dstByte t a = dstByte s a := by
  obtain ⟨p, hp⟩ := h
  unfold dstByte
  rw [← hp, List.getElem?_append_left ha]

theorem clearBlock_dst (s : State) : (clearBlock s).env.dst = s.env.dst := by
  unfold clearBlock
  dsimp only
  split <;> split <;> rfl

theorem brOpen_dst (s : State) : (brOpen s).state.env.dst = s.env.dst := by
  unfold brOpen
  split
  · rfl
  · unfold srcOpen
    cases s.env.src <;> rfl

theorem brClose_dst (s : State) : (brClose s).state.env.dst = s.env.dst := by
  unfold brClose
  split <;> rfl

theorem bind_writeResult_env {α : Type} (r : Result α) (f : α → Word) :
    (r.bind fun a t => .done () (writeResult (f a) t)).state.env = r.state.env := by
  cases r <;> rfl

theorem endOp_keeps_dst (site : Site) {s : State} {r : Result Unit} (h : r.state.env.dst = s.env.dst) :
    s.env.dst <+: (endOp site r).env.dst :=
  endOp_grows site (h ▸ List.prefix_rfl)

theorem exec_dst_grows {i : Instr} {s t : State} (hopen : i ≠ .bwOpen) (hcompress : i ≠ .compress)
    (hdecompress : i ≠ .decompress) (h : exec i s = .next t) : s.env.dst <+: t.env.dst := by
  cases i with
  | nop => cases h; exact List.prefix_rfl
  | clear =>
    cases h
    show s.env.dst <+: (clearBlock s).env.dst
    rw [clearBlock_dst]
  | encode =>
    rcases exec_encode_cases h with ⟨-, rfl⟩ | rfl
    · exact endOp_keeps_dst _ (encodeBody_dst s)
    · exact List.prefix_rfl
  | compress => exact absurd rfl hcompress
  | decompress => exact absurd rfl hdecompress
  | bwOpen => exact absurd rfl hopen
  | bwWbits n => cases h; exact endOp_grows _ (bwWbits_grows ..)
  | bwWbyte => cases h; exact endOp_grows _ (bwWbyte_grows ..)
  | bwClose => cases h; exact endOp_grows _ (bwClose_grows s)
  | brOpen => cases h; exact endOp_keeps_dst _ (brOpen_dst s)
  | brRbit =>
    cases h
    have henv := (bind_writeResult_env (brRbit s) zextBit).trans (brRbit_readerFrame s).env
    exact endOp_keeps_dst _ (congrArg Env.dst henv)
  | brRbyte8 =>
    cases h
    have henv := (bind_writeResult_env (brRbyte8 s) zextByte).trans (brRbyte8_readerFrame s).env
    exact endOp_keeps_dst _ (congrArg Env.dst henv)
  | brClose => cases h; exact endOp_keeps_dst _ (brClose_dst s)

/-- Settles O52: the writer's bursts and flushes are appended, and no other of these commands writes DST. -/
theorem dstOnlyGrows : Obligations.DstOnlyGrows := by
  intro i s t hopen hcompress hdecompress h
  have hgrows := exec_dst_grows hopen hcompress hdecompress h
  exact ⟨hgrows, fun a ha => dstByte_of_prefix hgrows ha⟩

end Sys2Proof.Machine
end

section
/-! What an operation changes, written as the update of its own parts, and the status it ends with (44_system.md R233;
60_exceptions.md R262). -/

namespace Sys2Proof.Machine

/-- A command that keeps `RESULT` changes of the registers and of the environment only the two lengths, DST with its verdicts
and the handles. -/
theorem CommandFrame.eq {s t : State} (h : CommandFrame s t) (hr : t.regs.result = s.regs.result) :
    t = { s with
          regs := { s.regs with srcLen := t.regs.srcLen, dstLen := t.regs.dstLen }
          status := t.status
          enc := t.enc
          dec := t.dec
          bw := t.bw
          br := t.br
          scan := t.scan
          env := { s.env with
                   dst := t.env.dst, verdicts := t.env.verdicts
                   srcHeld := t.env.srcHeld, dstHeld := t.env.dstHeld }
          freeCount := t.freeCount } := by
  obtain ⟨harg, hsym, hparams, hsrc, hcreatable, hhost, hbus⟩ := h
  dsimp only
  rw [← harg, ← hsym, ← hparams, ← hsrc, ← hcreatable, ← hhost, ← hbus, ← hr]

/-- The same of an operation on the writer that then reports (40_bitwriter.md R131 to R135). -/
theorem SinkFrame.setStatus_eq {s t : State} (h : SinkFrame s t) (x : Status) :
    t.setStatus x = { s with
          bw := t.bw
          regs := { s.regs with dstLen := t.regs.dstLen }
          env := { s.env with dst := t.env.dst, verdicts := t.env.verdicts, dstHeld := t.env.dstHeld }
          status := x
          freeCount := t.freeCount } := by
  obtain ⟨hparams, harg, hresult, hsym, hsrcLen, -, henc, hdec, hbr, hscan, hsrc, hcreatable, hheld, hhost, hbus⟩ := h
  dsimp only
  rw [← hparams, ← harg, ← hresult, ← hsym, ← hsrcLen, ← henc, ← hdec, ← hbr, ← hscan, ← hsrc, ← hcreatable, ← hheld,
    ← hhost, ← hbus]
  rfl

theorem statusOk_congr {s t : State} (h : t.status = s.status) : statusOk t = statusOk s := by
  unfold statusOk
  rw [h]

theorem statusErr_congr {s t : State} (c : Code) (k : Cause) (h : t.status = s.status) :
    statusErr c k t = statusErr c k s := by
  unfold statusErr
  rw [h]

theorem takeError_status (site : Site) (e : Raise) {s t : State} (h : t.status = s.status) :
    (takeError site e t).status = statusErr e.code e.cause s :=
  statusErr_congr e.code e.cause ((cleanUp_keeps site e t).1.trans h)

theorem endOp_enc (site : Site) (r : Result Unit) : (endOp site r).enc = r.state.enc := by
  cases r with
  | done a t => rfl
  | raised e t => exact (cleanUp_keeps site e t).2.1

theorem endOp_dec (site : Site) (r : Result Unit) : (endOp site r).dec = r.state.dec := by
  cases r with
  | done a t => rfl
  | raised e t => exact (cleanUp_keeps site e t).2.2.1

theorem endOp_scan (site : Site) (r : Result Unit) : (endOp site r).scan = r.state.scan := by
  cases r with
  | done a t => rfl
  | raised e t => exact (cleanUp_keeps site e t).2.2.2.1

theorem endOp_encValid (site : Site) (r : Result Unit) :
    (endOp site r).status.encValid = r.state.status.encValid := by
  cases r with
  | done a t => rfl
  | raised e t =>
    show (cleanUp site e t).status.encValid = t.status.encValid
    rw [(cleanUp_keeps site e t).1]

/-- The clean-up leaves a closed reader as it is (60_exceptions.md R262 (d)). -/
theorem endOp_br (site : Site) {r : Result Unit} (h : r.state.br.isOpen = false) : (endOp site r).br = r.state.br := by
  cases r with
  | done a t => rfl
  | raised e t => exact (cleanUp_keeps site e t).2.2.2.2 h

theorem srcByte_of_src {s t : State} (h : t.env.src = s.env.src) (a : Nat) : srcByte t a = srcByte s a := by
  unfold srcByte
  rw [h]

end Sys2Proof.Machine
end

section
/-! The two ends of `BW.WBITS` and of `BW.CLOSE` on an open writer (40_bitwriter.md R130 to R135; 20_memory.md R66;
60_exceptions.md R262 (b)). -/

namespace Sys2Proof.Machine

/-! The one error of the loop of R132. -/

theorem Result.bind_eq_raised {α β : Type} {r : Result α} {f : α → State → Result β} {e : Raise} {t : State}
    (h : r.bind f = .raised e t) : r = .raised e t ∨ ∃ a u, r = .done a u ∧ f a u = .raised e t := by
  cases r with
  | done a u => exact .inr ⟨a, u, rfl, h⟩
  | raised e' u => cases h; exact .inl rfl

theorem bwPutByte_raises {b : Byte} {s t : State} {e : Raise} (h : bwPutByte b s = .raised e t) :
    e = ⟨.dstErr, .dstWriteFail⟩ := by
  rcases bwPutByte_outcome b s with ⟨u, hu, -⟩ | ⟨-, u, hu, -⟩ <;> rw [hu] at h <;> cases h
  rfl

theorem bwPutBit_raises {v : Bool} {s t : State} {e : Raise} (h : bwPutBit v s = .raised e t) :
    e = ⟨.dstErr, .dstWriteFail⟩ := by
  unfold bwPutBit at h
  dsimp only at h
  split at h
  · rcases Result.bind_eq_raised h with hbyte | ⟨-, u, -, hdone⟩
    · exact bwPutByte_raises hbyte
    · cases hdone
  · cases h

theorem bwPutBits_raises {b : Bits} {s t : State} {e : Raise} (h : bwPutBits b s = .raised e t) :
    e = ⟨.dstErr, .dstWriteFail⟩ := by
  induction b generalizing s with
  | nil => cases h
  | cons v b ih =>
    rcases Result.bind_eq_raised h with hbit | ⟨-, u, -, hrest⟩
    · exact bwPutBit_raises hbit
    · exact ih hrest

/-! `BW.WBITS`. -/

theorem RefusesBurst.unique {s : State} {i j : Nat} (hi : RefusesBurst s i) (hj : RefusesBurst s j) : i = j := by
  rcases Nat.lt_trichotomy i j with hlt | heq | hgt
  · exact absurd hi.1 (hj.2 i hlt)
  · exact heq
  · exact absurd hj.1 (hi.2 j hgt)

theorem bwWbits_open {value : Word} {n : Nat} {s : State} (hn : n ≤ Config.codeMax) (ho : s.bw.isOpen = true) :
    bwWbits value n s = bwPutBits (msb value n) s := by
  unfold bwWbits
  rw [if_neg (Nat.not_lt.mpr hn), if_pos ho]

/-- The error of a refused burst in a host-issued writer operation: the writer is released (R262 (b)). -/
theorem takeError_writer_refused (t : State) :
    takeError .writer ⟨.dstErr, .dstWriteFail⟩ t = (bwRelease t).setStatus (statusErr .dstErr .dstWriteFail t) := rfl

theorem endOp_writer_sink {s : State} {r : Result Unit} (h : SinkFrame s r.state) :
    ∃ v x, SinkFrame s v ∧ endOp .writer r = v.setStatus x := by
  cases r with
  | done a t => exact ⟨t, statusOk t, h, rfl⟩
  | raised e t =>
    rw [endOp_raised]
    unfold takeError cleanUp
    dsimp only
    split
    · exact ⟨bwRelease t, _, h.trans (bwRelease_sinkFrame t), rfl⟩
    · exact ⟨t, _, h, rfl⟩

theorem endOp_writer_eq {s : State} {r : Result Unit} (h : SinkFrame s r.state) :
    endOp .writer r = { s with
          bw := (endOp .writer r).bw
          regs := { s.regs with dstLen := (endOp .writer r).regs.dstLen }
          env := { s.env with
                   dst := (endOp .writer r).env.dst, verdicts := (endOp .writer r).env.verdicts
                   dstHeld := (endOp .writer r).env.dstHeld }
          status := (endOp .writer r).status
          freeCount := (endOp .writer r).freeCount } := by
  obtain ⟨v, x, hv, heq⟩ := endOp_writer_sink h
  rw [heq]
  exact hv.setStatus_eq x

/-- From any open writer: done with the writer open and held as before, or a burst refused and the writer released. -/
theorem endOp_putBits_ends (b : Bits) {s : State} (ho : s.bw.isOpen = true) :
    let t := endOp .writer (bwPutBits b s)
    (t.status = statusOk s ∧ t.bw.isOpen = true ∧ t.env.dstHeld = s.env.dstHeld) ∨
    (t.status = statusErr .dstErr .dstWriteFail s ∧ t.bw = { isOpen := false, buf := [], cur := 0, free := 8 } ∧
      t.env.dstHeld = false) := by
  have hframe := bwPutBits_sinkFrame b s
  obtain ⟨hopen, hheld⟩ := bwPutBits_writerMoves b s
  cases hr : bwPutBits b s with
  | done a t =>
    rw [hr] at hframe hopen hheld
    exact .inl ⟨statusOk_congr hframe.status, hopen.trans ho, hheld⟩
  | raised e t =>
    rw [hr] at hframe
    rw [bwPutBits_raises hr, endOp_raised, takeError_writer_refused]
    exact .inr ⟨statusErr_congr _ _ hframe.status, rfl, rfl⟩

/-- Settles O18: the loop of R132 appends to DST burst by burst and stops only at a refused one, for which the writer is
released. -/
theorem bwWbitsOutcomes : Obligations.BwWbitsOutcomes := by
  intro s n hn ho
  have hrun : bwWbits (wordOperand s) n.toNat s = bwPutBits (msb s.regs.arg n.toNat) s := bwWbits_open hn ho
  have hframe := bwPutBits_sinkFrame (msb s.regs.arg n.toNat) s
  refine ⟨endOp .writer (bwPutBits (msb s.regs.arg n.toNat) s), by rw [← hrun]; rfl, endOp_grows _ (bwPutBits_grows ..),
    endOp_putBits_ends _ ho, endOp_writer_eq hframe, fun hform => ?_⟩
  rcases bwPutBits_bursts (msb s.regs.arg n.toNat) hform ho with
    ⟨t, ht, haccepted, hdst, hlen, hverdicts⟩ | ⟨t, k, ht, hk, hrefused, hdst, hlen, hverdicts⟩ <;> rw [ht] at hframe ⊢
  · exact ⟨fun _ => ⟨statusOk_congr hframe.status, hdst, hlen, hverdicts⟩,
      fun i hi hrefused => absurd hrefused.1 (haccepted i hi)⟩
  · refine ⟨fun hnone => absurd hrefused (hnone k hk), fun i _ hi => ?_⟩
    rw [hi.unique hrefused, endOp_raised, takeError_writer_refused]
    exact ⟨statusErr_congr _ _ hframe.status, hdst, hlen, hverdicts⟩

/-! `BW.CLOSE`. -/

/-- `BW.CLOSE` flushes and releases; what the burst answers decides the status only (R134). -/
theorem exec_bwClose_open {s : State} (ho : s.bw.isOpen = true) :
    exec .bwClose s = .next ((bwRelease (bwFlush s).2).setStatus
      (if (bwFlush s).1 = true then statusOk s else statusErr .dstErr .dstWriteFail s)) := by
  have hstatus : (bwRelease (bwFlush s).2).status = s.status := (bwFlush_sinkFrame s).status
  show Host.Outcome.next (endOp .writer (bwClose s)) = _
  unfold bwClose
  rw [if_pos ho]
  dsimp only
  split
  · rw [endOp_done, ← statusOk_congr hstatus]; rfl
  · rw [endOp_raised, takeError_writer_refused, statusErr_congr _ _ hstatus]; rfl

/-- Settles O24: the flush has its two ends, and the writer is released after either. -/
theorem bwCloseAlwaysCloses : Obligations.BwCloseAlwaysCloses := by
  intro s ho
  refine ⟨_, exec_bwClose_open ho, rfl, rfl, ?_, ?_,
    ((bwFlush_sinkFrame s).trans (bwRelease_sinkFrame _)).setStatus_eq _⟩
  · intro haccepted
    rcases bwFlush_outcome s with ⟨hne, hrefused, -⟩ | ⟨-, hok, hstep, hdst⟩
    · exact absurd hrefused (haccepted.resolve_left hne)
    · refine ⟨if_pos hok, hdst, ?_⟩
      have hcounted := hstep.counted
      rw [hdst, List.length_append, Nat.add_sub_cancel_left] at hcounted
      exact hcounted
  · intro hne hrefused
    rcases bwFlush_outcome s with ⟨-, -, hfail, hprefix, hlen, -⟩ | ⟨haccepted, -⟩
    · exact ⟨if_neg (by rw [hfail]; decide), hlen, hprefix⟩
    · exact absurd hrefused (haccepted.resolve_left hne)

end Sys2Proof.Machine
end

section
/-! `COMPRESS` (42_encoder.md R180 to R186): its frame, the container on the source that was encoded, and the emission on any
other source. -/

namespace Sys2Proof.Machine

/-! The frame (R180, R263). -/

theorem compressBody_dec (s : State) : (compressBody s).state.dec = s.dec := by
  rw [(compressBody_keeps s).dec]
  unfold srcOpen
  cases s.env.src <;> rfl

theorem endOp_compressBody_br {s : State} (hi : s.idle) : (endOp .composite (compressBody s)).br = s.br := by
  have hbr := compressBody_br s
  exact (endOp_br _ ((congrArg BitReader.isOpen hbr).trans hi.2)).trans hbr

/-- What `COMPRESS` keeps in every state: the table side, the decoder and the reader. -/
structure CompressKept (s t : State) : Prop where
  table : TableKept s t
  dec : t.dec = s.dec
  br : t.br = s.br

theorem exec_compress_kept {s t : State} (h : exec .compress s = .next t) : CompressKept s t := by
  rcases exec_compress_cases h with ⟨⟨hi, -⟩, rfl⟩ | rfl
  · exact ⟨endOp_tableKept _ (compressBody_tableKept s), (endOp_dec ..).trans (compressBody_dec s),
      endOp_compressBody_br hi⟩
  · exact ⟨takeError_tableKept .., rfl, rfl⟩

theorem exec_compress_next (s : State) : ∃ t, exec .compress s = .next t := by
  obtain ⟨site, r, hexec, -⟩ := exec_ends .compress s (by decide)
  exact ⟨_, hexec⟩

/-- Settles O41: the body keeps the table side, the decoder and the reader, and the clean-up and the report keep them too. -/
theorem compressFrame : Obligations.CompressFrame := by
  intro s
  obtain ⟨t, h⟩ := exec_compress_next s
  have hframe := exec_commandFrame h
  obtain ⟨⟨henc, hvalid⟩, hdec, hbr⟩ := exec_compress_kept h
  refine ⟨t, h, hvalid, srcByte_of_src hframe.src, ?_, fun x hi hv hx => ?_⟩
  · have heq := hframe.eq (exec_result (by decide) (by decide) (by decide) h)
    rw [henc, hdec, hbr] at heq
    exact heq
  · rw [exec_compress_valid hi hv] at h
    cases h
    exact endOp_compressBody_srcLen hx

/-! The source that was encoded (R102, R186 (a)). -/

theorem padLength_lt (e : Encoder) : padLength e < 8 := Nat.mod_lt _ (by decide)

theorem padLength_toNat (e : Encoder) : (BitVec.ofNat 3 (padLength e)).toNat = padLength e := by
  rw [BitVec.toNat_ofNat, Nat.mod_eq_of_lt (padLength_lt e)]

/-- The end of `COMPRESS` after the close has released the writer: the source is released by then (R180, R185). -/
theorem endOk_bwRelease_released {u : State} (hbr : u.br.isOpen = false) (hsrc : u.env.srcHeld = false) :
    Released (endOk (bwRelease u)) :=
  ⟨rfl, hbr, hsrc, rfl⟩

/-- Settles O39: the emission for the encoded source is the container; its bursts are accepted, or the first refused one stops
the command. -/
theorem compressMakesContainer : Obligations.CompressMakesContainer := by
  intro s x t hp hi hfor hx hl hc
  have hlen : (endOp .composite (compressBody s)).regs.srcLen.toNat = x.length := by
    rw [endOp_compressBody_srcLen hx, ofNat_length hl]
  have hreader := (congrArg BitReader.isOpen (compressBody_br s)).trans hi.2
  have hpad : (BitVec.ofNat 3 (padLength s.enc)).toNat = padTo8 (t.header.length + 3 + (payloadBits t x).length) :=
    (padLength_toNat s.enc).trans (padLength_eq hfor)
  refine ⟨_, exec_compress_valid hi hfor.valid, ?_⟩
  rcases compressBody_encoded hp.1 hi.1 hfor hx hl hc with
    ⟨v, u, hbody, hemit, hclose, hdst, haccepts⟩ | ⟨u, hbody, hreleases, hleaves, hrefused⟩ <;> rw [hbody] at hlen hreader ⊢
  · have hleaves : CompressLeaves s u := CompressLeaves.sink (t := srcClose v)
      ⟨hemit.leaves.params, hemit.leaves.status, hemit.leaves.enc⟩ hclose.frame
    have henc : (endOk (bwRelease u)).enc = { s.enc with encPad := BitVec.ofNat 3 (padLength s.enc) } := hleaves.enc
    refine ⟨endOk_bwRelease_released hreader hclose.frame.srcHeld, hlen, ?_, ?_, fun _ => ⟨hdst, ?_, ?_⟩, ?_⟩
    · rw [endOp_done, henc]
    · rw [endOp_done, henc]; exact hpad
    · exact statusOk_congr (t := bwRelease u) hleaves.status
    · exact hemit.counted hclose.counted hclose.grows
    · intro i hi hlt
      exact absurd (haccepts i hi) (Nat.not_le.mpr hlt)
  · obtain ⟨hreleased, -, henc, -⟩ := takeError_composite ⟨.dstErr, .dstWriteFail⟩ hreleases
    rw [hleaves.enc] at henc
    refine ⟨hreleased, hlen, ?_, ?_, ?_, ?_⟩
    · rw [endOp_raised, henc]
    · rw [endOp_raised, henc]; exact hpad
    · exact fun haccepts => absurd haccepts (hrefused.not_acceptsBytes hleaves.params)
    · exact fun i hi _ => takeError_stopped hrefused hleaves.params hleaves.status hreleases hi

end Sys2Proof.Machine
end

section
/-! `COMPRESS` on a source that need not be the one encoded, every burst accepted (42_encoder.md R184, R185, R186 (g)): however it
ends, the bits emitted are in DST, padded with zeros to whole bytes. -/

namespace Sys2Proof.Machine

/-- Before the end of `COMPRESS`: the bits `e` are written, in DST and in the open writer, and no burst to come is refused. -/
structure EmissionHeld (s : State) (e : Bits) (v : State) : Prop where
  leaves : CompressLeaves s v
  form : WriterForm v
  opened : v.bw.isOpen = true
  accepts : AcceptsBursts v
  written : written v = e
  counted : v.regs.dstLen = BitVec.ofNat 32 v.env.dst.length

/-- After the end of `COMPRESS` with the status `x`: the bits `e`, padded with zeros, are in DST and counted in `DST_LEN`, and
everything is released. -/
structure EmissionDelivered (s : State) (e : Bits) (x : Status) (t : State) : Prop where
  status : t.status = x
  enc : t.enc = { s.enc with encPad := BitVec.ofNat 3 (padLength s.enc) }
  dst : unpack t.env.dst = e ++ zeros (padTo8 e.length)
  counted : t.regs.dstLen = BitVec.ofNat 32 t.env.dst.length
  released : Released t

theorem Emitted.held {s t : State} {x : List Byte} {e : Bits} (h : Emitted (compressStart s x) t e)
    (hp : 2 ≤ s.params.bufBytes) (ha : AcceptsBursts s) : EmissionHeld s e t where
  leaves := h.step.leaves
  form := h.form
  opened := h.opened
  accepts := h.step.accepts ha
  written := by
    have hstart : Machine.written (compressStart s x) = [] := (compressOpened_form (s := s) x hp).2
    rw [h.bits, hstart, List.nil_append]
  counted := h.step.counted (by rw [Nat.sub_self]; exact (BitVec.add_zero _).symm) List.prefix_rfl

theorem EmissionHeld.srcClose {s v : State} {e : Bits} (h : EmissionHeld s e v) : EmissionHeld s e (srcClose v) :=
  ⟨⟨h.leaves.params, h.leaves.status, h.leaves.enc⟩, h.form, h.opened, h.accepts, h.written, h.counted⟩

/-- `DST_LEN` after bytes were added to counted ones (20_memory.md R66). -/
theorem EmissionHeld.counts {s v u : State} {e : Bits} (h : EmissionHeld s e v) (hg : v.env.dst <+: u.env.dst)
    (hc : u.regs.dstLen = v.regs.dstLen + BitVec.ofNat 32 (u.env.dst.length - v.env.dst.length)) :
    u.regs.dstLen = BitVec.ofNat 32 u.env.dst.length := by
  rw [hc, h.counted, ← BitVec.ofNat_add, Nat.add_sub_cancel' hg.length_le]

/-- An error that is not a refused burst: the clean-up flushes what the writer holds (60_exceptions.md R262 (d)). -/
theorem EmissionHeld.stopped {s v : State} {e : Bits} (h : EmissionHeld s e v) {err : Raise}
    (he : err.cause ≠ .dstWriteFail) :
    EmissionDelivered s e (statusErr err.code err.cause s) (takeError .composite err v) := by
  obtain ⟨hreleased, -, henc, -⟩ := takeError_composite err (.inl h.opened)
  obtain ⟨hdst, hlen⟩ := cleanUp_flushes he h.form h.opened h.accepts
  rw [h.written] at hdst
  exact ⟨takeError_status _ _ h.leaves.status, henc.trans h.leaves.enc, hdst,
    h.counts (u := cleanUp .composite err v) (cleanUp_grows ..) hlen, hreleased⟩

/-- The close with its burst accepted (40_bitwriter.md R134). -/
theorem EmissionHeld.closed {s v : State} {e : Bits} (h : EmissionHeld s e v) (hbr : v.br.isOpen = false)
    (hsrc : v.env.srcHeld = false) : EmissionDelivered s e (statusOk s) (endOp .composite (bwClose v)) := by
  rcases bwFlush_outcome v with ⟨-, hrefused, -⟩ | ⟨-, hok, hstep, hdst⟩
  · exact absurd hrefused h.accepts.head
  · have hclose : bwClose v = .done () (bwRelease (bwFlush v).2) := by
      unfold bwClose
      rw [if_pos h.opened]
      exact if_pos hok
    have hframe := hstep.frame
    rw [hclose, endOp_done]
    refine ⟨statusOk_congr (t := bwRelease _) (hframe.status.trans h.leaves.status), hframe.enc.trans h.leaves.enc, ?_,
      h.counts hstep.grows hstep.counted,
      endOk_bwRelease_released ((congrArg BitReader.isOpen hframe.br).trans hbr) (hframe.srcHeld.trans hsrc)⟩
    calc unpack (bwFlush v).2.env.dst
        = unpack v.env.dst ++ (heldBits v.bw ++ zeros (padTo8 (heldBits v.bw).length)) := by
          rw [hdst, unpack_append, unpack_flushBytes h.form]; rfl
      _ = Machine.written v ++ zeros (padTo8 (Machine.written v).length) := by
          unfold Machine.written padTo8
          rw [List.append_assoc, List.length_append, unpack_length, Nat.mul_add_mod]
      _ = e ++ zeros (padTo8 e.length) := by rw [h.written]

/-- The status `COMPRESS` ends with when it has emitted the bits `e` for the source `x` (R184, R185). -/
def emissionStatus (s : State) (x : List Byte) (e : Bits) : Status :=
  if codedPrefix s.enc x = x then
    if padTo8 e.length = padLength s.enc then statusOk s else statusErr .usageFault .padMismatch s
  else statusErr .usageFault .srcChanged s

/-- The body of `COMPRESS` to its end, every burst accepted, whatever the header buffer emits. -/
theorem endOp_compressBody_delivers {s : State} {x : List Byte} (hp : 2 ≤ s.params.bufBytes) (hi : s.idle)
    (hl : ∀ b : Byte, (symAt s.enc b).len.toNat ≤ Config.codeMax) (hx : s.env.src = some x)
    (hlen : x.length ≤ Config.lenMax) (hc : s.env.dstCreatable = true) (ha : AcceptsBursts s) :
    ∃ h, (s.enc.hdrBits.toNat = s.enc.hdr.length → h = s.enc.hdr) ∧
      let e := h ++ msb (BitVec.ofNat 3 (padLength s.enc)) 3 ++ (codedPrefix s.enc x).flatMap (codeBitsOf s.enc)
      EmissionDelivered s e (emissionStatus s x e) (endOp .composite (compressBody s)) := by
  obtain ⟨h, hh, hout⟩ := compressBody_outcome hp hi.1 hl hx hlen hc
  refine ⟨h, hh, ?_⟩
  dsimp only at hout ⊢
  generalize h ++ msb (BitVec.ofNat 3 (padLength s.enc)) 3 ++ (codedPrefix s.enc x).flatMap (codeBitsOf s.enc) = e at hout ⊢
  unfold emissionStatus
  rcases hout with ⟨t, -, hna, -⟩ | ⟨hstop, t, hbody, hem⟩ | ⟨hall, hpad, t, hbody, hem⟩ |
    ⟨hall, hpad, t, hbody, hem, -⟩
  · exact absurd ha hna
  · rw [hbody, endOp_raised, if_neg hstop]
    exact (hem.held hp ha).stopped (err := ⟨.usageFault, .srcChanged⟩) (by decide)
  · rw [hbody, endOp_raised, if_pos hall, if_neg hpad]
    exact (hem.held hp ha).srcClose.stopped (err := ⟨.usageFault, .padMismatch⟩) (by decide)
  · rw [hbody, if_pos hall, if_pos hpad]
    have hbr : t.br = s.br := (SinkStep.frame hem.step).br
    exact (hem.held hp ha).srcClose.closed ((congrArg BitReader.isOpen hbr).trans hi.2) rfl

theorem padTo8_eq_iff {n k : Nat} (hk : k < 8) : padTo8 n = k ↔ (n + k) % 8 = 0 := by
  unfold padTo8
  omega

theorem emissionStatus_changed {s : State} {x : List Byte} (e : Bits) (h : ∃ b ∈ x, (symAt s.enc b).len = 0) :
    emissionStatus s x e = statusErr .usageFault .srcChanged s := by
  obtain ⟨b, hb, h0⟩ := h
  exact if_neg fun hall => codedPrefix_eq.mp hall b hb h0

theorem emissionStatus_coded {s : State} {x : List Byte} (e : Bits) (h : ∀ b ∈ x, (symAt s.enc b).len ≠ 0) :
    emissionStatus s x e = if (e.length + padLength s.enc) % 8 = 0 then statusOk s
      else statusErr .usageFault .padMismatch s := by
  unfold emissionStatus
  rw [if_pos (codedPrefix_eq.mpr h)]
  simp only [padTo8_eq_iff (padLength_lt s.enc)]

/-- Settles O40: the emission stops at the first byte without a code, and else at the final check or not at all; the clean-up or
the close delivers what was emitted. -/
theorem compressOfChangedSource : Obligations.CompressOfChangedSource := by
  intro s x hp hi hv htable hx hl hc ha emitted
  obtain ⟨h, hheader, hdelivered⟩ := endOp_compressBody_delivers hp.1 hi htable.1 hx hl hc ha
  refine ⟨_, exec_compress_valid hi hv, hdelivered.released, ?_, hdelivered.enc, fun hstop => ?_, fun hform => ?_⟩
  · rw [endOp_compressBody_srcLen hx, ofNat_length hl]
  · exact hdelivered.status.trans (emissionStatus_changed _ hstop)
  · obtain rfl := hheader (hform.2.2 hv)
    exact ⟨fun hall => hdelivered.status.trans (emissionStatus_coded _ hall), hdelivered.dst, hdelivered.counted⟩

end Sys2Proof.Machine
end

section
/-! `DECOMPRESS` (43_decoder.md R210 to R218): its frame, and what it leaves behind both opens. -/

namespace Sys2Proof.Machine

/-! The frame (R210, R211). -/

theorem brOpen_decompressKept (s : State) :
    (brOpen s).state.enc = s.enc ∧ (brOpen s).state.scan = s.scan ∧ (brOpen s).state.status = s.status := by
  unfold brOpen
  split
  · exact ⟨rfl, rfl, rfl⟩
  · unfold srcOpen
    cases s.env.src <;> exact ⟨rfl, rfl, rfl⟩

theorem decompressBody_kept (s : State) :
    (decompressBody s).state.enc = s.enc ∧ (decompressBody s).state.scan = s.scan ∧
      (decompressBody s).state.status = s.status := by
  obtain ⟨-, -, hstatus, henc, hscan⟩ := decompressBody_keeps s
  obtain ⟨henc', hscan', hstatus'⟩ := brOpen_decompressKept s
  exact ⟨henc.trans henc', hscan.trans hscan', hstatus.trans hstatus'⟩

/-- What `DECOMPRESS` keeps in every state: the encoder side, `ENC_VALID` and the scan buffer. -/
theorem exec_decompress_kept {s t : State} (h : exec .decompress s = .next t) :
    t.enc = s.enc ∧ t.scan = s.scan ∧ t.status.encValid = s.status.encValid := by
  obtain ⟨henc, hscan, hstatus⟩ := decompressBody_kept s
  rcases exec_decompress_cases h with ⟨-, rfl⟩ | rfl
  · exact ⟨(endOp_enc ..).trans henc, (endOp_scan ..).trans hscan,
      (endOp_encValid ..).trans (congrArg Status.encValid hstatus)⟩
  · exact ⟨rfl, rfl, rfl⟩

theorem exec_decompress_next (s : State) : ∃ t, exec .decompress s = .next t := by
  obtain ⟨site, r, hexec, -⟩ := exec_ends .decompress s (by decide)
  exact ⟨_, hexec⟩

/-- Settles O46: the body keeps the encoder side and the scan buffer, and the clean-up and the report keep them too. -/
theorem decompressFrame : Obligations.DecompressFrame := by
  intro s
  obtain ⟨t, h⟩ := exec_decompress_next s
  have hframe := exec_commandFrame h
  obtain ⟨henc, hscan, hvalid⟩ := exec_decompress_kept h
  refine ⟨t, h, hvalid, srcByte_of_src hframe.src, ?_, fun x hi hx => ?_⟩
  · have heq := hframe.eq (exec_result (by decide) (by decide) (by decide) h)
    rw [henc, hscan] at heq
    exact heq
  · rw [exec_decompress_idle hi] at h
    cases h
    exact endOp_decompressBody_srcLen hi.2 hx

/-! Behind both opens. -/

/-- The errors `DECOMPRESS` can end with once both opens have succeeded (R211). -/
def decompressErrors : List Raise :=
  [⟨.sourceErr, .hdrTrunc⟩, ⟨.sourceErr, .hdrTooLarge⟩, ⟨.sourceErr, .hdrRootLeaf⟩, ⟨.decodeFault, .payloadTrunc⟩,
    ⟨.dstErr, .dstWriteFail⟩]

section
variable {s : State} {c : List Byte} (hp : s.params.wf) (hi : s.idle) (hx : s.env.src = some c)
  (hl : c.length ≤ Config.lenMax) (hc : s.env.dstCreatable = true)
include hp hi hx hl hc

/-- A well-formed container, none of whose output bursts is refused (R218 (a)). -/
theorem exec_decompress_decodes {tree : CodeTree} {pad : BitVec 3} {out : List Byte} (hs : SpellsBy c tree pad out)
    (ha : AcceptsBytes s out) :
    ∃ t, exec .decompress s = .next t ∧ t.env.dst = out ∧ t.status = statusOk s ∧ TreeRead t.dec tree pad ∧
      t.br.remaining.toNat = pad.toNat ∧ t.regs.dstLen = BitVec.ofNat 32 out.length ∧ Released t := by
  rcases decompressBody_spells hp hi hx hl hc hs with
    ⟨u, hbody, hdst, htree, hleft, hreleased, hleaves, hcounted, -⟩ | ⟨u, -, -, hleaves, -, hrefused⟩
  · exact ⟨endOk u, by rw [exec_decompress_idle hi, hbody, endOp_done], hdst, statusOk_congr hleaves.status, htree, hleft,
      hcounted, ⟨hreleased.writer, hreleased.reader, hreleased.source, hreleased.sink⟩⟩
  · exact absurd ha (hrefused.not_acceptsBytes hleaves.params)

/-- A well-formed container, one of whose output bursts is refused (20_memory.md R66; 60_exceptions.md R255). -/
theorem exec_decompress_stops {tree : CodeTree} {pad : BitVec 3} {out : List Byte} {i : Nat}
    (hs : SpellsBy c tree pad out) (hr : RefusesBurst s i) (hlt : i * s.params.bufBytes < out.length) :
    ∃ t, exec .decompress s = .next t ∧ StoppedAtBurst s i out t ∧ TreeRead t.dec tree pad := by
  rcases decompressBody_spells hp hi hx hl hc hs with
    ⟨u, -, -, -, -, -, -, -, haccepted⟩ | ⟨u, hbody, hreleases, hleaves, htree, hrefused⟩
  · exact absurd (haccepted i hr) (Nat.not_le.mpr hlt)
  · obtain ⟨-, -, -, hdec, -⟩ := takeError_composite ⟨.dstErr, .dstWriteFail⟩ hreleases
    exact ⟨_, by rw [exec_decompress_idle hi, hbody, endOp_raised],
      takeError_stopped hrefused hleaves.params hleaves.status hreleases hr, hdec ▸ htree⟩

/-- Behind a good header, a container that is not well formed (R216). -/
theorem exec_decompress_runsOut {tree : CodeTree} {pad : BitVec 3} {rest : Bits}
    (hu : unpack c = tree.header ++ msb pad 3 ++ rest) (ht : tree.internal = true) (hn : tree.size ≤ Config.nodeMax)
    (hno : ∀ out, ¬ SpellsOut c out) (ha : AcceptsBursts s) :
    ∃ t, exec .decompress s = .next t ∧ t.status = statusErr .decodeFault .payloadTrunc s ∧ t.br.remaining = 0 ∧
      TreeRead t.dec tree pad ∧ Released t := by
  rcases decompressBody_runsOut hp hi hx hl hc hu ht hn hno with
    ⟨u, hbody, hleft, htree, hopen, hleaves⟩ | ⟨u, -, hna, -⟩
  · obtain ⟨hreleased, -, -, hdec, hremaining⟩ := takeError_composite ⟨.decodeFault, .payloadTrunc⟩ (.inl hopen)
    exact ⟨_, by rw [exec_decompress_idle hi, hbody, endOp_raised], takeError_status _ _ hleaves.status,
      hremaining.trans hleft, hdec ▸ htree, hreleased⟩
  · exact absurd ha hna

/-- The ways the body ends behind both opens: on a well-formed container with what it spells in DST, or with one of the errors
R211 lists. -/
theorem decompressBody_ends :
    (∃ u, decompressBody s = .done () u ∧ SpellsOut c u.env.dst) ∨
    (∃ e u, decompressBody s = .raised e u ∧ e ∈ decompressErrors) := by
  rcases decompressBody_header hp hi hx hl hc with ⟨tree, pad, rest, hu, ht, hn, -⟩ | ⟨k, u, hbody, -, -, -, hk⟩
  · by_cases hspells : ∃ out, SpellsOut c out
    · obtain ⟨out, tree, pad, hs⟩ := hspells
      rcases decompressBody_spells hp hi hx hl hc hs with ⟨u, hbody, hdst, -⟩ | ⟨u, hbody, -⟩
      · exact .inl ⟨u, hbody, hdst ▸ ⟨tree, pad, hs⟩⟩
      · exact .inr ⟨_, u, hbody, by decide⟩
    · rcases decompressBody_runsOut hp hi hx hl hc hu ht hn (not_exists.mp hspells) with ⟨u, hbody, -⟩ | ⟨u, hbody, -⟩
      · exact .inr ⟨_, u, hbody, by decide⟩
      · exact .inr ⟨_, u, hbody, by decide⟩
  · rcases hk with (⟨rfl, -⟩ | ⟨rfl, -⟩) | ⟨rfl, -⟩ | ⟨rfl, -⟩
    all_goals exact .inr ⟨_, u, hbody, by decide⟩

/-- `DECOMPRESS` ends `OK` on well-formed containers only (R218 (b)). -/
theorem exec_decompress_status {t : State} (h : exec .decompress s = .next t) :
    (t.status = statusOk s ∧ SpellsOut c t.env.dst) ∨
      t.status ∈ decompressErrors.map fun e => statusErr e.code e.cause s := by
  have hstatus := (decompressBody_kept s).2.2
  rw [exec_decompress_idle hi] at h
  cases h
  rcases decompressBody_ends hp hi hx hl hc with ⟨u, hbody, hspells⟩ | ⟨e, u, hbody, he⟩ <;> rw [hbody] at hstatus ⊢
  · exact .inl ⟨statusOk_congr hstatus, hspells⟩
  · exact .inr (List.mem_map.mpr ⟨e, he, (takeError_status _ e hstatus).symm⟩)

end

/-- Settles O45: the header decides which tree is stored, the payload whether its bits run out, and the answers of the bursts
whether the symbols reach DST. -/
theorem decompressDecodes : Obligations.DecompressDecodes := by
  intro s c hp hi hx hl hc
  refine ⟨fun tree pad out => exec_decompress_decodes hp hi hx hl hc,
    fun tree pad out i => exec_decompress_stops hp hi hx hl hc,
    fun tree pad rest => exec_decompress_runsOut hp hi hx hl hc,
    fun t h => ⟨?_, exec_decompress_status hp hi hx hl hc h⟩⟩
  rw [exec_decompress_idle hi] at h
  cases h
  rw [endOp_decompressBody_srcLen hi.2 hx, ofNat_length hl]

end Sys2Proof.Machine
end

section
/-! The command words (30_encoding.md R90 to R93): which fields a word needs to be a command, and which rejection it gets
otherwise. -/

namespace Sys2Proof

/-! The opcode map (R92). -/

theorem instrOfOpcode_opcodeOf (i : Instr) : instrOfOpcode (opcodeOf i) (countOperand i) = some i := by
  cases i <;> rfl

/-- An opcode is that of one command, and the count field only goes into `BW.WBITS`. -/
theorem instrOfOpcode_some {opc : BitVec 8} {n : BitVec 6} {i : Instr} (h : instrOfOpcode opc n = some i) :
    opc = opcodeOf i ∧ ∀ m, i = .bwWbits m → m = n := by
  unfold instrOfOpcode at h
  split at h <;> cases h
  all_goals
    rename_i hopc
    exact ⟨BitVec.eq_of_toNat_eq hopc, fun m hm => by cases hm <;> rfl⟩

theorem exists_instrOfOpcode_iff {opc : BitVec 8} (n : BitVec 6) :
    (∃ i, instrOfOpcode opc n = some i) ↔
      opc ∈ [0x00, 0x01, 0x10, 0x11, 0x12, 0x20, 0x21, 0x22, 0x23, 0x30, 0x31, 0x32, 0x33] := by
  constructor
  · rintro ⟨i, hi⟩
    obtain ⟨rfl, -⟩ := instrOfOpcode_some hi
    cases i <;> simp [opcodeOf]
  · intro h
    fin_cases h <;> exact ⟨_, rfl⟩

/-- The operand checks of R93 step 2 on the fields of the word: `N` is at most 32 in `BW.WBITS` and 0 elsewhere. -/
theorem operandsFit_iff {opc : BitVec 8} {n : BitVec 6} {i : Instr} (h : instrOfOpcode opc n = some i) :
    (n = countOperand i ∧ i.wf = true) ↔ (opc ≠ 0x21 → n = 0) ∧ (opc = 0x21 → n.toNat ≤ 32) := by
  obtain ⟨rfl, hcount⟩ := instrOfOpcode_some h
  cases i with
  | bwWbits m =>
    obtain rfl := hcount m rfl
    simp [opcodeOf, countOperand, Instr.wf]
  | _ => simp [opcodeOf, countOperand, Instr.wf]

/-! The three answers of the decoder (R93). -/

theorem decode_unknown {w : Word} (h : instrOfOpcode (opcField w) (nField w) = none) : decode w = .illegalCmd := by
  unfold decode
  rw [h]

theorem decode_known {w : Word} {i : Instr} (h : instrOfOpcode (opcField w) (nField w) = some i) :
    decode w = if rsvField w = 0 ∧ nField w = countOperand i ∧ i.wf = true then .command i else .illegalOperand := by
  unfold decode
  rw [h]

theorem decode_eq_command_iff {w : Word} {i : Instr} :
    decode w = .command i ↔ instrOfOpcode (opcField w) (nField w) = some i ∧
      rsvField w = 0 ∧ nField w = countOperand i ∧ i.wf = true := by
  cases h : instrOfOpcode (opcField w) (nField w) with
  | none => simp [decode_unknown h]
  | some j =>
    rw [decode_known h]
    constructor
    · intro hd
      split at hd
      case isTrue hfit => cases hd; exact ⟨rfl, hfit⟩
      case isFalse => cases hd
    · rintro ⟨⟨⟩, hfit⟩
      exact if_pos hfit

theorem decode_eq_illegalCmd_iff {w : Word} :
    decode w = .illegalCmd ↔ instrOfOpcode (opcField w) (nField w) = none := by
  cases h : instrOfOpcode (opcField w) (nField w) with
  | none => simp [decode_unknown h]
  | some j => rw [decode_known h]; split <;> simp

theorem decode_eq_illegalOperand_iff {w : Word} :
    decode w = .illegalOperand ↔ ∃ i, instrOfOpcode (opcField w) (nField w) = some i ∧
      ¬ (rsvField w = 0 ∧ nField w = countOperand i ∧ i.wf = true) := by
  cases h : instrOfOpcode (opcField w) (nField w) with
  | none => simp [decode_unknown h]
  | some j => simp [decode_known h]

/-! Encoding and decoding. -/

theorem encode_fields (i : Instr) : Laws.EncodedFields.Statement i := fields_of_word ..

/-- Settles O1: the fields of a command word are those the command was encoded from, and they pass the checks. -/
theorem decodeOfEncode : Obligations.DecodeOfEncode := by
  intro i hwf
  obtain ⟨hopc, hn, hrsv⟩ := encode_fields i
  rw [decode_eq_command_iff, hopc, hn]
  exact ⟨instrOfOpcode_opcodeOf i, hrsv, rfl, hwf⟩

/-- Settles O2: the checks fix all three fields, and a word is put together from its fields. -/
theorem encodeOfDecode : Obligations.EncodeOfDecode := by
  intro w i h
  obtain ⟨hi, hrsv, hn, hwf⟩ := decode_eq_command_iff.mp h
  obtain ⟨hopc, -⟩ := instrOfOpcode_some hi
  refine ⟨hwf, ?_⟩
  calc encode i = rsvField w ++ nField w ++ opcField w := by rw [hrsv, hn, hopc]; rfl
    _ = w := word_of_fields w

/-- Settles O3: the opcode decides about `ILLEGAL_CMD`; with a known opcode the word is rejected when an operand check fails. -/
theorem illegalWordsByName : Obligations.IllegalWordsByName := by
  intro w opcodes
  have hknown := exists_instrOfOpcode_iff (opc := opcField w) (nField w)
  constructor
  · rw [decode_eq_illegalCmd_iff, Option.eq_none_iff_forall_ne_some, ← not_exists]
    exact not_congr hknown
  · rw [decode_eq_illegalOperand_iff, ← hknown, ← exists_and_right]
    refine exists_congr fun i => and_congr_right fun hi => ?_
    rw [operandsFit_iff hi, ← Nat.not_lt]
    tauto

/-- Settles O4: the decoder run on the five words. -/
theorem tableWordsDecode : Obligations.TableWordsDecode := by
  unfold Obligations.TableWordsDecode
  decide

end Sys2Proof
end

section
/-! The status a step leaves (30_encoding.md R94, R95; 44_system.md R233; 60_exceptions.md R265): every operation reports a cause
with a status it occurs with, and every other action of the host leaves the status alone or resets it. -/

namespace Sys2Proof.Machine

theorem takeError_statusForm (site : Site) {e : Raise} (h : e.code ∈ causeStatuses e.cause) (s : State) :
    StatusForm (takeError site e s) :=
  endOp_statusForm site (.raised e s) (.raised h)

theorem endOk_statusForm (s : State) : StatusForm (endOk s) :=
  endOp_statusForm .decode (.done () s) (.done () s)

theorem hardReset_statusForm (s : State) : StatusForm (hardReset s) :=
  ⟨rfl, .head _, fun h => absurd rfl h⟩

theorem bind_writeResult_raisesFit {α : Type} {r : Result α} (h : RaisesFit r) (f : α → Word) :
    RaisesFit (r.bind fun a s => .done () (writeResult (f a) s)) :=
  h.bind fun _ _ => .done _ _

theorem exec_statusForm {i : Instr} {s t : State} (h : exec i s = .next t) : StatusForm t := by
  cases i with
  | nop => cases h; exact endOk_statusForm _
  | clear => cases h; exact endOk_statusForm _
  | encode =>
    rcases exec_encode_cases h with ⟨-, rfl⟩ | rfl
    · exact endOp_statusForm _ _ (encodeBody_raisesFit s)
    · exact takeError_statusForm _ (by decide) s
  | compress =>
    rcases exec_compress_cases h with ⟨-, rfl⟩ | rfl
    · exact endOp_statusForm _ _ (compressBody_raisesFit s)
    · exact takeError_statusForm _ (by decide) s
  | decompress =>
    rcases exec_decompress_cases h with ⟨-, rfl⟩ | rfl
    · exact endOp_statusForm _ _ (decompressBody_raisesFit s)
    · exact takeError_statusForm _ (by decide) s
  | bwOpen => cases h; exact endOp_statusForm _ _ (bwOpen_raisesFit s)
  | bwWbits n => cases h; exact endOp_statusForm _ _ (bwWbits_raisesFit _ _ s)
  | bwWbyte => cases h; exact endOp_statusForm _ _ (bwWbyte_raisesFit _ s)
  | bwClose => cases h; exact endOp_statusForm _ _ (bwClose_raisesFit s)
  | brOpen => cases h; exact endOp_statusForm _ _ (brOpen_raisesFit s)
  | brRbit => cases h; exact endOp_statusForm _ _ (bind_writeResult_raisesFit (brRbit_raisesFit s) _)
  | brRbyte8 => cases h; exact endOp_statusForm _ _ (bind_writeResult_raisesFit (brRbyte8_raisesFit s) _)
  | brClose => cases h; exact endOp_statusForm _ _ (brClose_raisesFit s)

theorem issueCommand_statusForm {w : Word} {s t : State} (h : issueCommand w s = .next t) : StatusForm t := by
  rcases issueCommand_cases h with ⟨i, -, hexec⟩ | ⟨e, rfl, hcause, -⟩
  · exact exec_statusForm hexec
  · exact takeError_statusForm _ (by simp [hcause]) _

theorem writeReg_status (s : State) (v : Word) (r : Reg) : (writeReg s v r).status = s.status := by
  cases r <;> rfl

/-- An action of the host leaves the status alone, or ends an operation or a reset. -/
theorem actOn_status {a : HostAction} {s t : State} (h : actOn a s = .next t) :
    t.status = s.status ∨ StatusForm t := by
  cases a with
  | write addr bytes value =>
    simp only [actOn] at h
    split at h
    · cases h
    · split at h
      · exact .inr (issueCommand_statusForm h)
      · cases h
        exact .inl (writeReg_status s value _)
  | read addr bytes =>
    simp only [actOn] at h
    split at h <;> cases h
    exact .inl rfl
  | setSrc src =>
    simp only [actOn] at h
    split at h <;> cases h
    exact .inl rfl
  | setDst content => cases h; exact .inl rfl
  | setVerdicts creatable verdicts => cases h; exact .inl rfl
  | reset => cases h; exact .inr (hardReset_statusForm s)
  | issueThenReset w =>
    simp only [actOn, issueStruck] at h
    split at h <;> cases h
    exact .inr (hardReset_statusForm _)

/-- Settles O57: what a step does not report or reset it leaves as it was. -/
theorem stepKeepsStatusForm : Obligations.StepKeepsStatusForm := by
  intro s t hs h
  rcases step_cases h with ⟨-, rfl⟩ | ⟨a, rest, -, hact, -⟩
  · exact hs
  · rcases actOn_status hact with heq | hform
    · unfold StatusForm
      rw [heq]
      exact hs
    · exact hform

/-! A word that is no command (30_encoding.md R93). -/

theorem issueCommand_illegalCmd {w : Word} (s : State) (h : decode w = .illegalCmd) :
    issueCommand w s = .next { s with status := statusErr .usageFault .illegalCmd s } := by
  unfold issueCommand
  rw [h]
  rfl

theorem issueCommand_illegalOperand {w : Word} (s : State) (h : decode w = .illegalOperand) :
    issueCommand w s = .next { s with status := statusErr .usageFault .illegalOperand s } := by
  unfold issueCommand
  rw [h]
  rfl

/-- Settles O6: the write of `CMD` issues the word, and its decoding takes the usage fault. -/
theorem stepEndsIllegalWord : Obligations.StepEndsIllegalWord := by
  intro s rest w hb hh
  have hstep : step s = issueCommand w (s.setHost rest) :=
    (step_acts hb hh).trans (actOn_command (s.setHost rest) w)
  exact ⟨fun hd => hstep.trans (issueCommand_illegalCmd _ hd), fun hd => hstep.trans (issueCommand_illegalOperand _ hd)⟩

end Sys2Proof.Machine
end

section
/-! The operands of `BW.WBITS` (30_encoding.md R91, R93; 40_bitwriter.md R132): the limits of the count, and the part of `ARG` it
uses. -/

namespace Sys2Proof.Machine

theorem bwWbits_tooMany (value : Word) {n : Nat} (s : State) (h : Config.codeMax < n) :
    bwWbits value n s = .raised ⟨.usageFault, .illegalOperand⟩ s :=
  if_pos h

theorem exec_bwWbits {n : BitVec 6} {s : State} {r : Result Unit} (h : bwWbits s.regs.arg n.toNat s = r) :
    exec (.bwWbits n) s = .next (endOp .writer r) := by
  rw [← h]
  rfl

/-- Settles O20: the count is checked before anything else, and the loop over no bits is done at once. -/
theorem bwWbitsCountLimits : Obligations.BwWbitsCountLimits := by
  intro s n
  constructor
  · intro hn
    exact exec_bwWbits (bwWbits_tooMany _ s hn)
  · rintro rfl ho
    exact exec_bwWbits (bwWbits_open (Nat.zero_le _) ho)

/-! What `ARG` holds does not matter to the writer: its operations take their value as an argument. -/

/-- The state with another value in `ARG`. -/
def withArg (v : Word) (s : State) : State := { s with regs := { s.regs with arg := v } }

@[simp] theorem withArg_bw (v : Word) (s : State) : (withArg v s).bw = s.bw := rfl

/-- A result seen with another value in `ARG`. -/
def Result.withArg (v : Word) : Result Unit → Result Unit
  | .done a t => .done a (Machine.withArg v t)
  | .raised e t => .raised e (Machine.withArg v t)

theorem Result.bind_withArg {v : Word} {r : Result Unit} {f : Unit → State → Result Unit}
    (h : ∀ a t, f a (Machine.withArg v t) = (f a t).withArg v) : (r.withArg v).bind f = (r.bind f).withArg v := by
  cases r with
  | done a t => exact h a t
  | raised e t => rfl

theorem bwPutByte_withArg (v : Word) (b : Byte) (s : State) :
    bwPutByte b (withArg v s) = (bwPutByte b s).withArg v := by
  by_cases h : s.bw.buf.length + 1 = s.params.bufBytes
  · have hfull : (s.bw.buf ++ [b]).length = s.params.bufBytes := by rwa [List.length_append]
    cases hverdict : s.env.verdicts.headD true <;>
      simp only [bwPutByte, dstWrite, withArg, State.setBw, hfull, hverdict, reduceIte] <;> rfl
  · rw [bwPutByte_room b h, bwPutByte_room (s := withArg v s) b h]
    rfl

theorem bwPutBit_withArg (v : Word) (b : Bool) (s : State) :
    bwPutBit b (withArg v s) = (bwPutBit b s).withArg v := by
  unfold bwPutBit
  dsimp only
  rw [withArg_bw]
  split
  · refine Eq.trans ?_ (Result.bind_withArg fun a t => rfl)
    rw [← bwPutByte_withArg]
    rfl
  · rfl

theorem bwPutBits_withArg (v : Word) (b : Bits) (s : State) :
    bwPutBits b (withArg v s) = (bwPutBits b s).withArg v := by
  induction b generalizing s with
  | nil => rfl
  | cons c b ih =>
    rw [bwPutBits, bwPutBit_withArg]
    exact Result.bind_withArg fun _ t => ih t

theorem bwWbits_withArg (v value : Word) (n : Nat) (s : State) :
    bwWbits value n (withArg v s) = (bwWbits value n s).withArg v := by
  unfold bwWbits
  rw [bwPutBits_withArg, withArg_bw]
  split
  · rfl
  · split <;> rfl

theorem endOp_writer_withArg (v : Word) (r : Result Unit) :
    endOp .writer (r.withArg v) = withArg v (endOp .writer r) := by
  cases r with
  | done a t => rfl
  | raised e t =>
    simp only [Result.withArg, endOp_raised, takeError, cleanUp]
    split <;> rfl

theorem bwWbits_congr {v v' : Word} {n : Nat} (s : State) (h : ∀ k < n, v.getLsbD k = v'.getLsbD k) :
    bwWbits v n s = bwWbits v' n s := by
  unfold bwWbits
  rw [msb_congr h]

/-- `BW.WBITS` with `v` in `ARG` writes the bits of `v` as it would with anything in `ARG`. -/
theorem exec_bwWbits_withArg (n : BitVec 6) (v : Word) (s : State) :
    exec (.bwWbits n) (withArg v s) = .next (withArg v (endOp .writer (bwWbits v n.toNat s))) := by
  rw [← endOp_writer_withArg]
  exact exec_bwWbits (bwWbits_withArg v v n.toNat s)

/-- Settles O19: both runs write the same bits, and neither looks at `ARG` again. -/
theorem bwWbitsIgnoresHighBits : Obligations.BwWbitsIgnoresHighBits := by
  intro s n v v' h
  refine ⟨_, _, exec_bwWbits_withArg n v s, exec_bwWbits_withArg n v' s, ?_⟩
  rw [bwWbits_congr s h]
  rfl

end Sys2Proof.Machine
end

section
/-! The padding length and the container (30_encoding.md R101 to R104; 42_encoder.md R181; 43_decoder.md R218). -/

namespace Sys2Proof.Machine

/-- `P8` is the sum over the table modulo 8 (R181). -/
theorem payloadBits8_eq_sum (e : Encoder) :
    payloadBits8 e = (e.sym.toList.map fun r => r.count.toNat * r.len.toNat).sum % 8 := by
  rw [payloadBits8_eq, sym_toList, List.map_map]
  rfl

/-- Settles O42: `P8` stands for the payload length modulo 8. -/
theorem padLengthAligns : Obligations.PadLengthAligns := by
  intro e
  have hpad : padLength e = (8 - (e.hdrBits.toNat + 3 + payloadBits8 e) % 8) % 8 := rfl
  have hpayload := payloadBits8_eq_sum e
  exact ⟨by omega, padLength_lt e⟩

/-- Settles O47: the container is made of the parts a well-formed container has. -/
theorem containerSpellsSource : Obligations.ContainerSpellsSource :=
  fun _ _ _ hd ht => ⟨_, container_spellsBy hd ht⟩

end Sys2Proof.Machine
end

section
/-! The writer on an accepting environment (40_bitwriter.md R130, R132, R134; 20_memory.md R66): `BW.WBITS` appends to the bit
string written so far, and `BW.CLOSE` leaves all of it in DST, padded to whole bytes. -/

namespace Sys2Proof.Machine

/-- The report `OK` after an accepted writer operation, as the update of its own parts. -/
theorem SinkStep.endOk_eq {s t : State} (h : SinkStep s t) :
    endOk t = { s with
          bw := t.bw
          regs := { s.regs with dstLen := t.regs.dstLen }
          env := { s.env with dst := t.env.dst, verdicts := t.env.verdicts }
          status := statusOk s } := by
  have heq := h.frame.setStatus_eq (statusOk s)
  rw [h.held, h.freeCount] at heq
  rw [← heq, ← statusOk_congr h.frame.status]
  rfl

/-- Settles O17: the loop of R132 appends the bits while every burst is accepted, and the report touches the status only. -/
theorem bwWbitsAppends : Obligations.BwWbitsAppends := by
  intro s n hn hform ho haccepts
  obtain ⟨t, hrun, hstep, hwritten, htform, htopen⟩ := bwWbits_appends s.regs.arg hn hform ho haccepts
  exact ⟨endOk t, exec_bwWbits hrun, hwritten, htform, htopen, hstep.grows, hstep.counted, hstep.endOk_eq⟩

/-- What is in DST after an accepted flush: the bit string written so far, padded with zeros to whole bytes (R134). -/
theorem unpack_dst_flushBytes {s : State} (hf : WriterForm s) :
    unpack (s.env.dst ++ flushBytes s.bw) = written s ++ zeros ((8 - (written s).length % 8) % 8) := by
  have hlength : (written s).length % 8 = (heldBits s.bw).length % 8 := by
    unfold written
    rw [List.length_append, unpack_length, Nat.mul_add_mod]
  rw [unpack_append, unpack_flushBytes hf, ← List.append_assoc, hlength]
  rfl

/-- Settles O23: the flush delivers what the writer holds, and the release closes and empties it. -/
theorem bwClosePacks : Obligations.BwClosePacks := by
  intro s hform ho haccepts
  rcases bwFlush_outcome s with ⟨-, hrefused, -⟩ | ⟨-, hok, hstep, hdst⟩
  · exact absurd hrefused haccepts.head
  · refine ⟨_, exec_bwClose_open ho, ?_, hstep.grows, hstep.counted, ?_⟩
    · exact (congrArg unpack hdst).trans (unpack_dst_flushBytes hform)
    · have heq := (hstep.frame.trans (bwRelease_sinkFrame _)).setStatus_eq (statusOk s)
      have hfree : (bwRelease (bwFlush s).2).freeCount = s.freeCount := hstep.freeCount
      rw [hfree] at heq
      rw [if_pos hok]
      exact heq

end Sys2Proof.Machine
end

section
/-! `BW.OPEN` and `BW.WBYTE` case by case (40_bitwriter.md R131, R133, R135; 20_memory.md R65, R66; 60_exceptions.md R262 (b)). -/

namespace Sys2Proof.Machine

theorem bwOpen_alreadyOpen {s : State} (ho : s.bw.isOpen = true) : bwOpen s = .raised ⟨.usageFault, .seq⟩ s :=
  if_pos ho

theorem bwOpen_failing {s : State} (ho : s.bw.isOpen = false) (hc : s.env.dstCreatable = false) :
    bwOpen s = .raised ⟨.dstErr, .dstOpenFail⟩ s := by
  unfold bwOpen
  rw [ho, dstOpen_failing hc]
  rfl

theorem bwOpen_creatable {s : State} (ho : s.bw.isOpen = false) (hc : s.env.dstCreatable = true) :
    bwOpen s = .done () { s with
      bw := { isOpen := true, buf := [], cur := 0, free := 8 }
      regs := { s.regs with dstLen := 0 }
      env := { s.env with dst := [], dstHeld := true } } := by
  unfold bwOpen
  rw [ho, dstOpen_creatable hc]
  rfl

theorem exec_bwOpen {s : State} {r : Result Unit} (h : bwOpen s = r) : exec .bwOpen s = .next (endOp .writer r) := by
  rw [← h]
  rfl

/-- Settles O16: the check, then the two answers of `DstOpen`, of which the failure releases the writer. -/
theorem bwOpenAcquiresSink : Obligations.BwOpenAcquiresSink :=
  ⟨by decide, fun _ => ⟨fun ho => exec_bwOpen (bwOpen_alreadyOpen ho), fun ho hc => exec_bwOpen (bwOpen_failing ho hc),
    fun ho hc => exec_bwOpen (bwOpen_creatable ho hc)⟩⟩

theorem bwWbyte_closed (b : Byte) {s : State} (ho : s.bw.isOpen = false) :
    bwWbyte b s = .raised ⟨.usageFault, .seq⟩ s := by
  unfold bwWbyte
  rw [ho]
  rfl

theorem bwWbyte_unaligned (b : Byte) {s : State} (ho : s.bw.isOpen = true) (hf : s.bw.free ≠ 8) :
    bwWbyte b s = .raised ⟨.usageFault, .bwUnaligned⟩ s := by
  unfold bwWbyte
  rw [if_pos ho, if_neg hf]

theorem bwWbyte_aligned (b : Byte) {s : State} (ho : s.bw.isOpen = true) (hf : s.bw.free = 8) :
    bwWbyte b s = bwPutByte b s := by
  unfold bwWbyte
  rw [if_pos ho, if_pos hf]

theorem exec_bwWbyte {s : State} {r : Result Unit} (h : bwWbyte (byteOperand s) s = r) :
    exec .bwWbyte s = .next (endOp .writer r) := by
  rw [← h]
  rfl

/-- Settles O21: the two checks, then the ends of `bw_putbyte`, of which the refused burst releases the writer. -/
theorem bwWbytePutsByte : Obligations.BwWbytePutsByte := by
  intro s full
  refine ⟨fun ho => exec_bwWbyte (bwWbyte_closed _ ho), fun ho hf => exec_bwWbyte (bwWbyte_unaligned _ ho hf),
    fun ho hf hroom => ?_, fun ho hf hfull haccepted => ?_, fun ho hf hfull hrefused => ?_⟩
  all_goals have hput := bwWbyte_aligned (byteOperand s) ho hf
  · rw [List.length_append] at hroom
    exact exec_bwWbyte (hput.trans (bwPutByte_room _ hroom))
  · rw [List.length_append] at hfull
    exact exec_bwWbyte (hput.trans (bwPutByte_flushed _ hfull haccepted))
  · rw [List.length_append] at hfull
    obtain ⟨p, hp, hrun⟩ := bwPutByte_refused (byteOperand s) hfull hrefused
    exact ⟨_, p, exec_bwWbyte (hput.trans hrun), hp, rfl⟩

end Sys2Proof.Machine
end

section
/-! `BW.WBYTE` and `BW.WBITS` with eight bits on an aligned writer (40_bitwriter.md R132, R133, R135): the loop of R132 builds the
byte in `BW.cur` and hands it to `bw_putbyte`, which looks neither at `BW.cur` nor at `BW.free`. -/

namespace Sys2Proof.Machine

/-! The partial byte. -/

/-- The state with another partial byte: `x` in `BW.cur`, `f` of its bits free. -/
def withPartial (x : Byte) (f : BitVec 4) (s : State) : State := s.setBw { s.bw with cur := x, free := f }

/-- A result seen through a change of the state it leaves. -/
def Result.mapState (g : State → State) : Result Unit → Result Unit
  | .done a t => .done a (g t)
  | .raised e t => .raised e (g t)

theorem bwPutByte_withPartial (x : Byte) (f : BitVec 4) (b : Byte) (s : State) :
    bwPutByte b (withPartial x f s) = (bwPutByte b s).mapState (withPartial x f) := by
  by_cases h : s.bw.buf.length + 1 = s.params.bufBytes
  · have hfull : (s.bw.buf ++ [b]).length = s.params.bufBytes := by rwa [List.length_append]
    cases hverdict : s.env.verdicts.headD true <;>
      simp only [bwPutByte, dstWrite, withPartial, State.setBw, hfull, hverdict, reduceIte] <;> rfl
  · rw [bwPutByte_room b h, bwPutByte_room (s := withPartial x f s) b h]
    rfl

/-- An aligned writer of its form holds no bit in `BW.cur` (10_state.md R32). -/
theorem withPartial_aligned {s : State} (hform : WriterForm s) (hf : s.bw.free = 8) : withPartial 0 8 s = s := by
  obtain ⟨-, -, -, hzero, -⟩ := hform
  have hcur : s.bw.cur = 0 := by
    refine BitVec.eq_of_getLsbD_eq fun k hk => ?_
    rw [hzero k (by rw [hf]; exact hk)]
    exact BitVec.getLsbD_zero.symm
  unfold withPartial
  rw [← hcur, ← hf]
  rfl

/-! The loop of R132 up to the end of a byte. -/

theorem bwPutBit_within {v : Bool} {s : State} (h : s.bw.free - 1 ≠ 0) :
    bwPutBit v s = .done () (withPartial (putBit s.bw.cur (s.bw.free - 1).toNat v) (s.bw.free - 1) s) :=
  if_neg h

theorem bwPutBit_last {v : Bool} {s : State} (h : s.bw.free - 1 = 0) :
    bwPutBit v s = (bwPutByte (putBit s.bw.cur 0 v) (withPartial (putBit s.bw.cur 0 v) 0 s)).bind
      fun _ t => .done () (withPartial 0 8 t) := by
  unfold bwPutBit
  rw [h]
  rfl

/-- As many bits as are free complete the byte: it is handed to `bw_putbyte`, and the next one is begun. -/
theorem bwPutBits_completes (b : Bits) {s : State} (h1 : 1 ≤ s.bw.free.toNat) (h8 : s.bw.free.toNat ≤ 8)
    (hb : b.length = s.bw.free.toNat) :
    ∃ y, bwPutBits b s = (bwPutByte y (withPartial y 0 s)).bind (fun _ t => .done () (withPartial 0 8 t)) ∧
      msb y 8 = (msb s.bw.cur 8).take (8 - s.bw.free.toNat) ++ b := by
  induction b generalizing s with
  | nil => exact absurd hb (Nat.ne_of_lt h1)
  | cons v b ih =>
    rw [List.length_cons] at hb
    have hfree : (s.bw.free - 1).toNat + 1 = s.bw.free.toNat := by bv_omega
    have hbits := msb_putBit s.bw.cur (s.bw.free - 1).toNat v (by omega)
    rw [hfree] at hbits
    by_cases hlast : s.bw.free - 1 = 0
    · have hzero : (s.bw.free - 1).toNat = 0 := congrArg BitVec.toNat hlast
      obtain rfl : b = [] := List.eq_nil_of_length_eq_zero (by omega)
      refine ⟨putBit s.bw.cur 0 v, ?_, ?_⟩
      · rw [bwPutBits, bwPutBit_last hlast, Result.bind_assoc]
        rfl
      · rw [hzero, List.take_of_length_le (Nat.le_of_eq (msb_length _ _))] at hbits
        exact hbits
    · have hpos : (s.bw.free - 1).toNat ≠ 0 := fun h0 => hlast (BitVec.eq_of_toNat_eq h0)
      obtain ⟨y, hrun, hy⟩ := ih (s := withPartial (putBit s.bw.cur (s.bw.free - 1).toNat v) (s.bw.free - 1) s)
        (Nat.pos_of_ne_zero hpos) (show (s.bw.free - 1).toNat ≤ 8 by omega) (show _ = (s.bw.free - 1).toNat by omega)
      refine ⟨y, ?_, ?_⟩
      · rw [bwPutBits, bwPutBit_within hlast]
        exact hrun
      · calc msb y 8 = (msb (putBit s.bw.cur (s.bw.free - 1).toNat v) 8).take (8 - (s.bw.free - 1).toNat) ++ b := hy
          _ = (msb s.bw.cur 8).take (8 - s.bw.free.toNat) ++ v :: b := by rw [hbits, List.append_assoc]; rfl

/-- The bits of the byte operand are the low eight of `ARG` (30_encoding.md R91). -/
theorem msb_byteOperand (s : State) : msb (byteOperand s) 8 = msb s.regs.arg 8 :=
  msb_congr fun k hk => by simp [byteOperand, hk]

theorem msb_injective {b c : Byte} (h : msb b 8 = msb c 8) : b = c := by
  rw [← byte_of_msb b, h, byte_of_msb]

/-- On an aligned writer the loop over the low eight bits of `ARG` is `bw_putbyte` of the byte operand. -/
theorem bwPutBits_byteOperand {s : State} (hf : s.bw.free = 8) :
    bwPutBits (msb s.regs.arg 8) s = (bwPutByte (byteOperand s) (withPartial (byteOperand s) 0 s)).bind
      fun _ t => .done () (withPartial 0 8 t) := by
  have hfree : s.bw.free.toNat = 8 := congrArg BitVec.toNat hf
  obtain ⟨y, hrun, hy⟩ := bwPutBits_completes (msb s.regs.arg 8) (s := s) (by omega) (by omega)
    ((msb_length _ _).trans hfree.symm)
  rw [hfree, Nat.sub_self, List.take_zero, List.nil_append, ← msb_byteOperand] at hy
  rw [hrun, msb_injective hy]

/-- After the report the partial byte is empty: the loop begins a new one, or the clean-up of the refused burst empties it
(60_exceptions.md R262 (b)). -/
theorem endOp_bwPutByte_withPartial (x b : Byte) (f : BitVec 4) (s : State) :
    endOp .writer ((bwPutByte b (withPartial x f s)).bind fun _ t => .done () (withPartial 0 8 t)) =
      endOp .writer (bwPutByte b (withPartial 0 8 s)) := by
  rw [bwPutByte_withPartial, bwPutByte_withPartial]
  cases hr : bwPutByte b s with
  | done a t => rfl
  | raised e t => rw [bwPutByte_raises hr]; rfl

/-- Settles O22: both commands run `bw_putbyte` on the byte operand, and nothing remains of the partial byte in between. -/
theorem bwWbyteIsWbits8 : Obligations.BwWbyteIsWbits8 := by
  intro s hform ho hf
  have hbyte := exec_bwWbyte (bwWbyte_aligned (byteOperand s) ho hf)
  have hbits : exec (.bwWbits 8) s = _ :=
    exec_bwWbits ((bwWbits_open (by decide) ho).trans (bwPutBits_byteOperand hf))
  rw [hbyte, hbits, endOp_bwPutByte_withPartial, withPartial_aligned hform hf]

end Sys2Proof.Machine
end

section
/-! `BR.OPEN` and `BR.CLOSE` case by case, and the bit string the reader stands for once it is open (41_bitreader.md R150, R151,
R156; 20_memory.md R62, R64). -/

namespace Sys2Proof.Machine

/-! `BR.OPEN` (R151). -/

theorem brOpen_alreadyOpen {s : State} (ho : s.br.isOpen = true) : brOpen s = .raised ⟨.usageFault, .seq⟩ s :=
  if_pos ho

theorem brOpen_absent {s : State} (ho : s.br.isOpen = false) (hx : s.env.src = none) :
    brOpen s = .raised ⟨.fileOpenErr, .srcOpenFail⟩ s := by
  unfold brOpen
  rw [ho, srcOpen_absent hx]
  rfl

/-- The state in which `BR.OPEN` reports: the source `x` is held, the reader open and empty. -/
def readerOpened (s : State) (x : List Byte) : State :=
  { s with
    br := { isOpen := true, buf := [], pos := 0, bit := 0, off := 0, remaining := BitVec.ofNat 35 (8 * x.length) }
    regs := { s.regs with srcLen := BitVec.ofNat 32 x.length }
    env := { s.env with srcHeld := true } }

theorem brOpen_present {s : State} {x : List Byte} (ho : s.br.isOpen = false) (hx : s.env.src = some x)
    (hl : x.length ≤ Config.lenMax) : brOpen s = .done () (readerOpened s x) := by
  unfold brOpen readerOpened
  rw [ho, srcOpen_present hx, ← ofNat_length hl]
  simp only [State.setEnv_regs, State.setRegs_regs, BitVec.ofNat_toNat, BitVec.setWidth_eq]
  rfl

theorem exec_brOpen {s : State} {r : Result Unit} (h : brOpen s = r) : exec .brOpen s = .next (endOp .reader r) := by
  rw [← h]
  rfl

/-- Settles O25: the check, then the two answers of `SrcOpen`. -/
theorem brOpenAcquiresSource : Obligations.BrOpenAcquiresSource :=
  ⟨by decide, fun _ => ⟨fun ho => exec_brOpen (brOpen_alreadyOpen ho), fun ho hx => exec_brOpen (brOpen_absent ho hx),
    fun _ ho hx hl => exec_brOpen (brOpen_present ho hx hl)⟩⟩

/-- `8 * SRC_LEN` fits in the 35 bits of `BR.remaining` (R151). -/
theorem readerOpened_remaining (s : State) {x : List Byte} (hl : x.length ≤ Config.lenMax) :
    (readerOpened s x).br.remaining.toNat = 8 * x.length := by
  unfold Config.lenMax at hl
  show (BitVec.ofNat 35 (8 * x.length)).toNat = 8 * x.length
  rw [BitVec.toNat_ofNat]
  omega

theorem unread_readerOpened {s : State} {x : List Byte} (hx : s.env.src = some x) :
    unread (readerOpened s x) = unpack x := by
  show [].drop 0 ++ unpack ((s.env.src.getD []).drop 0) = unpack x
  rw [hx]
  rfl

theorem readerOpened_standsFor {s : State} {x : List Byte} (ho : s.br.isOpen = false) (hx : s.env.src = some x)
    (hl : x.length ≤ Config.lenMax) : ReaderStandsFor (readerOpened s x) x where
  opened := rfl
  source := hx
  short := hl
  length := ofNat_length hl
  form := by
    have hform := brOpen_keeps_form (closedReader_form ho)
    rw [brOpen_present ho hx hl] at hform
    exact hform
  cursor := by
    rw [readerOpened_remaining s hl, Nat.sub_self]
    exact unread_readerOpened hx

/-- The report does not concern what the reader stands for. -/
theorem ReaderStandsFor.reported {s : State} {x : List Byte} (h : ReaderStandsFor s x) : ReaderStandsFor (endOk s) x :=
  ⟨h.opened, h.source, h.short, h.length, h.form, h.cursor⟩

/-- Settles O26: nothing is buffered and nothing fetched, so what is not yet read is the whole source. -/
theorem brOpenStandsForSource : Obligations.BrOpenStandsForSource := by
  intro s x ho hx hl
  exact ⟨endOk (readerOpened s x), exec_brOpen (brOpen_present ho hx hl), (readerOpened_standsFor ho hx hl).reported,
    readerOpened_remaining s hl⟩

/-! `BR.CLOSE` (R156). -/

theorem brClose_open {s : State} (ho : s.br.isOpen = true) :
    brClose s = .done () (srcClose (s.setBr { s.br with isOpen := false })) :=
  if_pos ho

theorem brClose_closed {s : State} (ho : s.br.isOpen = false) : brClose s = .raised ⟨.usageFault, .seq⟩ s := by
  unfold brClose
  rw [ho]
  rfl

theorem exec_brClose {s : State} {r : Result Unit} (h : brClose s = r) : exec .brClose s = .next (endOp .reader r) := by
  rw [← h]
  rfl

/-- Settles O31: only whether the reader is open and the handle change. -/
theorem brCloseReleasesSource : Obligations.BrCloseReleasesSource :=
  ⟨by decide, fun _ => ⟨fun ho => exec_brClose (brClose_open ho), fun ho => exec_brClose (brClose_closed ho)⟩⟩

end Sys2Proof.Machine
end

section
/-! `BR.RBIT` and `BR.RBYTE8` as commands (41_bitreader.md R150, R152 to R154, R157): the frame in every state, the fault past
the last bit, and the bits they return from the bit string the reader stands for. -/

namespace Sys2Proof.Machine

theorem exec_brRbit {s : State} {r : Result Bool} (h : brRbit s = r) :
    exec .brRbit s = .next (endOp .reader (r.bind fun v t => .done () (writeResult (zextBit v) t))) := by
  rw [← h]
  rfl

theorem exec_brRbyte8 {s : State} {r : Result Byte} (h : brRbyte8 s = r) :
    exec .brRbyte8 s = .next (endOp .reader (r.bind fun b t => .done () (writeResult (zextByte b) t))) := by
  rw [← h]
  rfl

/-! The frame. -/

/-- What a command that reads leaves: another reader, as open as before, `RESULT`, the status, the count of free values. -/
structure ReadLeaves (s t : State) : Prop where
  isOpen : t.br.isOpen = s.br.isOpen
  eq : t = { s with
        br := t.br
        regs := { s.regs with result := t.regs.result }
        status := t.status
        freeCount := t.freeCount }

theorem ReaderFrame.exists_eq {s t : State} (h : ReaderFrame s t) : ∃ r n, t = (s.setBr r).setFreeCount n := by
  obtain ⟨hparams, hregs, hstatus, henc, hdec, hbw, hscan, henv, hhost, hbus⟩ := h
  refine ⟨t.br, t.freeCount, ?_⟩
  unfold State.setBr State.setFreeCount
  rw [← hparams, ← hregs, ← hstatus, ← henc, ← hdec, ← hbw, ← hscan, ← henv, ← hhost, ← hbus]

/-- A read, the write of `RESULT` and the report; an error of a reader operation has no clean-up (60_exceptions.md R262). -/
theorem endOp_read_leaves {α : Type} {s : State} {r : Result α} (f : α → Word) (h : ReaderFrame s r.state)
    (ho : r.state.br.isOpen = s.br.isOpen) :
    ReadLeaves s (endOp .reader (r.bind fun a t => .done () (writeResult (f a) t))) := by
  obtain ⟨b, n, heq⟩ := h.exists_eq
  cases r with
  | done a t =>
    obtain rfl : t = (s.setBr b).setFreeCount n := heq
    exact ⟨ho, rfl⟩
  | raised e t =>
    obtain rfl : t = (s.setBr b).setFreeCount n := heq
    exact ⟨ho, rfl⟩

theorem ReadLeaves.env {s t : State} (h : ReadLeaves s t) : t.env = s.env := by rw [h.eq]

/-- Settles O30: a read keeps everything but the reader and the count of free values, `RESULT` and the status are written
after it. -/
theorem brReadsFrame : Obligations.BrReadsFrame := by
  intro i s hi
  obtain ⟨t, hexec, hleaves⟩ : ∃ t, exec i s = .next t ∧ ReadLeaves s t := by
    rcases hi with rfl | rfl
    · exact ⟨_, exec_brRbit rfl, endOp_read_leaves zextBit (brRbit_readerFrame s) (brRbit_isOpen s)⟩
    · exact ⟨_, exec_brRbyte8 rfl, endOp_read_leaves zextByte (brRbyte8_readerFrame s) (brRbyte8_isOpen s)⟩
  refine ⟨t, hexec, hleaves.isOpen, fun a => ?_, srcByte_of_src (congrArg Env.src hleaves.env), hleaves.eq⟩
  unfold dstByte
  rw [hleaves.env]

/-! Past the last bit (60_exceptions.md R257). -/

theorem brRbit_exhausted {s : State} (ho : s.br.isOpen = true) (h : s.br.remaining = 0) :
    brRbit s = .raised ⟨.decodeFault, .brEos⟩ s := by
  unfold brRbit
  rw [if_pos ho, if_pos h]

theorem brRbyte8_exhausted {s : State} (ho : s.br.isOpen = true) (h : s.br.remaining.toNat < 8) :
    brRbyte8 s = .raised ⟨.decodeFault, .brEos⟩ s := by
  unfold brRbyte8
  rw [if_pos ho, if_pos h]

/-- Settles O29: the count is checked before the refill, so the fault finds the reader untouched. -/
theorem brReadsPastEndFault : Obligations.BrReadsPastEndFault :=
  fun _ ho => ⟨fun h => exec_brRbit (brRbit_exhausted ho h), fun h => exec_brRbyte8 (brRbyte8_exhausted ho h)⟩

/-! The reader that stands for a source. -/

theorem ReaderStandsFor.reading {s : State} {x : List Byte} (h : ReaderStandsFor s x) (hp : s.params.wf) : Reading s x :=
  ⟨hp, h.opened, h.source, h.length, h.form h.opened⟩

/-- `BR.remaining` never exceeds the source: the cursor `8 * SRC_LEN - remaining` is no truncated difference. -/
theorem ReaderStandsFor.remaining_le {s : State} {x : List Byte} (h : ReaderStandsFor s x) (hp : s.params.wf) :
    s.br.remaining.toNat ≤ 8 * x.length := by
  rw [← (h.reading hp).unread_length, h.cursor, List.length_drop, unpack_length]
  exact Nat.sub_le _ _

/-- The cursor of a reader that has read `k` more bits of its source is `k` further on (R150). -/
theorem ReaderStandsFor.advance {s t : State} {x : List Byte} {k : Nat} (h : ReaderStandsFor s x) (hp : s.params.wf)
    (hk : k ≤ s.br.remaining.toNat) (ht : Reading t x) (hu : unread t = (unread s).drop k) :
    ReaderStandsFor t x ∧ t.br.remaining.toNat + k = s.br.remaining.toNat := by
  have hle := h.remaining_le hp
  have hrem : t.br.remaining.toNat = s.br.remaining.toNat - k := by
    rw [← ht.unread_length, hu, List.length_drop, (h.reading hp).unread_length]
  refine ⟨⟨ht.opened, ht.source, h.short, ht.length, fun _ => ht.counts, ?_⟩, by omega⟩
  calc unread t = ((unpack x).drop (8 * x.length - s.br.remaining.toNat)).drop k := by rw [hu, h.cursor]
    _ = (unpack x).drop (8 * x.length - t.br.remaining.toNat) := by
      rw [List.drop_drop]
      congr 1
      omega

/-- What a command leaves when it has read `k` bits into `t` and reports the word `w` (R153, R154). -/
theorem ReaderStandsFor.read_reported {s t : State} {x : List Byte} {k : Nat} (h : ReaderStandsFor s x) (hp : s.params.wf)
    (hk : k ≤ s.br.remaining.toNat) (ht : Reading t x) (hu : unread t = (unread s).drop k) (heq : t = s.setBr t.br)
    (w : Word) :
    ReaderStandsFor (endOk (writeResult w t)) x ∧
      (endOk (writeResult w t)).br.remaining.toNat + k = s.br.remaining.toNat ∧
      endOk (writeResult w t) =
        { s with br := t.br, regs := { s.regs with result := w }, status := statusOk s } := by
  obtain ⟨hread, hunread⟩ := ht.congr (t := endOk (writeResult w t)) rfl rfl rfl rfl
  obtain ⟨hstands, hremaining⟩ := h.advance hp hk hread (hunread.trans hu)
  refine ⟨hstands, hremaining, ?_⟩
  conv_lhs => rw [heq]
  rfl

/-- Settles O27: the unread bits are the source from the cursor on, and the read takes the first of them. -/
theorem brRbitReturnsNextBit : Obligations.BrRbitReturnsNextBit := by
  intro s x hp h hr
  have hk : 1 ≤ s.br.remaining.toNat := Nat.one_le_iff_ne_zero.mpr fun h0 => hr (BitVec.eq_of_toNat_eq h0)
  obtain ⟨v, rest, hu⟩ := List.exists_cons_of_length_pos (hk.trans_eq (h.reading hp).unread_length.symm)
  obtain ⟨t, hrun, hrest, hread, heq⟩ := brRbit_reads (h.reading hp) hu
  have hdrop : unread t = (unread s).drop 1 := by rw [hrest, hu]; rfl
  obtain ⟨hstands, hremaining, hreport⟩ := h.read_reported hp hk hread hdrop heq (zextBit v)
  refine ⟨_, v, exec_brRbit hrun, ?_, rfl, hstands, hremaining, hreport⟩
  have hhead : (unread s)[0]? = some v := by rw [hu]; rfl
  rwa [h.cursor, List.getElem?_drop] at hhead

/-- Eight bits or more begin with the bits of a byte. -/
theorem exists_msb_append {u : Bits} (h : 8 ≤ u.length) : ∃ b : Byte, u = msb b 8 ++ u.drop 8 := by
  have hlength : (u.take 8).length = 8 := List.length_take_of_le h
  have hbyte := msb_ofNat_num 8 (u.take 8) (Nat.le_of_eq hlength)
  rw [hlength] at hbyte
  exact ⟨BitVec.ofNat 8 (num (u.take 8)), by rw [hbyte, List.take_append_drop]⟩

/-- The word a byte is reported as is the number its eight bits spell (30_encoding.md R91). -/
theorem zextByte_eq_num (b : Byte) : zextByte b = BitVec.ofNat 32 (num (msb b 8)) := by
  rw [num_msb, Nat.mod_eq_of_lt b.isLt, BitVec.ofNat_toNat]
  rfl

/-- Settles O28: the unread bits are the source from the cursor on, and the read takes the first eight of them. -/
theorem brRbyte8ReturnsNextByte : Obligations.BrRbyte8ReturnsNextByte := by
  intro s x hp h hk
  obtain ⟨b, hu⟩ := exists_msb_append (hk.trans_eq (h.reading hp).unread_length.symm)
  obtain ⟨t, hrun, hrest, hread, heq⟩ := brRbyte8_reads (h.reading hp) hu
  obtain ⟨hstands, hremaining, hreport⟩ := h.read_reported hp hk hread hrest heq (zextByte b)
  refine ⟨_, exec_brRbyte8 hrun, ?_, hstands, hremaining, hreport⟩
  have htake : (unread s).take 8 = msb b 8 := by rw [hu, List.take_left' (msb_length b 8)]
  rw [← h.cursor, htake]
  exact zextByte_eq_num b

end Sys2Proof.Machine
end

section
/-! `ENCODE` on a source it cannot encode (42_encoder.md R171 to R173), and `COMPRESS` when an open fails (R180). On a block whose
units are closed the clean-up of a composite command releases the source and nothing else. -/

namespace Sys2Proof.Machine

/-! The clean-up with both units closed (60_exceptions.md R262 (d)). -/

theorem cleanUp_composite_idle (e : Raise) {s : State} (h : s.idle) : cleanUp .composite e s = srcClose s := by
  have hsink : releaseSink e s = s := if_neg (Bool.eq_false_iff.mp h.1)
  have hclosed : s.setBr { s.br with isOpen := false } = s := by rw [← h.2]; rfl
  show releaseSource (releaseSink e s) = _
  rw [hsink]
  unfold releaseSource
  split
  case isTrue => rw [hclosed]
  case isFalse hne =>
    unfold srcClose
    rw [← Bool.eq_false_iff.mpr (not_or.mp hne).1]
    rfl

theorem takeError_composite_idle (e : Raise) {s : State} (h : s.idle) :
    takeError .composite e s = (srcClose s).setStatus (statusErr e.code e.cause s) := by
  rw [takeError_eq, cleanUp_composite_idle e h]
  rfl

/-- `ENCODE` when its body raises: the body opens neither unit, so the source is all there is to release (R171, R262). -/
theorem exec_encode_raised {s t : State} {e : Raise} (hi : s.idle) (h : encodeBody s = .raised e t) (ht : t.idle) :
    exec .encode s = .next ((srcClose t).setStatus (statusErr e.code e.cause t)) := by
  rw [exec_encode_idle hi, h, endOp_raised, takeError_composite_idle e ht]

/-! `ENCODE` on an absent source and on a source with fewer than two symbols (R171 to R173). -/

theorem encodeBody_absent {s : State} (hx : s.env.src = none) :
    encodeBody s = .raised ⟨.fileOpenErr, .srcOpenFail⟩
      ((s.setStatus { s.status with encValid := false }).setEnc (clearTable s.enc)) := by
  have hopen := srcOpen_absent (s := (s.setStatus { s.status with encValid := false }).setEnc (clearTable s.enc)) hx
  unfold encodeBody freqScan
  rw [State.setStatus_enc, hopen]
  rfl

/-- Settles O33: the scan clears the table and then finds no source. -/
theorem encodeSourceAbsent : Obligations.EncodeSourceAbsent := fun s hi hx =>
  ⟨_, exec_encode_raised hi (encodeBody_absent hx) hi, rfl, symAt_clearTable s.enc, rfl, rfl, rfl, rfl, rfl⟩

/-- Settles O34: `ENCODE` stops after the scan, which has counted the source and released it. -/
theorem encodeFewSymbols : Obligations.EncodeFewSymbols := by
  intro s x hp hi hx hl hd
  obtain ⟨f, v, hcounted, hnsym, hf, hbody⟩ := encodeBody_few hp.1 hx hl hd
  have het : f.et = s.enc.et := by rw [hf]
  have hhdr : f.hdr = s.enc.hdr := by rw [hf]
  exact ⟨_, exec_encode_raised hi hbody hi, rfl, fun b => ⟨hcounted.counts b, hcounted.code b, hcounted.len b⟩,
    hcounted.total, hnsym, het, hhdr, ofNat_length hl, rfl⟩

/-! The failed opens of `COMPRESS` (R180). -/

theorem srcClose_of_released {s : State} (h : s.env.srcHeld = false) : srcClose s = s := by
  unfold srcClose
  rw [← h]
  rfl

theorem compressBody_absent {s : State} (hx : s.env.src = none) :
    compressBody s = .raised ⟨.fileOpenErr, .srcOpenFail⟩ s := by
  unfold compressBody
  rw [srcOpen_absent hx]

/-- What `SrcOpen` leaves of a present source (20_memory.md R62). -/
abbrev srcOpened (s : State) (x : List Byte) : State :=
  (s.setRegs { s.regs with srcLen := BitVec.ofNat 32 x.length }).setEnv { s.env with srcHeld := true }

theorem compressBody_notCreatable {s : State} {x : List Byte} (ho : s.bw.isOpen = false) (hx : s.env.src = some x)
    (hc : s.env.dstCreatable = false) : compressBody s = .raised ⟨.dstErr, .dstOpenFail⟩ (srcOpened s x) := by
  have hopen : bwOpen (srcOpened s x) = .raised ⟨.dstErr, .dstOpenFail⟩ (srcOpened s x) := bwOpen_failing ho hc
  unfold compressBody
  rw [srcOpen_present hx]
  dsimp only
  rw [hopen, Result.bind_raised]

theorem srcClose_srcOpened {s : State} (x : List Byte) (h : s.env.srcHeld = false) :
    srcClose (srcOpened s x) = s.setRegs { s.regs with srcLen := BitVec.ofNat 32 x.length } := by
  unfold srcClose
  rw [← h]
  rfl

/-- Settles O38: the source is opened first; the clean-up releases it when the destination cannot be created. -/
theorem compressOpenFailures : Obligations.CompressOpenFailures := by
  intro s hi hh hv
  have hreleased : s.env.srcHeld = false := (hh.nothingHeld hi).source
  refine ⟨fun hx => ?_, fun x hx hc => ?_⟩ <;> rw [exec_compress_valid hi hv]
  · rw [compressBody_absent hx, endOp_raised, takeError_composite_idle _ hi, srcClose_of_released hreleased]
    rfl
  · have hidle : (srcOpened s x).idle := hi
    rw [compressBody_notCreatable hi.1 hx hc, endOp_raised, takeError_composite_idle _ hidle,
      srcClose_srcOpened x hreleased]
    rfl

end Sys2Proof.Machine
end

section
/-! The frame of `ENCODE` (42_encoder.md R170, R171): no part of it writes `ENC_PAD`, the decoder or `DST_LEN`. -/

namespace Sys2Proof.Machine

/-! The parts that work on the encoder side only. -/

theorem mergeLoop_frame (tie : Config.TieRule) (fuel : Nat) (e : Encoder) : BuildFrame e (mergeLoop tie fuel e) := by
  induction fuel generalizing e with
  | zero => exact .refl e
  | succ fuel ih =>
    unfold mergeLoop
    split
    · refine .trans ?_ (ih _)
      exact ⟨rfl, rfl, rfl, rfl, rfl, rfl⟩
    · exact .refl e

theorem foldl_seedLeaf_frame (tie : Config.TieRule) (l : List Byte) (e : Encoder) :
    BuildFrame e (l.foldl (seedLeaf tie) e) := by
  induction l generalizing e with
  | nil => exact .refl e
  | cons b l ih => exact (seedLeaf_frame e b).1.trans (ih _)

/-- `TREE.BUILD` writes the node store and the queue only (R174 to R176). -/
theorem treeBuild_frame (tie : Config.TieRule) (e : Encoder) : BuildFrame e (treeBuild tie e) := by
  have hseed : BuildFrame e (seedLeaves tie e) := by
    unfold seedLeaves
    refine .trans ?_ (foldl_seedLeaf_frame tie _ _)
    exact ⟨rfl, rfl, rfl, rfl, rfl, rfl⟩
  have hmerge := hseed.trans (mergeLoop_frame tie 256 _)
  rw [treeBuild_eq]
  generalize mergeLoop tie 256 (seedLeaves tie e) = f at hmerge ⊢
  obtain ⟨hsym, hhdr, hbits, hpad, hnsym, htotal⟩ := hmerge
  exact ⟨hsym, hhdr, hbits, hpad, hnsym, htotal⟩

theorem visit_encPad (fuel : Nat) (i : NodeId) (v : Word) (l : Nat) (e : Encoder) :
    (visit fuel i v l e).2.encPad = e.encPad := by
  induction fuel generalizing i v l e with
  | zero => rfl
  | succ fuel ih =>
    unfold visit
    dsimp only
    split
    · split <;> rfl
    · split
      · exact (ih ..).trans (ih ..)
      · exact ih ..

theorem foldl_countByte_encPad (x : List Byte) (e : Encoder) : (x.foldl countByte e).encPad = e.encPad := by
  rw [(foldl_countByte x e).2]

/-! The body. -/

/-- What no part of `ENCODE` writes, besides the units and the side of DST, which `encodeBody_keeps` names. -/
structure EncodeKeeps (s t : State) : Prop where
  encPad : t.enc.encPad = s.enc.encPad
  dec : t.dec = s.dec
  dstLen : t.regs.dstLen = s.regs.dstLen

theorem EncodeKeeps.refl (s : State) : EncodeKeeps s s := ⟨rfl, rfl, rfl⟩

theorem EncodeKeeps.trans {s t u : State} (h : EncodeKeeps s t) (g : EncodeKeeps t u) : EncodeKeeps s u :=
  ⟨g.encPad.trans h.encPad, g.dec.trans h.dec, g.dstLen.trans h.dstLen⟩

theorem Result.bind_encodeKeeps {α β : Type} {s : State} {r : Result α} {f : α → State → Result β}
    (hr : EncodeKeeps s r.state) (hf : ∀ a t, EncodeKeeps t (f a t).state) : EncodeKeeps s (r.bind f).state := by
  cases r with
  | done a t => exact hr.trans (hf a t)
  | raised e t => exact hr

theorem ReaderFrame.encodeKeeps {s t : State} (h : ReaderFrame s t) : EncodeKeeps s t :=
  ⟨congrArg Encoder.encPad h.enc, h.dec, congrArg Regs.dstLen h.regs⟩

theorem setEnc_encodeKeeps {s : State} {e : Encoder} (h : e.encPad = s.enc.encPad) : EncodeKeeps s (s.setEnc e) :=
  ⟨h, rfl, rfl⟩

theorem setStatus_encodeKeeps (s : State) (x : Status) : EncodeKeeps s (s.setStatus x) := ⟨rfl, rfl, rfl⟩

theorem srcOpen_encodeKeeps (s : State) : EncodeKeeps s (srcOpen s).2 := by
  unfold srcOpen
  cases s.env.src <;> exact ⟨rfl, rfl, rfl⟩

theorem scanLoop_encodeKeeps (fuel off len : Nat) (s : State) : EncodeKeeps s (scanLoop fuel off len s) := by
  induction fuel generalizing off s with
  | zero => exact .refl s
  | succ fuel ih =>
    unfold scanLoop
    dsimp only
    split
    · refine .trans ?_ (ih _ _)
      exact (srcRead_readerFrame _ _ s).encodeKeeps.trans ⟨foldl_countByte_encPad .., rfl, rfl⟩
    · exact .refl s

theorem freqScan_encodeKeeps (s : State) : EncodeKeeps s (freqScan s).state := by
  have hopen : EncodeKeeps s (srcOpen (s.setEnc (clearTable s.enc))).2 :=
    .trans (setEnc_encodeKeeps (e := clearTable s.enc) rfl) (srcOpen_encodeKeeps _)
  unfold freqScan
  split <;> rename_i hanswer <;> rw [hanswer] at hopen
  · exact hopen
  · obtain ⟨hpad, hdec, hlen⟩ := hopen.trans (scanLoop_encodeKeeps ..)
    exact ⟨hpad, hdec, hlen⟩

theorem codeDerive_encodeKeeps (s : State) : EncodeKeeps s (codeDerive s).state := by
  have hvisit := visit_encPad 256 s.enc.etRoot 0 0 { s.enc with hdr := [] }
  unfold codeDerive
  dsimp only
  split <;> exact ⟨hvisit, rfl, rfl⟩

theorem encodeBody_encodeKeeps (s : State) : EncodeKeeps s (encodeBody s).state := by
  refine Result.bind_encodeKeeps (.trans (setStatus_encodeKeeps ..) (freqScan_encodeKeeps _)) fun _ t => ?_
  dsimp only
  split
  · exact .refl t
  · have hbuild := setEnc_encodeKeeps (treeBuild_frame t.params.tie t.enc).encPad
    exact Result.bind_encodeKeeps (hbuild.trans (codeDerive_encodeKeeps _)) fun _ _ =>
      setStatus_encodeKeeps ..

/-! The command. -/

/-- On an idle block the end of a composite command writes the status and, of the rest, at most whether the source is held. -/
theorem endOp_composite_idle {r : Result Unit} (h : r.state.idle) :
    ∃ held x, endOp .composite r = (r.state.setEnv { r.state.env with srcHeld := held }).setStatus x := by
  cases r with
  | done a t => exact ⟨t.env.srcHeld, statusOk t, rfl⟩
  | raised e t => exact ⟨false, _, takeError_composite_idle e h⟩

/-- What `ENCODE` keeps in every state: `ENC_PAD`, the decoder, `DST_LEN`, both units and the side of DST. -/
theorem exec_encode_kept {s t : State} (h : exec .encode s = .next t) :
    EncodeKeeps s t ∧ t.bw = s.bw ∧ t.br = s.br ∧ t.env = { s.env with srcHeld := t.env.srcHeld } := by
  rcases exec_encode_cases h with ⟨hi, rfl⟩ | rfl
  · obtain ⟨hpad, hdec, hlen⟩ := encodeBody_encodeKeeps s
    obtain ⟨hbw, hbr, henv, -⟩ := encodeBody_keeps s
    have hidle : (encodeBody s).state.idle := by
      unfold State.idle
      rw [hbw, hbr]
      exact hi
    obtain ⟨held, x, hend⟩ := endOp_composite_idle hidle
    rw [hend]
    exact ⟨⟨hpad, hdec, hlen⟩, hbw, hbr, congrArg (fun env : Env => { env with srcHeld := held }) henv⟩
  · exact ⟨setStatus_encodeKeeps .., rfl, rfl, rfl⟩

theorem exec_encode_next (s : State) : ∃ t, exec .encode s = .next t := by
  obtain ⟨site, r, hexec, -⟩ := exec_ends .encode s (by decide)
  exact ⟨_, hexec⟩

/-- Settles O37: the body writes the encoder side but for `ENC_PAD`, and the clean-up of an idle block releases the source. -/
theorem encodeFrame : Obligations.EncodeFrame := by
  intro s
  obtain ⟨t, h⟩ := exec_encode_next s
  obtain ⟨⟨hpad, hdec, hlen⟩, hbw, hbr, henv⟩ := exec_encode_kept h
  have hframe := exec_commandFrame h
  have hdst : t.env.dst = s.env.dst := by rw [henv]
  have hverdicts : t.env.verdicts = s.env.verdicts := by rw [henv]
  have hheld : t.env.dstHeld = s.env.dstHeld := by rw [henv]
  refine ⟨t, h, hpad, fun a => congrArg (·[a]?) hdst, srcByte_of_src hframe.src, ?_⟩
  have heq := hframe.eq (exec_result (by decide) (by decide) (by decide) h)
  rw [hdec, hlen, hbw, hbr, hdst, hverdicts, hheld] at heq
  exact heq

end Sys2Proof.Machine
end

section
/-! `DECOMPRESS` when an open fails and on a header it rejects (43_decoder.md R211 to R214; 60_exceptions.md R252, R255, R256). -/

namespace Sys2Proof.Machine

/-! The failed opens (R211). -/

theorem decompressBody_absent {s : State} (ho : s.br.isOpen = false) (hx : s.env.src = none) :
    decompressBody s = .raised ⟨.sourceErr, .srcOpenFail⟩ s := by
  unfold decompressBody
  rw [brOpen_absent ho hx]

/-- `BR.OPEN` on a present source of any length (41_bitreader.md R151). -/
theorem brOpen_srcOpened {s : State} {x : List Byte} (ho : s.br.isOpen = false) (hx : s.env.src = some x) :
    ∃ r, r.isOpen = true ∧ brOpen s = .done () ((srcOpened s x).setBr r) := by
  unfold brOpen
  rw [ho, srcOpen_present hx]
  exact ⟨_, rfl, rfl⟩

theorem decompressBody_notCreatable {s : State} {x : List Byte} (hi : s.idle) (hx : s.env.src = some x)
    (hc : s.env.dstCreatable = false) :
    ∃ r, r.isOpen = true ∧ decompressBody s = .raised ⟨.dstErr, .dstOpenFail⟩ ((srcOpened s x).setBr r) := by
  obtain ⟨r, hr, hopen⟩ := brOpen_srcOpened hi.2 hx
  have hfail : bwOpen ((srcOpened s x).setBr r) = .raised ⟨.dstErr, .dstOpenFail⟩ ((srcOpened s x).setBr r) :=
    bwOpen_failing hi.1 hc
  refine ⟨r, hr, ?_⟩
  unfold decompressBody
  rw [hopen]
  dsimp only
  rw [hfail, Result.bind_raised]

/-- The clean-up with the reader open and the writer closed: the source is released, and that is all (60_exceptions.md R262
(d)). -/
theorem cleanUp_composite_readerOnly (e : Raise) {s : State} (hw : s.bw.isOpen = false) (hr : s.br.isOpen = true) :
    cleanUp .composite e s = srcClose (s.setBr { s.br with isOpen := false }) := by
  have hsink : releaseSink e s = s := if_neg (Bool.eq_false_iff.mp hw)
  show releaseSource (releaseSink e s) = _
  rw [hsink]
  exact if_pos (.inr hr)

/-- Settles O43: the source is opened first; the clean-up releases it when the destination cannot be created. -/
theorem decompressOpenFailures : Obligations.DecompressOpenFailures := by
  intro s hi hh
  have hreleased : s.env.srcHeld = false := (hh.nothingHeld hi).source
  rw [exec_decompress_idle hi]
  refine ⟨fun hx => ?_, fun x hx hc => ?_⟩
  · rw [decompressBody_absent hi.2 hx, endOp_raised, takeError_composite_idle _ hi, srcClose_of_released hreleased]
    rfl
  · obtain ⟨r, hr, hbody⟩ := decompressBody_notCreatable hi hx hc
    have henv : (srcClose (srcOpened s x)).env = s.env := by rw [srcClose_srcOpened x hreleased]; rfl
    have hclean := cleanUp_composite_readerOnly ⟨.dstErr, .dstOpenFail⟩ (s := (srcOpened s x).setBr r) hi.1 hr
    rw [hbody, endOp_raised, takeError_eq, hclean]
    exact ⟨_, rfl, rfl, henv, rfl, rfl, hi.1⟩

/-! The headers that are rejected (R211 to R214, R256). -/

/-- The cause a scanned header is rejected with, the nodes begun and the number of bits not read; none if parsing goes on behind
the padding length (R212 to R214). -/
def headerVerdict : HeaderEnd → Option (Cause × Nat × Nat)
  | .truncated nodes rest => some (.hdrTrunc, nodes, rest.length)
  | .tooLarge rest => some (.hdrTooLarge, 511, rest.length)
  | .whole nodes rest =>
    if nodes = 1 then some (.hdrRootLeaf, 1, rest.length)
    else if rest.length < 3 then some (.hdrTrunc, nodes, rest.length)
    else none

theorem headerVerdict_rootLeaf (rest : Bits) : headerVerdict (.whole 1 rest) = some (.hdrRootLeaf, 1, rest.length) :=
  rfl

theorem headerVerdict_noPadding {nodes : Nat} {rest : Bits} (hn : nodes ≠ 1) (hl : rest.length < 3) :
    headerVerdict (.whole nodes rest) = some (.hdrTrunc, nodes, rest.length) :=
  (if_neg hn).trans (if_pos hl)

theorem headerVerdict_accepts {nodes : Nat} {rest : Bits} (hn : nodes ≠ 1) (hl : 3 ≤ rest.length) :
    headerVerdict (.whole nodes rest) = none :=
  (if_neg hn).trans (if_neg (Nat.not_lt.mpr hl))

theorem StopsAs.headerVerdict {k : Cause} {u : State} {e : HeaderEnd} (h : StopsAs k u e) :
    headerVerdict e = some (k, u.dec.dtN.toNat, (unread u).length) := by
  rcases h with ⟨rfl, rfl⟩ | ⟨rfl, hn, rfl⟩
  · rfl
  · rw [hn]; rfl

/-- The clean-up when the writer holds nothing back: DST and the lengths stay (60_exceptions.md R262 (d)). -/
theorem cleanUp_nothingHeldBack (e : Raise) {s : State} (h : flushBytes s.bw = []) :
    (cleanUp .composite e s).env.dst = s.env.dst ∧ (cleanUp .composite e s).regs = s.regs := by
  have hflush : bwFlush s = (true, s.setBw { s.bw with buf := flushBytes s.bw }) := if_pos (congrArg List.length h)
  have hsink : (releaseSink e s).env.dst = s.env.dst ∧ (releaseSink e s).regs = s.regs := by
    unfold releaseSink
    rw [hflush]
    split
    · split <;> exact ⟨rfl, rfl⟩
    · exact ⟨rfl, rfl⟩
  obtain ⟨hdst, hregs, -⟩ := releaseSource_dst (releaseSink e s)
  exact ⟨hdst.trans hsink.1, hregs.trans hsink.2⟩

/-- An error raised while the header or the padding length is read: the writer is open and empty. -/
theorem takeError_headerRejected (k : Cause) {s u : State} {c : List Byte} (hstep : DecStep (decompressOpened s c) u)
    (hpad : u.dec.decPad = s.dec.decPad) :
    HeaderRejected s k u.dec.dtN.toNat u.br.remaining.toNat (takeError .composite ⟨.sourceErr, k⟩ u) := by
  have hbw : u.bw = (decompressOpened s c).bw := by rw [hstep]; rfl
  have hdst : u.env.dst = [] := by rw [hstep]; rfl
  have hcounted : u.regs.dstLen = 0 := by rw [hstep]; rfl
  have hopen : u.bw.isOpen = true := by rw [hbw]; rfl
  have hempty : flushBytes u.bw = [] := by rw [hbw]; rfl
  obtain ⟨hreleased, -, -, hdec, hleft⟩ := takeError_composite ⟨.sourceErr, k⟩ (.inl hopen)
  obtain ⟨hdstKept, hregs⟩ := cleanUp_nothingHeldBack ⟨.sourceErr, k⟩ hempty
  exact {
    status := takeError_status _ _ hstep.leaves.status
    dst := hdstKept.trans hdst
    counted := (congrArg Regs.dstLen hregs).trans hcounted
    nodes := by rw [hdec]
    left := by rw [hleft]
    decPad := by rw [hdec, hpad]
    released := hreleased }

/-- `DECOMPRESS` on a header that the scan rejects (R212 to R214). -/
theorem exec_decompress_headerRejected {s : State} {c : List Byte} (hp : s.params.wf) (hi : s.idle)
    (hx : s.env.src = some c) (hl : c.length ≤ Config.lenMax) (hc : s.env.dstCreatable = true) {k : Cause}
    {nodes left : Nat} (hv : headerVerdict (scanHeader 1 0 (unpack c)) = some (k, nodes, left)) :
    ∃ t, exec .decompress s = .next t ∧ HeaderRejected s k nodes left t := by
  rcases decompressBody_header hp hi hx hl hc with
    ⟨tree, pad, rest, -, ht, -, hscan⟩ | ⟨k', u, hbody, hleft, hstep, hpad, hstops⟩
  · have hbits : 3 ≤ (msb pad 3 ++ rest).length := by rw [List.length_append, msb_length]; omega
    rw [hscan, headerVerdict_accepts (CodeTree.internal_size ht) hbits] at hv
    cases hv
  · have hverdict : headerVerdict (scanHeader 1 0 (unpack c)) = some (k', u.dec.dtN.toNat, u.br.remaining.toNat) := by
      rw [hleft]
      rcases hstops with hstops | ⟨rfl, hn, hscan⟩ | ⟨rfl, hn, hscan, hshort⟩
      · exact hstops.headerVerdict
      · rw [hscan, headerVerdict_rootLeaf, hn]; rfl
      · rw [hscan]
        exact headerVerdict_noPadding (fun h => hn (BitVec.eq_of_toNat_eq h)) hshort
    cases hverdict.symm.trans hv
    exact ⟨_, by rw [exec_decompress_idle hi, hbody, endOp_raised], takeError_headerRejected k hstep hpad⟩

/-- A source of two bytes or more whose first bit is 1 is a header of one leaf (R213). -/
theorem scanHeader_firstBitSet {b0 b1 : Byte} (x : List Byte) (h : b0.getLsbD 7 = true) :
    ∃ rest, scanHeader 1 0 (unpack (b0 :: b1 :: x)) = .whole 1 rest ∧ rest.length = 8 * (b0 :: b1 :: x).length - 9 := by
  obtain ⟨b, rest, hu, hlen⟩ := unpack_leaf b0 b1 x h
  exact ⟨rest, by rw [hu, scanHeader_leaf 0 0 b rest (by decide), scanHeader_whole], hlen⟩

/-- Settles O44: the scan of the header says how parsing ends, and the writer is still empty then. -/
theorem decompressRejectsHeaders : Obligations.DecompressRejectsHeaders := by
  intro s c hp hi hx hl hc
  have hreject {e : HeaderEnd} {k : Cause} {nodes left : Nat} (hscan : scanHeader 1 0 (unpack c) = e)
      (hv : headerVerdict e = some (k, nodes, left)) : ∃ t, exec .decompress s = .next t ∧ HeaderRejected s k nodes left t :=
    exec_decompress_headerRejected hp hi hx hl hc (hscan ▸ hv)
  refine ⟨fun nodes rest hscan => hreject hscan rfl, fun rest hscan => hreject hscan rfl,
    fun rest hscan => hreject hscan (headerVerdict_rootLeaf rest),
    fun nodes rest hscan hn hshort => hreject hscan (headerVerdict_noPadding hn hshort), fun b0 b1 x hcons hbit => ?_⟩
  subst hcons
  obtain ⟨rest, hscan, hlen⟩ := scanHeader_firstBitSet x hbit
  exact hlen ▸ hreject hscan (headerVerdict_rootLeaf rest)

end Sys2Proof.Machine
end

section
/-! The system layer (44_system.md R230, R231, R233, R234; 60_exceptions.md R258): `NOP`, `CLEAR`, that every command ends, and
what a command does that is not allowed in the present state. -/

namespace Sys2Proof.Machine

/-! Every command ends (R233, R296). -/

theorem exec_next (i : Instr) (s : State) : ∃ t, exec i s = .next t := by
  by_cases hi : i = .clear
  · subst hi
    exact ⟨_, rfl⟩
  · obtain ⟨site, r, hexec, -⟩ := exec_ends i s hi
    exact ⟨_, hexec⟩

/-- Settles O49: every arm answers a next state, and the report, or the reset of `CLEAR`, clears `BUSY`. -/
theorem everyCommandEnds : Obligations.EveryCommandEnds := by
  intro i s
  obtain ⟨t, h⟩ := exec_next i s
  obtain ⟨hbusy, -, -⟩ := exec_statusForm h
  exact ⟨t, h, hbusy⟩

/-! `NOP` and `CLEAR` (R230, R231). -/

/-- Settles O14: `NOP` is nothing but the end of an operation that completed. -/
theorem nopClearsCodeAndCause : Obligations.NopClearsCodeAndCause :=
  ⟨by decide, fun s => congrArg Host.Outcome.next (endOk_eq s)⟩

/-- Reset releases both handles anyway, so `CLEAR` is hardware reset that keeps `ARG` and `SYM_SEL` (R231, R280). -/
theorem clearBlock_eq (s : State) :
    clearBlock s = (hardReset s).setRegs { arg := s.regs.arg, symSel := s.regs.symSel } := by
  unfold clearBlock
  dsimp only
  split <;> split <;> rfl

/-- The reset table with `ARG` and `SYM_SEL` left out says nothing that depends on them, nor does the report of `OK` disturb
it (10_state.md R37). -/
theorem endOk_clearBlock_blockAtReset (s : State) : BlockAtReset (endOk (clearBlock s)) := by
  obtain ⟨-, hstatus, -, hlengths, hcounts, htable, htrees, hqueue, hwriter, hreader, hhandles⟩ := hardReset_blockAtReset s
  rw [clearBlock_eq]
  exact ⟨rfl, hstatus, rfl, hlengths, hcounts, htable, htrees, hqueue, hwriter, hreader, hhandles⟩

/-- Settles O15: `CLEAR` is hardware reset that keeps `ARG` and `SYM_SEL`. -/
theorem clearRestoresReset : Obligations.ClearRestoresReset := by
  refine ⟨by decide, fun s => ⟨_, rfl, endOk_clearBlock_blockAtReset s, ?_⟩⟩
  rw [clearBlock_eq]
  exact ⟨rfl, rfl, rfl, rfl, rfl, rfl⟩

/-! The operations on a unit that is closed (R234). -/

theorem bwWbits_closed (value : Word) {n : Nat} {s : State} (hn : n ≤ Config.codeMax) (ho : s.bw.isOpen = false) :
    bwWbits value n s = .raised ⟨.usageFault, .seq⟩ s := by
  unfold bwWbits
  rw [if_neg (Nat.not_lt.mpr hn), ho]
  rfl

theorem bwClose_closed {s : State} (ho : s.bw.isOpen = false) : bwClose s = .raised ⟨.usageFault, .seq⟩ s := by
  unfold bwClose
  rw [ho]
  rfl

theorem brRbit_closed {s : State} (ho : s.br.isOpen = false) : brRbit s = .raised ⟨.usageFault, .seq⟩ s := by
  unfold brRbit
  rw [ho]
  rfl

theorem brRbyte8_closed {s : State} (ho : s.br.isOpen = false) : brRbyte8 s = .raised ⟨.usageFault, .seq⟩ s := by
  unfold brRbyte8
  rw [ho]
  rfl

theorem exec_bwClose {s : State} {r : Result Unit} (h : bwClose s = r) : exec .bwClose s = .next (endOp .writer r) := by
  rw [← h]
  rfl

/-! The composite commands before their precondition (R234). -/

theorem exec_encode_refused {s : State} (h : ¬ s.idle) :
    exec .encode s = .next (takeError .decode ⟨.usageFault, .seq⟩ s) :=
  if_neg h

theorem exec_compress_refused {s : State} (h : ¬ (s.idle ∧ s.status.encValid = true)) :
    exec .compress s = .next (takeError .decode ⟨.usageFault, .seq⟩ s) :=
  if_neg h

theorem exec_decompress_refused {s : State} (h : ¬ s.idle) :
    exec .decompress s = .next (takeError .decode ⟨.usageFault, .seq⟩ s) :=
  if_neg h

theorem allowed_encode_iff {s : State} : allowed .encode s = true ↔ s.idle := by
  simp [allowed]

theorem allowed_compress_iff {s : State} : allowed .compress s = true ↔ s.idle ∧ s.status.encValid = true := by
  simp [allowed]

theorem allowed_decompress_iff {s : State} : allowed .decompress s = true ↔ s.idle := by
  simp [allowed]

/-- Outside a composite command `USAGE_FAULT(SEQ)` has no clean-up: the status is all that changes (60_exceptions.md R262). -/
theorem takeError_seq {site : Site} (h : site ≠ .composite) (s : State) :
    takeError site ⟨.usageFault, .seq⟩ s = { s with status := statusErr .usageFault .seq s } := by
  cases site with
  | composite => exact absurd rfl h
  | decode | writer | reader => rfl

/-- A command that is not allowed takes `USAGE_FAULT(SEQ)` on the state it found, at the decode stage if it is composite, else
in its own unit. -/
theorem exec_notAllowed {i : Instr} {s : State} (hw : i.wf = true) (h : allowed i s = false) :
    ∃ site, site ≠ .composite ∧ exec i s = .next (takeError site ⟨.usageFault, .seq⟩ s) := by
  have hnot : ¬ allowed i s = true := Bool.eq_false_iff.mp h
  cases i with
  | nop | clear => cases h
  | encode => exact ⟨.decode, by decide, exec_encode_refused (mt allowed_encode_iff.mpr hnot)⟩
  | compress => exact ⟨.decode, by decide, exec_compress_refused (mt allowed_compress_iff.mpr hnot)⟩
  | decompress => exact ⟨.decode, by decide, exec_decompress_refused (mt allowed_decompress_iff.mpr hnot)⟩
  | bwOpen => exact ⟨.writer, by decide, exec_bwOpen (bwOpen_alreadyOpen (Bool.not_eq_eq_eq_not.mp h))⟩
  | bwWbits n => exact ⟨.writer, by decide, exec_bwWbits (bwWbits_closed _ (of_decide_eq_true hw) h)⟩
  | bwWbyte => exact ⟨.writer, by decide, exec_bwWbyte (bwWbyte_closed _ h)⟩
  | bwClose => exact ⟨.writer, by decide, exec_bwClose (bwClose_closed h)⟩
  | brOpen => exact ⟨.reader, by decide, exec_brOpen (brOpen_alreadyOpen (Bool.not_eq_eq_eq_not.mp h))⟩
  | brRbit => exact ⟨.reader, by decide, exec_brRbit (brRbit_closed h)⟩
  | brRbyte8 => exact ⟨.reader, by decide, exec_brRbyte8 (brRbyte8_closed h)⟩
  | brClose => exact ⟨.reader, by decide, exec_brClose (brClose_closed h)⟩

/-- Settles O32: each row of the table is the check the command makes first, and its fault has no clean-up. -/
theorem commandsOutOfOrderRefused : Obligations.CommandsOutOfOrderRefused := by
  intro i s hw h
  obtain ⟨site, hsite, hexec⟩ := exec_notAllowed hw h
  rw [hexec, takeError_seq hsite]

end Sys2Proof.Machine
end

section
/-! `STICKY` (60_exceptions.md R265): the report of an error sets it, no command but `CLEAR` clears it, and the host clears it
with `CLEAR` and reset only. -/

namespace Sys2Proof.Machine

/-! A command. -/

theorem endOp_keeps_sticky (site : Site) {r : Result Unit} (h : r.state.status.sticky = true) :
    (endOp site r).status.sticky = true := by
  cases r with
  | done a t => exact h
  | raised e t => rfl

theorem exec_keeps_sticky {i : Instr} {s t : State} (hi : i ≠ .clear) (h : exec i s = .next t)
    (hs : s.status.sticky = true) : t.status.sticky = true := by
  obtain ⟨site, r, hexec, hframe, -⟩ := exec_ends i s hi
  cases hexec.symm.trans h
  exact endOp_keeps_sticky site (hframe.sticky.trans hs)

theorem exec_clear_sticky {s t : State} (h : exec .clear s = .next t) : t.status.sticky = false := by
  cases h
  obtain ⟨-, -, -, hsticky⟩ := (endOk_clearBlock_blockAtReset s).status
  exact hsticky

/-- `CLEAR` has one word (30_encoding.md R90, R92), so every other word runs another command or takes its usage fault. -/
theorem issueCommand_keeps_sticky {w : Word} {s t : State} (hw : w ≠ encode .clear) (hs : s.status.sticky = true)
    (h : issueCommand w s = .next t) : t.status.sticky = true := by
  rcases issueCommand_cases h with ⟨i, hdecode, hexec⟩ | ⟨e, rfl, -, -⟩
  · have hi : i ≠ .clear := by
      rintro rfl
      obtain ⟨-, hencode⟩ := encodeOfDecode w .clear hdecode
      exact hw hencode.symm
    exact exec_keeps_sticky hi hexec hs
  · rfl

/-! An action of the host. -/

theorem commandWrite_of_windowOffset {p : Config.Params} {addr bytes : Nat} (w : Word)
    (h : windowOffset p addr bytes = .ok 0) : HostAction.write addr bytes w = commandWrite p w := by
  unfold windowOffset at h
  split at h
  case isTrue => cases h
  case isFalse hinside =>
    split at h
    case isTrue hword =>
      have hoffset : addr - p.regBase = 0 := Except.ok.inj h
      have haddr : addr = p.regBase := by omega
      rw [haddr, hword.1]
      rfl
    case isFalse => cases h

/-- Resets apart, the status changes through a command word written only (10_state.md R21, R24; 70_reset_and_hazards.md R298). -/
theorem actOn_issues_or_keeps_status {a : HostAction} {s t : State} (hreset : a ≠ .reset)
    (hstrike : ∀ w, a ≠ .issueThenReset w) (h : actOn a s = .next t) :
    (∃ w, a = commandWrite s.params w ∧ issueCommand w s = .next t) ∨ t.status = s.status := by
  cases a with
  | reset => exact absurd rfl hreset
  | issueThenReset w => exact absurd rfl (hstrike w)
  | write addr bytes value =>
    simp only [actOn] at h
    split at h
    case h_1 => cases h
    case h_2 offset hoffset =>
      split at h
      case h_1 hcmd =>
        rw [offset_of_regAt.1 hcmd] at hoffset
        exact .inl ⟨value, commandWrite_of_windowOffset value hoffset, h⟩
      case h_2 =>
        cases h
        exact .inr (writeReg_status s value _)
  | read addr bytes =>
    simp only [actOn] at h
    split at h <;> cases h
    exact .inr rfl
  | setSrc src =>
    simp only [actOn] at h
    split at h <;> cases h
    exact .inr rfl
  | setDst content => cases h; exact .inr rfl
  | setVerdicts creatable verdicts => cases h; exact .inr rfl

theorem actOn_keeps_sticky {a : HostAction} {s t : State} (hreset : a ≠ .reset) (hstrike : ∀ w, a ≠ .issueThenReset w)
    (hclear : a ≠ commandWrite s.params (encode .clear)) (hs : s.status.sticky = true) (h : actOn a s = .next t) :
    t.status.sticky = true := by
  rcases actOn_issues_or_keeps_status hreset hstrike h with ⟨w, rfl, hissue⟩ | hstatus
  · exact issueCommand_keeps_sticky (fun hw => hclear (by rw [hw])) hs hissue
  · rw [hstatus]
    exact hs

/-! The step. -/

/-- An action that is carried out is carried out on the state with that action used up. -/
theorem actOn_of_step {s t : State} {a : HostAction} {rest : List HostAction} (hh : s.host = a :: rest)
    (h : step s = .next t) : actOn a (s.setHost rest) = .next t := by
  rcases step_cases h with ⟨hempty, -⟩ | ⟨a', rest', hh', hact, -⟩
  · cases hempty.symm.trans hh
  · cases hh'.symm.trans hh
    exact hact

theorem step_commandWrite {s t : State} {w : Word} {rest : List HostAction} (hh : s.host = commandWrite s.params w :: rest)
    (h : step s = .next t) : issueCommand w (s.setHost rest) = .next t :=
  (actOn_command (s.setHost rest) w).symm.trans (actOn_of_step hh h)

/-- Settles O50: the status form has an error set `STICKY`, the frame of every command but `CLEAR` and of every action of the host
but reset keeps it, and both of those put it at its reset value. -/
theorem stickyRule : Obligations.StickyRule := by
  refine ⟨fun i s t h => ⟨?_, fun hi => exec_keeps_sticky hi h, ?_⟩, ?_, ?_, ?_⟩
  · obtain ⟨-, -, herror⟩ := exec_statusForm h
    exact herror
  · rintro rfl
    exact exec_clear_sticky h
  · intro s t a rest hh hreset hstrike hclear hs h
    exact actOn_keeps_sticky (s := s.setHost rest) hreset hstrike hclear hs (actOn_of_step hh h)
  · intro s t w rest _ hh h
    obtain ⟨-, -, herror⟩ := issueCommand_statusForm (step_commandWrite hh h)
    exact herror
  · intro s t rest hh h
    cases (step_reset hh).symm.trans h
    rfl

end Sys2Proof.Machine
end

section
/-! Hardware reset that strikes an operation (70_reset_and_hazards.md R280): until the destination is created anew an operation
only adds to DST, so the beginning of DST that the reset leaves is one of what the operation would have left. -/

namespace Sys2Proof.Machine

/-! Operations that did not open the destination (40_bitwriter.md R131; 42_encoder.md R180; 43_decoder.md R211). -/

theorem openedDst_eq_true {i : Instr} {t : State} (hopens : i = .bwOpen ∨ i = .compress ∨ i = .decompress)
    (hcause : ¬ OpenCause t.status.cause) : openedDst (.command i) t = true := by
  obtain ⟨hseq, hsrc, hdst⟩ : t.status.cause ≠ .seq ∧ t.status.cause ≠ .srcOpenFail ∧ t.status.cause ≠ .dstOpenFail := by
    simpa [OpenCause] using hcause
  rcases hopens with rfl | rfl | rfl <;> simp [openedDst]

theorem bwOpen_openCause {s t : State} {e : Raise} (h : bwOpen s = .raised e t) : t.env.dst = s.env.dst := by
  rcases bwOpen_cases s with ⟨u, hdone, -⟩ | ⟨e', hraised⟩
  · cases hdone.symm.trans h
  · cases hraised.symm.trans h
    rfl

/-- The cause reported tells whether the body raised an opening cause, and then only the clean-up can have written DST. -/
theorem endOp_openCause_grows (site : Site) {s : State} {r : Result Unit}
    (hbody : ∀ {e t}, r = .raised e t → OpenCause e.cause → t.env.dst = s.env.dst)
    (hcause : OpenCause (endOp site r).status.cause) : s.env.dst <+: (endOp site r).env.dst := by
  cases r with
  | done a t => simp [endOp, endOk, OpenCause] at hcause
  | raised e t =>
    have hdst : t.env.dst = s.env.dst := hbody rfl hcause
    exact hdst ▸ cleanUp_grows site e t

theorem exec_openCause_grows {i : Instr} {s t : State} (hopens : i = .bwOpen ∨ i = .compress ∨ i = .decompress)
    (hcause : OpenCause t.status.cause) (h : exec i s = .next t) : s.env.dst <+: t.env.dst := by
  rcases hopens with rfl | rfl | rfl
  · cases h
    exact endOp_openCause_grows .writer (fun hbody _ => bwOpen_openCause hbody) hcause
  · rcases exec_compress_cases h with ⟨-, rfl⟩ | rfl
    · exact endOp_openCause_grows .composite compressBody_openCause hcause
    · exact List.prefix_rfl
  · rcases exec_decompress_cases h with ⟨-, rfl⟩ | rfl
    · exact endOp_openCause_grows .composite decompressBody_openCause hcause
    · exact List.prefix_rfl

theorem exec_unopened_grows {i : Instr} {s t : State} (hopened : openedDst (.command i) t = false)
    (h : exec i s = .next t) : s.env.dst <+: t.env.dst := by
  by_cases hopens : i = .bwOpen ∨ i = .compress ∨ i = .decompress
  · have hcause : OpenCause t.status.cause := by
      by_contra hlate
      cases hopened.symm.trans (openedDst_eq_true hopens hlate)
    exact exec_openCause_grows hopens hcause h
  · obtain ⟨hopen, hcompress, hdecompress⟩ : i ≠ .bwOpen ∧ i ≠ .compress ∧ i ≠ .decompress := by simpa using hopens
    exact exec_dst_grows hopen hcompress hdecompress h

theorem issueCommand_unopened_grows {w : Word} {s t : State} (h : issueCommand w s = .next t)
    (hopened : openedDst (decode w) t = false) : s.env.dst <+: t.env.dst := by
  rcases issueCommand_cases h with ⟨i, hdecode, hexec⟩ | ⟨e, rfl, -, -⟩
  · rw [hdecode] at hopened
    have hgrows := exec_unopened_grows hopened hexec
    exact hgrows
  · exact List.prefix_rfl

/-! The reset. -/

theorem issueCommand_next (w : Word) (s : State) : ∃ u, issueCommand w s = .next u := by
  cases hdecode : decode w with
  | command i => exact issueCommand_command s hdecode ▸ exec_next i _
  | illegalCmd => exact ⟨_, issueCommand_illegalCmd s hdecode⟩
  | illegalOperand => exact ⟨_, issueCommand_illegalOperand s hdecode⟩

theorem issueStruck_next {w : Word} {s u : State} (h : issueCommand w s = .next u) :
    issueStruck w s = .next (strikeReset (openedDst (decode w) u) s u) := by
  unfold issueStruck
  rw [h]

/-- A beginning of what was appended to `d`, behind `d`, is a beginning of the whole. -/
theorem append_take_drop_prefix {α : Type} {d x : List α} (h : d <+: x) (n : Nat) :
    d ++ (x.drop d.length).take n <+: x := by
  obtain ⟨p, rfl⟩ := h
  rw [List.drop_left]
  exact (List.prefix_append_right_inj d).mpr (List.take_prefix n p)

/-- DST after the strike: untouched when the reset came before the opening, else a beginning of what the operation left. -/
theorem dstAfterStrike_cases {opened : Bool} {s t : State} (hgrows : opened = false → s.env.dst <+: t.env.dst) :
    dstAfterStrike opened s t = s.env.dst ∨ dstAfterStrike opened s t <+: t.env.dst := by
  unfold dstAfterStrike
  cases opened with
  | false => exact .inr (append_take_drop_prefix (hgrows rfl) _)
  | true =>
    rw [if_pos rfl]
    split
    · exact .inl rfl
    · exact .inr (List.take_prefix _ _)

/-- Settles O13: the operation ends in a next state, the strike is hardware reset on what it leaves of DST, and an operation
that did not create the destination anew only added to it. -/
theorem resetDuringOperation : Obligations.ResetDuringOperation := by
  intro s rest w hb hh
  obtain ⟨u, hissue⟩ := issueCommand_next w (s.setHost rest)
  have hstep : step s = .next (strikeReset (openedDst (decode w) u) (s.setHost rest) u) :=
    (step_acts hb hh).trans (issueStruck_next hissue)
  exact ⟨_, u, hstep, hissue, hardReset_blockAtReset _, rfl, rfl, rfl,
    dstAfterStrike_cases (issueCommand_unopened_grows hissue)⟩

end Sys2Proof.Machine
end
